-- ==== Sys2Proof/Word.lean ====
section
/-! DEFINITION. The words of the module (R8): bytes, 32- and 64-bit words, a word that may be poison (R106), and the
sparse map that holds numbered things. -/
namespace Sys2Proof

abbrev Byte := BitVec 8
abbrev W32 := BitVec 32
abbrev W64 := BitVec 64

/-- A value that may be poison (R106): `none` is poison. -/
abbrev PVal (α : Type) := Option α

/-- Numbered things, sorted by number, each number once; what is not listed has its default (see Machine/Maps.lean). -/
abbrev SMap (α : Type) := List (Nat × α)

end Sys2Proof
end

