-- ==== Sys2Proof/Syntax.lean ====
section
/-! DEFINITION. The commands of the module (spec/opcode_table.json): one constructor per row, with what the row's event
brings from outside. The rules of each row are cited at its meaning in Machine/. -/
namespace Sys2Proof

/-- The two moments of a tile engine instruction before its retire (R73, R75, R76): it is issued into its engine's
queue, and its engine carries it out. `INSTR_RETIRE` is the third. -/
inductive Phase where
  | issue
  | start
  deriving DecidableEq, Repr

/-- Who writes a register (R486, R443). -/
inductive Writer where
  | host
  | steward
  | core
  deriving DecidableEq, Repr

/-- Destinations of the event router (R491). -/
inductive Dest where
  | host
  | steward
  | mgmt
  deriving DecidableEq, Repr

/-- MARK token (Table 2.1). -/
structure MarkToken where
  lastSlot : BitVec 6
  lastValid : Bool
  stepIndex : W32
  release : W64
  deriving DecidableEq, Repr

/-- A burst requested at a stack port (R277): requester, bytes, and whether it starts on a 2 KiB boundary. -/
structure BurstReq where
  n : Nat
  bytes : Nat
  aligned : Bool
  deriving DecidableEq, Repr

/-- What a training attempt found (Table 13.2): lanes with FEC lock, the far end's slot and role, the round trip. -/
structure TrainResult where
  lanes : BitVec 4
  farSlot : BitVec 6
  roleOk : Bool
  rtt : BitVec 16
  deriving DecidableEq, Repr

/-- Routing header and the bytes after it (Table 13.5). -/
structure Packet where
  dst : BitVec 14
  hops : BitVec 2
  src : BitVec 14
  vc : BitVec 3
  gen : BitVec 8
  tag : BitVec 16
  flow : BitVec 20
  op : BitVec 8
  body : List Byte
  deriving DecidableEq, Repr

/-- Flit (Table 13.3); `nak` marks a negative acknowledgement carried in the header's ACK field (R293): the table gives the mark no
bit (log 93). -/
structure Flit where
  vc : BitVec 3
  sop : Bool
  eop : Bool
  idle : Bool
  seq : BitVec 12
  ack : BitVec 12
  nak : Bool
  crvc : BitVec 3
  crcnt : BitVec 9
  payload : List Byte
  crc : BitVec 32
  deriving DecidableEq, Repr

/-- A flit as it comes in: FEC codewords corrected (`cw`) and uncorrectable (`unc`) on its way, and the flit (R293). -/
structure RxFlit where
  cw : Nat
  unc : Nat
  flit : Flit
  deriving DecidableEq, Repr

/-- A receive buffer: that of virtual channel `vc` at port `port` (R294). -/
structure RxBuffer where
  port : Nat
  vc : Nat
  deriving DecidableEq, Repr

/-- A ring frame as it comes in: the time `at_` of its arrival, as CAL_CW and CAL_CCW take it (R46), and its bytes (R304). -/
structure RxFrame where
  at_ : Nat
  bytes : List Byte
  deriving DecidableEq, Repr

/-- What a management command carries beside its arguments (Table 19.5), and whether its key's endorsement and its
ML-DSA-65 signature verify (log 8). -/
structure Auth where
  src : BitVec 14
  keySel : Nat
  counter : W64
  bootId : W64
  keyOk : Bool
  sigOk : Bool
  deriving DecidableEq, Repr

/-- Ring collective token (Table 15.3). -/
structure RcToken where
  op : BitVec 4
  status : BitVec 4
  count : Nat
  expect : Nat
  tag : BitVec 16
  gen : BitVec 8
  cseq : BitVec 8
  mask : W64
  data : List Byte
  deriving DecidableEq, Repr

/-- One adoption of RECOVER's adopter list (R379): a coding-map entry of a lost member, by the first of the data segments it
has in that member's coded space and how many they are, and the target on the adopting module, as a coding-map entry (Table 16.2). -/
structure Adoption where
  member : BitVec 14
  seg0 : Nat
  nseg : Nat
  adopter : BitVec 14
  rank : Nat
  part : Nat
  fent : Nat
  slf : Nat
  sln : Nat
  retoff : Nat
  deriving DecidableEq, Repr

/-- Arguments of RECOVER (R378). -/
structure RecoverArgs where
  tag : BitVec 16
  gen : BitVec 8
  epoch : W32
  lost : List (BitVec 14)
  adopt : List Adoption
  cseq0 : BitVec 16
  deriving DecidableEq, Repr

/-- A module's complete epoch images (R385): for each, the epoch, its step and the ranks it covers; with the number of modules
and of ranks that the restore's rank map names. -/
structure EpochList where
  src : BitVec 14
  members : Nat
  ranks : Nat
  images : List (W32 × W32 × List Nat)
  deriving DecidableEq, Repr

/-- What the boot ROM reads (R428): the bytes of the slots that the module has not written, by 2 (n - 1) + s for slot `s` of block `n`,
and the slots, `lost`, that no longer read as they were written; and whether the
SFDP table was valid, the PUF gave an identity whose fingerprint matches, the fingerprint, the fresh boot ID, and the
history entries that both copies failed for (R394, R435; log 8 and 9). -/
structure OptionLoad where
  slots : List (Nat × List Byte)
  sfdpOk : Bool
  idOk : Bool
  idfp : List Byte
  bootId : W64
  histLost : List Nat
  lost : List Nat
  deriving DecidableEq, Repr

/-- An update blob (R430): target ID, payload, its signer, and whether its signature verifies (log 8). -/
structure Blob where
  target : Nat
  payload : List Byte
  vendor : Bool
  sigOk : Bool
  deriving DecidableEq, Repr

/-- What verification of the staged image found beyond what its bytes say (R433). -/
structure ImgVerdict where
  keyOk : Bool
  sigOk : Bool
  deriving DecidableEq, Repr

/-- What a host read returned (R463): bytes, and whether the completion was UR, CA, poisoned or timed out. -/
structure HostRead where
  data : List Byte
  failed : Bool
  poisoned : Bool
  deriving DecidableEq, Repr

/-- A host AtomicOp (R461): operand size in bytes, kind, operand and compare value. -/
structure HostAtomic where
  size : Nat
  kind : Nat
  operand : BitVec 128
  compare : BitVec 128
  deriving DecidableEq, Repr

/-- One 10 µs sample (R481): 20 die temperatures in 0.125 °C units, 56 rail voltages in mV, inlet power in W averaged
over 100 µs, and input voltage in mV. -/
structure Sample where
  temps : List Int
  volts : List Nat
  watts : Nat
  vin : Nat
  deriving DecidableEq, Repr

/-- The commands: one per row of the opcode table. -/
inductive Instr where
  | time (v : W64)
  | timeSlew
  | calCw (t : Nat)
  | calCcw (t : Nat)
  | calLoop (d : W64)
  | admitToken (slot : BitVec 6) (on : Bool)
  | mark (m : MarkToken)
  | stepRelease
  | arrive
  | overtime
  | arcLate (u : Nat)
  | arcCommit (u : Nat) (w : W32)
  | arcLoadDone (u : Nat)
  | arcNop (u e : Nat)
  | arcToken (u e : Nat)
  | arcCopy (u e : Nat)
  | arcCode (u e : Nat)
  | arcCollective (u e : Nat)
  | arcDigestMark (u e : Nat)
  | arcAudit (u e : Nat)
  | arcAssemble (u e : Nat)
  | arcSolve (u e : Nat)
  | arcSignalModule (u e : Nat)
  | arcSignalPart (u e : Nat)
  | arcDrain (u e : Nat)
  | arcComplete (u e : Nat)
  | tileImgload (t : Nat)
  | tileImgloadDone (t : Nat)
  | tileRun (t : Nat)
  | tileStop (t : Nat)
  | tileTokclr (t : Nat)
  | instrRetire (t q i : Nat)
  | wlGo (p k : Nat)
  | wlDispatch (p : Nat)
  | sliceSwapDone (p : Nat)
  | nop (t : Nat)
  | endI (t : Nat)
  | waittok (t : Nat)
  | qwait (t : Nat)
  | jmp (t : Nat)
  | loop (t : Nat)
  | brz (t : Nat)
  | brnz (t : Nat)
  | bset (t : Nat)
  | baddi (t : Nat)
  | bmuli (t : Nat)
  | balu (t : Nat)
  | bld (t : Nat)
  | bst (t : Nat)
  | bgetc (t : Nat)
  | mmad (t : Nat) (ph : Phase)
  | mmas (t : Nat) (ph : Phase)
  | mmax (t : Nat) (ph : Phase)
  | castm (t : Nat) (ph : Phase)
  | castf (t : Nat) (ph : Phase)
  | dmark (t : Nat) (ph : Phase)
  | dru (t : Nat) (ph : Phase)
  | pivot (t : Nat) (ph : Phase)
  | solve (t : Nat) (ph : Phase)
  | solveb (t : Nat) (ph : Phase)
  | cpy (t : Nat) (ph : Phase)
  | rget (t : Nat) (ph : Phase)
  | rput (t : Nat) (ph : Phase)
  | ratom (t : Nat) (ph : Phase)
  | rinv (t : Nat) (ph : Phase)
  | cwait (t : Nat) (ph : Phase)
  | cscat (t : Nat) (ph : Phase)
  | vadd (t : Nat) (ph : Phase)
  | vsub (t : Nat) (ph : Phase)
  | vmul (t : Nat) (ph : Phase)
  | vfma (t : Nat) (ph : Phase)
  | vfnma (t : Nat) (ph : Phase)
  | vmin (t : Nat) (ph : Phase)
  | vmax (t : Nat) (ph : Phase)
  | vclamp (t : Nat) (ph : Phase)
  | vabs (t : Nat) (ph : Phase)
  | vneg (t : Nat) (ph : Phase)
  | vand (t : Nat) (ph : Phase)
  | vor (t : Nat) (ph : Phase)
  | vxor (t : Nat) (ph : Phase)
  | vshl (t : Nat) (ph : Phase)
  | vshrl (t : Nat) (ph : Phase)
  | vshra (t : Nat) (ph : Phase)
  | vcvt (t : Nat) (ph : Phase)
  | vcmp (t : Nat) (ph : Phase)
  | vsel (t : Nat) (ph : Phase)
  | vld (t : Nat) (ph : Phase)
  | vst (t : Nat) (ph : Phase)
  | vsplat (t : Nat) (ph : Phase)
  | vrsum (t : Nat) (ph : Phase)
  | vrmax (t : Nat) (ph : Phase)
  | vrmin (t : Nat) (ph : Phase)
  | vdot (t : Nat) (ph : Phase)
  | vcompress (t : Nat) (ph : Phase)
  | vexpand (t : Nat) (ph : Phase)
  | vsetc (t : Nat) (ph : Phase)
  | vecRegclr (t : Nat)
  | arrDigclr (t : Nat)
  | asmProgramStart (p : Nat)
  | asmPassStart (p : Nat)
  | asmRecord (p : Nat)
  | asmProgramDone (p : Nat)
  | asmLate (p : Nat)
  | solveRequestStart (p : Nat)
  | factorWorkListDone (p : Nat)
  | solveCommitPoint (p : Nat)
  | solveGuardLate (p : Nat)
  | fplCommit (p : Nat) (w : W32)
  | fplLoadDone (p : Nat)
  | repVarclr
  | ntScrubPass (p : Nat) (ce ue : List Nat)
  | rowSpareDone (p row : Nat)
  | ftTempSample (p : Nat) (temp : BitVec 12)
  | arbWindow (p : Nat)
  | arbDecision (p : Nat) (reqs : List BurstReq)
  | arbBackoffEnd (p n : Nat)
  | ftPortWdog (p : Nat)
  | portEnable (i : Nat) (w : W32)
  | portTrainDone (i : Nat) (r : TrainResult)
  | laneFail (i lane : Nat)
  | flitRx (i : Nat) (r : RxFlit)
  | flitTx (i : Nat)
  | packetRx (b : RxBuffer)
  | portTake (a : Auth) (i : Nat)
  | ringFrameRx (cw : Bool) (f : RxFrame)
  | ringFrameTx (cw : Bool)
  | ringInsert (w : W32)
  | routeLoad (a : Auth) (k first : Nat) (es : List W32)
  | routeBind (a : Auth) (k : Nat) (tag : BitVec 16) (gen : BitVec 8) (spread : Bool)
  | routeUnbind (a : Auth) (k : Nat)
  | flwCreate (f : Nat)
  | flwDestroy (f : Nat)
  | flwRead (f : Nat)
  | flwSetarr (f : Nat)
  | flwWindow (f : Nat)
  | flwUnwindow (f : Nat)
  | flwAperture (f : Nat)
  | flwInvall (f : Nat)
  | apertureAccess (addr len : Nat) (wr : Option (List Byte))
  | loadReq
  | loadRsp
  | store
  | put
  | atomReq
  | atomRsp
  | nak
  | lineApply (i : Nat)
  | atomResend (rid : Nat)
  | flowTimeout (rid : Nat)
  | cwaitTimeout (t i : Nat)
  | admitJob (a : Auth) (tag : BitVec 16) (gen : BitVec 8) (step : Bool)
  | teardown (a : Auth) (tag : BitVec 16) (gen : BitVec 8)
  | tagQuarantineEnd (tag : BitVec 16)
  | collContrib
  | collResult
  | collBlock
  | collBarrier
  | collFold (k c : Nat)
  | collTimeout (k : Nat)
  | rcCollect (tok : RcToken)
  | rcResult (tok : RcToken)
  | rcResend (k : Nat)
  | rcHoldExpire (k : Nat)
  | csLoad (w : W32)
  | codeDelta
  | codeAck
  | codeEnd
  | codeReady
  | rebReq
  | rebRsp
  | rebuildDone
  | holdLate (kind : Nat)
  | freeze (a : Auth) (tag : BitVec 16) (gen : BitVec 8)
  | regen (a : Auth) (tag : BitVec 16) (gen gen2 : BitVec 8)
  | recover (a : Auth) (r : RecoverArgs)
  | drainDone
  | vltRestore (w : W32)
  | restoreEpochList (l : EpochList)
  | restoreChoice (epoch : W32)
  | errorRecord
  | stewardTakeover
  | auditSuiteDone (t : Nat) (pass : Bool)
  | pgctlFence (page : Nat)
  | pgctlSrst (page : Nat)
  | srstComplete (page : Nat)
  | pgctlErrack (page : Nat)
  | pwrOkRise
  | pwrOkFall
  | sysRstN
  | perst
  | rstCtlWarm (w : W32) (by_ : Writer)
  | rstCtlPartrst (w : W32) (by_ : Writer)
  | warmReset (a : Auth)
  | partReset (a : Auth) (p : Nat)
  | resetPhase (untrained : List Nat)
  | optionLoadDone (o : OptionLoad)
  | partResetRelease (p : Nat) (untrained : List Nat)
  | rstHbeat (w : W32) (by_ : Writer)
  | watchdogBite
  | stewardRestart
  | configUpdate (a : Auth) (b : Blob)
  | bootGo (w : W32)
  | imgVerifyDone (v : ImgVerdict)
  | attQuote (w : W32)
  | attExtend (w : W32)
  | attest (a : Auth) (nonce : List Byte)
  | mgmtHello (src : BitVec 14)
  | setMgmt (a : Auth) (es : List W32)
  | setId (a : Auth) (id : BitVec 14)
  | svcRun (c : Nat)
  | svcPost (c : Nat) (addr : W64)
  | postIssue (c : Nat)
  | psvAdd (c : Nat) (w : W32)
  | psvSub (c : Nat) (w : W32)
  | psvMul (c : Nat) (w : W32)
  | psvMac (c : Nat) (w : W32)
  | psvMin (c : Nat) (w : W32)
  | psvMax (c : Nat) (w : W32)
  | psvRsum (c : Nat) (w : W32)
  | psvLds (c : Nat) (w : W32) (x1 x2 : W64)
  | psvSts (c : Nat) (w : W32) (x1 x2 : W64)
  | psvIdleOff (c : Nat)
  | psvWake (c : Nat)
  | hringTail (r : Nat) (w : W32)
  | hringEnable (r : Nat) (w : W32)
  | ringNop (r : Nat)
  | htom (r : Nat) (host : HostRead)
  | mtoh (r : Nat)
  | notify (r : Nat)
  | ringEntryDone (r : Nat)
  | bar2Access (y len : Nat) (wr : Option (List Byte))
  | hostAtomicop (y : Nat) (op : HostAtomic)
  | msixUnmask (v : Nat)
  | hostLinkDown
  | hostLinkUp (speed width : Nat) (flit : Bool)
  | vaultCmdDone (status : BitVec 16)
  | vaultCmdTimeout
  | vaultLinkDown
  | vaultLinkUp (fit : Bool)
  | partitionSleep (p : Nat)
  | partitionWake (p : Nat) (untrained : List Nat)
  | standbyEnter
  | standbyExit
  | sensorSample (m : Sample)
  | governorUpdate
  | droop (p : Nat)
  | droopRelease (p : Nat)
  | refClkLoss
  | inputUndervolt
  | evenWrite (page : Nat) (v : W32)
  | eventDelivery (d : Dest)
  | errrecRead (page : Nat)
  | regWrite (off : Nat) (data : W64) (size : Nat) (by_ : Writer)
  | refClkRelock
  | sysRstNRelease
  | moduleWithdrawal
  | historyWriteDone (ok : Bool)
  deriving DecidableEq, Repr

end Sys2Proof
end

