-- ==== Sys2Proof/Machine/State.lean ====
section
/-! DEFINITION. What the module holds (INVENTORY.md, State), as plain data, and what it holds after a cold reset. -/
namespace Sys2Proof.Machine

/-- Bytes by address, canonical (addresses rising, no zero byte), and the poison marks: 1 poison that was written (R106), 2 a
word or line with an uncorrectable error, 3 one with an error that the next read corrects (R269, R273). An address not listed
reads 0 and is not poisoned (log 5). -/
structure Store where
  cells : List Host.Cell
  poison : SMap (BitVec 2)
  deriving DecidableEq, Repr

/-- Pins (R415, R500, R504). -/
structure Pins where
  pwrOk : Bool
  sysRst : Bool
  seated : Bool
  underVolt : Bool
  refClk : Bool
  replaceReq : Bool
  bypassOpen : Bool
  lasers : W32
  slot : BitVec 6
  deriving DecidableEq, Repr

/-- A held MARK (R51). -/
structure Held where
  mark : MarkToken
  arrival : Nat
  early : Bool
  lateNow : Bool
  deriving DecidableEq, Repr

/-- Timebase (R43 to R53) and the barrier window (R404); `firstRel`: the first release since the module was admitted to a job
is still to come (Table 2.2); `prevAng`: the step angle in the nanosecond before this one (R61). -/
structure Timebase where
  time : W64
  start : W64
  stepIdx : W32
  ringDelay : BitVec 24
  period : Nat
  relNs : Nat
  reflock : Bool
  caldone : Bool
  timevalid : Bool
  instep : Bool
  arrivedNs : Nat
  prevAng : Nat
  overtime : Bool
  slewCnt : Nat
  diff : Int
  calCw : Option Nat
  calCcw : Option Nat
  held : Option Held
  firstRel : Bool
  admitted : Bool
  lastSlot : BitVec 6
  lastValid : Bool
  lastSelf : Bool
  barSeen : Nat
  barLast : Nat
  deriving DecidableEq, Repr

/-- State of an arc in a step (R59, R60). -/
inductive ArcSt where
  | idle
  | armed
  | fired
  | done
  deriving DecidableEq, Repr

/-- Arc entry (Table 2.3) with its state, the step angle in the nanosecond before the one in which it was done, and whether
its lateness has been counted in this step (R61). -/
structure ArcEnt where
  w0 : W64
  w1 : W64
  w2 : W64
  w3 : W64
  st : ArcSt
  doneAng : Nat
  late : Bool
  deriving DecidableEq, Repr

/-- Arc unit (R55 to R67). `firedAt` and `incAt` are one more than the nanosecond of the latest firing and of the latest token
increment; `incs` are the increments of that nanosecond, and `incsArc` those among them that a completed arc made (R59, R64). -/
structure ArcUnit where
  active : List ArcEnt
  shadow : List ArcEnt
  ready : Bool
  loading : Option (Nat × Nat)
  commitNs : Nat
  lateSeen : Bool
  toks : SMap W32
  firedAt : Nat
  incAt : Nat
  incs : SMap W32
  incsArc : SMap W32
  deriving DecidableEq, Repr

/-- Copy descriptor being run by a COPY-arc engine (R324): the arc, whether it has begun, requests outstanding, whether one
failed, and the packets held back while 64 are in flight. -/
structure CopyJob where
  entry : Nat
  addr : W64
  started : Bool
  need : Nat
  failed : Bool
  finished : Bool
  held : List Packet
  deriving DecidableEq, Repr

/-- Sequencer states (Table 3.1). -/
inductive Seq where
  | off
  | idle
  | run
  | wait
  | stopped
  deriving DecidableEq, Repr

/-- An error completion of an instruction (R77): class, address and block-defined code of its record, and whether
poison was written. -/
structure ErrNote where
  cls : Nat
  addr : Nat
  code : Nat
  poisoned : Bool
  deriving DecidableEq, Repr

/-- Progress of an instruction in its engine queue. -/
inductive EntSt where
  | queued
  | running
  | finished
  deriving DecidableEq, Repr

/-- Instruction in an engine queue (R75): its words, the values its address-register fields name (captured at issue,
R172), and what it will do at retire; `feed` is what it adds to the running digest: the bytes, and whether an element was
poison (R139). -/
structure QEntry where
  id : Nat
  word : W64
  ext1 : W64
  ext2 : W64
  ops : List (PVal W64)
  pc : Nat
  posted : Bool
  inItem : Bool
  st : EntSt
  flags : W32
  err : Option ErrNote
  var : Nat
  feed : Option (List Byte × Bool)
  need : Nat
  since : Nat
  deriving DecidableEq, Repr

/-- The mode, M and N with which an accumulator set is resident (R128): mode 0 FP64, 1 FP32,
2 MX8, 3 MXFP4. -/
structure AccRes where
  mode : Nat
  m : Nat
  n : Nat
  deriving DecidableEq, Repr

/-- Physical tile (R70 to R80, R128, R139, R148, R172). `lastPosted`: the class issued last into an engine queue was a
posting's (R74); `dispAt`, `rejAt` and `loadAt` are one more than the nanosecond of the latest dispatch, rejected word and
image load (R96, R190). `digWas` is the running digest before the latest dispatch cleared it, with its count and DIGPOIS, and
`fed` the nanosecond plus one of the latest output fed to it, the CRC of that output alone, and its poison (R145). -/
structure Tile where
  seq : Seq
  fetchStop : Bool
  pc : Nat
  lastPc : Nat
  item : Option (Nat × Nat)
  itemErr : Bool
  ended : Option W64
  ars : List (PVal W64)
  q0 : List QEntry
  q1 : List QEntry
  q2 : List QEntry
  q3 : List QEntry
  nextId : Nat
  lastPosted : Bool
  dispAt : Nat
  rejAt : Nat
  loadAt : Nat
  loading : Option (Nat × Nat)
  acc0 : Option AccRes
  acc1 : Option AccRes
  digPois : Bool
  digWas : Nat × W32 × Bool
  fed : Nat × Nat × Bool
  acc : Store
  vr : Store
  msk : SMap W64
  mskPois : SMap W64
  vcnt : SMap (BitVec 12)
  vcntPois : SMap Bool
  deriving DecidableEq, Repr

/-- Unit states (R26, R396). -/
inductive UState where
  | off
  | active
  | spare
  | audit
  | fenced
  deriving DecidableEq, Repr

/-- Entry of the unit state table: state, and for a tile the logical tile it carries (R26). -/
structure UEntry where
  st : UState
  lt : Option Nat
  deriving DecidableEq, Repr

/-- Fault history entry (Table 17.3): 0 CLEAN, 1 TRANSIENT, 2 PERMANENT. -/
structure Hist where
  st : Nat
  total : Nat
  last : Nat
  times : List Nat
  deriving DecidableEq, Repr

/-- Work-list slot (R90 to R93): `errIdx` is the lowest item of this list that ended with an error, and `own` says that the list is
the solver sequencer's (R244). -/
structure WlSlot where
  active : Bool
  count : Nat
  items : Nat
  waitIdx : Nat
  waitCount : Nat
  doneIdx : Nat
  doneEn : Bool
  next : Nat
  back : List Nat
  running : List Nat
  done : Nat
  errIdx : Option Nat
  own : Bool
  deriving DecidableEq, Repr

/-- Slice swap (R87): the two physical slices, the withheld logical tile and its new tile, the segment pairs swapped so far, and
when the swap began to run. -/
structure Swap where
  a : Nat
  b : Nat
  k : Nat
  c : Nat
  segs : Nat
  since : Nat
  deriving DecidableEq, Repr

/-- An ASSEMBLE posting: its arc and program address. -/
structure AsmReq where
  entry : Nat
  addr : Nat
  late : Bool
  deriving DecidableEq, Repr

/-- Running assembly program (R193 to R202). -/
structure AsmRun where
  entry : Nat
  addr : Nat
  pass : Nat
  started : Bool
  recNo : Nat
  lastSrc : Option Nat
  late : Bool
  deriving DecidableEq, Repr

/-- Assembly Stage of a partition. -/
structure Asm where
  queue : List AsmReq
  run : Option AsmRun
  deriving DecidableEq, Repr

/-- Who asked for a solve (R218): an arc of the table, or a tile's queue entry. -/
inductive Asker where
  | arc (e : Nat)
  | tile (t id : Nat)
  deriving DecidableEq, Repr

/-- Solve request (R218, R219); `late`: it ran past its guard while it waited (R230). -/
structure SolveReq where
  addr : Nat
  asker : Asker
  bounded : Bool
  guard_ : Nat
  late : Bool
  deriving DecidableEq, Repr

/-- Phase of a running request: factor work lists, refinement, triangular solve, iterations. -/
inductive SolvePhase where
  | factor
  | refine
  | tri
  | iterate
  deriving DecidableEq, Repr

/-- Pivot counts of a factorisation (R210); `pois`: a tested pivot was poison, on which they depend (R106). -/
structure PivStat where
  rep : Nat
  zero : Nat
  nf : Nat
  first : Option Nat
  neg : Bool
  scaleDef : Bool
  pois : Bool
  deriving DecidableEq, Repr

/-- Running solve (R220 to R232): `slot` is the work-list slot that its running factor list holds (R244); the vectors and
scalars of the method at its latest commit point. -/
structure SolveRun where
  req : SolveReq
  consumed : Bool
  phase : SolvePhase
  col : Nat
  list : Nat
  slot : Option Nat
  on : Bool
  thr : Nat
  rep : Nat
  piv : PivStat
  refineLeft : Nat
  iter : Nat
  vecs : List (List (PVal Nat))
  scals : List (PVal Nat)
  jac : List (List (PVal Nat) × List Nat)
  bnorm : PVal Nat
  flags : BitVec 8
  late : Bool
  sig : W64
  deriving DecidableEq, Repr

/-- Solver sequencer of a partition: matrix-ready entries (destination headers), requests, the running one, and the
factors that earlier solves left (R222). -/
structure Solver where
  ready : List Nat
  queue : List SolveReq
  run : Option SolveRun
  factors : List (Nat × Nat)
  deriving DecidableEq, Repr

/-- Field table entry (Table 10.1). -/
structure FplEnt where
  kind : Nat
  fmt : Nat
  ty : Nat
  first : Nat
  nsl : Nat
  off : Nat
  len : Nat
  nval : Nat
  deriving DecidableEq, Repr

/-- Field plane of a partition (R237, R238). -/
structure Fpl where
  active : Option (List FplEnt)
  ready : Option (List FplEnt)
  loading : Option (Nat × Nat)
  commitNs : Nat
  deriving DecidableEq, Repr

/-- Stack port arbiter and channel map (R276 to R282). `back n` holds the nanosecond at which back-off ends; `dead` names the
channels that did not train at the latest training (R412), and `cmap` the live channels that a compact map is made of (R276). -/
structure FarPort where
  credit : SMap Nat
  boexp : SMap Nat
  back : SMap Nat
  run : SMap Nat
  holder : Option (Nat × Nat)
  live : W32
  degraded : Bool
  refmode : Nat
  temp : BitVec 12
  wdNext : Option (Nat × Nat)
  dead : W32
  cmap : W32
  deriving DecidableEq, Repr

/-- Partition power states (Table 22.6). -/
inductive Sleep where
  | awake
  | asleep
  deriving DecidableEq, Repr

/-- Audit move of an AUDIT arc (R401): its entry, logical tile and spare, and whether the copy to the spare has begun. -/
structure Audit where
  entry : Nat
  k : Nat
  c : Nat
  moving : Bool
  deriving DecidableEq, Repr

/-- Partition (R14): its tiles' and slices' maps, whether a fence cut off a program of it that was no work item (R89), its
work-list unit and, one more than the nanosecond, when that dispatched last (R92), stage, sequencer, field plane, tiers and
power: the state that each unit had as Sleep began, the clock fraction and the governor's value for it (R477, R479), and when a
droop began. -/
structure Part where
  n : Nat
  grade : Nat
  tmap : List Nat
  smap : List Nat
  images : SMap (Nat × Nat)
  swap : List Swap
  cut : Bool
  wl : List WlSlot
  wlAt : Nat
  asm : Asm
  slv : Solver
  fpl : Fpl
  far : FarPort
  spares0 : Nat
  spares1 : Nat
  sparing : List Nat
  spared : List Nat
  rowErrs : SMap Nat
  audit : List Audit
  sleep : Sleep
  atSleep : List (Nat × UState)
  clkF : Nat
  gov : Nat
  stretch : Option Nat
  inReset : Bool
  rstAt : Nat
  deriving DecidableEq, Repr

/-- Port states (Table 13.2). -/
inductive PortSt where
  | down
  | training
  | up
  | degraded
  | failed
  deriving DecidableEq, Repr

/-- Whose packets or requests these are: a tile's copy-queue entry, a COPY arc's engine, a COLLECTIVE arc, a service core's
access, or another unit; `gone`: an owner that a fence, a reset or FREEZE has taken away. -/
inductive Owner where
  | tile (t id : Nat)
  | arc (u e : Nat)
  | coll (e : Nat)
  | core (c : Nat)
  | unit
  | gone
  deriving DecidableEq, Repr

/-- Packet being sent: its bytes not yet put into flits, whether its first flit has gone, its job, whether it is forwarded, and whose
it is. -/
structure TxPkt where
  rest : List Byte
  begun : Bool
  tag : BitVec 16
  gen : BitVec 8
  fwd : Bool
  owner : Owner
  deriving DecidableEq, Repr

/-- STORE or atomic waiting for its line (R330): the packet, its address, and its place in the order of arrival. -/
structure LineOp where
  pkt : Packet
  addr : W64
  ord : Nat
  deriving DecidableEq, Repr

/-- Fabric port (R287 to R295, R330); `paid`: its latest flit carried payload (R477). -/
structure Port where
  st : PortSt
  lanes : BitVec 4
  attempts : Nat
  peerSlot : BitVec 6
  rtt : BitVec 16
  taken : Bool
  standIn : Nat
  tx : SMap (List TxPkt)
  credit : SMap Nat
  deficit : SMap Int
  cur : Nat
  lastSet : SMap Nat
  sinceVc0 : Nat
  nextSeq : BitVec 12
  replay : List Flit
  resend : List Flit
  fails : Nat
  expSeq : BitVec 12
  nakDue : Option (BitVec 12)
  discarding : Bool
  owed : SMap Nat
  rx : SMap (List Byte)
  pkts : SMap (List Packet)
  pri : Bool
  paid : Bool
  lineq : List LineOp
  deriving DecidableEq, Repr

/-- Route set (R297). -/
structure RouteSet where
  tag : BitVec 16
  gen : BitVec 8
  valid : Bool
  spread : Bool
  pods : SMap W32
  deriving DecidableEq, Repr

/-- Flow context (Table 14.1). -/
structure Ctx where
  tag : BitVec 16
  gen : BitVec 8
  valid : Bool
  send : Bool
  atom : Bool
  dst : BitVec 14
  tmo : Nat
  waitms : Nat
  tctx : BitVec 20
  aseq : BitVec 16
  outn : Nat
  arrived : BitVec 48
  peer : BitVec 14
  pflow : BitVec 20
  rslot : BitVec 15
  high : BitVec 16
  applied : W32
  deriving DecidableEq, Repr

/-- Window (Table 14.3). -/
structure Win where
  tag : BitVec 16
  gen : BitVec 8
  rights : BitVec 4
  valid : Bool
  base : W64
  size : Nat
  deriving DecidableEq, Repr

/-- Aperture entry (R312). -/
structure Apt where
  flow : BitVec 20
  win : BitVec 12
  offhi : BitVec 4
  valid : Bool
  deriving DecidableEq, Repr

/-- Job table states (R315). -/
inductive JobSt where
  | free
  | live
  | retired
  deriving DecidableEq, Repr

/-- Job table entry (R315); `cseq` is the next unposted CSEQ (R342). -/
structure Job where
  st : JobSt
  gen : BitVec 8
  lastGen : Option (BitVec 8)
  retiredAt : Nat
  cseq : BitVec 16
  deriving DecidableEq, Repr

/-- Outstanding load or atomic (R320, R327): its serial number `rid`, the request, whether it has been sent and when, resends,
and where its answer goes (`space` true: a module address, false: a store offset of the owner's tile). -/
structure Outst where
  rid : Nat
  ctx : Nat
  pkt : Packet
  owner : Owner
  space : Bool
  dst : Nat
  len : Nat
  atom : Bool
  cache : Bool
  sent : Bool
  sentAt : Nat
  resends : Nat
  deriving DecidableEq, Repr

/-- Line of a remote-line cache (R325). -/
structure RLine where
  die : Nat
  tag : BitVec 16
  gen : BitVec 8
  dst : BitVec 14
  win : Nat
  off : Nat
  data : List Byte
  deriving DecidableEq, Repr

/-- Line of the service cores' data caches, one to another coherent (R445): its address in lines, its bytes, and whether a core has
written it. -/
structure CLine where
  line : Nat
  data : List (PVal Byte)
  dirty : Bool
  deriving DecidableEq, Repr

/-- Rank-map entry and local-list entry (R338, R339). -/
structure RankEnt where
  modid : BitVec 14
  flow : BitVec 20
  deriving DecidableEq, Repr

structure LocalEnt where
  rank : Nat
  src : W64
  dst : W64
  deriving DecidableEq, Repr

/-- A received or own node of a chunk (R344): chunk, first leaf, size exponent, and its bytes received so far; a
proxy's node holds them (R351), an owner's are in RXBUF. -/
structure NodeRx where
  chunk : Nat
  first : Nat
  k : Nat
  got : Nat
  data : List Byte
  deriving DecidableEq, Repr

/-- Ring collective at a member (R356): this member's combined value, whether it leads, the latest ATTEMPT sent and
when, tokens held and when they came, and whether a token has returned or a result was taken. -/
structure RingColl where
  value : List Byte
  leader : Bool
  attempt : Nat
  sentAt : Nat
  returned : Bool
  deriving DecidableEq, Repr

/-- A running collective (R339 to R357). -/
structure Coll where
  entry : Nat
  tag : BitVec 16
  gen : BitVec 8
  kind : Nat
  op : Nat
  hier : Bool
  cseq : BitVec 16
  n : Nat
  root : Nat
  map : List RankEnt
  locals_ : List LocalEnt
  rxbuf : W64
  nodes : List NodeRx
  folded : List Nat
  results : List (Nat × Nat)
  blocks : List (Nat × Nat × Nat)
  barrier : List (BitVec 14)
  ring : Option RingColl
  unsent : Nat
  postedAt : Nat
  deriving DecidableEq, Repr

/-- A ring token held by a member that has not posted (R356). -/
structure HeldTok where
  tok : RcToken
  hops : Nat
  at_ : Nat
  deriving DecidableEq, Repr

/-- A ring collective that this member posted and that has ended here: its value still goes into a token that passes (R356 step 2). -/
structure RcPast where
  tag : BitVec 16
  gen : BitVec 8
  cseq : BitVec 8
  op : Nat
  e : Nat
  value : List Byte
  deriving DecidableEq, Repr

/-- Group member (Table 16.1). -/
structure Member where
  modid : BitVec 14
  flow : BitVec 20
  deriving DecidableEq, Repr

/-- Coding-map entry (Table 16.2). -/
structure MapEnt where
  rank : Nat
  part : Nat
  fent : Nat
  slf : Nat
  sln : Nat
  retoff : Nat
  deriving DecidableEq, Repr

/-- Group descriptor (Table 16.1), with the map read at LOAD and the descriptor digest (R362). -/
structure Group where
  tag : BitVec 16
  gen : BitVec 8
  n : Nat
  m : Nat
  self : Nat
  k : Nat
  ebase : W32
  dmax : Nat
  parity : Nat
  members : List Member
  map : List MapEnt
  digest : W64
  deriving DecidableEq, Repr

/-- Coded-state manager states (Table 16.5). -/
inductive CsSt where
  | off
  | coding
  | halted
  | rebuild
  | reform
  deriving DecidableEq, Repr

/-- A CODE in progress (R370): partition, arc, whether it waits for the epoch before it to commit (R372), and the
acknowledgements still owed, each a stripe and parity index, or `endMark` and a member for that member's CODE_END. -/
structure CodeRun where
  part : Nat
  entry : Nat
  waits : Bool
  owed : List (Nat × Nat)
  deriving DecidableEq, Repr

/-- Lost segment to rebuild (R379): its stripe and data position, the adopting module, and at that module the target slice,
the offsets its `len` bytes go to, and the symbols received: index, bytes, and whether whole. -/
structure RebSeg where
  stripe : Nat
  pos : Nat
  lost : List Nat
  adopter : BitVec 14
  part : Nat
  slice : Nat
  offs : List Nat
  len : Nat
  got : List (Nat × List Byte × Bool)
  done : Bool
  deriving DecidableEq, Repr

/-- Coded state of the member (R361 to R382). `sel` true: buffer 1 holds a parity slot's committed value; `built` the slots of
the building version; `deltas` and `ends` the deltas received whole from each member, and those its CODE_END counts;
`opened` the segments that a member's deltas are part-way through; `next` the stripe that an access makes the next to rebuild (R379);
`commitNs` is one more than the nanosecond of the latest commit (R386). -/
structure Coded where
  st : CsSt
  group : Option Group
  epoch : Option W32
  hcomplete : Option W32
  building : Option W32
  sel : SMap Bool
  built : List Nat
  written : SMap Bool
  nz : SMap Bool
  codes : List CodeRun
  codedParts : List Nat
  sent : List (Nat × Nat)
  deltas : List (Nat × Nat)
  opened : List (Nat × Nat × Nat)
  ends : List (Nat × Nat)
  readies : List Nat
  sentReady : Bool
  reformLoaded : Bool
  rebuild : List RebSeg
  recovered : Nat
  next : Option Nat
  held : Option Nat
  holdSaid : Bool
  firstEpoch : Bool
  lastCoded : Option W32
  commitNs : Nat
  deriving DecidableEq, Repr

/-- Vault image (R383): complete or not, its header's fields, and its regions with their map entries and CRCs. -/
structure Image where
  valid : Bool
  epoch : W32
  step : W32
  tag : BitVec 16
  gen : BitVec 8
  digest : W64
  regs : List (MapEnt × List Byte × W64)
  deriving DecidableEq, Repr

/-- A drain in progress (R384, R468): its slot, the image being written, its write commands to come, each as the ranges
(partition, logical slice, offset, bytes) it takes, whether Flush has completed, and when the latest command was issued. -/
structure Drain where
  slot : Nat
  frozen : Bool
  image : Image
  cmds : List (List (Nat × Nat × Nat × Nat))
  flushed : Bool
  cmdAt : Nat
  deriving DecidableEq, Repr

/-- Vault (R383 to R385, R467): the drive's images by namespace and first block, the drain, the restore and when it began, and the
leader's lists. -/
structure Vault where
  images : List ((Nat × Nat) × Image)
  drain : Option Drain
  restoring : Bool
  restAt : Nat
  lists : List EpochList
  linkup : Bool
  ready : Bool
  deriving DecidableEq, Repr

/-- A delivery in an event-router queue (R489, R492): page, event bit (none: a record alone), vector, EVRAW after the
raise, pod time, the record written with it, its number in the order of raising, and whether the steward has a delivery of
the same event of its own. -/
structure Delivery where
  page : Nat
  bit : Option Nat
  vec : Nat
  evraw : W32
  time : W64
  rec_ : Option (List Byte)
  ord : Nat
  both : Bool
  deriving DecidableEq, Repr

/-- Event router (R491, R492). -/
structure Router where
  host : List Delivery
  stew : List Delivery
  mgmt : List Delivery
  inbox : List (List Byte)
  nextEv : Nat
  deriving DecidableEq, Repr

/-- What the boot ROM keeps (R429 to R437): the option blocks in use, the staged and the running image, and measurements. -/
structure Boot where
  blocks : List (Nat × List Byte)
  staging : Store
  verifying : Option Nat
  image : Option (List Byte)
  signer : Bool
  svn : BitVec 16
  minsvn : BitVec 16
  serial : W64
  idOk : Bool
  idfp : List Byte
  mrs : List (List Byte)
  defaulted : W32
  stewardUp : Bool
  deriving DecidableEq, Repr

/-- Option store (R394, R426 to R430): the bytes of the slots, by 2 (n - 1) + s for slot `s` of block `n`, whether an update awaits a
reload, SFDP validity, the history entries as written, and the units whose entries are still to be written. -/
structure OptStore where
  slots : List (Nat × List Byte)
  pend : Bool
  sfdpOk : Bool
  hist : SMap Hist
  histDue : List Nat
  deriving DecidableEq, Repr

/-- Reset sequence and watchdog (R412 to R421); `mtimeFrom`: the nanosecond at which phase 3 was released, from which mtime counts
(R442). -/
structure RstSeq where
  running : Bool
  phase : Nat
  cold : Bool
  at_ : Nat
  cycle0 : Nat
  warmReq : Bool
  noSteward : Bool
  armed : Bool
  lastBeat : Nat
  lastBite : Option Nat
  stopped : Bool
  biteAt : Nat
  active1 : Bool
  takeover : Bool
  loaded : Bool
  mtimeFrom : Nat
  deriving DecidableEq, Repr

/-- Privilege modes of a service core (R442). -/
inductive Priv where
  | m
  | s
  | u
  deriving DecidableEq, Repr

/-- Service core (R442 to R453); `pc` and `mode` are those with which it was started. `ap` is its load through the remote-window
aperture: the address, and the data once they have come (R312). -/
structure Core_ where
  running : Bool
  pc : W64
  mode : Priv
  f : List W64
  frm : BitVec 3
  fflags : BitVec 5
  fsOff : Bool
  fsDirty : Bool
  psvidx : BitVec 4
  trap : Option Nat
  psvOn : Bool
  psvIdleAt : Nat
  waking : Bool
  posts : List W64
  heldPost : Option W64
  ap : Option (Nat × Option (List (PVal Byte)))
  deriving DecidableEq, Repr

/-- Ring entry as fetched (R462), with its progress. -/
structure RingEnt where
  op : Nat
  fence : Bool
  cid : W32
  haddr : W64
  maddr : W64
  len : Nat
  value : W64
  started : Bool
  status : Option Nat
  deriving DecidableEq, Repr

/-- What the doorbells of nanosecond `at_` did to a ring: the entries they fetched, and the head and tail before them (R470). -/
structure Bell where
  at_ : Nat
  n : Nat
  head : Nat
  tail : Nat
  deriving DecidableEq, Repr

/-- Host ring (R462 to R464): fetched entries, PHASE, and the next completion record. -/
structure HRing where
  mem : Store
  tail : Nat
  cfg : W32
  cq : W64
  err : Bool
  head : Nat
  ents : List RingEnt
  phase : Bool
  rec_ : Nat
  stopped : Bool
  bell : Option Bell
  deriving DecidableEq, Repr

/-- Host link and MSI-X (R457, R458, R465): the table's bytes but for its mask bits, the masked vectors, and the PBA; `b2size` is the
size of BAR2. -/
structure HostPort where
  up : Bool
  speed : Nat
  width : Nat
  table : Store
  masked : List Nat
  pba : List Nat
  b2size : Nat
  deriving DecidableEq, Repr

/-- Power and thermal state of the module (R474 to R481). -/
structure Power where
  standby : Bool
  tripped : Bool
  sample : Sample
  throttled : List Nat
  limit : Bool
  confAt : SMap Nat
  deriving DecidableEq, Repr

/-- What the module sent out, newest last: the model's own trace (log 10). -/
inductive OutMsg where
  | ring (cw : Bool) (token : List Byte)
  | msix (vec : Nat)
  | hostWrite (addr : W64) (data : List (PVal Byte))
  | hostRead (addr : W64) (len : Nat)
  | hostReply (status : Nat) (data : List Byte)
  | mgmt (dst : BitVec 14) (bytes : List Byte)
  | mgmtRsp (dst : BitVec 14) (cmd status : Nat) (counter : W64) (data : List Byte)
  | flit (port : Nat) (f : Flit)
  | drive (slot : Nat) (bytes : List Byte)
  | report (bytes : List Byte)
  | stepReport (step epoch : W32)
  | restoreList (images : List (W32 × W32 × List Nat))
  | restoreChoice (epoch : W32)
  | apertureReply (data : List (PVal Byte))
  | partReport (part : Nat)
  deriving DecidableEq, Repr

/-- The module. `regs` holds the stored words of the register pages; `bitsNow` the bits that hardware set in them and `cntsNow` the
rises of their counters in the present nanosecond (R11, R80, R261), `wasNow` what words held as it began, and `recWas` the records
that pages held as it began and wrote anew in it (R497). `ctxCache` lists the contexts in each set of the F-dies' context
caches, the latest used first (R313); `arrNow` the bytes that arrived for each context and `rinvs` the remote lines invalidated in
the present nanosecond (R334). `dcache` is the service cores' data caches (R445); `led` names the ring collectives led, `rcPast` those
ended here, and `ringWait` the collective tokens that wait for a place in the clockwise queue (R304, R356). -/
structure State where
  pending : List Instr
  fresh : Nat
  clk : Nat
  pins : Pins
  regs : SMap W32
  bitsNow : SMap W32
  cntsNow : SMap Nat
  wasNow : SMap W32
  loHold : SMap W32
  hiLatch : SMap W32
  err : SMap (List Byte)
  recWas : SMap (List Byte)
  errBuf : SMap (List Byte)
  errSet : List Nat
  errSeq : W32
  srst : SMap Nat
  mem : Store
  tb : Timebase
  arcs : SMap ArcUnit
  copies : SMap (List CopyJob)
  tiles : SMap Tile
  parts : SMap Part
  ust : SMap UEntry
  hist : SMap Hist
  ports : SMap Port
  sets : SMap RouteSet
  modId : Option (BitVec 14)
  mgmtList : List (Option (BitVec 14))
  lost : Nat
  inbox : List (Nat × Packet)
  ringCw : List (List Byte)
  ringCcw : List (List Byte)
  inRing : Bool
  cwLock : Bool
  ccwLock : Bool
  ctxs : SMap Ctx
  ctxCache : SMap (List Nat)
  arrNow : SMap Nat
  ctxBase : Nat
  rplBase : Nat
  replay : SMap (BitVec 128)
  wins : SMap Win
  apts : SMap Apt
  jobs : SMap Job
  mjob : Option (BitVec 16 × BitVec 8)
  outst : List Outst
  nextRid : Nat
  nextOrd : Nat
  rlc : List RLine
  rinvs : List (Nat × Nat × Nat)
  dcache : List CLine
  colls : List Coll
  heldToks : List HeldTok
  led : List (BitVec 16 × BitVec 8 × BitVec 8)
  rcPast : List RcPast
  ringWait : List (List Byte)
  ringHops : Nat
  cs : Coded
  vault : Vault
  router : Router
  logBase : Nat
  logHead : W32
  logCnt : Nat
  fltNs : Nat
  boot : Boot
  opt : OptStore
  rst : RstSeq
  cores : SMap Core_
  hrings : SMap HRing
  hostp : HostPort
  power : Power
  mgtCtr : W64
  mgtBootId : W64
  out : List OutMsg
  deriving DecidableEq, Repr

/-- No command stops the machine: no reason to fault is ever raised. The one constructor names a stop that no meaning
takes (safe). -/
inductive Fault where
  | none_
  deriving DecidableEq, Repr

/-- Why a command is refused. Raised only by an arm of `exec` with no meaning yet (safe). -/
inductive Refusal where
  | notModelled (mnemonic : String)
  deriving DecidableEq, Repr

/-- Nothing stored. -/
def Store.empty : Store := ⟨[], []⟩

/-- A tile after reset (R422, Table 18.4): cleared, sequencer OFF until its unit becomes ACTIVE or AUDIT. -/
def Tile.reset : Tile :=
  { seq := .off, fetchStop := false, pc := 0, lastPc := 0, item := none, itemErr := false, ended := none
    ars := List.replicate 16 (some 0), q0 := [], q1 := [], q2 := [], q3 := [], nextId := 0, lastPosted := false, dispAt := 0, rejAt := 0
    loadAt := 0, loading := none, acc0 := none, acc1 := none, digPois := false, digWas := (0, 0, false), fed := (0, 0, false)
    acc := Store.empty, vr := Store.empty, msk := [], mskPois := []
    vcnt := [], vcntPois := [] }

def ArcUnit.reset : ArcUnit :=
  { active := [], shadow := [], ready := false, loading := none, commitNs := 0, lateSeen := false, toks := []
    firedAt := 0, incAt := 0, incs := [], incsArc := [] }

def WlSlot.free : WlSlot :=
  { active := false, count := 0, items := 0, waitIdx := 0, waitCount := 0, doneIdx := 0, doneEn := false, next := 0
    back := [], running := [], done := 0, errIdx := none, own := false }

def FarPort.reset : FarPort :=
  { credit := [], boexp := [], back := [], run := [], holder := none, live := 0xFFFFFFFF, degraded := false
    refmode := 0, temp := 0, wdNext := none, dead := 0, cmap := 0xFFFFFFFF }

/-- A partition after cold reset: no logical tiles yet (R40), slice map the identity (Table 3.10). -/
def Part.reset : Part :=
  { n := 0, grade := 0, tmap := [], smap := [], images := [], swap := [], cut := false, wl := List.replicate 4 WlSlot.free, wlAt := 0
    asm := ⟨[], none⟩, slv := ⟨[], [], none, []⟩, fpl := ⟨none, none, none, 0⟩, far := FarPort.reset, spares0 := 256
    spares1 := 256, sparing := [], spared := [], rowErrs := [], audit := [], sleep := .awake, atSleep := []
    clkF := 64, gov := 64, stretch := none, inReset := false, rstAt := 0 }

def UEntry.off : UEntry := ⟨.off, none⟩
def Hist.clean : Hist := ⟨0, 0, 0, []⟩

def Port.reset : Port :=
  { st := .down, lanes := 0, attempts := 0, peerSlot := 0, rtt := 0, taken := false, standIn := 0, tx := []
    credit := [], deficit := [], cur := 1, lastSet := [], sinceVc0 := 32, nextSeq := 0, replay := [], resend := [], fails := 0
    expSeq := 0, nakDue := none, discarding := false, owed := [], rx := [], pkts := [], pri := false, paid := false, lineq := [] }

def RouteSet.empty : RouteSet := ⟨0, 0, false, false, []⟩

def Ctx.none_ : Ctx :=
  { tag := 0, gen := 0, valid := false, send := false, atom := false, dst := 0, tmo := 0, waitms := 0, tctx := 0
    aseq := 0, outn := 0, arrived := 0, peer := 0, pflow := 0, rslot := 0, high := 0, applied := 0 }

def Win.none_ : Win := ⟨0, 0, 0, false, 0, 0⟩
def Apt.none_ : Apt := ⟨0, 0, 0, false⟩
def Job.free : Job := ⟨.free, 0, none, 0, 0⟩
def Image.none_ : Image := ⟨false, 0, 0, 0, 0, 0, []⟩

def Coded.reset : Coded :=
  { st := .off, group := none, epoch := none, hcomplete := none, building := none, sel := [], built := []
    written := [], nz := [], codes := [], codedParts := [], sent := [], deltas := [], opened := [], ends := [], readies := []
    sentReady := false, reformLoaded := false, rebuild := [], recovered := 0, next := none, held := none, holdSaid := false
    firstEpoch := true, lastCoded := none, commitNs := 0 }

def Core_.reset : Core_ :=
  { running := false, pc := 0, mode := .m, f := List.replicate 32 0, frm := 0, fflags := 0, fsOff := true, fsDirty := false, psvidx := 0
    trap := none, psvOn := false, psvIdleAt := 0, waking := false, posts := [], heldPost := none, ap := none }

def HRing.reset : HRing := ⟨Store.empty, 0, 0, 0, false, 0, [], true, 0, false, none⟩

def Sample.none_ : Sample := ⟨[], [], 0, 0⟩

def Timebase.reset : Timebase :=
  { time := 0, start := 0, stepIdx := 0, ringDelay := 0, period := 0, relNs := 0, reflock := false, caldone := false
    timevalid := false, instep := false, arrivedNs := 0, prevAng := 0, overtime := false, slewCnt := 0, diff := 0, calCw := none
    calCcw := none, held := none, firstRel := false, admitted := false, lastSlot := 0, lastValid := false
    lastSelf := false, barSeen := 0, barLast := 0 }

/-- Pins at the start of a cold reset (Table 18.3): powered and seated, reset released, bypass closed, lasers off,
REPLACE_REQ deasserted; the slot strap reads 0 (log 7). -/
def Pins.reset : Pins :=
  { pwrOk := true, sysRst := false, seated := true, underVolt := false, refClk := true, replaceReq := false
    bypassOpen := false, lasers := 0, slot := 0 }

def RstSeq.reset : RstSeq :=
  { running := true, phase := 0, cold := true, at_ := 0, cycle0 := 0, warmReq := false, noSteward := false
    armed := false, lastBeat := 0, lastBite := none, stopped := false, biteAt := 0, active1 := false
    takeover := false, loaded := false, mtimeFrom := 0 }

def Boot.reset : Boot :=
  { blocks := [], staging := Store.empty, verifying := none, image := none, signer := false, svn := 0, minsvn := 0, serial := 0
    idOk := false, idfp := List.replicate 32 0, mrs := List.replicate 8 (List.replicate 64 0), defaulted := 0
    stewardUp := false }

def OptStore.reset : OptStore := ⟨[], false, true, [], []⟩
def Power.reset : Power := ⟨false, false, Sample.none_, [], false, []⟩
def Vault.reset : Vault := ⟨[], none, false, 0, [], false, false⟩

/-- The module at reference cycle 0 of a power-on cold reset (R411, R412, R422): every register at its cold-reset value
(which `regs`, listing nothing, gives by its descriptors), every queue and table empty, RST_CAUSE.POR set by its
descriptor. -/
def State.reset : State :=
  { pending := [], fresh := 0, clk := 0, pins := Pins.reset, regs := [], bitsNow := [], cntsNow := [], wasNow := [], loHold := [], hiLatch := []
    err := [], recWas := [], errBuf := [], errSet := [], errSeq := 0, srst := [], mem := Store.empty, tb := Timebase.reset, arcs := []
    copies := [], tiles := [], parts := [], ust := [], hist := [], ports := [], sets := [], modId := none
    mgmtList := List.replicate 8 none, lost := 0, inbox := [], ringCw := [], ringCcw := [], inRing := false, cwLock := false, ccwLock := false
    ctxs := [], ctxCache := [], arrNow := [], ctxBase := 0x00FFFC000000, rplBase := 0x00FFFB000000, replay := [], wins := [], apts := []
    jobs := [], mjob := none, outst := [], nextRid := 0, nextOrd := 0, rlc := [], rinvs := [], dcache := [], colls := [], heldToks := []
    led := [], rcPast := [], ringWait := [], ringHops := 0
    cs := Coded.reset, vault := Vault.reset, router := ⟨[], [], [], [], 0⟩, logBase := 0x00FFFA000000, logHead := 0, logCnt := 0, fltNs := 0
    boot := Boot.reset, opt := OptStore.reset, rst := RstSeq.reset, cores := [], hrings := []
    hostp := ⟨false, 0, 0, Store.empty, [], [], 0x1000000000⟩, power := Power.reset, mgtCtr := 0, mgtBootId := 0, out := [] }

end Sys2Proof.Machine
end

