-- ==== Sys2Proof/Machine/Maps.lean ====
section
/-! DEFINITION. Sparse maps in canonical form, byte strings (little-endian, R8), and byte stores with poison (R106). -/
namespace Sys2Proof.Machine

/-! ### Sparse maps -/

/-- What is listed under `k`, or the default. -/
def mget {α : Type} (d : α) : SMap α → Nat → α
  | [], _ => d
  | (j, v) :: m, k => if j = k then v else mget d m k

/-- Without the entry for `k`. -/
def mdel {α : Type} : SMap α → Nat → SMap α
  | [], _ => []
  | (j, v) :: m, k => if j = k then mdel m k else (j, v) :: mdel m k

/-- With an entry for `k` put where the numbers go on rising. -/
def mins {α : Type} : SMap α → Nat → α → SMap α
  | [], k, v => [(k, v)]
  | (j, w) :: m, k, v => if k < j then (k, v) :: (j, w) :: m else (j, w) :: mins m k v

/-- `k` now holds `v`; a default value is not listed. -/
def mput {α : Type} [DecidableEq α] (d : α) (m : SMap α) (k : Nat) (v : α) : SMap α :=
  if v = d then mdel m k else mins (mdel m k) k v

/-- Every entry's value taken through `f`; `d k` is the default under number `k`. -/
def mmap {α β : Type} [DecidableEq β] (d : Nat → β) (f : Nat → α → β) (m : SMap α) : SMap β :=
  m.foldr (fun e r => mput (d e.1) r e.1 (f e.1 e.2)) []

/-- The canonical form: numbers strictly rising and above `lo`, and no entry equal to the default. -/
def mwfFrom {α : Type} [DecidableEq α] (d : α) (lo : Nat) : SMap α → Bool
  | [] => true
  | (j, v) :: m => decide (lo ≤ j) && decide (v ≠ d) && mwfFrom d (j + 1) m

def mwf {α : Type} [DecidableEq α] (d : α) (m : SMap α) : Bool := mwfFrom d 0 m

/-! ### Byte strings -/

/-- The number a little-endian byte string stands for (R8). -/
def leNat : List Byte → Nat
  | [] => 0
  | b :: bs => b.toNat + 256 * leNat bs

/-- The `n` low bytes of `v`, little-endian. -/
def toLE : Nat → Nat → List Byte
  | 0, _ => []
  | n + 1, v => BitVec.ofNat 8 v :: toLE n (v / 256)

/-- Bytes `i` to `i + n - 1` of a string. -/
def slice_ (bs : List Byte) (i n : Nat) : List Byte := (bs.drop i).take n

/-- The number at bytes `i` to `i + n - 1`. -/
def field (bs : List Byte) (i n : Nat) : Nat := leNat (slice_ bs i n)

/-- Bits `hi:lo` of a number. -/
def bits (v hi lo : Nat) : Nat := (v >>> lo) % 2 ^ (hi + 1 - lo)

/-- Bit `i` of a number. -/
def bitAt (v i : Nat) : Bool := (v >>> i) % 2 == 1

def allZero (bs : List Byte) : Bool := bs.all (· == 0)

/-- A value if every part of it is (R106). -/
def allSome {α : Type} : List (Option α) → Option (List α)
  | [] => some []
  | none :: _ => none
  | some a :: r => (allSome r).map (a :: ·)

/-- The number read from bytes that may be poison: poison when a byte of it is. -/
def pNat (bs : List (PVal Byte)) : PVal Nat := (allSome bs).map leNat

/-- The bytes of a number that may be poison. -/
def pBytes (n : Nat) : PVal Nat → List (PVal Byte)
  | none => List.replicate n none
  | some v => (toLE n v).map some

/-! ### Byte stores -/

/-- The byte at `a`, or poison; an error that a read corrects gives the byte (R269). -/
def Store.at_ (st : Store) (a : Nat) : PVal Byte :=
  if mget 0 st.poison a = 0 ∨ mget 0 st.poison a = 3 then some (mget 0 st.cells a) else none

/-- Bytes from `a` on. -/
def Store.rd (st : Store) (a : Nat) : Nat → List (PVal Byte)
  | 0 => []
  | n + 1 => st.at_ a :: st.rd (a + 1) n

/-- Put one byte: a value clears the mark, poison sets it and keeps no value. -/
def Store.put (st : Store) (a : Nat) : PVal Byte → Store
  | some b => ⟨mput 0 st.cells a b, mput 0 st.poison a 0⟩
  | none => ⟨mput 0 st.cells a 0, mput 0 st.poison a 1⟩

/-- Bytes written from `a` on. -/
def Store.wr (st : Store) (a : Nat) : List (PVal Byte) → Store
  | [] => st
  | b :: bs => (st.put a b).wr (a + 1) bs

/-- Bytes `a` to `a + n - 1` set to 0. -/
def Store.clear (st : Store) (a n : Nat) : Store :=
  ⟨st.cells.filter fun c => c.1 < a || a + n ≤ c.1, st.poison.filter fun c => c.1 < a || a + n ≤ c.1⟩

/-- Bytes `[b, b + n)` take the contents of `[a, a + n)`. -/
def Store.copyRange (st : Store) (a b n : Nat) : Store :=
  let c := st.clear b n
  ⟨((st.cells.filter fun e => decide (a ≤ e.1) && decide (e.1 < a + n)).foldl (fun m e => mput 0 m (e.1 - a + b) e.2) c.cells),
   ((st.poison.filter fun e => decide (a ≤ e.1) && decide (e.1 < a + n)).foldl (fun m e => mput 0 m (e.1 - a + b) e.2) c.poison)⟩

/-- Entries of a map at keys in `[a, a + n)` and `[b, b + n)` change places. -/
def mswap {α : Type} [DecidableEq α] (d : α) (m : SMap α) (a b n : Nat) : SMap α :=
  let inA : Nat → Bool := fun k => decide (a ≤ k) && decide (k < a + n)
  let inB : Nat → Bool := fun k => decide (b ≤ k) && decide (k < b + n)
  (m.filter fun e => inA e.1 || inB e.1).foldl (fun r e => mput d r (if inA e.1 then e.1 - a + b else e.1 - b + a) e.2)
    (m.filter fun e => !inA e.1 && !inB e.1)

def Store.swap (st : Store) (a b n : Nat) : Store := ⟨mswap 0 st.cells a b n, mswap 0 st.poison a b n⟩

/-- The `n`-byte number at `a`. -/
def Store.num (st : Store) (a n : Nat) : PVal Nat := pNat (st.rd a n)

/-- Both lists in canonical form. -/
def Store.wf (st : Store) : Bool := mwf 0 st.cells && mwf 0 st.poison

/-- The canonical form of the module's memory. -/
def Memory.wf (s : State) : Bool := s.mem.wf

end Sys2Proof.Machine
end

