-- ==== Sys2Proof/Machine/Flags.lean ====
section
/-! DEFINITION. FP64 and FP32 arithmetic with its flags (R100 to R106), MX elements, blocks and casts (R107 to R116),
integer element arithmetic, and the canonical fold (R248). Values are bit patterns; a flag set is a number with the bits
of TILE_FPFLAGS (Table 4.8). -/
namespace Sys2Proof.Machine

def fNV : Nat := 1
def fDZ : Nat := 2
def fOF : Nat := 4
def fUF : Nat := 8
def fNX : Nat := 16
def fCastSat : Nat := 0x100
def fCastNan : Nat := 0x200
def fCastClamp : Nat := 0x400
def fMxNanIn : Nat := 0x800
def fMxTrunc : Nat := 0x1000

/-- An IEEE format: exponent and fraction bits (Table 4.2). -/
structure FFmt where
  eb : Nat
  mb : Nat
  deriving DecidableEq, Repr

def f64 : FFmt := ⟨11, 52⟩
def f32 : FFmt := ⟨8, 23⟩

def FFmt.bias (f : FFmt) : Nat := 2 ^ (f.eb - 1) - 1
def FFmt.signBit (f : FFmt) : Nat := 2 ^ (f.eb + f.mb)
def FFmt.bytes (f : FFmt) : Nat := (f.eb + f.mb + 1) / 8
def FFmt.inf (f : FFmt) : Nat := (2 ^ f.eb - 1) * 2 ^ f.mb
def FFmt.quiet (f : FFmt) : Nat := 2 ^ (f.mb - 1)
def FFmt.dflt (f : FFmt) : Nat := f.inf + f.quiet

/-- A value: NaN (signalling or not), infinity, or (-1)^neg m 2^e. -/
inductive FVal where
  | nan (sig : Bool)
  | inf (neg : Bool)
  | fin (neg : Bool) (m : Nat) (e : Int)
  deriving DecidableEq, Repr

def FFmt.neg (f : FFmt) (b : Nat) : Bool := b.testBit (f.eb + f.mb)
def FFmt.isNan (f : FFmt) (b : Nat) : Bool := decide (f.inf < b % f.signBit)
def FFmt.isSnan (f : FFmt) (b : Nat) : Bool := f.isNan b && !b.testBit (f.mb - 1)
def FFmt.isInf (f : FFmt) (b : Nat) : Bool := decide (b % f.signBit = f.inf)
def FFmt.isZero (f : FFmt) (b : Nat) : Bool := decide (b % f.signBit = 0)

/-- R100. -/
def FFmt.unpack (f : FFmt) (b : Nat) : FVal :=
  let e := b / 2 ^ f.mb % 2 ^ f.eb
  let m := b % 2 ^ f.mb
  if f.isNan b then .nan (f.isSnan b)
  else if f.isInf b then .inf (f.neg b)
  else if e = 0 then .fin (f.neg b) m (1 - (f.bias + f.mb : Nat))
  else .fin (f.neg b) (m + 2 ^ f.mb) ((e : Int) - (f.bias + f.mb : Nat))

def FFmt.sgn (f : FFmt) (neg : Bool) (b : Nat) : Nat := if neg then f.signBit + b else b

def isqrt (m : Nat) : Nat → Nat → Nat
  | 0, r => r
  | i + 1, r => isqrt m i (if (r + 2 ^ i) * (r + 2 ^ i) ≤ m then r + 2 ^ i else r)

def bitLen (m : Nat) : Nat := if m = 0 then 0 else Nat.log2 m + 1

/-- Does rounding raise the magnitude (Table 4.3)? `rem` of `2^sh` was cut off, and `sticky` says that more was. Mode 4, ties
away from zero, is a service core's frm alone (R442). -/
def roundsUp (rm : Nat) (neg : Bool) (odd : Bool) (rem sh : Nat) (sticky : Bool) : Bool :=
  let inexact : Bool := rem != 0 || sticky
  if rm = 0 then decide (2 ^ sh < 2 * rem) || (decide (2 * rem = 2 ^ sh) && (sticky || odd))
  else if rm = 1 then false
  else if rm = 2 then inexact && !neg
  else if rm = 3 then inexact && neg
  else decide (2 ^ sh ≤ 2 * rem)

/-- `m 2^e` cut to a multiple of `2^q` and rounded; whether it is inexact. -/
def roundAt (rm : Nat) (neg : Bool) (m : Nat) (e q : Int) (sticky : Bool) : Nat × Bool :=
  if q ≤ e then (m * 2 ^ (e - q).toNat, sticky)
  else
    let sh := (q - e).toNat
    let k := m / 2 ^ sh
    let rem := m % 2 ^ sh
    (k + (if roundsUp rm neg (k % 2 == 1) rem sh sticky then 1 else 0), rem != 0 || sticky)

/-- The non-zero magnitude `m 2^e` (a bit more when `sticky`), rounded once into the format, with flags (R103, R105). -/
def FFmt.round (f : FFmt) (rm : Nat) (neg : Bool) (m : Nat) (e : Int) (sticky : Bool) : Nat × Nat :=
  let top : Int := e + (bitLen m : Int)
  let lsb : Int := 1 - (f.bias + f.mb : Nat)
  let qn : Int := top - (f.mb + 1 : Nat)
  let q : Int := if qn < lsb then lsb else qn
  let (k, nx) := roundAt rm neg m e q sticky
  let (k, q) := if k = 2 ^ (f.mb + 1) then (2 ^ f.mb, q + 1) else (k, q)
  let (kn, _) := roundAt rm neg m e qn sticky
  let tiny : Bool := decide (qn < lsb) && !(decide (kn = 2 ^ (f.mb + 1)) && decide (qn + 1 = lsb))
  let be : Int := q + (f.bias + f.mb : Nat)
  if 2 ^ f.mb ≤ k ∧ (2 ^ f.eb - 1 : Nat) ≤ be then
    let toInf : Bool := rm == 0 || rm == 4 || (rm == 2 && !neg) || (rm == 3 && neg)
    (f.sgn neg (if toInf then f.inf else f.inf - 1), fOF + fNX)
  else
    let b := if k < 2 ^ f.mb then k else be.toNat * 2 ^ f.mb + (k - 2 ^ f.mb)
    (f.sgn neg b, (if nx then fNX else 0) + (if nx && tiny then fUF else 0))

/-- The first NaN operand, quieted, and NV for a signalling one (R104); none when no operand is a NaN. -/
def FFmt.nanOf (f : FFmt) (xs : List Nat) : Option (Nat × Nat) :=
  match xs.find? f.isNan with
  | none => none
  | some b => some (if b.testBit (f.mb - 1) then b else b + f.quiet, if xs.any f.isSnan then fNV else 0)

/-- The exact sum of two finite values, rounded once (R101, R103). -/
def FFmt.sum (f : FFmt) (rm : Nat) (n1 : Bool) (m1 : Nat) (e1 : Int) (n2 : Bool) (m2 : Nat) (e2 : Int) : Nat × Nat :=
  let e : Int := if e1 ≤ e2 then e1 else e2
  let a : Int := (if n1 then -1 else 1) * (m1 * 2 ^ (e1 - e).toNat : Nat)
  let b : Int := (if n2 then -1 else 1) * (m2 * 2 ^ (e2 - e).toNat : Nat)
  let v := a + b
  if v = 0 then
    (f.sgn (if n1 = n2 then n1 else rm == 3) 0, 0)
  else f.round rm (decide (v < 0)) v.natAbs e false

/-- Exact zeros kept apart from `m 2^e` with `m = 0`, whose exponent is of no account. -/
def zeroExp (m : Nat) (e other : Int) : Int := if m = 0 then other else e

/-- a × b + c, rounded once; `negate` gives fma(-a, b, c), where a NaN keeps its stored sign (R104). -/
def FFmt.fma (f : FFmt) (rm : Nat) (negate : Bool) (a b c : Nat) : Nat × Nat :=
  let badMul : Bool := (f.isInf a && f.isZero b) || (f.isZero a && f.isInf b)
  match f.nanOf [a, b, c] with
  | some (v, fl) => (v, if badMul then fNV else fl)
  | none =>
    match f.unpack a, f.unpack b, f.unpack c with
    | .fin na ma ea, .fin nb mb eb, .fin nc mc ec =>
      let np := (na != negate) != nb
      let mp := ma * mb
      f.sum rm np mp (zeroExp mp (ea + eb) ec) nc mc (zeroExp mc ec (ea + eb))
    | .fin _ _ _, .fin _ _ _, .inf nc => (f.sgn nc f.inf, 0)
    | _, _, vc =>
      let np := (f.neg a != negate) != f.neg b
      if badMul then (f.dflt, fNV)
      else match vc with
        | .inf nc => if np = nc then (f.sgn np f.inf, 0) else (f.dflt, fNV)
        | _ => (f.sgn np f.inf, 0)

def FFmt.add (f : FFmt) (rm a b : Nat) : Nat × Nat :=
  match f.nanOf [a, b] with
  | some r => r
  | none =>
    match f.unpack a, f.unpack b with
    | .fin na ma ea, .fin nb mb eb => f.sum rm na ma (zeroExp ma ea eb) nb mb (zeroExp mb eb ea)
    | .inf na, .inf nb => if na = nb then (a, 0) else (f.dflt, fNV)
    | .inf _, _ => (a, 0)
    | _, _ => (b, 0)

/-- a - b: a NaN operand keeps its sign (R104). -/
def FFmt.sub (f : FFmt) (rm a b : Nat) : Nat × Nat :=
  f.add rm a (if f.isNan b then b else b ^^^ f.signBit)

def FFmt.mul (f : FFmt) (rm a b : Nat) : Nat × Nat :=
  match f.nanOf [a, b] with
  | some r => r
  | none =>
    let n := f.neg a != f.neg b
    match f.unpack a, f.unpack b with
    | .fin _ ma ea, .fin _ mb eb =>
      if ma * mb = 0 then (f.sgn n 0, 0) else f.round rm n (ma * mb) (ea + eb) false
    | _, _ => if f.isZero a || f.isZero b then (f.dflt, fNV) else (f.sgn n f.inf, 0)

def FFmt.div (f : FFmt) (rm a b : Nat) : Nat × Nat :=
  match f.nanOf [a, b] with
  | some r => r
  | none =>
    let n := f.neg a != f.neg b
    match f.unpack a, f.unpack b with
    | .fin _ ma ea, .fin _ mb eb =>
      if mb = 0 then (if ma = 0 then (f.dflt, fNV) else (f.sgn n f.inf, fDZ))
      else if ma = 0 then (f.sgn n 0, 0)
      else
        let sh := 2 * f.mb + 6
        let v := ma * 2 ^ sh
        f.round rm n (v / mb) (ea - eb - (sh : Int)) (v % mb != 0)
    | .inf _, .inf _ => (f.dflt, fNV)
    | .inf _, _ => (f.sgn n f.inf, 0)
    | _, _ => (f.sgn n 0, 0)

def FFmt.sqrt (f : FFmt) (rm a : Nat) : Nat × Nat :=
  match f.nanOf [a] with
  | some r => r
  | none =>
    match f.unpack a with
    | .fin n m e =>
      if m = 0 then (a, 0)
      else if n then (f.dflt, fNV)
      else
        let sh := 2 * f.mb + 6 + (if (e - (2 * f.mb + 6 : Nat)) % 2 = 0 then 0 else 1)
        let v := m * 2 ^ sh
        let r := isqrt v (bitLen v / 2 + 1) 0
        f.round rm false r ((e - (sh : Int)) / 2) (r * r != v)
    | .inf n => if n then (f.dflt, fNV) else (a, 0)
    | .nan _ => (f.dflt, fNV)

/-- 1/√x rounded once (R101). -/
def FFmt.rsqrt (f : FFmt) (rm a : Nat) : Nat × Nat :=
  match f.nanOf [a] with
  | some r => r
  | none =>
    match f.unpack a with
    | .fin n m e =>
      if m = 0 then (f.sgn n f.inf, fDZ)
      else if n then (f.dflt, fNV)
      else
        let m2 := if e % 2 = 0 then m else 2 * m
        let e2 : Int := if e % 2 = 0 then e else e - 1
        let sh := 2 * f.mb + 10
        let r := isqrt (2 ^ (2 * sh) / m2) (sh + 1) 0
        f.round rm false r (-(e2 / 2) - (sh : Int)) (r * r * m2 != 2 ^ (2 * sh))
    | .inf n => if n then (f.dflt, fNV) else (0, 0)
    | .nan _ => (f.dflt, fNV)

/-- Order of two values that are no NaN; zeros are equal. -/
def FFmt.key (f : FFmt) (b : Nat) : Int := if f.neg b then -((b % f.signBit : Nat) : Int) else (b % f.signBit : Nat)

/-- minimum and maximum (R101). -/
def FFmt.minmax (f : FFmt) (mx : Bool) (a b : Nat) : Nat × Nat :=
  match f.nanOf [a, b] with
  | some r => r
  | none =>
    let ka := f.key a
    let kb := f.key b
    let aFirst : Bool := decide (ka < kb) || (decide (ka = kb) && f.neg a)
    (if aFirst != mx then a else b, 0)

/-- Quiet comparison (R101): 0 EQ, 1 LT, 2 LE, 3 UNORD. -/
def FFmt.cmp (f : FFmt) (op a b : Nat) : Bool × Nat :=
  let un : Bool := f.isNan a || f.isNan b
  let fl := if f.isSnan a || f.isSnan b then fNV else 0
  (if un then op == 3
   else if op = 0 then f.key a == f.key b
   else if op = 1 then decide (f.key a < f.key b)
   else if op = 2 then decide (f.key a ≤ f.key b)
   else false, fl)

/-- FP to FP (R104). -/
def FFmt.conv (src dst : FFmt) (rm a : Nat) : Nat × Nat :=
  match src.unpack a with
  | .nan sig =>
    let fr := a % 2 ^ src.mb
    let fr' := if dst.mb ≤ src.mb then fr / 2 ^ (src.mb - dst.mb) else fr * 2 ^ (dst.mb - src.mb)
    (dst.sgn (src.neg a) (dst.inf + (fr' ||| dst.quiet)), if sig then fNV else 0)
  | .inf n => (dst.sgn n dst.inf, 0)
  | .fin n m e => if m = 0 then (dst.sgn n 0, 0) else dst.round rm n m e false

/-- FP to a signed integer of `w` bits (R104). -/
def FFmt.toInt (f : FFmt) (w rm a : Nat) : Nat × Nat :=
  let lo := 2 ^ (w - 1)
  match f.unpack a with
  | .nan _ => (0, fNV)
  | .inf n => (if n then lo else lo - 1, fNV)
  | .fin n m e =>
    let (k, nx) := roundAt rm n m e 0 false
    if n then (if lo < k then (lo, fNV) else ((2 ^ w - k) % 2 ^ w, if nx then fNX else 0))
    else if lo ≤ k then (lo - 1, fNV)
    else (k, if nx then fNX else 0)

/-- A `w`-bit pattern as a signed number. -/
def sint (w v : Nat) : Int := if v.testBit (w - 1) then (v : Int) - (2 ^ w : Nat) else v

/-- Signed integer of `w` bits to FP. -/
def FFmt.ofInt (f : FFmt) (w rm v : Nat) : Nat × Nat :=
  let i := sint w v
  if i = 0 then (0, 0) else f.round rm (decide (i < 0)) i.natAbs 0 false

/-! ### MX elements and blocks -/

/-- Width of an element type (Table 5.2). -/
def mxWidth (ty : Nat) : Nat := if ty = 4 then 4 else if ty = 2 ∨ ty = 3 then 6 else 8

/-- Bytes of a block of 32. -/
def mxBlock (ty : Nat) : Nat := 4 * mxWidth ty

/-- Exponent bits, mantissa bits, bias and emax_elem (Table 4.4). -/
def mxShape (ty : Nat) : Nat × Nat × Nat × Nat :=
  if ty = 0 then (4, 3, 7, 8)
  else if ty = 1 then (5, 2, 15, 15)
  else if ty = 2 then (3, 2, 3, 4)
  else if ty = 3 then (2, 3, 1, 2)
  else (2, 1, 1, 2)

/-- An element's value (R107, R108). -/
def mxVal (ty c : Nat) : FVal :=
  if ty = 5 then .fin (c.testBit 7) (sint 8 c).natAbs (-6)
  else
    let (eb, mb, bias, _) := mxShape ty
    let neg := c.testBit (eb + mb)
    let e := c / 2 ^ mb % 2 ^ eb
    let m := c % 2 ^ mb
    if ty = 0 ∧ e = 15 ∧ m = 7 then .nan false
    else if ty = 1 ∧ e = 31 then (if m = 0 then .inf neg else .nan false)
    else if e = 0 then .fin neg m (1 - (bias + mb : Nat))
    else .fin neg (m + 2 ^ mb) ((e : Int) - (bias + mb : Nat))

/-- Element `i` of a block's bytes (R109). -/
def mxElem (ty : Nat) (block : Nat) (i : Nat) : Nat := block / 2 ^ (i * mxWidth ty) % 2 ^ mxWidth ty

/-- The 32 products of a block pair. -/
def mxPairs (ta tb a b : Nat) : List (FVal × FVal) :=
  (List.range 32).map fun i => (mxVal ta (mxElem ta a i), mxVal tb (mxElem tb b i))

def FVal.isZero : FVal → Bool
  | .fin _ 0 _ => true
  | _ => false

def FVal.isInf : FVal → Bool
  | .inf _ => true
  | _ => false

def FVal.isNan : FVal → Bool
  | .nan _ => true
  | _ => false

def FVal.neg : FVal → Bool
  | .fin n _ _ => n
  | .inf n => n
  | .nan _ => false

/-- A finite product: its signed integer and exponent. -/
def mxProd : FVal × FVal → Int × Int
  | (.fin n1 m1 e1, .fin n2 m2 e2) => ((if n1 != n2 then -1 else 1) * (m1 * m2 : Nat), e1 + e2)
  | _ => (0, 0)

/-- Exponents are kept above this, so that a window is a whole number of least bits. -/
def mxLow : Int := -200

/-- The block sum S as an integer times 2^mxLow, and whether truncation lost a bit (R111). -/
def mxSum (ps : List (FVal × FVal)) : Int × Bool :=
  let vs := (ps.map mxProd).filter fun p => p.1 != 0
  match vs with
  | [] => (0, false)
  | _ =>
    let tops := vs.map fun p => p.2 + (bitLen p.1.natAbs : Int) - 1
    let emax := tops.foldl (fun a b => if a < b then b else a) (-100000)
    let lsb := emax - 39
    let cut := vs.map fun p =>
      if lsb ≤ p.2 then (p.1 * ((2 ^ (p.2 - lsb).toNat : Nat) : Int), false)
      else (p.1 / ((2 ^ (lsb - p.2).toNat : Nat) : Int), decide (p.1 % ((2 ^ (lsb - p.2).toNat : Nat) : Int) ≠ 0))
    (((cut.map fun c => c.1).foldl (· + ·) (0 : Int)) * ((2 ^ (lsb - mxLow).toNat : Nat) : Int), cut.any fun c => c.2)

/-- What a block pair adds (R112, R113): the new accumulator, and the flags of every row of Table 4.7 that holds; a truncation of finite
products counts beside a scale of 0xFF. -/
def mxStep (ta tb a b xa xb acc : Nat) : Nat × Nat :=
  let ps := mxPairs ta tb a b
  let scaleNan : Bool := xa == 255 || xb == 255
  let elemNan : Bool := ps.any fun p => p.1.isNan || p.2.isNan
  let infZero : Bool := ps.any fun p => (p.1.isInf && p.2.isZero) || (p.1.isZero && p.2.isInf)
  let infs := ps.filter fun p => (p.1.isInf || p.2.isInf) && !p.1.isNan && !p.2.isNan && !p.1.isZero && !p.2.isZero
  let pos : Bool := infs.any fun p => p.1.neg == p.2.neg
  let ng : Bool := infs.any fun p => p.1.neg != p.2.neg
  let finite : Bool := !elemNan && !infZero && infs.isEmpty
  let fl := (if scaleNan || elemNan then fMxNanIn else 0) ||| (if infZero || (pos && ng) then fNV else 0) |||
    (if scaleNan && finite && (mxSum ps).2 then fMxTrunc else 0)
  let accFl := if f32.isSnan acc then fNV else 0
  if scaleNan || elemNan || infZero || (pos && ng) then (f32.dflt, fl ||| accFl)
  else if pos || ng then
    if f32.isNan acc then (f32.dflt, fl ||| accFl)
    else if f32.isInf acc && f32.neg acc != ng then (f32.dflt, fl ||| fNV)
    else (f32.sgn ng f32.inf, fl)
  else
    let (sm, lost) := mxSum ps
    let fl := fl ||| (if lost then fMxTrunc else 0)
    if f32.isNan acc then (f32.dflt, fl ||| accFl)
    else match f32.unpack acc with
      | .fin n m e =>
        let es : Int := mxLow + (xa : Int) + (xb : Int) - 254
        let (v, g) := f32.sum 0 (decide (sm < 0)) sm.natAbs (zeroExp sm.natAbs es e) n m (zeroExp m e es)
        (v, fl ||| g)
      | _ => (acc, fl)

/-! ### Casts (R114 to R116) -/

/-- Largest finite magnitude of a type, as an integer times a power of two. -/
def mxLargest (ty : Nat) : Nat × Int :=
  if ty = 0 then (7, 6) else if ty = 1 then (7, 13) else if ty = 2 then (7, 2) else if ty = 3 then (15, -1)
  else if ty = 4 then (3, 1) else (127, -6)

/-- Code of the largest finite value. -/
def mxLargestCode (ty : Nat) : Nat :=
  if ty = 0 then 0x7E else if ty = 1 then 0x7B else if ty = 2 then 0x1F else if ty = 3 then 0x1F
  else if ty = 4 then 7 else 127

/-- One element: the magnitude `m 2^e` (already divided by the scale) on the type's grid, RNE, and whether it saturated. -/
def mxEncode (ty : Nat) (neg : Bool) (m : Nat) (e : Int) : Nat × Bool :=
  let w := mxWidth ty
  let s := if neg then 2 ^ (w - 1) else 0
  if ty = 5 then
    let (k, _) := roundAt 0 neg m e (-6) false
    let sat : Bool := decide (127 < k)
    let k := min k 127
    (if neg then (256 - k) % 256 else k, sat)
  else
    let (_, mb, bias, _) := mxShape ty
    let lsb : Int := 1 - (bias + mb : Nat)
    let qn : Int := e + (bitLen m : Int) - (mb + 1 : Nat)
    let q : Int := if qn < lsb then lsb else qn
    let (k, _) := roundAt 0 neg m e q false
    let (k, q) := if k = 2 ^ (mb + 1) then (2 ^ mb, q + 1) else (k, q)
    let (lm, le) := mxLargest ty
    let ovf : Bool := if q ≤ le then decide (lm * 2 ^ (le - q).toNat < k) else decide (lm < k * 2 ^ (q - le).toNat)
    if ovf then (s + mxLargestCode ty, true)
    else if k < 2 ^ mb then (s + k, false)
    else (s + (q + (bias + mb : Nat)).toNat * 2 ^ mb + (k - 2 ^ mb), false)

/-- A block of 32 source values (R114): scale code, element codes, flags and how many saturated. -/
def castTo (src : FFmt) (ty : Nat) (xs : List Nat) : Nat × List Nat × Nat × Nat :=
  let vs := xs.map src.unpack
  if vs.any fun v => v.isNan || v.isInf then (255, xs.map fun _ => 0, fCastNan, 0)
  else
    let (_, _, _, emaxF) := mxShape ty
    let emaxE : Int := if ty = 5 then 0 else emaxF
    let tops := vs.filterMap fun v => match v with
      | .fin _ m e => if m = 0 then none else some (e + (bitLen m : Int) - 1)
      | _ => none
    let raw : Int := match tops with
      | [] => -127
      | t :: ts => ts.foldl (fun a b => if a < b then b else a) t - emaxE
    let e : Int := if raw < -127 then -127 else if 127 < raw then 127 else raw
    let enc := vs.map fun v => match v with
      | .fin n m x => mxEncode ty n m (x - e)
      | _ => (0, false)
    let sats := (enc.filter (·.2)).length
    ((e + 127).toNat, enc.map (·.1), (if e = raw then 0 else fCastClamp) + (if sats = 0 then 0 else fCastSat), sats)

/-- One element of a block with scale `x` back in FP (R115, R116). -/
def castFrom (dst : FFmt) (rm ty x c : Nat) : Nat × Nat :=
  if x = 255 then (dst.dflt, fMxNanIn)
  else match mxVal ty c with
    | .nan _ => (dst.dflt, fMxNanIn)
    | .inf n => (dst.sgn n dst.inf, 0)
    | .fin n m e => if m = 0 then (dst.sgn n 0, 0) else dst.round rm n m (e + x - 127) false

/-! ### Integers (R157) -/

/-- Element types: 0 FP64, 1 FP32, 2 INT64, 3 INT32 (Table 7.8). -/
def tyBytes (ty : Nat) : Nat := if ty = 0 ∨ ty = 2 then 8 else 4
def tyFmt (ty : Nat) : FFmt := if ty = 1 ∨ ty = 3 then f32 else f64
def tyInt (ty : Nat) : Bool := decide (2 ≤ ty)

def imod (ty : Nat) (v : Int) : Nat := (v % (2 ^ (8 * tyBytes ty) : Nat)).toNat

def ilt (ty : Nat) (unsigned : Bool) (a b : Nat) : Bool :=
  if unsigned then decide (a < b) else decide (sint (8 * tyBytes ty) a < sint (8 * tyBytes ty) b)

def icmp (ty op : Nat) (unsigned : Bool) (a b : Nat) : Bool :=
  if op = 0 then a == b else if op = 1 then ilt ty unsigned a b else if op = 2 then !ilt ty unsigned b a else false

/-! ### The canonical fold (R248) -/

def pairUp {α : Type} (op : α → α → α) : List α → List α
  | a :: b :: r => op a b :: pairUp op r
  | l => l

/-- The fold of `l`: adjacent values are paired, level by level; an odd one at the end passes up (R248, R249). -/
def foldTree {α : Type} (op : α → α → α) : Nat → List α → Option α
  | _, [] => none
  | _, [a] => some a
  | 0, a :: _ => some a
  | n + 1, l => foldTree op n (pairUp op l)

/-- The canonical fold. -/
def cfold {α : Type} (op : α → α → α) (l : List α) : Option α := foldTree op l.length l

/-- An operation on values that may be poison, with flags gathered (R106). -/
def pop2 (f : Nat → Nat → Nat × Nat) (x y : PVal Nat × Nat) : PVal Nat × Nat :=
  match x, y with
  | (some a, fa), (some b, fb) => let (v, g) := f a b; (some v, fa ||| fb ||| g)
  | (_, fa), (_, fb) => (none, fa ||| fb)

/-- Fold of values that may be poison, with the flags of every step. -/
def pfold (f : Nat → Nat → Nat × Nat) (l : List (PVal Nat)) : PVal Nat × Nat :=
  match cfold (pop2 f) (l.map fun v => (v, 0)) with
  | some r => r
  | none => (some 0, 0)

end Sys2Proof.Machine
end

