-- ==== Sys2Proof/Config.lean ====
section
/-! DEFINITION. The values the spec leaves open (log 6 and 8): constants with no body, so that nothing can be proved
of a particular value. Each is applied to `State.fresh`, a counter that the step reads and advances. -/
namespace Sys2Proof

/-- A byte whose contents the spec calls undefined (R86, R215, R216, R233, R276, R353, R356, R360); log 6. -/
opaque Config.freeByte : Nat → BitVec 8

/-- Which way a tie of a rounding "to the nearest nanosecond" goes (R44); log 6. -/
opaque Config.freeBit : Nat → Bool

/-- A byte of a signature that the key unit makes (R433, R437); log 8. -/
opaque Config.signatureByte : Nat → BitVec 8

/-- The boot ROM's version, as it is measured (R436, which gives no value); log 8. -/
opaque Config.romVersion : List (BitVec 8)

/-- The vendor root public key in mask ROM (R433, which gives no value); log 8. -/
opaque Config.vendorKey : List (BitVec 8)

/-- GMRES: the cosine and sine of the rotation that takes (a, b) to (r, 0), by two FP64 patterns (R228, whose roundings
the spec does not give); log 6. -/
opaque Config.givens : Nat → Nat → Nat × Nat

/-- GMRES: a rotation (c, s) applied to (a, b) (R228); log 6. -/
opaque Config.rotate : Nat → Nat → Nat → Nat → Nat × Nat

end Sys2Proof
end

