-- ==== Sys2Proof/Machine/Hash.lean ====
section
/-! DEFINITION. The checks and digests the spec names: CRC-64/ECMA-182 not reflected (R138), CRC-32C (R292, R303, R390,
R428), and SHAKE256 of FIPS 202 (R433). -/
namespace Sys2Proof.Machine

/-- One bit of the CRC of R138: polynomial 0x42F0_E1EB_A9EA_3693, most significant bit first. -/
def crc64Bit (c : W64) : W64 := if c.msb then (c <<< 1) ^^^ 0x42F0E1EBA9EA3693 else c <<< 1

/-- One byte, most significant bit first (R138). -/
def crc64Byte (c : W64) (b : Byte) : W64 :=
  let c := c ^^^ ((b.zeroExtend 64) <<< 56)
  crc64Bit (crc64Bit (crc64Bit (crc64Bit (crc64Bit (crc64Bit (crc64Bit (crc64Bit c)))))))

/-- CRC of R138 going on from `c`. -/
def crc64From (c : W64) (bs : List Byte) : W64 := bs.foldl crc64Byte c

/-- CRC of R138: initial value 0, no final XOR. -/
def crc64 (bs : List Byte) : W64 := crc64From 0 bs

def crc32cBit (c : W32) : W32 := if c.getLsbD 0 then (c >>> 1) ^^^ 0x82F63B78 else c >>> 1

def crc32cByte (c : W32) (b : Byte) : W32 :=
  let c := c ^^^ b.zeroExtend 32
  crc32cBit (crc32cBit (crc32cBit (crc32cBit (crc32cBit (crc32cBit (crc32cBit (crc32cBit c)))))))

/-- CRC-32C (Castagnoli), the usual reflected form with initial value and final XOR of ones; log 16. -/
def crc32c (bs : List Byte) : W32 := ~~~ (bs.foldl crc32cByte 0xFFFFFFFF)

/-- combine(l, r) of R260. -/
def digCombine (l r : W64) : W64 := crc64 (toLE 8 l.toNat ++ toLE 8 r.toNat)

/-! ### SHAKE256 (R433), as FIPS 202 defines it: the state is five rows of five lanes -/

/-- Next state of the register whose low bits, seven a round, make the round constants. -/
def lfsrNext (r : Nat) : Nat := if 128 ≤ r then (2 * r) ^^^ 0x171 else 2 * r

/-- The constant of a round that finds the register at `r`, and where it leaves the register. -/
def roundConst (r : Nat) : Nat × Nat :=
  (List.range 7).foldl (fun (p : Nat × Nat) j => (p.1 + p.2 % 2 * 2 ^ (2 ^ j - 1), lfsrNext p.2)) (0, r)

/-- A row turned left by one lane. -/
def turnRow : List W64 → List W64
  | [] => []
  | x :: xs => xs ++ [x]

/-- A row turned right by one lane. -/
def turnBack (r : List W64) : List W64 := turnRow (turnRow (turnRow (turnRow r)))

/-- Theta: every lane takes up the parities of the column to its left and of the rotated one to its right. -/
def theta (rows : List (List W64)) : List (List W64) :=
  let par := rows.foldl (List.zipWith (· ^^^ ·)) (List.replicate 5 0)
  let d := List.zipWith (· ^^^ ·) (turnBack par) ((turnRow par).map fun v => v.rotateLeft 1)
  rows.map (List.zipWith (· ^^^ ·) d)

/-- Rho and pi: from (1, 0) on, the `t`-th lane of the walk (x, y) → (y, 2x + 3y), turned by (t + 1)(t + 2)/2, is the next one
of the walk. Lanes come with their places 5y + x. -/
def walk (rows : List (List W64)) : Nat → Nat → Nat → Nat → List (Nat × W64)
  | 0, _, _, _ => []
  | n + 1, t, x, y =>
    let z := (2 * x + 3 * y) % 5
    (5 * z + y, ((rows.getD y []).getD x 0).rotateLeft ((t + 1) * (t + 2) / 2 % 64)) :: walk rows n (t + 1) y z

def rhoPi (rows : List (List W64)) : List (List W64) :=
  let moved := (0, (rows.getD 0 []).getD 0 0) :: walk rows 24 0 1 0
  (List.range 5).map fun y => (List.range 5).map fun x => mget 0 moved (5 * y + x)

/-- Chi: a lane takes up the next but one where the next is 0. -/
def chiRow (r : List W64) : List W64 :=
  List.zipWith (· ^^^ ·) r (List.zipWith (fun a b => ~~~ a &&& b) (turnRow r) (turnRow (turnRow r)))

/-- Iota: the round's constant goes into lane (0, 0). -/
def iota (c : Nat) : List (List W64) → List (List W64)
  | (v :: r) :: rows => ((v ^^^ BitVec.ofNat 64 c) :: r) :: rows
  | rows => rows

/-- `n` rounds, the register at `r`. -/
def rounds : Nat → Nat → List (List W64) → List (List W64)
  | 0, _, rows => rows
  | n + 1, r, rows => rounds n (roundConst r).2 (iota (roundConst r).1 ((rhoPi (theta rows)).map chiRow))

/-- The permutation of 24 rounds. -/
def spongeRounds (rows : List (List W64)) : List (List W64) := rounds 24 1 rows

/-- A block of 136 bytes enters the first 17 lanes. -/
def mixBlock (rows : List (List W64)) (blk : List Byte) : List (List W64) :=
  (List.range 5).map fun y => (List.range 5).map fun x =>
    (rows.getD y []).getD x 0 ^^^ (if 5 * y + x < 17 then BitVec.ofNat 64 (field blk (40 * y + 8 * x) 8) else 0)

/-- The message with its suffix and padding: 0x1F after it, and the top bit of the last byte of its last block set. -/
def shakePad (bs : List Byte) : List Byte :=
  let body := bs ++ [0x1F] ++ List.replicate (135 - bs.length % 136) 0
  body.dropLast ++ [body.getLastD 0 ||| 0x80]

/-- Blocks taken in, one permutation each. -/
def soak : Nat → List (List W64) → List Byte → List (List W64)
  | 0, rows, _ => rows
  | n + 1, rows, bs => soak n (spongeRounds (mixBlock rows bs)) (bs.drop 136)

/-- Blocks given out. -/
def wring : Nat → List (List W64) → List Byte
  | 0, _ => []
  | n + 1, rows => (rows.flatten.flatMap fun v => toLE 8 v.toNat).take 136 ++ wring n (spongeRounds rows)

/-- `n` bytes of SHAKE256 of `bs`. -/
def shake256 (bs : List Byte) (n : Nat) : List Byte :=
  (wring ((n + 135) / 136) (soak (bs.length / 136 + 1) (List.replicate 5 (List.replicate 5 0)) (shakePad bs))).take n

end Sys2Proof.Machine
end

