-- ==== Sys2Proof/Machine/Regs.lean ====
section
/-! DEFINITION. The register pages (R484 to R487, R493): which pages there are, the stored 32-bit words of each class with
their writable, write-1-to-clear and sticky bits and reset values (the register tables of every chapter), and the
operations on stored words. Fields that reflect hardware state (Table 18.7) live in `State` and are read in
Machine/Pages.lean. -/
namespace Sys2Proof.Machine

/-- A stored word of a class: offset, how many and how far apart, RW bits, RW1C bits, sticky bits, reset value, and
whether it is the low word of a 64-bit register (R486). -/
structure RegRow where
  off : Nat
  count : Nat
  stride : Nat
  rw : W32
  w1c : W32
  sticky : W32
  reset : W32
  lo64 : Bool
  deriving DecidableEq, Repr

def ones32 : W32 := 0xFFFFFFFF

def rwRow (off : Nat) (m : W32) (r : W32 := 0) : RegRow := ⟨off, 1, 4, m, 0, 0, r, false⟩
def cntRow (off : Nat) (n : Nat := 1) : RegRow := ⟨off, n, 4, ones32, 0, 0, 0, false⟩
def w1cRow (off : Nat) (m : W32) : RegRow := ⟨off, 1, 4, 0, m, 0, 0, false⟩
def stkRow (off : Nat) (m : W32) (n : Nat := 1) : RegRow := ⟨off, n, 4, m, 0, m, 0, false⟩
def loRow (off : Nat) (m : W32) : RegRow := ⟨off, 1, 4, m, 0, 0, 0, true⟩

/-- The 64-bit register with address bits [47:6] at `off` (R8 low word first). -/
def addrRows (off : Nat) : List RegRow := [loRow off 0xFFFFFFC0, rwRow (off + 4) 0xFFFF]

/-- A 64-bit register all of whose bits are RW. -/
def wideRows (off : Nat) : List RegRow := [loRow off ones32, rwRow (off + 4) ones32]

/-- Tables 2.8 to 2.15, 3.7 to 3.10 and the other classes below the units. -/
def tileRows : List RegRow :=
  [rwRow 0x104 0x10, w1cRow 0x108 0x1F00, rwRow 0x110 0x1FFF] ++ addrRows 0x118 ++
  [rwRow 0x120 0x3FFF, cntRow 0x128 4] ++ wideRows 0x140 ++ [stkRow 0x148 ones32, w1cRow 0x180 0x1F1F,
   cntRow 0x184 2, rwRow 0x1A0 2 2, w1cRow 0x1A8 1, cntRow 0x1AC, loRow 0x1B0 0, cntRow 0x1BC, w1cRow 0x1D4 0x700,
   cntRow 0x1EC 2, cntRow 0x200 64]

def polRows : List RegRow :=
  ([0x100, 0x120, 0x140, 0x160] : List Nat).flatMap fun b =>
    wideRows b ++ wideRows (b + 8) ++ [loRow (b + 0x10) ones32, rwRow (b + 0x14) ones32 0x3FF00000, rwRow (b + 0x18) 0xF1]

def solverRows : List RegRow :=
  polRows ++ [w1cRow 0x1A0 0x7F00, loRow 0x1A8 0, cntRow 0x1B8, stkRow 0x1BC ones32, loRow 0x1C0 0, loRow 0x1C8 0,
   cntRow 0x1D0 2]

def wlRows : List RegRow :=
  ([0x100, 0x120, 0x140, 0x160] : List Nat).flatMap fun b => addrRows b ++ [w1cRow (b + 0xC) 0xC]

def flowRows : List RegRow :=
  [rwRow 0x100 2 2, w1cRow 0x104 0x1F00, rwRow 0x10C 0xFFFFF] ++ addrRows 0x110 ++
  [loRow 0x118 ones32, rwRow 0x11C 0xFFFF, loRow 0x128 0, loRow 0x130 0, cntRow 0x140 12, loRow 0x170 0]

def powerRows : List RegRow :=
  [rwRow 0x100 3, w1cRow 0x104 0x300, rwRow 0x108 0x7F0FFF 0x5F0FA0, rwRow 0x10C 0x737F 0x2230,
   stkRow 0x114 ones32, cntRow 0x118 5, ⟨0x12C, 1, 4, 0, 1, 1, 0, false⟩, ⟨0x180, 16, 4, 1, 0, 0, 0, false⟩,
   cntRow 0x1C0 16]

def farRows : List RegRow :=
  [rwRow 0x100 1 1, w1cRow 0x104 0xF00, stkRow 0x108 0x0FFF0000, cntRow 0x110 2, loRow 0x118 0,
   cntRow 0x120 2, ⟨0x140, 9, 4, 0x1FFF, 0, 0, 320, false⟩, rwRow 0x164 0x1FFF 192, rwRow 0x168 0x1FFF 128,
   rwRow 0x16C 0x1FFF 384, rwRow 0x170 0x1FFF 256, rwRow 0x174 0x1FFF 128, rwRow 0x178 0x1FFF 64, rwRow 0x17C 0x1FFF,
   cntRow 0x180 16, ⟨0x1C0, 16, 4, 0xFFFF, 0, 0, 0, false⟩, rwRow 0x200 0xFF00, cntRow 0x204 2]

def bootRows : List RegRow :=
  [w1cRow 0x100 0xF00, rwRow 0x10C 0xFFFFFF, cntRow 0x114, loRow 0x118 0, loRow 0x120 0, cntRow 0x128,
   rwRow 0x130 0xFFFF0070] ++ addrRows 0x138 ++ [cntRow 0x180 8]

/-- The stored words of a class, from the register tables (0x100 up). -/
def classRows (c : Nat) : List RegRow :=
  if c = 0x02 then [w1cRow 0x108 0x1F00, loRow 0x100 0, loRow 0x118 0, loRow 0x120 ones32, rwRow 0x124 0xFF]
  else if c = 0x03 then
    [⟨0x108, 1, 4, ones32, 0, ones32, 0, true⟩, stkRow 0x10C ones32, stkRow 0x118 ones32 5, cntRow 0x12C, loRow 0x130 0]
  else if c = 0x04 then
    [⟨0x100, 1, 4, 0, 0xBE, 0x02, 0, false⟩, ⟨0x104, 1, 4, 0, 0x1F, 0x1F, 0, false⟩, rwRow 0x108 0xFF0F 0x1E03,
     rwRow 0x10C ones32 0x02001000, cntRow 0x118, rwRow 0x11C 0x7FF, cntRow 0x124 2, loRow 0x130 0]
  else if c = 0x05 then
    [⟨0x100, 1, 4, 0, 0xFF, 0xFF, 1, false⟩, ⟨0x104, 1, 4, 0, 0xFFFF, 0xFFFF, 0, false⟩, cntRow 0x110,
     rwRow 0x118 0xFFFFF 0x303E8, stkRow 0x11C 0xFF]
  else if c = 0x06 then bootRows
  else if c = 0x07 then [w1cRow 0x100 0x30000, loRow 0x108 0xF0000000, rwRow 0x10C 0xFFFF, cntRow 0x110]
  else if c = 0x08 then [w1cRow 0x100 0x300] ++ wideRows 0x108 ++ wideRows 0x110
  else if c = 0x09 then powerRows
  else if c = 0x0A then [w1cRow 0x100 0xF, cntRow 0x104 5]
  else if c = 0x10 then [rwRow 0x100 0x01FF0000] ++ addrRows 0x108 ++ [w1cRow 0x110 0x30, cntRow 0x11C]
  else if 0x20 ≤ c ∧ c ≤ 0x24 then tileRows
  else if c = 0x25 then wlRows
  else if c = 0x26 then [w1cRow 0x100 0x700, cntRow 0x10C 3, w1cRow 0x118 0x1F, loRow 0x120 0]
  else if c = 0x27 then solverRows
  else if c = 0x28 then
    [rwRow 0x100 0x3F00] ++ addrRows 0x108 ++ [w1cRow 0x110 0x70, cntRow 0x118, loRow 0x120 0]
  else if c = 0x29 then [rwRow 0x100 0xF1 0x41, w1cRow 0x104 0x700, cntRow 0x108 2, loRow 0x110 0, cntRow 0x11C]
  else if c = 0x2A then farRows
  else if c = 0x30 then
    [rwRow 0x100 3 1, w1cRow 0x104 0x300, cntRow 0x110 5, cntRow 0x140 8, cntRow 0x180, cntRow 0x188]
  else if c = 0x31 then
    [rwRow 0x100 1, rwRow 0x104 ones32 0x40202040, rwRow 0x108 0xFFFF 0x1020, cntRow 0x114 2,
     ⟨0x120, 3, 8, ones32, 0, 0, 0, true⟩, ⟨0x124, 3, 8, ones32, 0, 0, 0, false⟩, cntRow 0x140 3, cntRow 0x150 3]
  else if c = 0x32 then [stkRow 0x100 1, w1cRow 0x104 0x100, cntRow 0x108 3]
  else if c = 0x34 then flowRows
  else if c = 0x35 then [rwRow 0x100 0xFFFFFF 0x4007D0, w1cRow 0x104 0x1F00, cntRow 0x108 6, loRow 0x128 0, cntRow 0x130]
  else if c = 0x36 then
    [rwRow 0x100 0xFFFF 0x2000, w1cRow 0x104 0x7F00] ++ addrRows 0x110 ++ [cntRow 0x120 4, cntRow 0x138]
  else if c = 0x37 then
    [rwRow 0x100 ones32 1, ⟨0x108, 3, 8, ones32, 0, 0, 0, true⟩, ⟨0x10C, 3, 8, ones32, 0, 0, 0, false⟩,
     w1cRow 0x124 0x300, loRow 0x128 0]
  else if c = 0x38 then
    [rwRow 0x100 0xFF00 0x1000, w1cRow 0x104 0x100, loRow 0x108 0xFFFFFFFE, rwRow 0x10C 0xFFFF, cntRow 0x11C,
     loRow 0x120 0, cntRow 0x128]
  else []

/-- EVRAW bits defined for a class (Table 23.4). -/
def evBits (c : Nat) : Nat :=
  if c = 0x01 ∨ c = 0x33 then 0
  else if c = 0x02 ∨ (0x20 ≤ c ∧ c ≤ 0x24) ∨ c = 0x27 ∨ c = 0x34 then 5
  else if c = 0x03 ∨ c = 0x0A ∨ c = 0x38 then 1
  else if c = 0x04 ∨ c = 0x36 then 6
  else if c = 0x05 ∨ c = 0x06 ∨ c = 0x09 ∨ c = 0x10 ∨ c = 0x25 ∨ c = 0x26 ∨ c = 0x28 ∨ c = 0x2A ∨ c = 0x35 ∨ c = 0x37
    then 4
  else if c = 0x07 ∨ c = 0x08 ∨ c = 0x30 ∨ c = 0x32 then 2
  else if c = 0x29 ∨ c = 0x31 then 3
  else 0

/-- Instances of a class (Table 23.4); 0: no such class. -/
def instances (c : Nat) : Nat :=
  if 0x01 ≤ c ∧ c ≤ 0x0A then 1
  else if c = 0x10 then 17
  else if 0x20 ≤ c ∧ c ≤ 0x23 then 256
  else if c = 0x24 then 128
  else if 0x25 ≤ c ∧ c ≤ 0x2A then 16
  else if c = 0x30 then 72
  else if c = 0x31 ∨ c = 0x34 then 2
  else if c = 0x32 ∨ c = 0x35 ∨ c = 0x36 ∨ c = 0x37 then 1
  else if c = 0x33 then 8
  else if c = 0x38 then 66
  else 0

def pageClass (pg : Nat) : Nat := pg / 256 % 64
def pageInst (pg : Nat) : Nat := pg % 256

/-- A page with a block behind it (R485, R493). -/
def pagePresent (pg : Nat) : Bool := decide (pg < 0x4000) && decide (pageInst pg < instances (pageClass pg))

/-! ### Page numbers of the blocks -/

def pgIdent : Nat := 0x0100
def pgTime : Nat := 0x0200
def pgRep : Nat := 0x0300
def pgFault : Nat := 0x0400
def pgReset : Nat := 0x0500
def pgBoot : Nat := 0x0600
def pgHost : Nat := 0x0700
def pgVport : Nat := 0x0800
def pgPower : Nat := 0x0900
def pgEvr : Nat := 0x0A00
def pgArc (u : Nat) : Nat := 0x1000 + u
def pgTile (t : Nat) : Nat := 0x2000 + t
def pgPart (p : Nat) : Nat := 0x2500 + p
def pgAsm (p : Nat) : Nat := 0x2600 + p
def pgSlv (p : Nat) : Nat := 0x2700 + p
def pgFpl (p : Nat) : Nat := 0x2800 + p
def pgNear (p : Nat) : Nat := 0x2900 + p
def pgFar (p : Nat) : Nat := 0x2A00 + p
def pgPort (i : Nat) : Nat := 0x3000 + i
def pgFab (f : Nat) : Nat := 0x3100 + f
def pgRing : Nat := 0x3200
def pgSet (k : Nat) : Nat := 0x3300 + k
def pgFlow (f : Nat) : Nat := 0x3400 + f
def pgColl : Nat := 0x3500
def pgCs : Nat := 0x3600
def pgVault : Nat := 0x3700
def pgCore (c : Nat) : Nat := 0x3800 + c

/-- The unit of the unit state table that a page holds (R391, R493). -/
def pageUnit (pg : Nat) : Option Nat :=
  let c := pageClass pg
  if ¬ pagePresent pg then none
  else if 0x20 ≤ c ∧ c ≤ 0x24 then some (pg - 0x2000)
  else if c = 0x30 then some (1664 + pageInst pg)
  else if c = 0x38 then some (1736 + pageInst pg)
  else none

/-- The row of the stored word at offset `o` of a class. -/
def rowAt (c o : Nat) : Option RegRow :=
  (classRows c).find? fun r => decide (r.off ≤ o) && decide ((o - r.off) % r.stride = 0) &&
    decide ((o - r.off) / r.stride < r.count)

/-- EVROUTE at cold reset (R487, R491): VEC the class, HOST and STEWARD, and MGMT on the fault, coded-state and flow
pages. -/
def routeReset (c : Nat) : W32 :=
  BitVec.ofNat 32 (c + 0x30000 + (if c = 0x04 ∨ c = 0x36 ∨ c = 0x34 then 0x40000 else 0))

/-- Cold-reset value of the stored word at offset `o` of page `pg`. -/
def resetWord (pg o : Nat) : W32 :=
  if o = 0x014 then BitVec.ofNat 32 (2 ^ evBits (pageClass pg) - 1)
  else if o = 0x018 then routeReset (pageClass pg)
  else match rowAt (pageClass pg) o with
    | some r => r.reset
    | none => 0

/-- Listed under `k`, always, so that a held 0 is held too. -/
def mhold {α : Type} (m : SMap α) (k : Nat) (v : α) : SMap α := mins (mdel m k) k v
def mheld {α : Type} : SMap α → Nat → Option α
  | [], _ => none
  | (j, v) :: m, k => if j = k then some v else mheld m k

/-- Word `o` of page `pg`, as stored. -/
def State.reg (s : State) (pg o : Nat) : W32 := mget (resetWord pg o) s.regs (pg * 0x1000 + o)

/-- Word `o` of page `pg` now stores `v`. -/
def State.setReg (s : State) (pg o : Nat) (v : W32) : State :=
  { s with regs := mput (resetWord pg o) s.regs (pg * 0x1000 + o) v }

/-- The 64-bit register at `o`. -/
def State.reg64 (s : State) (pg o : Nat) : Nat := (s.reg pg o).toNat + 2 ^ 32 * (s.reg pg (o + 4)).toNat

def State.setReg64 (s : State) (pg o : Nat) (v : Nat) : State :=
  (s.setReg pg o (BitVec.ofNat 32 v)).setReg pg (o + 4) (BitVec.ofNat 32 (v / 2 ^ 32))

/-- The bits of a word that hardware set in the present nanosecond (R11). -/
def State.setNow (s : State) (pg o : Nat) : W32 := mget 0 s.bitsNow (pg * 0x1000 + o)

/-- Hardware sets the bits of `m`; a write that would clear them in this nanosecond leaves them set (R11). -/
def State.orReg (s : State) (pg o : Nat) (m : W32) : State :=
  { s.setReg pg o (s.reg pg o ||| m) with bitsNow := mput 0 s.bitsNow (pg * 0x1000 + o) (s.setNow pg o ||| m) }

/-- By how much a counter has risen in the present nanosecond (R80, R261). -/
def State.cntNow (s : State) (pg o : Nat) : Nat := mget 0 s.cntsNow (pg * 0x1000 + o)

/-- A rise of a counter by `k` is noted. -/
def State.noteCnt (s : State) (pg o k : Nat) : State :=
  { s with cntsNow := mput 0 s.cntsNow (pg * 0x1000 + o) (s.cntNow pg o + k) }

/-- A nanosecond has passed: no bit was set, no counter rose, and nothing was written in the new one. -/
def State.newSets (s : State) : State := { s with bitsNow := [], cntsNow := [], wasNow := [], recWas := [] }

/-- What a word held as the present nanosecond began, if that was noted; else what it holds (R497). -/
def State.was (s : State) (pg o : Nat) : W32 := (mheld s.wasNow (pg * 0x1000 + o)).getD (s.reg pg o)

/-- What a word holds is noted, once a nanosecond. -/
def State.noteWas (s : State) (pg o : Nat) : State :=
  { s with wasNow := if (mheld s.wasNow (pg * 0x1000 + o)).isSome then s.wasNow else mhold s.wasNow (pg * 0x1000 + o) (s.reg pg o) }

/-- The record of a page that a read meets: the old one in the nanosecond in which a new one is written (R497). -/
def State.recAt (s : State) (pg : Nat) : List Byte := (mheld s.recWas pg).getD (mget [] s.err pg)

/-- Bits [hi:lo] of a stored word. -/
def State.fld (s : State) (pg o hi lo : Nat) : Nat := bits (s.reg pg o).toNat hi lo

/-- Is bit `i` of a stored word set? -/
def State.bit (s : State) (pg o i : Nat) : Bool := (s.reg pg o).getLsbD i

/-- Bits [hi:lo] of a stored word now hold `v`. -/
def State.setFld (s : State) (pg o hi lo v : Nat) : State :=
  let m : W32 := BitVec.ofNat 32 ((2 ^ (hi + 1 - lo) - 1) * 2 ^ lo)
  s.setReg pg o ((s.reg pg o &&& ~~~ m) ||| (BitVec.ofNat 32 (v * 2 ^ lo) &&& m))

/-- A counter rises by `k` and holds at `0xFFFF_FFFF`. -/
def State.count (s : State) (pg o : Nat) (k : Nat := 1) : State :=
  (s.setReg pg o (BitVec.ofNat 32 (min (2 ^ 32 - 1) ((s.reg pg o).toNat + k)))).noteCnt pg o k

/-- A field counter rises by one and holds at its largest value. -/
def State.countFld (s : State) (pg o hi lo : Nat) : State :=
  s.setFld pg o hi lo (min (2 ^ (hi + 1 - lo) - 1) (s.fld pg o hi lo + 1))

/-- What a reset leaves of word `o` of page `pg` that stores `v`: its sticky bits, and its reset value beside them (R416, R496). -/
def stickyPart (pg o : Nat) (v : W32) : W32 :=
  let st : W32 := ((rowAt (pageClass pg) o).map (·.sticky)).getD 0
  (v &&& st) ||| (resetWord pg o &&& ~~~ st)

/-- The words of a page go back to their reset values, but for their sticky bits (R416 step 2, R496), and but for the
words that `keep` names. -/
def State.resetPage (s : State) (pg : Nat) (keep : Nat → Bool) : State :=
  let mine := s.regs.filter fun e => e.1 / 0x1000 = pg
  let s0 := { s with
    regs := s.regs.filter fun e => e.1 / 0x1000 ≠ pg
    wasNow := s.wasNow.filter fun e => e.1 / 0x1000 ≠ pg
    loHold := s.loHold.filter fun e => e.1 / 0x1000 ≠ pg
    hiLatch := s.hiLatch.filter fun e => e.1 / 0x1000 ≠ pg }
  mine.foldr (fun e a =>
    a.setReg pg (e.1 % 0x1000) (if keep (e.1 % 0x1000) then e.2 else stickyPart pg (e.1 % 0x1000) e.2)) s0

end Sys2Proof.Machine
end

