-- ==== Sys2Proof/Machine/Events.lean ====
section
/-! DEFINITION. Access to the parts of the state, the step angle (R52), error records (R390), events and their routing
(R30, R489 to R492), and variance counting (R256, R257). -/
namespace Sys2Proof.Machine

/-! ### Parts of the state -/

def State.tile (s : State) (t : Nat) : Tile := mget Tile.reset s.tiles t
def State.setTile (s : State) (t : Nat) (x : Tile) : State := { s with tiles := mput Tile.reset s.tiles t x }
def State.arcu (s : State) (u : Nat) : ArcUnit := mget ArcUnit.reset s.arcs u
def State.setArcu (s : State) (u : Nat) (x : ArcUnit) : State := { s with arcs := mput ArcUnit.reset s.arcs u x }
def State.part (s : State) (p : Nat) : Part := mget Part.reset s.parts p
def State.setPart (s : State) (p : Nat) (x : Part) : State := { s with parts := mput Part.reset s.parts p x }
def State.port (s : State) (i : Nat) : Port := mget Port.reset s.ports i
def State.setPort (s : State) (i : Nat) (x : Port) : State := { s with ports := mput Port.reset s.ports i x }
def State.core_ (s : State) (c : Nat) : Core_ := mget Core_.reset s.cores c
def State.setCore (s : State) (c : Nat) (x : Core_) : State := { s with cores := mput Core_.reset s.cores c x }
def State.unit (s : State) (u : Nat) : UEntry := mget UEntry.off s.ust u
def State.setUnit (s : State) (u : Nat) (x : UEntry) : State := { s with ust := mput UEntry.off s.ust u x }
def State.histOf (s : State) (u : Nat) : Hist := mget Hist.clean s.hist u
def State.ctx (s : State) (c : Nat) : Ctx := mget Ctx.none_ s.ctxs c
def State.setCtx (s : State) (c : Nat) (x : Ctx) : State := { s with ctxs := mput Ctx.none_ s.ctxs c x }
def State.job (s : State) (t : BitVec 16) : Job := mget Job.free s.jobs t.toNat
def State.setJob (s : State) (t : BitVec 16) (x : Job) : State := { s with jobs := mput Job.free s.jobs t.toNat x }
def State.hring (s : State) (r : Nat) : HRing := mget HRing.reset s.hrings r
def State.setHring (s : State) (r : Nat) (x : HRing) : State := { s with hrings := mput HRing.reset s.hrings r x }
def State.rset (s : State) (k : Nat) : RouteSet := mget RouteSet.empty s.sets k
def State.setRset (s : State) (k : Nat) (x : RouteSet) : State := { s with sets := mput RouteSet.empty s.sets k x }
def State.win (s : State) (w : Nat) : Win := mget Win.none_ s.wins w

/-- `n` free bytes. -/
def State.freshBytes (s : State) (n : Nat) : List Byte × State :=
  ((List.range n).map fun i => Config.freeByte (s.fresh + i), { s with fresh := s.fresh + n })

/-- The bytes of `[a, a + n)` are undefined (R86, R276): free bytes (log 6). -/
def State.openBytes (s : State) (a n : Nat) : State :=
  let cells := (List.range n).filterMap fun i =>
    let b := Config.freeByte (s.fresh + i)
    if b = 0 then none else some (a + i, b)
  let lo := s.mem.cells.filter fun c => decide (c.1 < a)
  let hi := s.mem.cells.filter fun c => decide (a + n ≤ c.1)
  { s with
    fresh := s.fresh + n
    mem := ⟨lo ++ cells ++ hi, s.mem.poison.filter fun c => c.1 < a || a + n ≤ c.1⟩ }

/-- Add to what the module sent out. -/
def State.send (s : State) (m : OutMsg) : State := { s with out := s.out ++ [m] }

/-- A (tag, generation) is LIVE (R315). -/
def State.live (s : State) (tag : BitVec 16) (gen : BitVec 8) : Bool :=
  (s.job tag).st == .live && (s.job tag).gen == gen

/-- The slice map's physical slice of logical slice `l` of partition `p` (R84); the identity at reset. -/
def State.slice (s : State) (p l : Nat) : Nat := (s.part p).smap.getD l l

/-- Physical tile carrying logical tile `j` of partition `p`, below its count. -/
def State.ptile (s : State) (p j : Nat) : Option Nat :=
  if j < (s.part p).n then ((s.part p).tmap[j]?).map (fun t => p * 72 + t) else none

/-- Sequencer of a tile: OFF unless its unit is ACTIVE or AUDIT (Table 3.1). -/
def State.tileOn (s : State) (t : Nat) : Bool := (s.unit t).st == .active || (s.unit t).st == .audit

/-! ### The step angle (R52, R54) -/

def State.angle (s : State) : Nat :=
  if s.tb.period = 0 then 0 else min 65535 ((s.tb.time.toNat - s.tb.start.toNat) * 65536 / s.tb.period)

/-- Guard `g` is reached: there is a guard, angle scheduling is on, and the angle is at least `g` (R54, R61). -/
def State.guardReached (s : State) (g : Nat) : Bool :=
  decide (g ≠ 0) && decide (s.tb.period ≠ 0) && decide (g ≤ s.angle)

/-! ### Error records (R390, R508) -/

/-- What a block says in its record; `unit` 0xFFFF names no unit. -/
structure Rec where
  unit : Nat
  cls : Nat
  flags : Nat
  op : Nat
  pc : Nat
  addr : Nat
  code : Nat
  deriving DecidableEq, Repr

/-- Die (0 to 15 C-dies, 16, 17 P-dies, 18, 19 F-dies, 32 + p stack p) of a page (Table 22.7). -/
def pageDie (pg : Nat) : Nat :=
  let c := pageClass pg; let i := pageInst pg
  if c = 0x02 ∨ c = 0x32 ∨ c = 0x33 ∨ c = 0x35 then 18
  else if c = 0x10 then (if i < 16 then i else 18)
  else if 0x20 ≤ c ∧ c ≤ 0x24 then (pg - 0x2000) / 72
  else if 0x25 ≤ c ∧ c ≤ 0x29 then i
  else if c = 0x2A then 32 + i
  else if c = 0x30 then 18 + i / 36
  else if c = 0x31 ∨ c = 0x34 then 18 + i
  else if c = 0x38 then (if i < 0x40 then 16 + i / 32 else 16 + (i - 0x40))
  else 16

/-- Rail of a page (Table 22.7). -/
def pageRail (pg : Nat) : Nat :=
  let c := pageClass pg; let i := pageInst pg
  if c = 0x02 ∨ c = 0x32 ∨ c = 0x33 ∨ c = 0x35 then 50
  else if c = 0x10 then (if i < 16 then i else 50)
  else if 0x20 ≤ c ∧ c ≤ 0x24 then (pg - 0x2000) / 72
  else if 0x25 ≤ c ∧ c ≤ 0x28 then i
  else if c = 0x29 then 16 + i
  else if c = 0x2A then 32 + i
  else if c = 0x30 then 52 + i / 36
  else if c = 0x31 ∨ c = 0x34 then 50 + i
  else if c = 0x38 then (if i < 0x40 then 48 + i / 32 else 48 + (i - 0x40))
  else 48

/-- A signed number in `n` bytes. -/
def leInt (n : Nat) (v : Int) : List Byte := toLE n (v % (2 ^ (8 * n) : Nat)).toNat

def State.dieTemp (s : State) (d : Nat) : Int :=
  if 32 ≤ d then (s.part (d - 32)).far.temp.toNat else s.power.sample.temps.getD d 0

/-- The 64 bytes of a record written by page `pg` now (Table 17.1). -/
def State.recBytes (s : State) (pg : Nat) (r : Rec) : List Byte :=
  let rail := pageRail pg
  let b := toLE 2 pg ++ toLE 2 r.unit ++ toLE 1 r.cls ++ toLE 1 r.flags ++ toLE 2 r.op ++ toLE 4 s.tb.stepIdx.toNat ++
    toLE 2 s.angle ++ toLE 2 r.pc ++ toLE 8 s.tb.time.toNat ++ leInt 2 (s.dieTemp (pageDie pg)) ++
    toLE 2 (s.power.sample.volts.getD rail 0) ++ toLE 1 rail ++ toLE 3 0 ++ toLE 8 r.addr ++ toLE 16 r.code ++
    toLE 4 s.errSeq.toNat
  b ++ toLE 4 (crc32c b).toNat

/-! ### Deliveries (R489 to R492) -/

/-- A delivery dropped: EVR_STAT's overflow bit and EVR_DROP (R492). -/
def State.drop (s : State) (b : W32) : State := (s.orReg pgEvr 0x100 b).count pgEvr 0x114

/-- Put a delivery into the queue of a destination; false when it was dropped. -/
def State.enqueueRaw (s : State) (d : Dest) (x : Delivery) : State × Bool :=
  match d with
  | .host => if s.router.host.length < 4096 then ({ s with router.host := s.router.host ++ [x] }, true)
             else (s.drop 1, false)
  | .steward => if s.router.stew.length < 4096 then ({ s with router.stew := s.router.stew ++ [x] }, true)
                else (s.drop 2, false)
  | .mgmt => if s.router.mgmt.length < 4096 then ({ s with router.mgmt := s.router.mgmt ++ [x] }, true)
             else (s.drop 4, false)

/-- Where an EVROUTE value sends a delivery: a host delivery goes to the steward while the host link is down, merged
with the steward's own (R491); a steward delivery goes to the host after a second watchdog bite (R420). -/
def State.dests (s : State) (route : W32) : List Dest × Bool :=
  let redir := route.getLsbD 16 && !s.hostp.up && !s.rst.warmReq
  let host := route.getLsbD 16 && (s.hostp.up || s.rst.warmReq) || (route.getLsbD 17 && s.rst.warmReq)
  let stew := (route.getLsbD 17 && !s.rst.warmReq) || redir
  ((if host then [.host] else []) ++ (if stew then [.steward] else []) ++
    (if route.getLsbD 18 then [.mgmt] else []), redir)

/-- Deliver to each destination in turn; the last result says whether all were taken. -/
def State.enqueueAll (s : State) : List Dest → Delivery → State × Bool
  | [], _ => (s, true)
  | d :: ds, x =>
    let (s1, ok) := s.enqueueRaw d x
    let (s2, ok2) := s1.enqueueAll ds x
    (s2, ok && ok2)

/-- EVFIRST as event `i` is raised: the lowest bit set in the cycle in which EVRAW was all zeros, and then as it was (R490, R497). -/
def State.firstOf (s : State) (pg i : Nat) : W32 :=
  if s.was pg 0x010 ≠ 0 then s.was pg 0x01C
  else if s.reg pg 0x010 = 0 ∨ i < s.fld pg 0x01C 4 0 then BitVec.ofNat 32 (0x100 + i)
  else s.reg pg 0x01C

/-- Set an EVRAW bit, with EVFIRST (R489, R490). -/
def State.setRaw (s : State) (pg i : Nat) : State :=
  (((s.noteWas pg 0x010).noteWas pg 0x01C).orReg pg 0x010 (1 <<< i)).setReg pg 0x01C (s.firstOf pg i)

/-- Deliver event `i` of a page by its EVROUTE, that of before a write of this cycle (R497), with a record or none. -/
def State.deliver (s : State) (pg i : Nat) (r : Option (List Byte)) : State × Bool × Bool :=
  let route := s.was pg 0x018
  let (ds, redir) := s.dests route
  let x : Delivery := ⟨pg, some i, bits route.toNat 10 0, s.reg pg 0x010, s.tb.time, r, s.router.nextEv,
    ds.contains .host && ds.contains .steward⟩
  let (s1, ok) := { s with router.nextEv := s.router.nextEv + 1 }.enqueueAll ds x
  (if redir then s1.count pgEvr 0x110 else s1, ok, ds.contains .steward)

/-- EVR_OVF on the event router page (R492). -/
def State.raiseOvf (s : State) : State :=
  let had := s.bit pgEvr 0x010 0
  let s1 := s.setRaw pgEvr 0
  if ¬ had ∧ s.bit pgEvr 0x014 0 then (s1.deliver pgEvr 0 none).1 else s1

/-- A record alone in the steward's queue (R393). -/
def State.recToSteward (s : State) (pg : Nat) (b : List Byte) : State :=
  let x : Delivery := ⟨pg, none, 0, s.reg pg 0x010, s.tb.time, some b, s.router.nextEv, false⟩
  let (s1, ok) := { s with router.nextEv := s.router.nextEv + 1 }.enqueueRaw (if s.rst.warmReq then .host else .steward) x
  if ok then s1 else s1.raiseOvf

/-- `x` among waiting deliveries, ahead of those that its page raised after it (R30). -/
def insertDelivery (x : Delivery) : List Delivery → List Delivery
  | [] => [x]
  | y :: r => if y.page = x.page ∧ x.ord < y.ord then x :: y :: r else y :: insertDelivery x r

/-- A delivery to the host that finds the link down goes to the steward: once, when the steward has one of its own, and in its
page's order (R30, R491). -/
def State.redirect (s : State) (x : Delivery) : State :=
  let s1 := s.count pgEvr 0x110
  if x.both then s1
  else if s1.router.stew.length < 4096 then { s1 with router.stew := insertDelivery x s1.router.stew }
  else (s1.drop 2).raiseOvf

/-- Raise event `i` of page `pg`, with the record written in the same cycle if there is one (R30, R393, R489). A bit that stood as the
cycle began is not delivered again (R497). -/
def State.raiseWith (s : State) (pg i : Nat) (r : Option (List Byte)) : State :=
  let had := s.bit pg 0x010 i || (s.was pg 0x010).getLsbD i
  let en := s.bit pg 0x014 i
  let s1 := s.setRaw pg i
  if ¬ had ∧ en then
    let (s2, ok, stew) := s1.deliver pg i r
    let s3 := if ok then s2 else s2.raiseOvf
    match r with
    | some b => if stew then s3 else s3.recToSteward pg b
    | none => s3
  else match r with
    | some b => s1.recToSteward pg b
    | none => s1

/-- Raise event `i` of page `pg`. -/
def State.raise (s : State) (pg i : Nat) : State := s.raiseWith pg i none

/-- Write an error record to the page's ERRREC: PGSTAT.ERR, the record and the next SEQ (R390). -/
def State.putRec (s : State) (pg : Nat) (b : List Byte) : State :=
  { s with err := mput [] s.err pg b, recWas := if (mheld s.recWas pg).isSome then s.recWas else mhold s.recWas pg (mget [] s.err pg)
           errSet := if s.errSet.contains pg then s.errSet else pg :: s.errSet
           errSeq := s.errSeq + 1 }

/-- Write a record and raise event `ev` with it, or send the record alone. -/
def State.report (s : State) (pg : Nat) (r : Rec) (ev : Option Nat) : State :=
  let b := s.recBytes pg r
  let s1 := s.putRec pg b
  match ev with
  | some i => s1.raiseWith pg i (some b)
  | none => s1.recToSteward pg b

/-! ### Policy conflicts (R480) -/

/-- A conflict of source `src` (1 to 5): its counters, POLICY_CONFLICT, and a record at most once a millisecond. -/
def State.conflict (s : State) (src : Nat) : State :=
  let s1 := (s.count pgPower (0x114 + 4 * src)).count pgPower 0x114
  let last := mget 0 s.power.confAt src
  if last = 0 ∨ last + 1000000 ≤ s.clk + 1 then
    { s1.report pgPower ⟨0xFFFF, 7, 0, 0, 0, 0, src⟩ (some 0) with power.confAt := mput 0 s.power.confAt src (s.clk + 1) }
  else s1.raise pgPower 0

/-! ### Tokens (R58, R78) -/

/-- Tile token counter `i` rises by one; a wrap sets TOKWRAP (R78). -/
def State.tileTok (s : State) (t i : Nat) : State :=
  let v := s.reg (pgTile t) (0x200 + 4 * i)
  let s1 := (s.setReg (pgTile t) (0x200 + 4 * i) (v + 1)).noteCnt (pgTile t) (0x200 + 4 * i) 1
  if v = ones32 then (s1.orReg (pgTile t) 0x108 0x800).raise (pgTile t) 3 else s1

/-- Increments of the present nanosecond, `now`, among those that an arc unit lists. -/
def ArcUnit.incsNow (a : ArcUnit) (now : Nat) : SMap W32 := if a.incAt = now + 1 then a.incs else []

/-- Those among them that a completed arc made. -/
def ArcUnit.incsArcNow (a : ArcUnit) (now : Nat) : SMap W32 := if a.incAt = now + 1 then a.incsArc else []

/-- Arc token counter `i` rises by one, modulo 2^32 (R58), in nanosecond `now`; `arc`: a completed arc makes the increment, which
other arcs meet in the next nanosecond only (R64). -/
def ArcUnit.inc (a : ArcUnit) (now i : Nat) (arc : Bool) : ArcUnit :=
  let one := fun (m : SMap W32) => mput 0 m i (mget 0 m i + 1)
  { a with
    toks := one a.toks, incAt := now + 1, incs := one (a.incsNow now)
    incsArc := if arc then one (a.incsArcNow now) else a.incsArcNow now }

def State.arcTok (s : State) (u i : Nat) (arc : Bool := false) : State := s.setArcu u ((s.arcu u).inc s.clk i arc)

/-- What counter `i` holds for a test of the present nanosecond (R59, R64). -/
def State.arcTokSeen (s : State) (u i : Nat) : W32 := mget 0 (s.arcu u).toks i - mget 0 ((s.arcu u).incsArcNow s.clk) i

/-! ### Variance (R256, R257, R262) -/

/-- Rise of a 64-bit counter that holds at its largest value. -/
def State.count64 (s : State) (pg o : Nat) : State := (s.setReg64 pg o (min (2 ^ 64 - 1) (s.reg64 pg o + 1))).noteCnt pg o 1

/-- The present nanosecond's first variance event: the lower source code, and within a code the lower unit (R261); kept beside the
first word of REP_VFIRST. -/
def State.varFirst (s : State) (code unit : Nat) : Nat :=
  let had := s.cntNow pgRep 0x130
  if had = 0 then code + 16 * unit
  else if code < had % 16 ∨ (code = had % 16 ∧ unit < had / 16) then code + 16 * unit
  else had

/-- REP_VFIRST names the first event of a step, with the step, and VARCOUNT is raised (R257). -/
def State.varRecord (s : State) (first : Nat) (step : W32) : State :=
  ((s.setReg pgRep 0x130 (BitVec.ofNat 32 first)).setReg pgRep 0x134 step).raise pgRep 0

/-- One variance event of a source (1 to 5) at a unit. The events of a nanosecond that changes REP_VARSTEP from 0 are one first
event (R257, R261). -/
def State.variance (s : State) (code unit : Nat) : State :=
  let first := decide ((s.reg pgRep 0x110).toNat = s.cntNow pgRep 0x110)
  let f := s.varFirst code unit
  let s1 := ((s.count64 pgRep 0x108).count pgRep 0x110).count pgRep (0x118 + 4 * (code - 1))
  let s2 := { s1 with cntsNow := mput 0 s1.cntsNow (pgRep * 0x1000 + 0x130) f }
  if first then s2.varRecord f s.tb.stepIdx else s2

end Sys2Proof.Machine
end

