-- ==== Sys2Proof/Machine/Ops.lean ====
section
/-! DEFINITION. The module address map (R264, R265), field-plane addresses (R235, R236), reads and writes of the tiers and
tile stores with the field plane's and the coded state's checks (R239, R367, R368, R372, R379, R384), and arc
completion (R60). -/
namespace Sys2Proof.Machine

def sliceBytes : Nat := 0x03800000
def nearBase : Nat := 0x010000000000
def tileBase : Nat := 0x011000000000
def metaOff : Nat := 0xFC000000

/-- Base of partition `p`'s near tier. -/
def nearOf (p : Nat) : Nat := nearBase + p * 0x100000000

/-- Base of partition `p`'s metadata region (R83). -/
def metaOf (p : Nat) : Nat := nearOf p + metaOff

/-- Where physical tile `t`'s store lies (R82). -/
def tstoreOf (t : Nat) : Nat := tileBase + t * 0x200000

def imemOf (t : Nat) : Nat := tstoreOf t + 0x180000

/-- The regions of Table 12.1 and Table 3.3. -/
inductive Region where
  | far (p : Nat)
  | near (p : Nat)
  | tstore (t : Nat)
  | imem (t : Nat)
  | page
  | window
  | hole
  deriving DecidableEq, Repr

def regionOf (a : Nat) : Region :=
  if a < 0x10000000000 then .far (a / 0x1000000000)
  else if a < 0x11000000000 then .near ((a - nearBase) / 0x100000000)
  else if a < 0x11090000000 then
    let o := (a - tileBase) % 0x200000
    let t := (a - tileBase) / 0x200000
    if o < 0x180000 then .tstore t else if o < 0x190000 then .imem t else .hole
  else if 0x12000000000 ≤ a ∧ a < 0x12004000000 then .page
  else if 0x13000000000 ≤ a ∧ a < 0x1000000000000 then .window
  else .hole

def Region.sameTier : Region → Region → Bool
  | .far _, .far _ => true
  | .near _, .near _ => true
  | .tstore t, .tstore u => t == u
  | .imem t, .imem u => t == u
  | _, _ => false

/-- Who accesses memory: a unit or service of the module, a tile's program, the fabric's inbound side, the host, the steward,
or the steward's swaps, rebuilds and restores that R239 exempts. -/
inductive Who where
  | unit
  | tile
  | fabric
  | host
  | steward
  | exempt
  deriving DecidableEq, Repr

/-- `[a, a + n)` meets `[b, b + m)`. -/
def overlaps (a n b m : Nat) : Bool := decide (a < b + m) && decide (b < a + n) && decide (n ≠ 0) && decide (m ≠ 0)

/-- `[a, a + n)` of the near tier meets a partition's metadata. -/
def meetsMeta (a n : Nat) : Bool :=
  decide (nearBase ≤ a) && decide (a < tileBase) && decide (metaOff < (a - nearBase) % 0x100000000 + n)

/-- The regions kept for the F-dies and the steward (R313), for the fault log (R393), and, against tiles, the fabric and the
host, for the module's own services (R20). -/
def State.guarded (s : State) (w : Who) (a n : Nat) : Bool :=
  match w with
  | .steward | .exempt => false
  | _ =>
    overlaps a n s.ctxBase 0x4000000 || overlaps a n s.rplBase 0x1000000 ||
      (w != .host && overlaps a n s.logBase 0x40000) || (w != .unit && meetsMeta a n)

/-- Channel of a far-tier address (R272). -/
def farChannel (a : Nat) : Nat := (bits a 15 11) ^^^ (bits a 20 16)

/-- Number of live channels. -/
def liveCount (m : W32) : Nat := ((List.range 32).filter fun i => m.getLsbD i).length

/-- Channel that serves a far-tier address: R272's, or in a compact map the (g mod L)-th of those it is made of (R276). -/
def FarPort.channel (f : FarPort) (a : Nat) : Nat :=
  if f.degraded then
    let on := (List.range 32).filter fun i => f.cmap.getLsbD i
    on.getD (a % 0x1000000000 / 2048 % on.length) 0
  else farChannel a

/-- A far-tier access meets no fenced and no untrained channel, and lies within a compact map's limit (R276, R412). -/
def State.farOk (s : State) (p a n : Nat) : Bool :=
  let f := (s.part p).far
  if f.live = ones32 ∧ f.dead = 0 then true
  else
    (!f.degraded || decide (a % 0x1000000000 + n ≤ liveCount f.cmap * 0x80000000)) &&
      (List.range ((a % 2048 + n + 2047) / 2048)).all fun g =>
        let c := f.channel (a / 2048 * 2048 + g * 2048)
        f.live.getLsbD c && !f.dead.getLsbD c

/-- As `farOk`, of an access that may run from a stack into the next: each stack's map judges its own granules. -/
def State.farSpan (s : State) (a n : Nat) : Bool :=
  let p := a / 0x1000000000
  let k := (p + 1) * 0x1000000000 - a
  if n ≤ k then s.farOk p a n else s.farOk p a k && s.farOk (p + 1) (a + k) (n - k)

/-- A tile's access never runs from one slice into the next (R85). -/
def oneSlice (a n : Nat) : Bool :=
  match regionOf a with
  | .near _ => (a - nearBase) / 0x100000000 == (a + n - 1 - nearBase) / 0x100000000 &&
      (a - nearBase) % 0x100000000 / sliceBytes == (a + n - 1 - nearBase) % 0x100000000 / sliceBytes
  | _ => true

/-- The partition answers: it is not asleep and not in reset (R417, R474). -/
def State.partUp (s : State) (p : Nat) : Bool := !(s.part p).inReset && (s.part p).sleep == .awake

/-- The partition of a region. -/
def Region.part : Region → Nat
  | .far p => p
  | .near p => p
  | .tstore t => t / 72
  | .imem t => t / 72
  | _ => 0

/-- An access of `n` bytes at physical address `a` meets only what it may (R20, R85, R265, R276, R313, R417). -/
def State.accessOk (s : State) (w : Who) (a n : Nat) : Bool :=
  n == 0 ||
  ((regionOf a).sameTier (regionOf (a + n - 1)) && !s.guarded w a n &&
    (w == .exempt || (s.partUp (regionOf a).part && s.partUp (regionOf (a + n - 1)).part)) &&
    (match regionOf a with
     | .far _ => s.farSpan a n
     | _ => true) && (w != .tile || oneSlice a n))

/-! ### Field-plane addresses (R235, R236) -/

/-- Active entries of partition `p`'s field table. -/
def State.fplEntries (s : State) (p : Nat) : List FplEnt := ((s.part p).fpl.active).getD []

/-- The held mark that releases a step in this nanosecond (R50, R51). -/
def State.releaseDue (s : State) : Option Held :=
  match s.tb.held with
  | none => none
  | some h =>
    if s.tb.timevalid && !s.tb.instep && decide (h.mark.release.toNat ≤ s.tb.time.toNat) && decide (h.arrival < s.clk) &&
        (!h.early || decide (s.tb.arrivedNs < s.clk)) then some h
    else none

/-- Read half of the current step (R236). -/
def State.readHalf (s : State) : Nat := s.tb.stepIdx.toNat % 2

def FplEnt.covers (e : FplEnt) (l off n : Nat) : Bool :=
  decide (e.first ≤ l) && decide (l < e.first + e.nsl) && decide (e.off ≤ off) && decide (off + n ≤ e.off + e.len)

/-- Offset up to which the slices of partition `p`'s running swap have changed places (R87). -/
def State.swapEdge (s : State) (p : Nat) : Nat :=
  match (s.part p).swap with
  | w :: _ => w.segs * 65536
  | [] => 0

/-- The physical slice that holds offset `off` of logical slice `l`: the segments already swapped by a running swap are at their new
place, the others at the old one (R87). -/
def State.place (s : State) (p l off : Nat) : Nat :=
  let j := s.slice p l
  match (s.part p).swap with
  | w :: _ => if w.segs * 65536 ≤ off then j else if j = w.a then w.b else if j = w.b then w.a else j
  | [] => j

/-- Physical address of offset `off` of logical slice `l`. -/
def State.slicePhys (s : State) (p l off : Nat) : Nat := nearOf p + s.place p l off * sliceBytes + off

/-- Where `n` bytes of logical slice address `part : l : off` lie, if within the slice (R85): in one piece, or in two when a running
swap has moved a part of them (R87). -/
def State.sliceParts (s : State) (p l off n : Nat) : Option (List (Nat × Nat)) :=
  let cut := s.swapEdge p - off
  if ¬ (l < 72 ∧ off + n ≤ sliceBytes) then none
  else if cut = 0 ∨ n ≤ cut then some [(s.slicePhys p l off, n)]
  else some [(s.slicePhys p l off, cut), (s.slicePhys p l (off + cut), n - cut)]

/-- Where the `n` bytes at a descriptor address field lie (R235): a module address, or a field-plane address translated
through the slice map and, with HSEL, to the step's half. `none`: an error response. -/
def State.xlateParts (s : State) (a : W64) (n : Nat) : Option (List (Nat × Nat)) :=
  let v := a.toNat
  if n = 0 then some [(v % 2 ^ 48, 0)]
  else if a.getLsbD 63 then
    let p := bits v 36 33
    let l := bits v 32 26
    let off := bits v 25 0
    let h := bits v 62 61
    if bits v 60 37 ≠ 0 then none
    else if h = 0 then s.sliceParts p l off n
    else if h = 3 ∨ (s.part p).fpl.active.isNone then none
    else match (s.fplEntries p).find? fun e => e.kind == 1 && e.covers l off n with
      | none => none
      | some e =>
        let half := if h = 1 then s.readHalf else 1 - s.readHalf
        s.sliceParts p l (off + half * e.len) n
  else if v < 2 ^ 48 then some [(v, n)] else none

/-- Physical address of the first byte at a descriptor address field of `n` bytes. -/
def State.xlate (s : State) (a : W64) (n : Nat) : Option Nat := (s.xlateParts a n).bind fun l => l.head?.map (·.1)

/-- Logical slice whose offset `off` lies in physical slice `j` of partition `p`. -/
def State.logicalSlice (s : State) (p j off : Nat) : Nat :=
  ((List.range 72).find? fun l => s.place p l off == j).getD 72

/-- The parts of a near-tier access by partition and logical slice, the metadata left out: partition, slice, offset, bytes. -/
def State.pieces (s : State) : Nat → Nat → Nat → List (Nat × Nat × Nat × Nat)
  | 0, _, _ => []
  | f + 1, a, n =>
    let p := (a - nearBase) / 0x100000000
    let o := (a - nearBase) % 0x100000000
    if n = 0 then []
    else if metaOff ≤ o then s.pieces f (nearOf (p + 1)) (n - (0x100000000 - o))
    else
      let off := o % sliceBytes
      let k := min n (if off < s.swapEdge p then s.swapEdge p - off else sliceBytes - off)
      (p, s.logicalSlice p (o / sliceBytes) off, off, k) :: s.pieces f (a + k) (n - k)

/-! ### Coded segments (R364 to R369) -/

/-- Segments of one slice of a region of `len` bytes. -/
def segsOf (len : Nat) : Nat := (len + 65535) / 65536

/-- The field entry a coding-map entry names. -/
def State.mapField (s : State) (m : MapEnt) : Option FplEnt := (s.fplEntries m.part)[m.fent]?

/-- Data segments of a coding-map entry. -/
def State.mapSegs (s : State) (m : MapEnt) : Nat :=
  match s.mapField m with
  | some e => m.sln * segsOf e.len
  | none => 0

/-- First data segment of the `i`-th coding-map entry (R365). -/
def State.segBase (s : State) (map : List MapEnt) (i : Nat) : Nat :=
  ((map.take i).map s.mapSegs).foldl (· + ·) 0

/-- Coding-map entries, with their index, of the loaded group. -/
def State.codingMap (s : State) : List (Nat × MapEnt) :=
  match s.cs.group with
  | some g => (List.range g.map.length).zip g.map
  | none => []

/-- What a write to `[off, off + n)` of logical slice `l` of partition `p` meets of the coded PAIR regions: for each half that it
reaches the field entry, the half, and the first and last data segments of it that it reaches. -/
def State.codedHits (s : State) (p l off n : Nat) : List (Nat × Nat × Nat × Nat) :=
  s.codingMap.flatMap fun (i, m) =>
    if m.part ≠ p then []
    else match s.mapField m with
      | none => []
      | some e =>
        if e.kind ≠ 1 ∨ l < e.first + m.slf ∨ e.first + m.slf + m.sln ≤ l then []
        else
          let b := s.segBase (s.codingMap.map (·.2)) i + (l - e.first - m.slf) * segsOf e.len
          [0, 1].filterMap fun half =>
            let lo := e.off + half * e.len
            if overlaps off n lo e.len then
              some (m.fent, half, b + (off - lo) / 65536, b + (min (off + n) (lo + e.len) - 1 - lo) / 65536)
            else none

/-- The field entry whose retention buffer the write meets (R367). -/
def State.retHit (s : State) (p l off n : Nat) : Option Nat :=
  match s.cs.group with
  | none => none
  | some g => if g.k < 2 then none else s.codingMap.findSome? fun (_, m) =>
      match s.mapField m with
      | none => none
      | some e =>
        if m.part = p ∧ e.kind = 1 ∧ e.first + m.slf ≤ l ∧ l < e.first + m.slf + m.sln ∧ overlaps off n m.retoff (2 * e.len) then
          some m.fent
        else none

/-- Stripe of member `q`'s data segment `j` (R364). -/
def stripeOf (n m q j : Nat) : Nat :=
  let res := (List.range n).filter fun r => (List.range m).all fun i => (r + i) % n ≠ q
  n * (j / (n - m)) + res.getD (j % (n - m)) 0

/-- The epoch coded before is not committed, or was in this very nanosecond (R372, R386). -/
def State.commitDue (s : State) : Bool :=
  s.cs.lastCoded.isSome && (s.cs.lastCoded != s.cs.epoch || s.cs.commitNs == s.clk + 1)

/-- The coding hold of a write to half `half` of a region of partition `p` (R372): for k = 1, the write half still holds the oldest
retained epoch. -/
def State.codingHold (s : State) (p half : Nat) : Bool :=
  match s.cs.group with
  | some g => g.k == 1 && s.cs.st == .coding && s.commitDue &&
      half == 1 - s.readHalf && !s.cs.codedParts.contains p
  | none => false

/-- The rebuild hold of a write to data segments `j0` to `j1` in half `half` (R379): they are symbols, in the recovered epoch's
buffer, of a stripe that has a segment not yet rebuilt. -/
def State.rebuildHold (s : State) (half j0 j1 : Nat) : Bool :=
  match s.cs.group with
  | some g => s.cs.st == .rebuild && g.k == 1 && half == 1 - (g.ebase.toNat + s.cs.recovered) % 2 &&
      s.cs.rebuild.any fun r => !r.done &&
        (List.range (j1 + 1 - j0)).any fun d => stripeOf g.n g.m g.self (j0 + d) == r.stripe
  | none => false

/-- The drain hold (R384): the bytes are of a range whose image is not yet taken. -/
def State.drainHold (s : State) (p l off n : Nat) : Bool :=
  match s.vault.drain with
  | some d => !d.frozen && d.cmds.any fun c => c.any fun (tp, tl, toff, tlen) => tp == p && tl == l && overlaps off n toff tlen
  | none => false

/-- Which hold a write to `[off, off + n)` of a logical slice meets (R372, R379, R384): 1 coding, 2 rebuild,
3 drain. -/
def State.holdAt (s : State) (p l off n : Nat) : Option Nat :=
  match s.codedHits p l off n with
  | [] => none
  | hs =>
    if s.drainHold p l off n then some 3
    else if hs.any fun h => s.rebuildHold h.2.1 h.2.2.1 h.2.2.2 then some 2
    else if hs.any fun h => s.codingHold p h.2.1 then some 1
    else none

/-- The stripe of a lost segment, not yet rebuilt here, that a read of `[a, a + n)` reaches (R379). -/
def State.rebMeets (s : State) (a n : Nat) : Option Nat :=
  if s.cs.st ≠ .rebuild ∨ a < nearBase ∨ tileBase ≤ a then none
  else (s.pieces 1200 a n).findSome? fun x =>
    (s.cs.rebuild.find? fun r => !r.done && some r.adopter == s.modId && r.part == x.1 && r.slice == x.2.1 &&
      r.offs.any fun o => overlaps x.2.2.1 x.2.2.2 o r.len).map (·.stripe)

/-- 64-bit field of a byte string. -/
def w64At (b : List Byte) (i : Nat) : W64 := BitVec.ofNat 64 (field b i 8)

/-- Address field plus an offset. -/
def plus (a : W64) (o : Nat) : W64 := a + BitVec.ofNat 64 o

/-! ### Reads -/

/-- Bytes at a physical address, or none for an error response (R265). -/
def State.load (s : State) (w : Who) (a n : Nat) : Option (List (PVal Byte)) :=
  if n = 0 then some [] else if s.accessOk w a n then some (s.mem.rd a n) else none

/-- Bytes of several ranges, one after the other. -/
def State.loadParts (s : State) (w : Who) (ps : List (Nat × Nat)) : Option (List (PVal Byte)) :=
  (allSome (ps.map fun x => s.load w x.1 x.2)).map List.flatten

/-- Bytes at a descriptor address field. -/
def State.loadX (s : State) (w : Who) (a : W64) (n : Nat) : Option (List (PVal Byte)) :=
  (s.xlateParts a n).bind (s.loadParts w)

/-- Bytes of a logical slice. -/
def State.loadSlice (s : State) (w : Who) (p l off n : Nat) : Option (List (PVal Byte)) :=
  (s.sliceParts p l off n).bind (s.loadParts w)

/-- Bytes that an error code covers: a 64-bit word of the near tier (R269), a 64-byte line of the far tier (R273). -/
def codeUnit (a : Nat) : Nat := if a < nearBase then 64 else 8

/-- The words and lines of `[a, a + n)` that hold an error of kind `k`, 2 uncorrectable, 3 corrected when read (R269, R273): their
addresses. -/
def State.badWords (s : State) (k : BitVec 2) (a n : Nat) : List Nat :=
  ((s.mem.poison.filter fun e => e.2 == k && decide (a / codeUnit a * codeUnit a ≤ e.1) &&
    decide (e.1 < (a + n + codeUnit a - 1) / codeUnit a * codeUnit a)).map fun e => e.1 / codeUnit a * codeUnit a).eraseDups

/-- One uncorrectable error found at `a` (R269, R273): the count, the first address, UE, its event and its record. -/
def State.noteUE (s : State) (a : Nat) : State :=
  match regionOf a with
  | .near p =>
    let s1 := s.count (pgNear p) 0x10C
    let s2 := if s1.bit (pgNear p) 0x104 8 then s1 else s1.setReg64 (pgNear p) 0x110 a
    (s2.orReg (pgNear p) 0x104 0x100).report (pgNear p) ⟨0xFFFF, 2, 4, 0, 0, a, 0⟩ (some 0)
  | .far p =>
    let s1 := s.count (pgFar p) 0x114
    let s2 := if s1.bit (pgFar p) 0x104 8 then s1 else s1.setReg64 (pgFar p) 0x118 a
    (s2.orReg (pgFar p) 0x104 0x100).report (pgFar p)
      ⟨1152 + p * 32 + (s.part p).far.channel (a % 0x1000000000), 2, 4, 0, 0, a, 0⟩ (some 0)
  | _ => s

/-- S-die of an offset in a partition's near tier (Table 12.2). -/
def sdieOf (o : Nat) : Nat := if o < 0x7E000000 ∨ (metaOff ≤ o ∧ o < 0xFE000000) then 0 else 1

def Part.sparesOf (x : Part) (d : Nat) : Nat := if d = 0 then x.spares0 else x.spares1

/-- Sparing of a row begins, when its S-die has a spare for it (R271). -/
def State.spareRow (s : State) (p row : Nat) : State :=
  let x := s.part p
  let d := sdieOf (row * 4096)
  let busy := (x.sparing.filter fun r => sdieOf (r * 4096) == d).length
  if x.sparing.contains row ∨ x.sparesOf d ≤ busy then s
  else s.setPart p { x with sparing := x.sparing ++ [row] }

/-- Row `row` of partition `p` had a corrected error in this scrub pass; at NT_CTL.SPARE_THR of them it is spared (R269, R271). -/
def State.rowErr (s : State) (p row : Nat) : State :=
  let x := s.part p
  let k := mget 0 x.rowErrs row + 1
  let thr := s.fld (pgNear p) 0x100 7 4
  let s1 := s.setPart p { x with rowErrs := mput 0 x.rowErrs row k }
  if thr ≠ 0 ∧ thr ≤ k then s1.spareRow p row else s1

/-- The bytes of `[a, a + n)` with an error that a read corrects hold none any more. -/
def Store.correct (st : Store) (a n : Nat) : Store :=
  { st with poison := (List.range n).foldl (fun m i => if mget 0 m (a + i) = 3 then mdel m (a + i) else m) st.poison }

/-- One correctable error at `a` is corrected in place and counted (R269, R273). -/
def State.noteCE (s : State) (a : Nat) : State :=
  let s0 := { s with mem := s.mem.correct (a / codeUnit a * codeUnit a) (codeUnit a) }
  match regionOf a with
  | .near p => (s0.count (pgNear p) 0x108).rowErr p ((a - nearOf p) / 4096)
  | .far p => s0.count (pgFar p) 0x110
  | _ => s0

/-- What a read of `[a, a + n)` does beside giving the bytes: each word or line with an error that it met is corrected, or reported
and, in the near tier, its row spared (R269, R271, R273); a read of a lost segment not yet rebuilt here is held, and makes that
segment's stripe the next one (R379). -/
def State.readNote (s : State) (a n : Nat) : State :=
  match s.rebMeets a n with
  | some st => { s with cs := { s.cs with held := some 2, next := some st } }
  | none =>
    let s1 := (s.badWords 3 a n).foldl State.noteCE s
    (s.badWords 2 a n).foldl (fun t x =>
      let u := t.noteUE x
      match regionOf x with
      | .near p => u.spareRow p ((x - nearOf p) / 4096)
      | _ => u) s1

/-- `readNote` of a descriptor address field. -/
def State.readNoteX (s : State) (a : W64) (n : Nat) : State :=
  ((s.xlateParts a n).getD []).foldl (fun t x => t.readNote x.1 x.2) s

/-! ### Writes -/

/-- Answer to a write: done, an error response, or held (R372, R379, R384). -/
inductive WrRes where
  | ok (s : State)
  | err (s : State)
  | hold (kind : Nat)

/-- A tier word holds poison whole: a poisoned byte poisons its 64-bit word (R106, R269). -/
def Store.poisonWords (st : Store) (a : Nat) : List (PVal Byte) → Store
  | [] => st
  | some _ :: bs => st.poisonWords (a + 1) bs
  | none :: bs => (st.wr (a / 8 * 8) (List.replicate 8 none)).poisonWords (a + 1) bs

/-- A write that covers part of a poisoned word, or part of a far-tier line with an uncorrectable error, changes nothing and errs
(R269, R273). -/
def State.partialBad (s : State) (a n : Nat) : Bool :=
  let bad := fun (u : Nat) (k : BitVec 2) (w : Nat) => (List.range u).any fun i => mget 0 s.mem.poison (w * u + i) == k
  let cut := fun (u : Nat) (k : BitVec 2) =>
    (a % u != 0 && bad u k (a / u)) || ((a + n) % u != 0 && bad u k ((a + n) / u))
  n != 0 && (cut 8 1 || cut (codeUnit a) 2)

/-- FPL_STAT and its companions for a refused write (R239): bit 5 PAIR_WR, bit 6 FROZEN_WR. -/
def State.fplRefuse (s : State) (p bit entry a : Nat) : State :=
  let first := !s.bit (pgFpl p) 0x110 5 && !s.bit (pgFpl p) 0x110 6
  let s1 := s.count (pgFpl p) 0x118
  let s2 := if first then (s1.setFld (pgFpl p) 0x110 28 24 entry).setReg64 (pgFpl p) 0x120 a else s1
  (s2.orReg (pgFpl p) 0x110 (1 <<< bit)).raise (pgFpl p) (bit - 4)

/-- Whether a step runs, and its read half, as the check of a write sees them: a release that is due in this nanosecond comes first
(R245). -/
def State.checkStep (s : State) : Bool × Nat :=
  match s.releaseDue with
  | some h => (true, h.mark.stepIndex.toNat % 2)
  | none => (s.tb.instep, s.readHalf)

/-- The table that the check of a write to partition `p` sees: the one that a release due in this nanosecond makes active (R238, R245). -/
def State.checkTable (s : State) (p : Nat) : List FplEnt :=
  let f := (s.part p).fpl
  if s.releaseDue.isSome && f.ready.isSome && f.commitNs != s.clk then f.ready.getD [] else s.fplEntries p

/-- Entry `e` forbids a write to `[off, off + n)` of logical slice `l` (R239); its status bit. -/
def State.entForbids (s : State) (e : FplEnt) (l off n : Nat) : Option Nat :=
  if l < e.first ∨ e.first + e.nsl ≤ l then none
  else if e.kind = 2 ∧ overlaps off n e.off e.len then some 6
  else if e.kind = 1 ∧ s.checkStep.1 ∧ overlaps off n (e.off + s.checkStep.2 * e.len) e.len then some 5
  else none

/-- The field entry that forbids a write (R239): partition, lowest index, status bit. -/
def State.fplForbids (s : State) (ps : List (Nat × Nat × Nat × Nat)) : Option (Nat × Nat × Nat) :=
  (ps.map (·.1)).eraseDups.findSome? fun p =>
    let es := (List.range (s.checkTable p).length).zip (s.checkTable p)
    es.findSome? fun (i, e) =>
      (ps.filter fun x => x.1 == p).findSome? fun x => (s.entForbids e x.2.1 x.2.2.1 x.2.2.2).map fun b => (p, i, b)

/-- Mark the data segments a write reached (R369). -/
def State.markWritten (s : State) (p l off n : Nat) : State :=
  { s with cs.written := (s.codedHits p l off n).foldl (fun w h =>
      (List.range (h.2.2.2 + 1 - h.2.2.1)).foldl (fun m d => mput false m (h.2.2.1 + d) true) w) s.cs.written }

/-- The field entry for which R368 refuses the write. -/
def State.postcode (s : State) (p l off n : Nat) : Option Nat :=
  if s.cs.st ≠ .coding then none
  else ((s.codedHits p l off n).find? fun h =>
    !s.tb.instep || h.2.1 != 1 - s.readHalf || s.cs.codedParts.contains p).map (·.1)

/-- The bytes go into memory (R266); a tier keeps poison by words. -/
def State.poke (s : State) (a : Nat) (bs : List (PVal Byte)) : State :=
  match regionOf a with
  | .far _ | .near _ => { s with mem := (s.mem.wr a bs).poisonWords a bs }
  | _ => { s with mem := s.mem.wr a bs }

/-- R368's refusal of a write: POSTCODE_WR. -/
def State.postcodeSaid (s : State) : State := (s.orReg pgCs 0x104 0x400).raise pgCs 2

/-- The field-plane check of a write (R239, R367, R368): none when it is accepted, else the state after the refusal. -/
def State.refused (s : State) (w : Who) (a : Nat) (ps : List (Nat × Nat × Nat × Nat)) : Option State :=
  let post := ps.findSome? fun x => (s.postcode x.1 x.2.1 x.2.2.1 x.2.2.2).map fun i => (x.1, i)
  let ret := if w = .steward then none
    else ps.findSome? fun x => (s.retHit x.1 x.2.1 x.2.2.1 x.2.2.2).map fun i => (x.1, i)
  match s.fplForbids ps, ret, post with
  | some (p, i, b), _, some _ => some (s.fplRefuse p b i a).postcodeSaid
  | some (p, i, b), _, none => some (s.fplRefuse p b i a)
  | none, some (p, i), _ => some (s.fplRefuse p 6 i a)
  | none, none, some (p, i) => some (s.fplRefuse p 5 i a).postcodeSaid
  | none, none, none => none

/-- One write at a physical address, whole or not at all (R239, R265, R269, R368). -/
def State.store (s : State) (w : Who) (a : Nat) (bs : List (PVal Byte)) : WrRes :=
  let n := bs.length
  if n = 0 then .ok s
  else if ¬ s.accessOk w a n then .err s
  else match regionOf a with
    | .imem _ => .err s
    | .tstore _ => .ok (s.poke a bs)
    | .far _ => if s.partialBad a n then .err s else .ok (s.poke a bs)
    | .near _ =>
      if w = .exempt then .ok (s.poke a bs)
      else
        let ps := s.pieces 1200 a n
        match s.refused w a ps with
        | some s1 => .err s1
        | none =>
          if s.partialBad a n then .err s
          else match ps.findSome? fun x => s.holdAt x.1 x.2.1 x.2.2.1 x.2.2.2 with
            | some k => .hold k
            | none => .ok ((ps.foldl (fun t x => t.markWritten x.1 x.2.1 x.2.2.1 x.2.2.2) s).poke a bs)
    | _ => .err s

/-- One write to the pieces of a range: whole or not at all. -/
def State.storeParts (s : State) (w : Who) (ps : List (Nat × Nat)) (bs : List (PVal Byte)) : WrRes :=
  match ps with
  | [(x, _)] => s.store w x bs
  | [(x, n), (y, _)] =>
    (match s.store w x (bs.take n) with
     | .ok s1 => (match s1.store w y (bs.drop n) with
        | .ok s2 => .ok s2
        | .err _ => s.store w y (bs.drop n)
        | .hold k => .hold k)
     | .err s1 => .err s1
     | .hold k => .hold k)
  | _ => .err s

/-- One write at a descriptor address field. -/
def State.storeX (s : State) (w : Who) (a : W64) (bs : List (PVal Byte)) : WrRes :=
  match s.xlateParts a bs.length with
  | some ps => s.storeParts w ps bs
  | none => .err s

/-- A held write waits: nothing changes but that a write of that kind is held (R372, R373). -/
def State.held_ (s : State) (kind : Nat) : State := { s with cs.held := some kind }

/-- A write by a unit whose error response is all that is said: `true` when it was done. -/
def State.put (s : State) (w : Who) (a : Nat) (bs : List (PVal Byte)) : State × Bool :=
  match s.store w a bs with
  | .ok s1 => (s1, true)
  | .err s1 => (s1, false)
  | .hold k => (s.held_ k, false)

def State.putX (s : State) (w : Who) (a : W64) (bs : List (PVal Byte)) : State × Bool :=
  match s.storeX w a bs with
  | .ok s1 => (s1, true)
  | .err s1 => (s1, false)
  | .hold k => (s.held_ k, false)

/-- Run `f`, whose writes and reads may be held: then nothing changes but that one is held (R372, R379). -/
def State.unlessHeld (s : State) (f : State → State) : State :=
  let s1 := f { s with cs.held := none }
  match s1.cs.held with
  | some k => { s with cs := { s.cs with held := some k, next := s1.cs.next } }
  | none => { s1 with cs.held := s.cs.held }

/-- Free bytes over `[a, a + n)`: contents the spec calls undefined (log 6). -/
def State.undef (s : State) (w : Who) (a : W64) (n : Nat) : State :=
  let (bs, s1) := s.freshBytes n
  (s1.putX w a (bs.map some)).1

/-! ### Arc completion (R60) -/

/-- The `e`-th arc, FIRED, becomes DONE; its DONE_IDX rises unless an isolation wrapper completed it. -/
def State.completeArc (s : State) (u e : Nat) (wrapper : Bool) : State :=
  let a := s.arcu u
  match a.active[e]? with
  | none => s
  | some x =>
    if x.st ≠ .fired then s
    else
      let s1 := s.setArcu u { a with active := a.active.set e { x with st := .done, doneAng := s.tb.prevAng } }
      if x.w1.getLsbD 22 && !wrapper then s1.arcTok u (bits x.w1.toNat 21 16) true else s1

/-- The arc is complete, with an error response whose record is in the arc page's ERRREC (R324, R340); the unit's isolation
wrapper gives it when the unit is fenced or reset (R28). -/
def State.failArc (s : State) (u e : Nat) (code : Nat) (wrapper : Bool := false) : State :=
  (s.report (pgArc u) ⟨0xFFFF, 3, 0, code, 0, 0, code⟩ none).completeArc u e wrapper

end Sys2Proof.Machine
end

