-- ==== Sys2Proof/Machine/Timebase.lean ====
section
/-! DEFINITION. Pod time, calibration, step marks, release and arrival (R43 to R54, R64), suspect marking (R404), and the
perimeter bypass (R305). -/
namespace Sys2Proof.Machine

abbrev Out := Host.Outcome State Fault Refusal

/-- One nanosecond of pod time (R43, R44): it rises by 1, valid or not, or by 0 or 2 when the count reaches 1023 with a difference
left. No register bit was set and no counter rose yet in the new nanosecond. -/
def State.tbTick (s : State) : State :=
  let t := s.tb
  let c := (t.slewCnt + 1) % 1024
  let adj : Bool := c == 1023 && t.diff != 0
  let d : Nat := if adj then (if 0 < t.diff then 2 else 0) else 1
  let diff : Int := if adj then (if 0 < t.diff then t.diff - 1 else t.diff + 1) else t.diff
  { s.newSets with
    clk := s.clk + 1, arrNow := [], rinvs := []
    tb := { t with time := t.time + BitVec.ofNat 64 d, slewCnt := c, diff := diff, prevAng := s.angle } }

/-- Set TB_STAT bit 8 + i and raise its event (R65). -/
def State.tbErr (s : State) (i : Nat) : State := (s.orReg pgTime 0x108 (1 <<< (8 + i))).raise pgTime i

/-- RING_DELAY in nanoseconds, to the nearest; which way a half goes is a free bit (R44). -/
def State.delayNs (s : State) : Nat :=
  let d := s.tb.ringDelay.toNat
  d / 1000 + (if 500 < d % 1000 ∨ (d % 1000 = 500 ∧ Config.freeBit s.fresh = true) then 1 else 0)

/-- R44, R51 (a mark held for TIMEVALID is late if its time has passed). -/
def execTime (v : W64) (s : State) : Out :=
  let x : W64 := v + BitVec.ofNat 64 s.delayNs
  let s0 := { s with fresh := s.fresh + 1 }
  if ¬ s.tb.caldone then .next s
  else if ¬ s.tb.timevalid then
    let s1 := { s0 with tb := { s0.tb with time := x, slewCnt := 0, diff := 0, timevalid := true } }
    .next (match s.tb.held with
      | some h =>
        if h.mark.release.toNat ≤ x.toNat then
          ({ s1 with tb.held := some { h with lateNow := true } }).tbErr 0
        else s1
      | none => s1)
  else
    let diff : Int := (x.toNat : Int) - s.tb.time.toNat
    let s1 := { s0 with tb.diff := diff }
    .next (if 2 < diff ∨ diff < -2 then s1.tbErr 4 else s1)

/-- R45 step 3; `t` is the arrival in units of 125 ps. -/
def execCalCw (t : Nat) (s : State) : Out := .next { s with tb.calCw := some t }
def execCalCcw (t : Nat) (s : State) : Out := .next { s with tb.calCcw := some t }

/-- R45: (a - b + D) / 2 toward zero, held within 0 and 0xFF_FFFF. -/
def ringDelayOf (a b d : Nat) : BitVec 24 :=
  BitVec.ofNat 24 (min 0xFFFFFF (((125 * a : Int) - 125 * b + d).tdiv 2).toNat)

def execCalLoop (d : W64) (s : State) : Out :=
  let s1 := { s with tb := { s.tb with calCw := none, calCcw := none } }
  match s.tb.calCw, s.tb.calCcw with
  | some a, some b => .next { s1 with tb := { s1.tb with ringDelay := ringDelayOf a b d.toNat, caldone := true } }
  | _, _ => .next s1

/-! ### The perimeter bypass (R305, R309) -/

/-- The bypass follows power and INSERT; a change of RING_STAT.INRING raises BYPASS. -/
def State.setBypass (s : State) (open_ : Bool) : State :=
  if s.inRing = open_ then s
  else ({ s with inRing := open_, pins.bypassOpen := open_ }).raise pgRing 1

/-- Write RING_CTL.INSERT. -/
def State.setInsert (s : State) (b : Bool) : State :=
  (s.setFld pgRing 0x100 0 0 (if b then 1 else 0)).setBypass (b && s.pins.pwrOk && !s.pins.underVolt && s.pins.seated)

/-- Room in the transmit queue of a direction (R304). -/
def State.ringRoom (s : State) (cw : Bool) : Bool := decide ((if cw then s.ringCw else s.ringCcw).length < 8)

/-- Queue a token of our own clockwise; with the queue full it waits for a credit (R33, R304). -/
def State.ringPut (s : State) (tok : List Byte) : State :=
  if s.ringRoom true && s.ringWait.isEmpty then { s with ringCw := s.ringCw ++ [tok] } else { s with ringWait := s.ringWait ++ [tok] }

/-- R48: ADMIT for this slot. DEDUCED: with ADMIT = 0 the bypass closes without BYPASS being raised: R48's "Neither case raises an
event" speaks of this one command, R309's event of every change of INRING (log 97). -/
def execAdmitToken (slot : BitVec 6) (on : Bool) (s : State) : Out :=
  if slot ≠ s.pins.slot then .next s
  else if on then .next { s with tb.admitted := true }
  else .next { s.setFld pgRing 0x100 0 0 0 with tb.admitted := false, inRing := false, pins.bypassOpen := false }

/-! ### Marks, release, arrival -/

/-- R51, Table 2.2. -/
def execMark (m : MarkToken) (s : State) : Out :=
  if s.tb.held.isSome then .next (s.tbErr 2)
  else
    let early := s.tb.instep
    let late : Bool := s.tb.timevalid && !early && decide (m.release.toNat ≤ s.tb.time.toNat)
    let s1 := { s with tb.held := some ⟨m, s.clk, early, late⟩ }
    .next (if early then s1.tbErr 1 else if late then s1.tbErr 0 else s1)

/-- A ready shadow table becomes active (R29), the counters clear and the arcs are armed (R50); with no stepping job
every table is empty in the step (R32). The clear comes before the increments of this nanosecond, `now` (R64). -/
def ArcUnit.release (a : ArcUnit) (now : Nat) (jobbed : Bool) : ArcUnit :=
  let swap : Bool := a.ready && a.commitNs != now
  let tbl := if swap then a.shadow else a.active
  { a with
    active := tbl.map fun x => { x with st := if jobbed then .armed else .idle, doneAng := 0, late := false }
    shadow := if swap then [] else a.shadow
    ready := a.ready && !swap
    lateSeen := false
    toks := a.incsNow now }

/-- Release of arc unit `u` (R50, R66 SWAP). -/
def State.releaseArc (s : State) (u : Nat) : State :=
  let a := s.arcu u
  let s1 := s.setArcu u (a.release s.clk s.mjob.isSome)
  if a.ready && a.commitNs != s.clk then s1.raise (pgArc u) 3 else s1

/-- Partition `p` at a release: its ready field table becomes active, unless it was committed in this nanosecond (R238),
and its unclaimed matrix-ready entries retire (R220). -/
def State.releasePart (s : State) (p : Nat) : State :=
  let x := s.part p
  let go : Bool := x.fpl.ready.isSome && x.fpl.commitNs != s.clk
  let s1 := s.setPart p { x with
    fpl := if go then { x.fpl with active := x.fpl.ready, ready := none } else x.fpl
    slv := { x.slv with ready := [] } }
  if go then s1.raise (pgFpl p) 3 else s1

/-- TILE_TOKCLR names this stored word for the clear at a release (R80). -/
def State.tokCleared (s : State) (key : Nat) : Bool :=
  let pg := key / 0x1000
  let o := key % 0x1000
  decide (0x2000 ≤ pg) && decide (pg < 0x2480) && decide (0x200 ≤ o) && decide (o < 0x300) &&
    (s.reg64 pg 0x140).testBit ((o - 0x200) / 4)

/-- The counters that TILE_TOKCLR names are cleared, before the increments of this nanosecond (R80). -/
def State.clearTokclr (s : State) : State :=
  (s.regs.filter fun e => s.tokCleared e.1).foldl (fun a e =>
    a.setReg (e.1 / 0x1000) (e.1 % 0x1000) (BitVec.ofNat 32 (s.cntNow (e.1 / 0x1000) (e.1 % 0x1000)))) s

/-- R404: the barrier window. -/
def State.suspectMark (s : State) (valid self : Bool) : State :=
  let win := s.fld pgFault 0x10C 15 0
  if ¬ valid ∨ win = 0 then s
  else
    let seen := min 65535 (s.tb.barSeen + 1)
    let last := min 65535 (s.tb.barLast + (if self then 1 else 0))
    if win ≤ seen then
      let s1 := { s with tb := { s.tb with barSeen := 0, barLast := 0 } }
      let s2 := s1.setReg pgFault 0x114 (BitVec.ofNat 32 last)
      if s.fld pgFault 0x10C 31 16 < last then (s2.orReg pgFault 0x100 2).raise pgFault 0 else s2
    else { s with tb := { s.tb with barSeen := seen, barLast := last } }

/-- REP_VARSTEP is copied to REP_VARLAST and cleared (R257), before the events of this nanosecond, which count in the new step
(R261). -/
def State.varStepCopy (s : State) : State :=
  let now := s.cntNow pgRep 0x110
  let s1 := (s.setReg pgRep 0x114 (BitVec.ofNat 32 ((s.reg pgRep 0x110).toNat - now))).setReg pgRep 0x110 (BitVec.ofNat 32 now)
  if now = 0 then s1 else s1.varRecord (s.cntNow pgRep 0x130) s.tb.stepIdx

/-- Everything of R50 in the release nanosecond. -/
def State.release (s : State) (h : Held) : State :=
  let m := h.mark
  let self := m.lastValid && m.lastSlot == s.pins.slot
  let discont := !s.tb.firstRel && m.stepIndex != s.tb.stepIdx + 1
  let s1 := { s.clearTokclr with
    tb := { s.tb with
      start := s.tb.time, stepIdx := m.stepIndex, period := s.reg64 pgTime 0x120, relNs := s.clk, instep := true
      prevAng := 0, overtime := false, held := none, firstRel := false, lastSlot := m.lastSlot, lastValid := m.lastValid
      lastSelf := self }
    cs := { s.cs with codedParts := [], holdSaid := false } }
  let s2 := if discont then s1.tbErr 3 else s1
  let s3 := (List.range 17).foldl State.releaseArc s2
  let s4 := (List.range 16).foldl State.releasePart s3
  s4.varStepCopy.suspectMark m.lastValid self

/-- R50. -/
def execStepRelease (s : State) : Out :=
  match s.releaseDue with
  | some h => .next (s.release h)
  | none => .next s

/-- Every valid entry of the active tables has completed (R49, R63). -/
def State.allArcsDone (s : State) : Bool :=
  (List.range 17).all fun u => (s.arcu u).active.all fun x => x.st == .done || x.st == .idle

/-- ARRIVE token (Table 2.1). -/
def State.arriveToken (s : State) : List Byte :=
  [6, BitVec.ofNat 8 s.pins.slot.toNat, 0, 0] ++ toLE 4 s.tb.stepIdx.toNat

/-- A fence cut off a program that was no work item: the partition cannot finish the step's work (R89). -/
def State.anyCut (s : State) : Bool := s.parts.any fun e => e.2.cut

/-- R49; a module out of the ring inserts no frame (R48), and ARRIVE leaves clockwise (log 17). -/
def execArrive (s : State) : Out :=
  if !s.anyCut && s.tb.instep && decide (s.tb.relNs < s.clk) && s.allArcsDone && (!s.inRing || s.ringRoom true) then
    let s1 := { s with tb := { s.tb with instep := false, arrivedNs := s.clk } }
    .next (if s.inRing then s1.ringPut s.arriveToken else s1)
  else .next s

/-- R53. -/
def execOvertime (s : State) : Out :=
  if s.tb.period ≠ 0 ∧ s.angle = 65535 ∧ s.tb.overtime = false then
    .next ((List.range 17).foldl (fun a u => a.raise (pgArc u) 1) { s with tb.overtime := true })
  else .next s

end Sys2Proof.Machine
end

