-- ==== Sys2Proof/Machine/Arcs.lean ====
section
/-! DEFINITION. Arc tables: commit and validation (R55 to R57), firing (R58 to R60), lateness (R61 to R63), and the actions
that complete as they fire: NOP, TOKEN, SIGNAL_MODULE and SIGNAL_PART. The other actions stand with their units. -/
namespace Sys2Proof.Machine

/-- The partition that owns a page (R14, R417). -/
def pagePart (pg : Nat) : Option Nat :=
  let c := pageClass pg
  if c = 0x10 then (if pageInst pg < 16 then some (pageInst pg) else none)
  else if 0x20 ≤ c ∧ c ≤ 0x24 then some ((pg - 0x2000) / 72)
  else if 0x25 ≤ c ∧ c ≤ 0x2A then some (pageInst pg)
  else none

/-- A block soft reset of the page runs (R416): its work is being completed (1), or the 64 cycles after its registers
were reset at nanosecond `v - 2` have not passed. -/
def State.softReset (s : State) (pg : Nat) : Bool :=
  let v := mget 0 s.srst pg
  v == 1 || (decide (2 ≤ v) && decide (s.clk < v - 2 + 64))

/-- The block of a page takes no work: its soft reset runs (R416), or its partition is in reset (R417) or asleep (R474). -/
def State.pageBusy (s : State) (pg : Nat) : Bool :=
  s.softReset pg || (match pagePart pg with
    | some p => !s.partUp p
    | none => false)

/-- Partition `p` takes work: it has 48 logical tiles or more (R18). -/
def State.takesWork (s : State) (p : Nat) : Bool := decide (48 ≤ (s.part p).n)

/-! ### Entry fields (Table 2.3) -/

def ArcEnt.start (x : ArcEnt) : Nat := bits x.w0.toNat 15 0
def ArcEnt.guard_ (x : ArcEnt) : Nat := bits x.w0.toNat 31 16
def ArcEnt.action (x : ArcEnt) : Nat := bits x.w0.toNat 39 32
def ArcEnt.target (x : ArcEnt) : Nat := x.w2.toNat
def ArcEnt.arg (x : ArcEnt) : Nat := x.w3.toNat

/-- Actions allowed in a table (Table 2.4): the module's or a partition's. -/
def actionAllowed (u act : Nat) : Bool :=
  if u = 16 then act == 0 || act == 2 || act == 4 || act == 10
  else decide (act ≤ 11) && act != 4 && act != 10

/-- Reserved bits of ARG for an action (Table 2.4). -/
def argReserved (act arg : Nat) : Bool :=
  if act = 1 ∨ act = 9 ∨ act = 10 then decide (arg / 2 ^ 6 ≠ 0)
  else if act = 5 then decide (arg / 2 ^ 8 ≠ 0)
  else if act = 6 then decide (bits arg 7 6 ≠ 0) || decide (arg / 2 ^ 33 ≠ 0)
  else false

/-- Reserved fields of an entry (Table 2.3). -/
def ArcEnt.reservedSet (u : Nat) (x : ArcEnt) : Bool :=
  let w1 := x.w1.toNat
  decide (x.w0.toNat / 2 ^ 40 ≠ 0) || decide (bits w1 31 23 ≠ 0) || decide (bits w1 15 14 ≠ 0) ||
    decide (bits w1 7 6 ≠ 0) || (u == 16 && decide (x.target / 2 ^ 16 ≠ 0)) || argReserved x.action x.arg

/-- ERR_CODE of an entry; 0 when it passes (R57). -/
def ArcEnt.check (u : Nat) (x : ArcEnt) : Nat :=
  if 11 < x.action then 3
  else if ¬ actionAllowed u x.action then 4
  else if x.guard_ ≠ 0 ∧ x.guard_ < x.start then 5
  else if x.reservedSet u then 6
  else 0

/-- An entry read from its 32 bytes, unless one is poison. -/
def arcEntOf (bs : List (PVal Byte)) : Option ArcEnt :=
  (allSome bs).map fun b =>
    ⟨BitVec.ofNat 64 (field b 0 8), BitVec.ofNat 64 (field b 8 8), BitVec.ofNat 64 (field b 16 8),
     BitVec.ofNat 64 (field b 24 8), .idle, 0, false⟩

/-- The first failing entry and its code, or the table (R57); poison is code 7. -/
def arcTable (u : Nat) (bs : List (PVal Byte)) : Nat → Nat → Except (Nat × Nat) (List ArcEnt)
  | _, 0 => .ok []
  | i, n + 1 =>
    match arcEntOf ((bs.drop (32 * i)).take 32) with
    | none => .error (i, 7)
    | some x =>
      if x.check u ≠ 0 then .error (i, x.check u)
      else match arcTable u bs (i + 1) n with
        | .ok t => .ok (x :: t)
        | .error e => .error e

/-- `[a, a + n)` lies in the near tier of one partition. DESIGN CHOICE: R57 refuses an image "outside the near tier" with code 2; one
that runs from a partition's near tier into the next one's counts as outside (log 98). -/
def inNear (a n : Nat) : Bool :=
  match regionOf a, regionOf (a + (n - 1)) with
  | .near p, .near q => p == q
  | _, _ => false

/-! ### Commit (R57) -/

/-- A write of `w` to ARC_CTL; with COMMIT the copy starts, in place of any copy or READY table before it (R29). -/
def execArcCommit (u : Nat) (w : W32) (s : State) : Out :=
  if 16 < u ∨ s.pageBusy (pgArc u) then .next s
  else
    let s1 := s.setReg (pgArc u) 0x100 (w &&& 0x01FF0000)
    let a := s1.arcu u
    if w.getLsbD 0 then
      .next (s1.setArcu u { a with
        loading := some (s1.reg64 (pgArc u) 0x108, s1.fld (pgArc u) 0x100 24 16), ready := false, shadow := []
        commitNs := s.clk })
    else .next s1

/-- Record a failed commit. -/
def State.arcFail (s : State) (u i code : Nat) : State :=
  let s1 := (s.setFld (pgArc u) 0x110 15 8 i).setFld (pgArc u) 0x110 19 16 code
  (s1.orReg (pgArc u) 0x110 0x10).raise (pgArc u) 2

/-- R57: the copy ends and the image is validated. -/
def execArcLoadDone (u : Nat) (s : State) : Out :=
  let a := s.arcu u
  match a.loading with
  | none => .next s
  | some (addr, n) =>
    let s1 := s.setArcu u { a with loading := none, ready := false, shadow := [] }
    if (if u = 16 then 64 else 256) < n then .next (s1.arcFail u 0 1)
    else if n ≠ 0 ∧ ¬ inNear addr (32 * n) then .next (s1.arcFail u 0 2)
    else match s.load .unit addr (32 * n) with
      | none => .next (s1.arcFail u 0 2)
      | some bs =>
        match arcTable u bs 0 n with
        | .error (i, c) => .next (s1.arcFail u i c)
        | .ok t => .next (s1.setArcu u { a with loading := none, shadow := t, ready := true })

/-! ### Firing (R59, R60) -/

/-- Postings of an engine's queue that are in use: those waiting and the one that runs (R34). -/
def State.arcCredit (s : State) (u act : Nat) : Bool :=
  let p := s.part u
  if act = 2 then decide ((mget [] s.copies u).length < 16)
  else if act = 4 then decide (s.colls.length < 4) && !s.softReset pgColl
  else if act = 11 then s.vault.drain.isNone
  else if act = 7 then decide (p.asm.queue.length + (if p.asm.run.isSome then 1 else 0) < 4)
  else if act = 8 then decide (p.slv.queue.length + (if p.slv.run.isSome then 1 else 0) < 4)
  else true

/-- Eligible, and its action can be posted; what an arc that completed in this nanosecond added to a counter does not count yet
(R59, R64). -/
def State.arcReady (s : State) (u : Nat) (x : ArcEnt) : Bool :=
  x.st == .armed && (s.tb.period == 0 || decide (x.start ≤ s.angle)) &&
    decide (bits x.w1.toNat 47 32 ≤ (s.arcTokSeen u (bits x.w1.toNat 5 0)).toNat) &&
    decide (bits x.w1.toNat 63 48 ≤ (s.arcTokSeen u (bits x.w1.toNat 13 8)).toNat) && s.arcCredit u x.action

/-- Arc unit `u` may fire an arc in this nanosecond: it has fired none in it (R59), its block works, and its partition takes work
(R18). -/
def State.arcMay (s : State) (u : Nat) : Bool :=
  decide (u ≤ 16) && (s.arcu u).firedAt != s.clk + 1 && !s.pageBusy (pgArc u) && (u == 16 || s.takesWork u)

/-- Entry `e` of unit `u` fires now with action `act`: it is the lowest-indexed entry that can. -/
def State.arcFires (s : State) (u e act : Nat) : Option ArcEnt :=
  let t := (s.arcu u).active
  match t[e]? with
  | none => none
  | some x =>
    if s.arcMay u = true ∧ x.action = act ∧ s.arcReady u x = true ∧ (t.take e).all (fun y => !s.arcReady u y) = true then some x
    else none

/-- The entry is FIRED: its action is posted. -/
def State.arcFired (s : State) (u e : Nat) : State :=
  let a := s.arcu u
  match a.active[e]? with
  | some x => s.setArcu u { a with active := a.active.set e { x with st := .fired }, firedAt := s.clk + 1 }
  | none => s

/-- Fire entry `e` and run `f`, the posting of its action. -/
def State.fire (s : State) (u e act : Nat) (f : ArcEnt → State → State) : State :=
  match s.arcFires u e act with
  | some x => f x (s.arcFired u e)
  | none => s

/-- NOP: complete in the firing nanosecond. -/
def execArcNop (u e : Nat) (s : State) : Out := .next (s.fire u e 0 fun _ t => t.completeArc u e false)

/-- Physical tiles of the targeted logical tiles of partition `p` below its count. -/
def State.targets (s : State) (p mask : Nat) : List Nat :=
  (List.range (s.part p).n).filterMap fun j => if mask.testBit j then s.ptile p j else none

/-- TOKEN (R56, R78). -/
def execArcToken (u e : Nat) (s : State) : Out :=
  .next (s.fire u e 1 fun x t =>
    ((t.targets u x.target).foldl (fun a i => a.tileTok i (bits x.arg 5 0)) t).completeArc u e false)

/-- SIGNAL_MODULE (R58). DEDUCED: the increment is the completing arc's own, so other arcs meet it in the next nanosecond, as they do
its DONE_IDX (Table 2.5). -/
def execArcSignalModule (u e : Nat) (s : State) : Out :=
  .next (s.fire u e 9 fun x t => (t.arcTok 16 (bits x.arg 5 0)).completeArc u e false)

/-- SIGNAL_PART (R58): the targeted partitions. -/
def execArcSignalPart (u e : Nat) (s : State) : Out :=
  .next (s.fire u e 10 fun x t =>
    (((List.range 16).filter fun p => x.target.testBit p).foldl (fun a p => a.arcTok p (bits x.arg 5 0) true) t).completeArc
      u e false)

/-! ### Lateness (R61) -/

/-- Entry `x` becomes late now (R61): in a nanosecond that is over the angle was at or past its guard and it was not done. DEDUCED:
the nanosecond in which the guard is reached is judged once it is over, since a completion in it makes the arc not late (Table
2.5; log 99). -/
def State.arcLateNow (s : State) (x : ArcEnt) : Bool :=
  x.guard_ != 0 && s.tb.period != 0 && !x.late &&
    (match x.st with
     | .idle => false
     | .done => decide (x.guard_ ≤ x.doneAng)
     | _ => decide (x.guard_ ≤ s.tb.prevAng))

/-- A CODE that passes its guard raises STEP_LATE on the coded-state page (R370). -/
def State.codeLate (s : State) : State := (s.orReg pgCs 0x104 0x100).raise pgCs 0

def execArcLate (u : Nat) (s : State) : Out :=
  let a := s.arcu u
  let now := (List.range a.active.length).filter fun i => match a.active[i]? with
    | some x => s.arcLateNow x
    | none => false
  match now with
  | [] => .next s
  | i :: _ =>
    let s1 := s.setArcu u { a with
      active := a.active.map (fun x => if s.arcLateNow x then { x with late := true } else x), lateSeen := true }
    let code : Bool := a.active.any fun x => s.arcLateNow x && x.action == 3 && x.st != .armed
    let s2 := (if code then s1.codeLate else s1).count (pgArc u) 0x11C now.length
    .next (if a.lateSeen then s2
      else ((s2.setFld (pgArc u) 0x110 31 24 i).orReg (pgArc u) 0x110 0x20).raise (pgArc u) 0)

end Sys2Proof.Machine
end

