-- ==== Sys2Proof/Machine/Operands.lean ====
section
/-! DEFINITION. Tile instruction words (R167, R168, R171, R174 to R186): their fields, how many extension words follow, which
words are well formed, which queue runs them, and which address registers they name. -/
namespace Sys2Proof.Machine

/-! ### Common fields (Table 7.1) -/

def wMajor (w : Nat) : Nat := bits w 63 58
def wWidx (w : Nat) : Nat := bits w 57 52
def wWcnt (w : Nat) : Nat := bits w 51 46
def wSsel (w : Nat) : Nat := bits w 45 44
def wSidx (w : Nat) : Nat := bits w 43 38

/-! ### Vector fields (Table 7.8) -/

def vForm (w : Nat) : Bool := bitAt w 37
def vTy (w : Nat) : Nat := bits w 36 35
def vRm (w : Nat) : Nat := bits w 34 33
def vIb (w : Nat) : Bool := bitAt w 32
def vMk (w : Nat) : Nat := bits w 31 29
def vCs (w : Nat) : Bool := bitAt w 28
def vD (w : Nat) : Nat := bits w 27 23
def vA (w : Nat) : Nat := bits w 22 18
def vB (w : Nat) : Nat := bits w 17 13
def vVar (w : Nat) : Bool := bitAt w 12
def vVl (w : Nat) : Nat := bits w 11 0

/-- The majors of Table 7.3. -/
def majorKnown (m : Nat) : Bool :=
  decide (m ≤ 0x0E) || (decide (0x10 ≤ m) && decide (m ≤ 0x15)) || (decide (0x18 ≤ m) && decide (m ≤ 0x1B)) ||
    (decide (0x20 ≤ m) && decide (m ≤ 0x26)) || (decide (0x28 ≤ m) && decide (m ≤ 0x3A))

/-- Extension words (R168, Table 7.3). -/
def extWords (w : Nat) : Nat :=
  let m := wMajor w
  let ib := if vIb w then 1 else 0
  if m = 0x08 ∨ m = 0x12 ∨ m = 0x34 ∨ m = 0x39 then 1
  else if m = 0x10 ∨ m = 0x11 then (if bitAt w 13 then 1 else 0)
  else if m = 0x2C then 2
  else if m = 0x38 then 1 + ib
  else if m = 0x28 ∨ m = 0x29 ∨ m = 0x2A ∨ m = 0x2B ∨ m = 0x2E ∨ m = 0x2F ∨ m = 0x31 then ib
  else 0

/-- The engine queue of a major (Table 7.3), none for the sequencer's. -/
def queueOf (m : Nat) : Option Nat :=
  if 0x10 ≤ m ∧ m ≤ 0x15 then some 0
  else if 0x28 ≤ m ∧ m ≤ 0x3A then some 1
  else if 0x18 ≤ m ∧ m ≤ 0x1B then some 2
  else if 0x20 ≤ m ∧ m ≤ 0x26 then some 3
  else none

/-- Entries of a queue (Table 3.2). -/
def queueDepth (q : Nat) : Nat := if q = 2 then 16 else 32

/-- The operand-list word of VCOMPRESS and VEXPAND (R182): the last extension word. -/
def listWord (w e1 e2 : Nat) : Nat := if wMajor w = 0x38 ∧ vIb w = true then e2 else e1

/-- Immediates of 4-byte types fill bits [31:0] alone (R156). -/
def immOk (w e : Nat) : Bool := vTy w % 2 == 0 || decide (e < 2 ^ 32)

/-- The vector operand fields that an instruction does not use hold 0, and its reserved combinations are absent (R181,
R182, Table 6.2, Table 7.3). -/
def vectorOk (w e1 e2 : Nat) : Bool :=
  let m := wMajor w
  let int : Bool := decide (2 ≤ vTy w)
  let noB := vB w == 0
  let noRm := vRm w == 0
  let noIb := !vIb w
  let noVar := !vVar w
  let bFree := !vIb w || noB
  let regOnly := !vForm w
  let lw := listWord w e1 e2
  let lwOk := bits lw 7 4 == 0 && decide (lw < 2 ^ 11)
  let streamOk := !vForm w ||
    (decide (vD w < 16) && decide (vA w < 16) && decide (vB w < 16) && vMk w == 0)
  let csOk := !vCs w || decide (vVl w < 8)
  streamOk && csOk &&
  (if m = 0x28 then bFree && (!int || noRm) && (noIb || immOk w e1)
   else if m = 0x29 then bFree && noVar && (!int || noRm) && (noIb || immOk w e1)
   else if m = 0x2A then !int && bFree && (noIb || immOk w e1)
   else if m = 0x2B then bFree && noVar && (int || decide (vRm w < 2)) && (noIb || immOk w e1)
   else if m = 0x2C then noIb && noB && noRm && noVar && immOk w e1 && immOk w e2
   else if m = 0x2D then noIb && noB && noRm
   else if m = 0x2E ∨ m = 0x2F then int && bFree && noVar && decide (vRm w < 3) && (noIb || immOk w e1)
   else if m = 0x30 then noIb && decide (vB w < 4) && noVar && (!(int && decide (2 ≤ vB w)) || noRm)
   else if m = 0x31 then regOnly && bFree && decide (vD w < 8) && (int || noVar) && (noIb || immOk w e1)
   else if m = 0x32 then regOnly && noIb && noRm && noVar
   else if m = 0x33 then regOnly && noIb && noB && noRm && decide (vA w < 16)
   else if m = 0x34 then regOnly && noIb && noB && vA w == 0 && noRm && noVar && immOk w e1
   else if m = 0x35 then !int && noIb && noB && noVar
   else if m = 0x36 then !int && noIb && noB && noRm
   else if m = 0x37 then !int && noIb && noVar
   else if m = 0x38 then bFree && (int || noVar) && (noIb || immOk w e1) && lwOk
   else if m = 0x39 then noIb && noB && noRm && vMk w == 0 && !vCs w && lwOk
   else decide (bits w 37 28 = 0) && decide (vD w < 8) && decide (vA w < 16) && bits w 17 0 == 0)

/-- R171 over the operation fields of the other engines and of the sequencer (Tables 7.4 to 7.10). -/
def opfOk (w e1 : Nat) : Bool :=
  let m := wMajor w
  if m = 0x00 ∨ m = 0x01 then bits w 37 0 == 0
  else if m = 0x02 then true
  else if m = 0x03 then bits w 37 4 == 0
  else if m = 0x04 then bits w 37 13 == 0
  else if m = 0x05 ∨ m = 0x06 ∨ m = 0x07 then bits w 33 13 == 0
  else if m = 0x08 then bits w 33 0 == 0
  else if m = 0x09 ∨ m = 0x0A then true
  else if m = 0x0B then decide (bits w 25 23 < 7) && bits w 22 0 == 0
  else if m = 0x0C ∨ m = 0x0D then bits w 29 0 == 0
  else if m = 0x0E then bits w 33 3 == 0
  else if m = 0x10 then decide (bits w 22 21 < 3) && !bitAt w 12
  else if m = 0x11 then decide (bits w 22 21 < 3) && bits w 15 14 == 0 && !bitAt w 12
  else if m = 0x12 then
    decide (bits w 21 19 < 6) && decide (bits w 18 16 < 6) && decide (bits w 14 13 < 3) &&
      decide (bits e1 6 0 ≤ 64) && decide (bits e1 14 8 ≤ 64) && !bitAt e1 7 && !bitAt e1 15 && bits e1 63 17 == 0
  else if m = 0x13 then decide (bits w 25 23 < 6) && bits w 21 12 == 0
  else if m = 0x14 then decide (bits w 25 23 < 6) && bits w 19 12 == 0
  else if m = 0x15 then bits w 33 0 == 0
  else if m = 0x18 then decide (bits w 37 36 < 3) && bits w 20 12 == 0
  else if m = 0x19 then decide (bits w 29 28 < 3) && bits w 25 0 == 0
  else if m = 0x1A ∨ m = 0x1B then bits w 33 0 == 0
  else if m = 0x20 then bits w 23 0 == 0
  else if m = 0x21 then bits w 19 0 == 0
  else if m = 0x22 then bits w 20 0 == 0
  else if m = 0x23 then decide (bits w 25 22 < 10) && bits w 21 0 == 0
  else if m = 0x24 ∨ m = 0x25 then bits w 29 0 == 0
  else bits w 25 12 == 0

/-- A word that the sequencer does not reject (R171). -/
def wordOk (w e1 e2 : Nat) : Bool :=
  majorKnown (wMajor w) && decide (wSsel w < 3) && (if 0x28 ≤ wMajor w then vectorOk w e1 e2 else opfOk w e1)

/-- The address registers that an engine instruction names (R172, R447). -/
def arNames (w e1 e2 : Nat) : List Nat :=
  let m := wMajor w
  let a := bits w 37 34
  let b := bits w 33 30
  let c := bits w 29 26
  let st := vForm w
  let lw := bits (listWord w e1 e2) 3 0
  let vb := if vIb w then [] else [vB w]
  if m = 0x10 ∨ m = 0x11 then [a, b, c]
  else if m = 0x12 then [a, b, c, bits w 25 22]
  else if m = 0x13 ∨ m = 0x14 then [a, b, c]
  else if m = 0x15 ∨ m = 0x1A ∨ m = 0x1B then [a]
  else if m = 0x18 then [bits w 32 29, bits w 28 25] ++ (if bits w 37 36 = 0 then [bits w 24 21] else [])
  else if m = 0x19 ∨ m = 0x24 ∨ m = 0x25 then [a, b]
  else if m = 0x20 then [a, b, bits w 27 24]
  else if m = 0x21 ∨ m = 0x22 then [a, b, bits w 28 25, bits w 24 21]
  else if m = 0x23 ∨ m = 0x26 then [a, b, c]
  else if m = 0x33 ∨ m = 0x3A then [vA w]
  else if m = 0x38 then (if st then [vD w, vA w] ++ vb else []) ++ [lw]
  else if m = 0x39 then (if st then [vD w, vA w] else []) ++ [lw]
  else if ¬ st then []
  else if m = 0x28 ∨ m = 0x29 ∨ m = 0x2A ∨ m = 0x2B ∨ m = 0x2E ∨ m = 0x2F then [vD w, vA w] ++ vb
  else if m = 0x37 then [vD w, vA w, vB w]
  else if 0x28 ≤ m then [vD w, vA w]
  else []

end Sys2Proof.Machine
end

