-- ==== Sys2Proof/Machine/Postings.lean ====
section
/-! DEFINITION. Postings of the service cores as their port reads them (R447 to R449), and which is ready for a tile's engine queue
(R74). -/
namespace Sys2Proof.Machine

/-- Service core `c` has been started and takes work: its unit is in service and its page in no soft reset. -/
def State.coreUp (s : State) (c : Nat) : Bool :=
  decide (c < 64) && (s.core_ c).running && (s.unit (1736 + c)).st != .fenced && !s.softReset (pgCore c)

/-- The oldest posting leaves the queue; its credit lets a held one in (R448). -/
def State.postDone (s : State) (c : Nat) : State :=
  let x := s.core_ c
  s.setCore c { x with posts := x.posts.drop 1 ++ x.heldPost.toList, heldPost := none }

/-- A posting's fields (Table 20.3): logical tile, base word, extension words and operand words. -/
structure Posting where
  ltile : Nat
  word : Nat
  ext1 : Nat
  ext2 : Nat
  ops : List (PVal W64)
  deriving DecidableEq, Repr

/-- The posting at an address, if its fields pass (R447, R449). -/
def State.posting (s : State) (addr : W64) : Option Posting :=
  let a := addr.toNat
  let tier : Bool := match regionOf a with
    | .far _ => true
    | .near _ => true
    | _ => false
  match (if tier then s.load .unit a 128 else none) with
  | none => none
  | some bs =>
    let word := fun i => pNat ((bs.drop (8 * i)).take 8)
    match allSome [word 0, word 1, word 2, word 3, word 12, word 13, word 14, word 15] with
    | some [w0, w, e1, e2, 0, 0, 0, 0] =>
      let n := extWords w
      if w0 < 1024 ∧ (queueOf (wMajor w)).isSome = true ∧ wordOk w e1 e2 = true ∧ (1 ≤ n ∨ e1 = 0) ∧ (2 ≤ n ∨ e2 = 0) ∧
          (arNames w e1 e2).all (fun r => decide (r < 8)) = true then
        some ⟨w0, w, e1, e2, (List.range 8).map fun i => (word (4 + i)).map fun v => BitVec.ofNat 64 v⟩
      else none
    | _ => none

/-- The tile that a posting translates to (R68, R448). -/
def State.postTile (s : State) (addr : W64) : Option Nat :=
  match s.posting addr with
  | some k => s.ptile (k.ltile / 64) (k.ltile % 64)
  | none => none

/-- Token counter `i` of tile `t` as a wait sees it: the increments of earlier nanoseconds only (R79). -/
def State.tokSeen (s : State) (t i : Nat) : Nat :=
  (s.reg (pgTile t) (0x200 + 4 * i) - BitVec.ofNat 32 (s.cntNow (pgTile t) (0x200 + 4 * i))).toNat

/-- The wait condition of a word holds (R79, R169). -/
def State.tokHeld (s : State) (t w : Nat) : Bool := decide (wWcnt w ≤ s.tokSeen t (wWidx w))

/-- A posting at the head of a core's queue could enter engine queue `q` of tile `t` now, if that holds a credit: its wait holds
(R74, R79, R448). -/
def State.postReady (s : State) (t q : Nat) : Bool :=
  (List.range 64).any fun c => s.coreUp c && (match (s.core_ c).posts with
    | addr :: _ => s.postTile addr == some t && (match s.posting addr with
        | some k => queueOf (wMajor k.word) == some q && s.tokHeld t k.word
        | none => false)
    | [] => false)

end Sys2Proof.Machine
end

