-- ==== Sys2Proof/Machine/TileOps.lean ====
section
/-! DEFINITION. What the sequencer and the engine queues of a tile share (R70 to R79, R169 to R172): fetch, issue,
rejection, starting and retiring an entry, error completions, signals, and the end of a program or item. -/
namespace Sys2Proof.Machine

/-! ### Queues -/

def Tile.queue (x : Tile) (q : Nat) : List QEntry :=
  if q = 0 then x.q0 else if q = 1 then x.q1 else if q = 2 then x.q2 else x.q3

def Tile.setQueue (x : Tile) (q : Nat) (l : List QEntry) : Tile :=
  if q = 0 then { x with q0 := l } else if q = 1 then { x with q1 := l }
  else if q = 2 then { x with q2 := l } else { x with q3 := l }

def Tile.queues (x : Tile) : List QEntry := x.q0 ++ x.q1 ++ x.q2 ++ x.q3

/-- A program-issued instruction has not retired in one of the queues of `mask`. -/
def Tile.busy (x : Tile) (mask : Nat) : Bool :=
  (List.range 4).any fun q => mask.testBit q && (x.queue q).any fun e => !e.posted

def Tile.ar (x : Tile) (i : Nat) : PVal W64 := x.ars.getD i none
def Tile.setAr (x : Tile) (i : Nat) (v : PVal W64) : Tile := { x with ars := x.ars.set i v }

/-- Tile-store offset `o` of tile `t`. -/
def tst (t o : Nat) : Nat := tstoreOf t + o

/-- `[o, o + n)` lies in the tile store. -/
def inTst (o n : Nat) : Bool := decide (o + n ≤ 0x180000)

/-- The logical tile on physical tile `t` is withheld by a swap (R88). -/
def State.withheld (s : State) (t : Nat) : Bool :=
  (s.part (t / 72)).swap.any fun w => t / 72 * 72 + w.c == t

/-! ### Errors, signals and the end of a program -/

/-- The sequencer enters STOPPED from RUN or WAIT (Table 3.1). -/
def State.stopSeq (s : State) (t : Nat) : State :=
  let x := s.tile t
  if x.seq = .run ∨ x.seq = .wait then (s.setTile t { x with seq := .stopped }).raise (pgTile t) 4 else s

/-- Set TILE_STAT bit `8 + i` with its event (R98). -/
def State.tileStat (s : State) (t i : Nat) : State := (s.orReg (pgTile t) 0x108 (1 <<< (8 + i))).raise (pgTile t) i

/-- ERR, its event and the record of an error completion of an instruction of tile `t` (R77). -/
def State.errRecord (s : State) (t major pc : Nat) (posted inItem : Bool) (n : ErrNote) : State :=
  let fl := (if posted then 1 else 0) + (if inItem then 2 else 0) + (if n.poisoned then 4 else 0)
  (s.orReg (pgTile t) 0x108 0x100).report (pgTile t) ⟨t, n.cls, fl, major, if posted then 0 else pc, n.addr, n.code⟩ (some 0)

/-- An error completion that the engine or the sequencer makes (R77): ERR, its event and its record; STOP_ON_ERR. -/
def State.instrErr (s : State) (t major pc : Nat) (posted inItem : Bool) (n : ErrNote) : State :=
  let s2 := s.errRecord t major pc posted inItem n
  let x := s2.tile t
  let s3 := if inItem then s2.setTile t { x with itemErr := true } else s2
  if s3.bit (pgTile t) 0x104 4 then s3.stopSeq t else s3

/-- The signal of an instruction (R170). -/
def State.signal (s : State) (t w : Nat) : State :=
  if wSsel w = 1 then s.tileTok t (wSidx w) else if wSsel w = 2 then s.arcTok (t / 72) (wSidx w) else s

/-- The slots without the solver sequencer's own lists (R244). -/
def Part.noOwn (x : Part) : Part := { x with wl := x.wl.map fun w => if w.own then WlSlot.free else w }

/-- Item `idx` of slot `k` has completed (R92, R93). -/
def State.itemDone (s : State) (p k idx : Nat) (err : Bool) : State :=
  let x := s.part p
  match x.wl[k]? with
  | none => s
  | some w =>
    let low := min idx (w.errIdx.getD idx)
    let w1 := { w with running := w.running.erase idx, done := w.done + 1, errIdx := if err then some low else w.errIdx }
    let full : Bool := w1.done == w1.count
    let s1 := s.setPart p { x with wl := x.wl.set k (if full then { w1 with active := false } else w1) }
    let base := 0x100 + 0x20 * k
    let s2 :=
      if err then ((s1.setReg (pgPart p) (base + 0x14) (BitVec.ofNat 32 low)).orReg (pgPart p) (base + 0xC) 4).raise (pgPart p) 0
      else s1
    if full && w1.doneEn then s2.arcTok p w1.doneIdx else s2

/-- END has issued and every program-issued instruction has retired: the program or item ends (R72, R170). -/
def State.tryEnd (s : State) (t : Nat) : State :=
  let x := s.tile t
  match x.ended with
  | none => s
  | some w =>
    if x.busy 15 ∨ ¬ (x.seq = .run ∨ x.seq = .wait) then s
    else
      let s1 := s.setTile t { x with seq := .idle, ended := none, item := none, itemErr := false }
      let s2 := s1.signal t w.toNat
      match x.item with
      | some (k, idx) => s2.itemDone (t / 72) k idx x.itemErr
      | none => s2

/-! ### Fetch and issue (R70, R171) -/

/-- What a fetch at a program counter gives: words, or an error and the PC that it leaves. -/
inductive Fetched where
  | words (w e1 e2 n : Nat)
  | error (pc : Nat)
  deriving DecidableEq, Repr

/-- Instruction-memory word. -/
def State.imemWord (s : State) (t i : Nat) : PVal Nat := s.mem.num (imemOf t + 8 * i) 8

def State.fetch (s : State) (t : Nat) : Fetched :=
  let x := s.tile t
  if 8192 ≤ x.pc then .error x.lastPc
  else match s.imemWord t x.pc with
    | none => .error x.pc
    | some w =>
      let n := extWords w
      if 8192 ≤ x.pc + n then .error x.pc
      else match (if 1 ≤ n then s.imemWord t (x.pc + 1) else some 0), (if 2 ≤ n then s.imemWord t (x.pc + 2) else some 0) with
        | some a, some b => .words w a b n
        | _, _ => .error x.pc

/-- A fetch error: STOPPED until a block soft reset, with IMEM_ERR (R70). -/
def State.fetchError (s : State) (t pc : Nat) : State :=
  let x := s.tile t
  ((s.setTile t { x with pc := pc, fetchStop := true }).tileStat t 2).stopSeq t

/-- The sequencer of tile `t` has an instruction to issue. -/
def State.issuing (s : State) (t : Nat) : Bool :=
  let x := s.tile t
  decide (t < 1152) && s.tileOn t && (x.seq == .run || x.seq == .wait) && x.ended.isNone && !s.pageBusy (pgTile t)

/-- The head of issue waits. -/
def State.waits (s : State) (t : Nat) : State := s.setTile t { s.tile t with seq := .wait }

/-- The program counter passes the `n + 1` words just issued. -/
def State.advance (s : State) (t n : Nat) : State :=
  let x := s.tile t
  s.setTile t { x with pc := x.pc + 1 + n, lastPc := x.pc, seq := .run }

/-- A rejected word completes with an error response and applies its signal (R171). -/
def State.reject (s : State) (t w n : Nat) : State :=
  let x := s.tile t
  let s1 := (s.advance t n).instrErr t (wMajor w) x.pc false x.item.isSome ⟨3, 0, 0, false⟩
  let y := s1.tile t
  (s1.setTile t { y with pc := if y.seq = .stopped then x.pc else y.pc, rejAt := s.clk + 1 }).signal t w

/-- Issue at the program counter: a fetch error stops, a malformed word is rejected by its own command (or by NOP's), a
word of this command runs `f` once its wait holds. -/
def State.issue (s : State) (t : Nat) (mine : Nat → Bool) (any : Bool) (f : Nat → Nat → Nat → Nat → State → State) : State :=
  if ¬ s.issuing t then s
  else match s.fetch t with
    | .error pc => s.fetchError t pc
    | .words w e1 e2 n =>
      if wordOk w e1 e2 then
        if ¬ mine w then s
        else if s.tokHeld t w then f w e1 e2 n s else s.waits t
      else if mine w ∨ any = true then (if s.tokHeld t w then s.reject t w n else s.waits t)
      else s

/-- Put an instruction into its engine queue, when it holds a credit (R73, R75). -/
def State.enqueue (s : State) (t q : Nat) (w e1 e2 pc : Nat) (ops : List (PVal W64)) (posted inItem : Bool) : State :=
  let x := s.tile t
  let e : QEntry :=
    { id := x.nextId, word := BitVec.ofNat 64 w, ext1 := BitVec.ofNat 64 e1, ext2 := BitVec.ofNat 64 e2, ops := ops
      pc := pc, posted := posted, inItem := inItem, st := .queued, flags := 0, err := none, var := 0, feed := none, need := 0
      since := s.clk }
  s.setTile t { x.setQueue q (x.queue q ++ [e]) with nextId := x.nextId + 1 }

def Tile.hasCredit (x : Tile) (q : Nat) : Bool := decide ((x.queue q).length < queueDepth q)

/-- A program's instruction for queue `q` gives way to a posting that is ready for the same queue, when the class issued last was the
program's (R74). -/
def State.yields (s : State) (t q : Nat) : Bool := !(s.tile t).lastPosted && s.postReady t q

/-- Issue of a program's engine instruction: the address registers are read now (R172). -/
def State.issueEngine (s : State) (t q : Nat) (mine : Nat → Bool) : State :=
  s.issue t mine false fun w e1 e2 n a =>
    let x := a.tile t
    if ¬ x.hasCredit q then a.waits t
    else if a.yields t q then a
    else
      let b := (a.enqueue t q w e1 e2 x.pc x.ars false x.item.isSome).advance t n
      b.setTile t { b.tile t with lastPosted := false }

/-! ### Starting, finishing and retiring (R75 to R77) -/

/-- The entry of queue `q` that its engine takes next: in order, one at a time, but up to 8 copies in flight (Table 3.2). -/
def Tile.nextEntry (x : Tile) (q : Nat) : Option QEntry :=
  let l := x.queue q
  match l.find? fun e => e.st == .queued with
  | none => none
  | some e =>
    let before := l.takeWhile fun y => y.st != .queued
    if q = 3 then (if before.length < 8 then some e else none)
    else if before.all fun y => y.st == .finished then some e else none

/-- Change the entry with this id. -/
def State.setEntry (s : State) (t q id : Nat) (f : QEntry → QEntry) : State :=
  let x := s.tile t
  s.setTile t (x.setQueue q ((x.queue q).map fun e => if e.id = id then f e else e))

def State.entry? (s : State) (t q id : Nat) : Option QEntry := ((s.tile t).queue q).find? fun e => e.id == id

/-- The engine has written every result: `flags` and `err` are applied at retire. -/
def State.finish (s : State) (t q id : Nat) (flags : Nat) (err : Option ErrNote) (var : Nat := 0) : State :=
  s.setEntry t q id fun e => { e with st := .finished, flags := BitVec.ofNat 32 flags, err := err, var := var }

/-- An error completion with nothing else known of it. -/
def errNote (addr code : Nat) (poisoned : Bool) : Option ErrNote := some ⟨3, addr, code, poisoned⟩

/-- The engine of queue `q` takes its next entry, if that is one of this command's. -/
def State.startEngine (s : State) (t q : Nat) (mine : Nat → Bool) (f : QEntry → State → State) : State :=
  if 1152 ≤ t ∨ s.pageBusy (pgTile t) ∨ ¬ s.tileOn t then s
  else match (s.tile t).nextEntry q with
    | none => s
    | some e => if mine e.word.toNat then f e s else s

/-- An engine instruction's two commands. -/
def State.engine (s : State) (t q : Nat) (ph : Phase) (mine : Nat → Bool) (f : QEntry → State → State) : State :=
  match ph with
  | .issue => s.issueEngine t q mine
  | .start => s.startEngine t q mine f

/-- An output feeds the running digest (R139): its bytes, and whether an element of it was poison. -/
def State.digFeed (s : State) (t : Nat) (f : List Byte × Bool) : State :=
  let s1 := s.setReg64 (pgTile t) 0x1B0 (crc64From (BitVec.ofNat 64 (s.reg64 (pgTile t) 0x1B0)) f.1).toNat
  let s2 := s1.count (pgTile t) 0x1B8
  let x := s2.tile t
  s2.setTile t { x with digPois := x.digPois || f.2, fed := (s.clk + 1, (crc64 f.1).toNat, f.2) }

/-- ARR_DIG, ARR_DIGCNT and DIGPOIS are cleared (R140). -/
def State.digClear (s : State) (t : Nat) : State :=
  (((s.setTile t { s.tile t with digPois := false }).setReg (pgTile t) 0x1B0 0).setReg (pgTile t) 0x1B4 0).setReg
    (pgTile t) 0x1B8 0

/-- Retire an entry: its flags, its output's digest, its error, signal and variance count; the credit returns (R76, R77, R117, R139,
R187). -/
def State.retire (s : State) (t q : Nat) (e : QEntry) : State :=
  let x := s.tile t
  let s1 := s.setTile t (x.setQueue q ((x.queue q).filter fun y => y.id != e.id))
  let w := e.word.toNat
  let s2 := match e.err with
    | some n => s1.instrErr t (wMajor w) e.pc e.posted e.inItem n
    | none => s1.orReg (pgTile t) 0x180 e.flags
  let s3 := match e.feed with
    | some f => s2.digFeed t f
    | none => s2
  let s4 := if e.var = 0 then s3 else (s3.count (pgTile t) 0x148).variance e.var t
  (s4.signal t w).tryEnd t

end Sys2Proof.Machine
end

