-- ==== Sys2Proof/Machine/Dests.lean ====
section
/-! DEFINITION. The operands of the engine instructions, the destinations each of them has (R77), error completions, which leave
poison in them, and the isolation wrapper (R28, R97). -/
namespace Sys2Proof.Machine

/-! ### Operands -/

def QEntry.op (e : QEntry) (i : Nat) : PVal W64 := e.ops.getD i none

/-- Operand `i` as a number; poison gives none. -/
def QEntry.opn (e : QEntry) (i : Nat) : Option Nat := (e.op i).map BitVec.toNat

/-- A 64-byte aligned range of the tile store (R126). -/
def arrRange (a n : Nat) : Bool := a % 64 == 0 && inTst a n

/-- Poison over a range of tile `t`'s store, as far as it lies in the store (R77). -/
def State.poisonTst (s : State) (t o n : Nat) : State :=
  let m := min n (0x180000 - o)
  if 0x180000 ≤ o then s else { s with mem := s.mem.wr (tst t o) (List.replicate m none) }

/-- Operand of an address-register field as a number. -/
def QEntry.fld (e : QEntry) (hi lo : Nat) : Option Nat := e.opn (bits e.word.toNat hi lo)

/-- A length that is poison or 2^48 and more is an error (R184). -/
def QEntry.len (e : QEntry) (hi lo : Nat) : Option Nat :=
  match e.fld hi lo with
  | some n => if n < 2 ^ 48 then some n else none
  | none => none

def Tile.accRes (x : Tile) (sel : Nat) : Option AccRes := if sel = 0 then x.acc0 else x.acc1
def Tile.setAccRes (x : Tile) (sel : Nat) (r : Option AccRes) : Tile :=
  if sel = 0 then { x with acc0 := r } else { x with acc1 := r }

/-- Where element (i, j) lies in an output or a set, from its base: 8 × 8 FP64, 16 × 16 FP32, 64-column MX. -/
def elemOff (mode i j : Nat) : Nat := if mode = 0 then 8 * (8 * i + j) else if mode = 1 then 4 * (16 * i + j) else 4 * (64 * i + j)
def elemSize (mode : Nat) : Nat := if mode = 0 then 8 else 4
def outPitch (mode : Nat) : Nat := if mode = 0 then 8 else if mode = 1 then 16 else 64
def modeFmt (mode : Nat) : FFmt := if mode = 0 then f64 else f32

/-- Bytes from the base to the end of the last element of an M × N output. -/
def outBytes (mode m n : Nat) : Nat := if m = 0 ∨ n = 0 then 0 else elemOff mode (m - 1) (n - 1) + elemSize mode

/-- The positions of an M × N output in row-major order. -/
def positions (m n : Nat) : List (Nat × Nat) := (List.range m).flatMap fun i => (List.range n).map fun j => (i, j)

/-- VCNT register, which may hold poison. -/
def Tile.cnt (x : Tile) (c : Nat) : PVal Nat := if mget false x.vcntPois c then none else some (mget 0 x.vcnt c).toNat

/-- An element place: a vector register, or a tile-store offset. -/
inductive VPlace where
  | reg (r : Nat)
  | mem (o : Nat)
  deriving DecidableEq, Repr

/-- Bit `i` of MKm now holds `b`; writes to MK0 are ignored. -/
def Tile.setMbit (x : Tile) (m i : Nat) (b : PVal Bool) : Tile :=
  if m = 0 ∨ 64 ≤ i then x
  else
    let one : W64 := 1 <<< i
    let old := mget 0 x.msk m
    let op := mget 0 x.mskPois m
    { x with
      msk := mput 0 x.msk m (if b = some true then old ||| one else old &&& ~~~ one)
      mskPois := mput 0 x.mskPois m (if b = none then op ||| one else op &&& ~~~ one) }

def Tile.setCnt (x : Tile) (c : Nat) (v : PVal Nat) : Tile :=
  { x with vcnt := mput 0 x.vcnt c (BitVec.ofNat 12 (v.getD 0)), vcntPois := mput false x.vcntPois c v.isNone }

/-- Elements per register of an element size. -/
def regElems (sz : Nat) : Nat := 256 / sz

/-- The element count (R150); a poisoned count register gives none. -/
def Tile.vlen (x : Tile) (w : Nat) : PVal Nat := if vCs w then x.cnt (vVl w % 8) else some (vVl w)

/-- A stream operand passes the tests of R152. -/
def streamOk (o sz n : Nat) : Bool := o % sz == 0 && inTst o (sz * n)

/-- The place that a field names: a register, or the offset in an address register; none when that one is poison. -/
def QEntry.place (e : QEntry) (f : Nat) : Option VPlace :=
  if vForm e.word.toNat then (e.opn f).map .mem else some (.reg f)

def VPlace.ok (p : VPlace) (sz n : Nat) : Bool :=
  match p with
  | .reg _ => true
  | .mem o => streamOk o sz n

/-- The bytes of an element of the destination and of source a. -/
def vecSizes (w : Nat) : Nat × Nat :=
  (tyBytes (vTy w), if wMajor w = 0x30 then tyBytes (vB w % 4) else tyBytes (vTy w))

/-- Set mask bits 0 to 63 of MKm to poison. -/
def Tile.poisonMask (x : Tile) (m : Nat) : Tile := (List.range 64).foldl (fun y i => y.setMbit m i none) x

/-- Bytes of an atomic's operand by OP (Table 7.11). -/
def atomSize (op : Nat) : Nat :=
  if op = 0 ∨ op = 3 ∨ op = 5 ∨ op = 8 then 4 else if op = 7 then 16 else 8

/-! ### Destinations (R77) -/

/-- A destination: bytes of the tile store, an M × N part of an accumulator set, bytes of a vector register, a mask register, a count
register, or bytes at a module address. -/
inductive Dst where
  | tst (o n : Nat)
  | acc (sel mode m n : Nat)
  | reg (r n : Nat)
  | mask (m : Nat)
  | cnt (c : Nat)
  | space (a n : Nat)
  deriving DecidableEq, Repr

/-- Bytes at the tile-store offset in an address register; nothing is known of them when that one is poison. -/
def Dst.at_ (o : Option Nat) (n : Nat) : List Dst :=
  match o with
  | some a => [.tst a n]
  | none => []

/-- Bytes of a local operand of the copy queue (R173); those behind the remote-window aperture are no destination here. -/
def Dst.local_ (space : Bool) (o : Option Nat) (n : Nat) : List Dst :=
  match o with
  | some a => if space then (if a < 0x13000000000 then [.space a n] else []) else [.tst a n]
  | none => []

/-- The output of an array product: kept in set `sel`, or rows from offset `c`. -/
def Dst.product (sel mode m n : Nat) (keep : Bool) (c : Option Nat) : List Dst :=
  if keep then [.acc sel mode m n]
  else match c with
    | none => []
    | some c => (List.range m).map fun i => .tst (c + elemOff mode i 0) (elemSize mode * n)

/-- Elements 0 to n - 1 of a vector destination, a register's worth at most of a register. -/
def Dst.vector (p : Option VPlace) (sz n : Nat) : List Dst :=
  match p with
  | some (.reg r) => [.reg r (sz * min n (regElems sz))]
  | some (.mem o) => [.tst o (sz * n)]
  | none => []

/-- The destinations of a matrix-queue instruction (Table 7.6). -/
def QEntry.matDests (e : QEntry) : List Dst :=
  let w := e.word.toNat
  let m := wMajor w
  let nb := bits w 11 0
  if m = 0x10 then Dst.product (bits w 23 23) 0 8 8 (bitAt w 20) (e.fld 29 26)
  else if m = 0x11 then Dst.product (bits w 23 23) 1 16 16 (bitAt w 20) (e.fld 29 26)
  else if m = 0x12 then
    Dst.product (bits w 15 15) (if bits w 21 19 = 4 ∧ bits w 18 16 = 4 then 3 else 2) (bits e.ext1.toNat 6 0)
      (bits e.ext1.toNat 14 8) (bitAt w 12) (e.fld 29 26)
  else if m = 0x13 then Dst.at_ (e.fld 33 30) (mxBlock (bits w 25 23) * nb) ++ Dst.at_ (e.fld 29 26) nb
  else if m = 0x14 then Dst.at_ (e.fld 29 26) (32 * (if bitAt w 22 then 4 else 8) * nb)
  else Dst.local_ true (e.fld 37 34) 32

/-- The destinations of a vector instruction. DESIGN CHOICE: with a poisoned count register, which leaves the element count unknown,
they are a register's worth of elements (log 100). -/
def QEntry.vecDests (e : QEntry) (x : Tile) : List Dst :=
  let w := e.word.toNat
  let m := wMajor w
  let sz := tyBytes (vTy w)
  let n := (x.vlen w).getD (regElems sz)
  let lw := listWord w e.ext1.toNat e.ext2.toNat
  if m = 0x31 then [.mask (vD w)]
  else if m = 0x33 then (if vVar w then Dst.at_ (e.opn (vA w)) (sz * n) else Dst.vector (some (.reg (vD w))) sz n)
  else if 0x35 ≤ m ∧ m ≤ 0x37 then Dst.vector (e.place (vD w)) sz 1
  else if m = 0x38 then
    Dst.vector (e.place (vD w)) sz n ++ Dst.at_ (e.opn (bits lw 3 0)) (2 * n) ++ [.cnt (bits lw 10 8)]
  else if m = 0x39 then Dst.vector (e.place (vD w)) sz (vVl w)
  else if m = 0x3A then [.cnt (vD w)]
  else Dst.vector (e.place (vD w)) sz n

/-- The destinations of an instruction of the copy queue (Table 7.10). -/
def QEntry.cpyDests (e : QEntry) : List Dst :=
  let w := e.word.toNat
  let m := wMajor w
  if m = 0x20 then (match e.len 27 24 with
    | some n => Dst.local_ (bitAt w 29) (e.fld 37 34) n
    | none => [])
  else if m = 0x21 then (match e.len 28 25 with
    | some n => Dst.local_ (bitAt w 29) (e.fld 37 34) n
    | none => [])
  else if m = 0x23 then Dst.at_ ((e.fld 33 30).map (· + 32)) (atomSize (bits w 25 22))
  else []

/-- The destinations of a DRU operation or a pivot step (Table 7.9, Table 8.5). -/
def QEntry.druDests (e : QEntry) : List Dst :=
  let w := e.word.toNat
  if wMajor w = 0x18 then Dst.at_ (e.fld 32 29) ((if bitAt w 35 then 4 else 8) * bits w 11 0)
  else if wMajor w = 0x19 then
    Dst.at_ (e.fld 37 34) 512 ++ Dst.at_ (e.fld 33 30) 29 ++ Dst.at_ ((e.fld 33 30).map (· + 32)) 8
  else []

/-- Every destination of an instruction. -/
def QEntry.dests (e : QEntry) (x : Tile) : List Dst :=
  let m := wMajor e.word.toNat
  if m < 0x18 then e.matDests else if m < 0x20 then e.druDests else if m < 0x28 then e.cpyDests else e.vecDests x

/-- A destination holds poison, as far as it may be written. -/
def State.poisonDst (t : Nat) (s : State) (d : Dst) : State :=
  let x := s.tile t
  match d with
  | .tst o n => s.poisonTst t o n
  | .acc sel mode m n =>
    let acc := (positions m n).foldl (fun a z =>
      a.wr (0x4000 * sel + elemOff mode z.1 z.2) (List.replicate (elemSize mode) none)) x.acc
    s.setTile t ({ x with acc := acc }.setAccRes sel (some ⟨mode, m, n⟩))
  | .reg r n => s.setTile t { x with vr := x.vr.wr (256 * r) (List.replicate n none) }
  | .mask m => s.setTile t (x.poisonMask m)
  | .cnt c => s.setTile t (x.setCnt c none)
  | .space a n =>
    if a < 2 ^ 48 ∧ s.accessOk .tile a n = true then (s.put .tile a (List.replicate n none)).1 else s

/-- Instruction `e` of queue `q` ends with an error response that it found itself: every destination holds poison (R77). -/
def State.failOut (s : State) (t q : Nat) (e : QEntry) (addr code : Nat) : State :=
  let ds := e.dests (s.tile t)
  (ds.foldl (State.poisonDst t) s).finish t q e.id 0 (errNote addr code (!ds.isEmpty))

/-! ### Work items and the isolation wrapper -/

/-- Vector, mask and count registers are cleared (R149). -/
def Tile.clearVec (x : Tile) : Tile :=
  { x with vr := Store.empty, msk := [], mskPois := [], vcnt := [], vcntPois := [] }

/-- An item cut off returns to the undispatched set, in order (R93). -/
def State.reissue (s : State) (p k idx : Nat) : State :=
  let x := s.part p
  match x.wl[k]? with
  | none => s
  | some w =>
    s.setPart p { x with wl := x.wl.set k { w with
      running := w.running.erase idx
      back := (w.back.filter fun i => i < idx) ++ [idx] ++ (w.back.filter fun i => idx < i) } }

/-- What the wrapper's error completion of entry `e` leaves as poison (R77): of the matrix and vector queues nothing, since the outputs
not yet written keep their old contents (Table 5.7, Table 6.6); of the others everything of one that has not begun, the parts of a
remote read still to come, and nothing of one that has finished. -/
def State.wrapDests (s : State) (t : Nat) (e : QEntry) : List Dst :=
  let m := wMajor e.word.toNat
  if e.st = .finished ∨ m < 0x18 ∨ 0x28 ≤ m then []
  else if e.st = .running ∧ (m = 0x20 ∨ m = 0x21) then
    s.outst.flatMap fun o => if o.owner = .tile t e.id then Dst.local_ o.space (some o.dst) o.len else []
  else e.dests (s.tile t)

/-- The isolation wrapper completes an accepted instruction with an error response, without its signal (R28, R77); a CSCAT that had
applied updates counts once (R256). -/
def State.wrapEntry (t : Nat) (s : State) (e : QEntry) : State :=
  let w := e.word.toNat
  let ds := s.wrapDests t e
  let s1 := (ds.foldl (State.poisonDst t) s).errRecord t (wMajor w) e.pc e.posted e.inItem
    (e.err.getD ⟨3, 0, 10, !ds.isEmpty⟩)
  if wMajor w = 0x26 ∧ e.var ≠ 0 then (s1.count (pgTile t) 0x148).variance e.var t else s1

/-- An owner that is gone: its answers are discarded. -/
def Outst.orphan (o : Outst) (p : Owner → Bool) : Outst := if p o.owner then { o with owner := .gone } else o

/-- The isolation wrapper completes everything that tile `t` had accepted, without signals, and its item is reissued
(R28, R77, R93, R97). Requests that are outstanding stay outstanding (R337). -/
def State.isolate (s : State) (t : Nat) : State :=
  let item := (s.tile t).item
  let s1 := (s.tile t).queues.foldl (State.wrapEntry t) s
  let s2 := s1.setTile t { s1.tile t with
    q0 := [], q1 := [], q2 := [], q3 := [], acc0 := none, acc1 := none, acc := Store.empty, ended := none
    item := none, itemErr := false, fetchStop := false }
  let s3 := { s2 with outst := s2.outst.map fun (o : Outst) => o.orphan fun w => match w with
    | .tile u _ => u == t
    | _ => false }
  let s4 := s3.digClear t
  match item with
  | some (k, idx) => s4.reissue (t / 72) k idx
  | none => s4

/-- A waiting posting as the queue entry that it would have become. -/
def Posting.entry (k : Posting) (now : Nat) : QEntry :=
  { id := 0, word := BitVec.ofNat 64 k.word, ext1 := BitVec.ofNat 64 k.ext1, ext2 := BitVec.ofNat 64 k.ext2, ops := k.ops
    pc := 0, posted := true, inItem := false, st := .queued, flags := 0, err := none, var := 0, feed := none, need := 0
    since := now }

/-- The postings at the head of core `c`'s queue that translate to tile `t` complete as queued work does, at most the 17 that
the core holds. DEDUCED: these are the postings "translated for the tile" of R97. -/
def State.dropHeads (s : State) (c t : Nat) : Nat → State
  | 0 => s
  | n + 1 => match s.coreUp c, (s.core_ c).posts with
    | true, addr :: _ => (match s.posting addr with
        | some k => if s.postTile addr = some t then ((State.wrapEntry t s (k.entry s.clk)).postDone c).dropHeads c t n else s
        | none => s)
    | _, _ => s

/-- The wrapper of tile `t` completes the waiting postings translated for it; their credits return (R97, R448). -/
def State.dropPostings (s : State) (t : Nat) : State := (List.range 64).foldl (fun (a : State) c => a.dropHeads c t 17) s

end Sys2Proof.Machine
end

