-- ==== Sys2Proof/Machine/Fabric.lean ====
section
/-! DEFINITION. Fabric ports, the link, routes (R287 to R302), and the perimeter ring's frames (R303 to R305, R309). -/
namespace Sys2Proof.Machine

/-! ### Ports and roles (R287, R288) -/

def portOfPeer (p : Nat) : Nat := if p < 32 then p else p + 4
def portOfUplink (u : Nat) : Nat := if u < 4 then 32 + u else 63 + u

/-- Role 0 peer, 1 uplink, 2 spare, and index (Table 13.1). -/
def portRole (i : Nat) : Nat × Nat :=
  if i < 32 then (0, i) else if i < 36 then (1, i - 32) else if i < 67 then (0, i - 4) else if i < 71 then (1, i - 63)
  else (2, 0)

/-- The port whose role port `i` carries: the spare's is the one it stands in for. -/
def State.actingFor (s : State) (i : Nat) : Nat := if i = 71 then (s.port 71).standIn else i

/-- Does port `i` act as an uplink? -/
def State.isUplink (s : State) (i : Nat) : Bool := (portRole (s.actingFor i)).1 == 1

/-- Buffer depth of a channel in flits (Table 13.4). -/
def vcDepth (v : Nat) : Nat :=
  if v = 0 then 16 else if v = 1 ∨ v = 4 then 256 else if v = 7 then 0 else 128

/-- A port's optics have power: its unit is not fenced and its group's lasers are on (R287, R290). -/
def State.portPowered (s : State) (i : Nat) : Bool :=
  s.pins.lasers.getLsbD (i / 9) && (s.unit (1664 + i)).st != .fenced

def Port.linked (x : Port) : Bool := x.st == .up || x.st == .degraded

/-! ### Packets (Table 13.5) -/

def pktBytes (k : Packet) : List Byte :=
  toLE 2 (k.dst.toNat + 2 ^ 14 * k.hops.toNat) ++ toLE 2 k.src.toNat ++ toLE 1 k.vc.toNat ++ toLE 1 k.gen.toNat ++
    toLE 2 k.tag.toNat ++ toLE 3 k.flow.toNat ++ toLE 1 k.op.toNat ++ toLE 2 k.body.length ++ toLE 2 0 ++ k.body

def packetOf (b : List Byte) : Packet :=
  { dst := BitVec.ofNat 14 (field b 0 2), hops := BitVec.ofNat 2 (field b 0 2 / 2 ^ 14), src := BitVec.ofNat 14 (field b 2 2)
    vc := BitVec.ofNat 3 (field b 4 1), gen := BitVec.ofNat 8 (field b 5 1), tag := BitVec.ofNat 16 (field b 6 2)
    flow := BitVec.ofNat 20 (field b 8 3), op := BitVec.ofNat 8 (field b 11 1)
    body := (b.drop 16).take (field b 12 2) }

def pktFlits (k : Packet) : Nat := (16 + k.body.length + 243) / 244

def podOf (m : BitVec 14) : Nat := m.toNat / 64
def slotOf (m : BitVec 14) : Nat := m.toNat % 64

def State.ownPod (s : State) : Nat := podOf (s.modId.getD 0)

/-! ### Routes (R297 to R299) -/

/-- The set bound to a job. -/
def State.boundSet (s : State) (tag : BitVec 16) (gen : BitVec 8) : Option Nat :=
  (List.range 8).find? fun k => (s.rset k).valid && (s.rset k).tag == tag && (s.rset k).gen == gen

/-- RS_POD(q) of a bound set, when VALID. -/
def State.podEntry (s : State) (k q : Nat) : Option Nat :=
  let w := (mget 0 (s.rset k).pods q).toNat
  if bitAt w 15 then some w else none

/-- A port serves nothing more: FAILED, or its unit FENCED (R291, Table 17.5). -/
def State.portGone (s : State) (i : Nat) : Bool := (s.port i).st == .failed || (s.unit (1664 + i)).st == .fenced

/-- The port a role is served by now; one that is FAILED or FENCED serves nothing. -/
def State.usable (s : State) (i : Nat) : Option Nat :=
  let j := if (s.port i).taken then 71 else i
  if s.portGone j then none else some j

/-- Where a packet goes. -/
inductive Route where
  | here
  | port (i : Nat)
  | none_
  deriving DecidableEq, Repr

def Route.ofPort (s : State) (i : Nat) : Route :=
  match s.usable i with
  | some j => .port j
  | none => .none_

/-- The peer port toward a slot of the own pod. -/
def State.peerToward (s : State) (slot : Nat) : Route :=
  let p := (slot + 128 - s.pins.slot.toNat - 1) % 64
  if p = 63 then .none_ else Route.ofPort s (portOfPeer p)

/-- R298 for a packet of our own. -/
def State.routeOwn (s : State) (k : Packet) : Route :=
  if s.modId = some k.dst then .here
  else if podOf k.dst = s.ownPod then s.peerToward (slotOf k.dst)
  else if k.vc = 0 then .none_
  else match s.boundSet k.tag k.gen with
    | none => .none_
    | some r => match s.podEntry r (podOf k.dst) with
      | none => .none_
      | some e =>
        if (s.rset r).spread ∧ bitAt e 10 = true ∧ k.flow.getLsbD 0 = true then s.peerToward (bits e 9 4)
        else Route.ofPort s (portOfUplink (bits e 2 0))

/-- R299 for a packet that arrived on port `i` and is for another module. -/
def State.routeForward (s : State) (i : Nat) (k : Packet) : Route :=
  if 2 ≤ k.hops.toNat then .none_
  else if s.isUplink i then (if podOf k.dst = s.ownPod then s.peerToward (slotOf k.dst) else .none_)
  else if podOf k.dst = s.ownPod then .none_
  else match s.boundSet k.tag k.gen with
    | none => .none_
    | some r => match s.podEntry r (podOf k.dst) with
      | some e => Route.ofPort s (portOfUplink (bits e 2 0))
      | none => .none_

/-- A packet discarded for want of a route (R298, R299, R301). -/
def State.noRoute (s : State) (die : Nat) : State := (s.count (pgFab die) 0x114).raise (pgFab die) 0

/-! ### Sending -/

/-- One packet of an owner has entered the sending port's replay buffer (R321), or has nowhere to go. -/
def State.pktSent (s : State) (o : Owner) : State :=
  match o with
  | .tile t id => s.setEntry t 3 id fun e =>
      if e.need ≤ 1 then { e with need := 0, st := if e.st = .running then .finished else e.st }
      else { e with need := e.need - 1 }
  | .arc u e =>
    { s with copies := mput [] s.copies u ((mget [] s.copies u).map fun (c : CopyJob) =>
        if c.entry = e ∧ c.finished = false ∧ c.need ≠ 0 then { c with need := c.need - 1, finished := c.need == 1 } else c) }
  | .coll e => { s with colls := s.colls.map fun (c : Coll) => if c.entry = e then { c with unsent := c.unsent - 1 } else c }
  | .core _ | .unit | .gone => s

def State.enqueueTx (s : State) (i : Nat) (k : Packet) (fwd : Bool) (o : Owner) : State :=
  let p := s.port i
  let v := k.vc.toNat
  let x : TxPkt := ⟨pktBytes k, false, k.tag, k.gen, fwd, o⟩
  s.setPort i { p with tx := mput [] p.tx v (mget [] p.tx v ++ [x]) }

/-- Send a packet of our own (R298, R333); false when it was discarded. -/
def State.sendPacket (s : State) (k0 : Packet) (o : Owner) : State × Bool :=
  let k := { k0 with src := s.modId.getD 0, hops := 0 }
  if k.vc ≠ 0 ∧ s.live k.tag k.gen = false then (s, false)
  else match s.routeOwn k with
    | .here => ({ s with inbox := s.inbox ++ [(72, k)] }.pktSent o, true)
    | .port i => (s.enqueueTx i k false o, true)
    | .none_ => (s.noRoute (k.flow.toNat % 2), false)

/-- The owning F-die looks its context up in its cache of 512 sets of 16 ways, with least-recently-used replacement (R313). PRESUMED:
the set is the context's number over the die's bit, and each packet sent through or counted for a context, each atomic and each CWAIT
is one lookup (log 94). -/
def State.touchCtx (s : State) (c : Nat) : State :=
  let key := c % 2 * 512 + c / 2 % 512
  let l := mget [] s.ctxCache key
  let s1 := s.count (pgFlow (c % 2)) (if l.contains c then 0x140 else 0x144)
  { s1 with ctxCache := mput [] s1.ctxCache key ((c :: l.filter fun x => x != c).take 16) }

/-- Packets that a copy engine holds back go as those before them leave, or have nowhere to go (R324). -/
def State.feedList (u e : Nat) : List Packet → State → State
  | [], s => s
  | k :: r, s =>
    let s1 := { s with copies := mput [] s.copies u ((mget [] s.copies u).map fun (c : CopyJob) =>
      if c.entry = e ∧ c.finished = false then { c with held := r } else c) }
    match (s1.touchCtx k.flow.toNat).sendPacket k (.arc u e) with
    | (t, true) => t
    | (t, false) => State.feedList u e r (t.pktSent (.arc u e))

/-- The next packet of a copy engine's descriptor. -/
def State.feed (s : State) (o : Owner) : State :=
  match o with
  | .arc u e => (match (mget [] s.copies u).find? fun c => c.entry == e && !c.finished with
      | some c => State.feedList u e c.held s
      | none => s)
  | _ => s

/-! ### Flits (R292) -/

/-- Bytes 0 to 7 of a flit (Table 13.3). -/
def flitHead (f : Flit) : Nat :=
  f.vc.toNat + (if f.sop then 2 ^ 3 else 0) + (if f.eop then 2 ^ 4 else 0) + (if f.idle then 2 ^ 5 else 0) + 2 ^ 8 * f.seq.toNat +
    2 ^ 20 * f.ack.toNat + 2 ^ 32 * f.crvc.toNat + 2 ^ 35 * f.crcnt.toNat

/-- Bytes 0 to 251 of a flit, over which its CRC is taken; what a packet leaves of the 244 B is 0 (log 93). -/
def flitBody (f : Flit) : List Byte :=
  toLE 8 (flitHead f) ++ f.payload ++ List.replicate (244 - f.payload.length) 0

/-- The 256 bytes of a flit. -/
def flitBytes (f : Flit) : List Byte := flitBody f ++ toLE 4 f.crc.toNat

/-- A flit with its CRC. -/
def sealFlit (f : Flit) : Flit := { f with crc := crc32c (flitBody f) }

/-- The CRC check of a flit. -/
def flitOk (f : Flit) : Bool := f.crc == crc32c (flitBody f)

/-! ### The transmitter (R293 to R295) -/

def Port.credits (x : Port) (v : Nat) : Nat := mget (vcDepth v) x.credit v
def Port.txq (x : Port) (v : Nat) : List TxPkt := mget [] x.tx v

/-- A channel has a flit and a credit for it. -/
def Port.ready (x : Port) (v : Nat) : Bool := !(x.txq v).isEmpty && decide (0 < x.credits v)

/-- Quantum of a channel in flits (R295, R308). -/
def State.quantum (s : State) (die v : Nat) : Nat :=
  if v ≤ 4 then s.fld (pgFab die) 0x104 (8 * v - 1) (8 * v - 8) else s.fld (pgFab die) 0x108 (8 * (v - 4) - 1) (8 * (v - 4) - 8)

/-- A packet of this channel has been begun. -/
def Port.midPacket (x : Port) (v : Nat) : Bool := (x.txq v).any (·.begun)

/-- Deficit round robin over `chans`: the channel that sends and the port with its deficits. -/
def drr (quantum : Nat → Nat) (chans : List Nat) : Nat → Port → Option Nat × Port
  | 0, x => (none, x)
  | n + 1, x =>
    let v := x.cur
    let d := mget 0 x.deficit v
    if chans.contains v && x.ready v && (decide (0 < d) || x.midPacket v) then
      (some v, { x with deficit := mput 0 x.deficit v (d - 1) })
    else
      let d0 : Int := if x.ready v then d else min d 0
      let nxt := if v < 6 then v + 1 else 1
      let x1 := { x with deficit := mput 0 x.deficit v d0, cur := nxt }
      let q : Int := if chans.contains nxt then quantum nxt else 0
      drr quantum chans n { x1 with deficit := mput 0 x1.deficit nxt (mget 0 x1.deficit nxt + q) }

/-- The channel of the next flit (R295). -/
def State.chooseVc (s : State) (i : Nat) : Option Nat × Port :=
  let x := s.port i
  let die := i / 36
  let others := ([1, 2, 3, 4, 5, 6] : List Nat).filter x.ready
  if x.ready 0 ∧ (others.isEmpty = true ∨ 31 ≤ x.sinceVc0) then (some 0, x)
  else if x.pri ∧ x.ready 1 = true then (some 1, x)
  else
    let chans := (if x.pri then [2, 3, 4, 5, 6] else [1, 2, 3, 4, 5, 6]).filter fun v => s.quantum die v != 0
    if (chans.filter x.ready).isEmpty then (others.head?, x)
    else drr (s.quantum die) chans 256 x

/-- Route set of a packet being sent; 8: none. -/
def State.setOf (s : State) (y : TxPkt) : Nat := (s.boundSet y.tag y.gen).getD 8

/-- The rule for VC1 in force at a port: FAB_CTL.COLLPRI since the last packet boundary (R295, Table 13.7). -/
def State.priNow (s : State) (i : Nat) : Bool :=
  let x := s.port i
  if (List.range 8).any x.midPacket then x.pri else s.bit (pgFab (i / 36)) 0x100 0

/-- The packet of a channel that goes on, or the next set's turn (R295 step 4): its index. -/
def State.pickPkt (s : State) (x : Port) (v : Nat) : Nat :=
  let q := x.txq v
  match q.findIdx? (·.begun) with
  | some j => j
  | none =>
    let last := mget 8 x.lastSet v
    let order := (List.range 9).map fun k => (last + 1 + k) % 9
    (order.findSome? fun k => q.findIdx? fun y => s.setOf y == k).getD 0

/-- The credit return and acknowledgement that the next header carries. -/
def Port.header (x : Port) (f : Flit) : Flit × Port :=
  let v := ((List.range 8).find? fun v => mget 0 x.owed v != 0).getD 0
  let n := min 511 (mget 0 x.owed v)
  let (a, nak) := match x.nakDue with
    | some q => (q, true)
    | none => (x.expSeq - 1, false)
  ({ f with ack := a, nak := nak, crvc := BitVec.ofNat 3 v, crcnt := BitVec.ofNat 9 n },
   { x with owed := mput 0 x.owed v (mget 0 x.owed v - n), nakDue := none })

def idleFlit (seq : BitVec 12) : Flit :=
  ⟨0, false, false, true, seq, 0, false, 0, 0, [], 0⟩

/-- Levels at which a flit counts (R302). -/
def State.countLevels (s : State) (i : Nat) (fwd : Bool) : State :=
  let pg := pgFab (i / 36)
  let s1 := if s.isUplink i then s.count pg 0x154 else if fwd then s else s.count pg 0x150
  if fwd then s1.count pg 0x158 else s1

/-- A replayed flit: as it was, but with the acknowledgement, or the failed sequence number, of now (R293). -/
def Port.replayed (x : Port) (f : Flit) : Flit × Port :=
  let (a, nak) := match x.nakDue with
    | some q => (q, true)
    | none => (x.expSeq - 1, false)
  (sealFlit { f with ack := a, nak := nak }, { x with nakDue := none })

/-- The F-die is throttled, and the port's latest flit carried payload: an idle flit is due (R477). -/
def State.idleDue (s : State) (i : Nat) : Bool := (s.port i).paid && s.power.throttled.contains (18 + i / 36)

/-- An idle flit leaves port `i`, which is then `x`; it has the sequence number of the next payload flit. -/
def State.sendIdle (s : State) (i : Nat) (x : Port) : State :=
  let (f, x1) := x.header (idleFlit (match x.resend with
    | f :: _ => f.seq
    | [] => x.nextSeq))
  (s.setPort i { x1 with paid := false }).send (.flit i (sealFlit f))

/-- R292 to R295: the next flit leaves: a replayed one, a new one, or an idle one. -/
def execFlitTx (i : Nat) (s : State) : Out :=
  let x := { s.port i with pri := s.priNow i }
  if 72 ≤ i ∨ ¬ x.linked then .next s
  else if s.idleDue i then .next (s.sendIdle i x)
  else match x.resend with
    | f :: r =>
      let (f1, x1) := x.replayed f
      .next ((s.setPort i { x1 with resend := r, paid := true }).send (.flit i f1))
    | [] =>
      let s0 := s.setPort i x
      let (v?, x1) := if x.replay.length < 1024 then s0.chooseVc i else (none, x)
      match v? with
      | none => .next (s.sendIdle i x1)
      | some v =>
        let q := x1.txq v
        let j := s.pickPkt x1 v
        match q[j]? with
        | none => .next s
        | some y =>
          let last : Bool := decide (y.rest.length ≤ 244)
          let f0 : Flit := ⟨BitVec.ofNat 3 v, !y.begun, last, false, x1.nextSeq, 0, false, 0, 0, y.rest.take 244, 0⟩
          let (f1, x2) := x1.header f0
          let f := sealFlit f1
          let q1 := if last then q.eraseIdx j else q.set j { y with rest := y.rest.drop 244, begun := true }
          let x3 := { x2 with
            tx := mput [] x2.tx v q1
            credit := mput (vcDepth v) x2.credit v (x2.credits v - 1)
            nextSeq := x2.nextSeq + 1
            replay := x2.replay ++ [f]
            lastSet := mput 8 x2.lastSet v (s.setOf y)
            pri := if last then s.bit (pgFab (i / 36)) 0x100 0 else x2.pri
            paid := true
            sinceVc0 := if v = 0 then 0 else min 32 (x2.sinceVc0 + 1) }
          let s1 := ((s.setPort i x3).send (.flit i f)).countLevels i y.fwd
          .next (if last then (s1.pktSent y.owner).feed y.owner else s1)

/-! ### The receiver (R293, R294) -/

/-- A port that loses its lock, or whose replay keeps failing, trains again with everything unacknowledged to resend. -/
def State.retrain (s : State) (i : Nat) : State :=
  let x := s.port i
  (s.setPort i { x with st := .training, resend := x.replay, fails := 0, discarding := false }).count (pgPort i) 0x120

/-- Flits that an acknowledgement of sequence number `a` covers. -/
def ackCovers (a : BitVec 12) (f : Flit) : Bool := decide ((a - f.seq).toNat < 2048)

/-- An acknowledgement, or the failed sequence number and its replay; when 16 replays of one flit have failed the port trains
again. -/
def State.takeAck (s : State) (i : Nat) (f : Flit) : State :=
  let x := s.port i
  let upTo := if f.nak then f.ack - 1 else f.ack
  let left := x.replay.dropWhile (ackCovers upTo)
  let moved : Bool := left.length != x.replay.length
  let x1 := { x with
    replay := left
    fails := if moved then 0 else x.fails
    credit := mput (vcDepth f.crvc.toNat) x.credit f.crvc.toNat
      (min (vcDepth f.crvc.toNat) (x.credits f.crvc.toNat + f.crcnt.toNat)) }
  if f.nak then
    if left.isEmpty then s.setPort i { x1 with resend := [] }
    else if 16 ≤ x1.fails then (s.setPort i x1).retrain i
    else (s.setPort i { x1 with resend := left, fails := x1.fails + 1 }).count (pgPort i) 0x11C
  else s.setPort i { x1 with resend := x1.resend.dropWhile (ackCovers upTo) }

/-- Packets received whole on channel `v` and not yet taken. -/
def Port.rxq (x : Port) (v : Nat) : List Packet := mget [] x.pkts v

/-- R293, R294: a flit arrives, with the FEC codewords corrected since the last one and those that could not be. A unit that the
table holds as FENCED or OFF is reported (R405), and its flit is discarded. -/
def execFlitRx (i : Nat) (r : RxFlit) (s : State) : Out :=
  let s0 := (s.count (pgPort i) 0x110 r.cw).count (pgPort i) 0x114 r.unc
  let f := r.flit
  let x := s.port i
  let u := (s.unit (1664 + i)).st
  if 72 ≤ i then .next s
  else if u = .fenced ∨ u = .off then .next (s.report (pgPort i) ⟨1664 + i, 5, 0, 0, 0, 0, 0⟩ none)
  else if ¬ x.linked then .next s
  else if ¬ flitOk f then
    .next ((s0.setPort i { x with nakDue := some x.expSeq, discarding := true }).count (pgPort i) 0x118)
  else if f.seq ≠ x.expSeq then
    .next (if x.discarding then s0 else s0.setPort i { x with nakDue := some x.expSeq, discarding := true })
  else if f.idle then .next ((s0.setPort i { x with discarding := false }).takeAck i f)
  else
    let v := f.vc.toNat
    let got := (if f.sop then [] else mget [] x.rx v) ++ f.payload
    let x1 := { x with expSeq := x.expSeq + 1, discarding := false }
    let x2 := if f.eop then { x1 with rx := mput [] x1.rx v [], pkts := mput [] x1.pkts v (x1.rxq v ++ [packetOf got]) }
      else { x1 with rx := mput [] x1.rx v got }
    .next ((s0.setPort i x2).takeAck i f)

/-! ### Packets that arrive (R299, R301, R318 checks 1 and 2) -/

/-- The operations that are defined for a channel (Tables 14.4, 15.2 and 16.4); the spec defines none for VC6. -/
def opOfVc (vc op : Nat) : Bool :=
  if vc = 1 then decide (0x10 ≤ op) && decide (op ≤ 0x13)
  else if vc = 2 then op == 1 || op == 3 || op == 5
  else if vc = 3 then op == 2 || op == 6 || op == 7
  else if vc = 4 then op == 4
  else if vc = 5 then decide (0x20 ≤ op) && decide (op ≤ 0x25)
  else false

/-- F-die at which a packet from port `i` was received; a packet of our own is at its flow's die. -/
def dieOf (i : Nat) (k : Packet) : Nat := if i < 72 then i / 36 else k.flow.toNat % 2

/-- Check 1 failed: counted as a straggler of a retired job, or as unknown. -/
def State.dropUnlive (s : State) (die : Nat) (k : Packet) : State :=
  let j := s.job k.tag
  if j.st = .retired ∧ j.gen = k.gen ∨ j.st = .free ∧ j.lastGen = some k.gen then s.count (pgFlow die) 0x148
  else s.count (pgFlow die) 0x14C

/-- A VC0 packet is accepted (R301). -/
def State.mgmtAccepts (s : State) (k : Packet) : Bool :=
  if s.mgmtList.all (·.isNone) then k.op == 0x40 || k.op == 0x42
  else s.mgmtList.any fun e => e == some k.src

/-- The next packet of a port's channel leaves its receive buffer. -/
def State.popRx (s : State) (i v : Nat) : State :=
  let x := s.port i
  s.setPort i { x with pkts := mput [] x.pkts v ((x.rxq v).drop 1) }

/-- The credits of a packet's flits in the buffer of channel `v` are owed back. -/
def State.owe (s : State) (i v : Nat) (k : Packet) : State :=
  let x := s.port i
  s.setPort i { x with owed := mput 0 x.owed v (mget 0 x.owed v + pktFlits k) }

/-- Requests of VC2 that wait at port `i` (R330). -/
def State.inq (s : State) (i : Nat) : Nat :=
  (s.port i).lineq.length + (s.inbox.filter fun e => e.1 == i && e.2.vc == 2).length

/-- A collective packet that fails its check is discarded and counted (R341, R348). -/
def State.badColl (s : State) : State := ((s.orReg pgColl 0x104 0x1000).count pgColl 0x118).raise pgColl 3

/-- R299, R301, R318: the packet at the head of a port's receive buffer for channel `v`. One of VC1 keeps its credits until its
collective's command takes it (R341), and one of VC2 waits while the port's inbound queue is full (R330). -/
def execPacketRx (b : RxBuffer) (s : State) : Out :=
  let i := b.port
  let v := b.vc
  if 72 ≤ i then .next s
  else match (s.port i).rxq v with
    | [] => .next s
    | k :: _ =>
      let s1 := (s.popRx i v).owe i v k
      if k.vc = 7 then .next (s1.noRoute (i / 36))
      else if s.modId ≠ some k.dst ∧ ¬ (k.vc = 0 ∧ s.modId = none) then
        match s.routeForward i k with
        | .port j => .next (s1.enqueueTx j { k with hops := k.hops + 1 } true .unit)
        | _ => .next (s1.noRoute (i / 36))
      else if k.vc = 0 then
        .next (if s.mgmtAccepts k then s1 else (s1.count (pgFab (i / 36)) 0x118).raise (pgFab (i / 36)) 1)
      else if s.live k.tag k.gen = false then .next (s1.dropUnlive (i / 36) k)
      else if opOfVc k.vc.toNat k.op.toNat = false then .next (s1.count (pgFlow (i / 36)) 0x14C)
      else if k.vc = 1 then .next { s.popRx i v with inbox := s.inbox ++ [(i, k)] }
      else if k.vc = 2 ∧ 4096 ≤ s.inq i then .next s
      else .next { s1 with inbox := s1.inbox ++ [(i, k)] }

/-! ### Training and lanes (R290, R291) -/

/-- Lost ports: gone and not stood in for; the spare only while it stands in (R291). -/
def State.lostPorts (s : State) : Nat :=
  ((List.range 72).filter fun i =>
    if i = 71 then s.portGone 71 && (List.range 71).any fun j => (s.port j).taken
    else s.portGone i && !(s.port i).taken).length

/-- The cause bits of the replace request whose conditions hold now (R403); STEWARD too while both steward cores are PERMANENT (R421). -/
def State.replCauses (s : State) : Nat :=
  (if (List.range 16).any fun p => decide ((s.part p).n < (s.part p).grade) then 1 else 0) +
  (if s.ust.any fun e => decide (1152 ≤ e.1) && decide (e.1 < 1664) && e.2.st == .fenced then 2 else 0) +
  (if 2 < s.lost then 4 else 0) + (if s.rst.active1 ∨ (s.histOf 1800).st = 2 ∧ (s.histOf 1801).st = 2 then 8 else 0) + (if s.bit pgCs 0x104 13 then 16 else 0)

/-- FLT_REPL takes the causes that hold; the pin follows, and REPLACE is raised when the request rises (R403). -/
def State.updRepl (s : State) : State :=
  let s1 := s.orReg pgFault 0x104 (BitVec.ofNat 32 s.replCauses)
  let on : Bool := s1.reg pgFault 0x104 != 0
  let s2 := { s1 with pins.replaceReq := on }
  if on && s.reg pgFault 0x104 == 0 then s2.raise pgFault 1 else s2

/-- After a write that clears causes: those that hold are set again in the same cycle, and the pin follows (R403). -/
def State.replHeld (s : State) : State :=
  let s1 := s.orReg pgFault 0x104 (BitVec.ofNat 32 s.replCauses)
  { s1 with pins.replaceReq := s1.reg pgFault 0x104 != 0 }

/-- FAB_LOST follows, with LOST when it passes 2, and the replace request. -/
def State.updateLost (s : State) : State :=
  let n := s.lostPorts
  let s1 := { s with lost := n }
  (if 2 < n ∧ s.lost ≤ 2 then s1.raise (pgFab 0) 2 else s1).updRepl

/-- Packets queued at a port that `drop` names are given up: FAB_NOROUTE counts them, and their owners wait for them no longer. -/
def State.giveUp (s : State) (i : Nat) (drop : TxPkt → Bool) : State :=
  let x := s.port i
  let cut := (List.range 8).flatMap fun v => (x.txq v).filter drop
  let tx := (List.range 8).foldl (fun m v => mput [] m v ((x.txq v).filter fun y => !drop y)) x.tx
  let s1 := s.setPort i { x with tx := tx }
  let s2 := cut.foldl (fun (a : State) y => (a.pktSent y.owner).feed y.owner) s1
  if cut.isEmpty then s2 else (s2.count (pgFab (i / 36)) 0x114 cut.length).raise (pgFab (i / 36)) 0

/-- A port becomes FAILED (R290): what was part-sent is given up and counted (Table 13.7). -/
def State.portFail (s : State) (i : Nat) : State :=
  let s1 := (s.setPort i { s.port i with st := .failed, lanes := 0 }).giveUp i (·.begun)
  ((s1.orReg (pgPort i) 0x104 0x200).raise (pgPort i) 1).updateLost

/-- A port's unit becomes FENCED: it is held DOWN (Table 17.5), and everything it had accepted is given up (R28). -/
def State.portFence (s : State) (i : Nat) : State :=
  let s1 := (s.setUnit (1664 + i) ⟨.fenced, none⟩).setPort i { s.port i with st := .down, lanes := 0, attempts := 0 }
  (s1.giveUp i fun _ => true).updateLost

/-- The role of port `i` goes to port 71: what is queued for it leaves there (R291). -/
def State.standIn_ (s : State) (i : Nat) : State :=
  let x := s.port i
  let y := s.port 71
  let tx := (List.range 8).foldl (fun m v => mput [] m v (y.txq v ++ x.txq v)) y.tx
  ((s.setPort i { x with taken := true, tx := [] }).setPort 71 { y with standIn := i, tx := tx }).updateLost

/-- R290: a write of PRT_CTL; DR4_2 belongs to uplinks. -/
def execPortEnable (i : Nat) (w : W32) (s : State) : Out :=
  if 72 ≤ i ∨ s.pageBusy (pgPort i) then .next s
  else
    let x := s.port i
    let s1 := s.setReg (pgPort i) 0x100 (w &&& (if (portRole i).1 = 1 then 3 else 1))
    if w.getLsbD 0 = false then
      .next ((s1.setPort i { x with st := .down, lanes := 0, attempts := 0 }).updateLost)
    else if x.st = .down ∧ s.portPowered i = true then
      .next ((s1.setPort i { x with st := .training, attempts := 0 }).count (pgPort i) 0x120)
    else .next s1

/-- Lanes kept of those with lock: all 4, the lowest 2, or the one (R289, R290). -/
def keepLanes (l : BitVec 4) : BitVec 4 :=
  let on := (List.range 4).filter fun i => l.getLsbD i
  let keep := if on.length = 4 then on else if 2 ≤ on.length then on.take 2 else on
  keep.foldl (fun a i => a ||| (1 <<< i)) 0

/-- The far end is the one that R288 names. -/
def State.farOk_ (s : State) (i : Nat) (r : TrainResult) : Bool :=
  let (role, idx) := portRole (s.actingFor i)
  r.roleOk && (role != 0 || r.farSlot.toNat == (s.pins.slot.toNat + 1 + idx) % 64)

/-- R290: a training attempt ends; fewer lanes than MINLANES are a conflict (R480). -/
def execPortTrainDone (i : Nat) (r : TrainResult) (s : State) : Out :=
  let x := s.port i
  if 72 ≤ i ∨ x.st ≠ .training then .next s
  else if r.lanes = 0 then
    if 2 ≤ x.attempts then .next ((s.setPort i { x with attempts := 3 }).portFail i)
    else .next ((s.setPort i { x with attempts := x.attempts + 1 }).count (pgPort i) 0x120)
  else if ¬ s.farOk_ i r then .next (s.portFail i)
  else
    let k := keepLanes r.lanes
    let x1 := { x with st := if k = 15 then .up else .degraded, lanes := k, attempts := 0, peerSlot := r.farSlot, rtt := r.rtt }
    let s1 := (s.setPort i x1).updateLost
    let s2 := if k = 15 then s1 else (s1.orReg (pgPort i) 0x104 0x100).raise (pgPort i) 0
    let n := ((List.range 4).filter fun l => k.getLsbD l).length
    .next (if n < s.fld pgPower 0x10C 14 12 then s2.conflict 5 else s2)

/-- R290: a lane in use fails. -/
def execLaneFail (i lane : Nat) (s : State) : Out :=
  let x := s.port i
  if 72 ≤ i ∨ ¬ x.linked ∨ x.lanes.getLsbD lane = false then .next s
  else .next ((s.setPort i { x with lanes := x.lanes &&& ~~~ ((1 : BitVec 4) <<< lane) }).retrain i)

/-! ### Ring frames (R303 to R305) -/

/-- A frame around a token, from LEN on (Table 13.6); the preamble's value is not given and is left out of the trace. -/
def ringFrame (hops : Nat) (tok : List Byte) : List Byte :=
  let b := toLE 1 tok.length ++ toLE 1 hops ++ tok
  b ++ toLE 4 (crc32c b).toNat

/-- The hop count and token of a frame that passes its CRC. -/
def ringToken (f : List Byte) : Option (Nat × List Byte) :=
  let n := field f 2 1
  if 1 ≤ n ∧ n ≤ 64 ∧ f.length = n + 8 ∧ field f (4 + n) 4 = (crc32c (slice_ f 2 (n + 2))).toNat then
    some (field f 3 1, slice_ f 4 n)
  else none

/-- What a step-control token of the ring does to the module when it is received at `at_`, in units of 125 ps (Table 2.1). ARRIVE is
for the pod controller, and other types are not for the timebase (R47). -/
def stepToken (at_ : Nat) (b : List Byte) (s : State) : Out :=
  let op := field b 0 1
  let b1 := field b 1 1
  if op = 1 then
    execMark ⟨BitVec.ofNat 6 b1, bitAt b1 7, BitVec.ofNat 32 (field b 4 4), w64At b 8⟩ s
  else if op = 2 then execTime (w64At b 8) s
  else if op = 3 then execCalCw at_ s
  else if op = 4 then execCalCcw at_ s
  else if op = 5 then execCalLoop (w64At b 8) s
  else if op = 7 then execAdmitToken (BitVec.ofNat 6 b1) (bitAt b1 7) s
  else .next s

/-- R304, R47: a frame that arrives at `at_` is passed on with HOPS + 1, or discarded; a module out of the ring only listens (R48).
Its token is consumed when it is for the module. A clockwise token of a ring collective goes on by the command that meets it (R356). -/
def execRingFrameRx (cw : Bool) (f : RxFrame) (s : State) : Out :=
  let s0 := if cw then { s with cwLock := true } else { s with ccwLock := true }
  match ringToken f.bytes with
  | none => .next (((s0.orReg pgRing 0x104 0x100).count pgRing 0x108).raise pgRing 0)
  | some (h, tok) =>
    let s1 :=
      if ¬ s.inRing then s0
      else if cw ∧ (field tok 0 1 = 0x10 ∨ field tok 0 1 = 0x11) then { s0 with ringHops := h + 1 }
      else (s0.count pgRing 0x10C).send (.ring cw (ringFrame ((h + 1) % 256) tok))
    stepToken f.at_ tok s1

/-- R304: an own frame leaves in a gap, and its credit returns. -/
def execRingFrameTx (cw : Bool) (s : State) : Out :=
  match (if cw then s.ringCw else s.ringCcw) with
  | [] => .next s
  | tok :: r =>
    if ¬ s.inRing then .next s
    else
      let s1 := if cw then { s with ringCw := r ++ s.ringWait.take 1, ringWait := s.ringWait.drop 1 } else { s with ringCcw := r }
      .next (s1.send (.ring cw (ringFrame 0 tok)))

/-- R305: a write of RING_CTL. -/
def execRingInsert (w : W32) (s : State) : Out :=
  if s.pageBusy pgRing then .next s else .next (s.setInsert (w.getLsbD 0))

end Sys2Proof.Machine
end

