-- ==== Sys2Proof/Machine/Flow.lean ====
section
/-! DEFINITION. Flow contexts, windows and aperture entries (R311 to R316, R335), remote requests and their answers (R317 to
R322, R327, R331, R332), the receiver's checks (R318), atomics (R327 to R329) and the order at a line (R330). -/
namespace Sys2Proof.Machine

/-! ### Remote addresses -/

/-- Window and offset of a remote address; none when a reserved bit is set (R184). -/
def remoteOf (a : W64) : Option (Nat × Nat) :=
  if a.toNat / 2 ^ 52 ≠ 0 then none else some (bits a.toNat 51 40, bits a.toNat 39 0)

/-- The address of offset `x` of a window (R316). -/
def Win.addr (w : Win) (x : Nat) : W64 := plus w.base x

/-- The context that a send names, when it may send (R313). -/
def State.sendCtx (s : State) (c : Nat) : Option Ctx :=
  let x := s.ctx (c % 2 ^ 20)
  if x.valid && x.send then some x else none

/-- A packet sent through a context, with its operation header (Table 14.5). -/
def ctxPacket (c : Nat) (x : Ctx) (vc op code aseq rid : Nat) (addr : W64) (data : List Byte) : Packet :=
  { dst := x.dst, hops := 0, src := 0, vc := BitVec.ofNat 3 vc, gen := x.gen, tag := x.tag
    flow := BitVec.ofNat 20 c, op := BitVec.ofNat 8 op
    body := toLE 3 x.tctx.toNat ++ toLE 1 code ++ toLE 2 aseq ++ toLE 2 rid ++ toLE 8 addr.toNat ++ data }

def hTctx (k : Packet) : Nat := field k.body 0 3
def hCode (k : Packet) : Nat := field k.body 3 1
def hAseq (k : Packet) : Nat := field k.body 4 2
def hRid (k : Packet) : Nat := field k.body 6 2
def hAddr (k : Packet) : W64 := w64At k.body 8
def hData (k : Packet) : List Byte := k.body.drop 16

/-- The answer to a request: to its sender, for the context that sent it. -/
def answer (q : Packet) (vc op code : Nat) (mask : Nat) (data : List Byte) : Packet :=
  { dst := q.src, hops := 0, src := 0, vc := BitVec.ofNat 3 vc, gen := q.gen, tag := q.tag
    flow := BitVec.ofNat 20 (hTctx q), op := BitVec.ofNat 8 op
    body := toLE 3 q.flow.toNat ++ toLE 1 code ++ toLE 2 (hAseq q) ++ toLE 2 (hRid q) ++ toLE 8 mask ++ data }

/-! ### Outstanding requests (R320, R327) -/

/-- One part of an owner's request has ended, with an error or without. -/
def State.ownerDone (s : State) (o : Owner) (err : Option ErrNote) : State :=
  match o with
  | .tile t id => s.setEntry t 3 id fun e =>
      let e1 := { e with err := if e.err.isSome then e.err else err, need := e.need - 1 }
      if e.need ≤ 1 then { e1 with st := .finished } else e1
  | .arc u a =>
    { s with copies := mput [] s.copies u ((mget [] s.copies u).map fun c =>
        if c.entry = a ∧ c.started = true ∧ c.finished = false then
          { c with need := c.need - 1, failed := c.failed || err.isSome, finished := decide (c.need ≤ 1) }
        else c) }
  | .coll _ | .core _ | .unit | .gone => s

/-- The aperture entry, context and remote address of an aperture access of `n` bytes at `addr` (R312). -/
def State.apTarget (s : State) (addr n : Nat) : Option (Nat × Ctx × W64) :=
  let a := addr - 0x13000000000
  let ap := mget Apt.none_ s.apts (a / 2 ^ 36)
  if addr < 0x13000000000 ∨ 2 ^ 48 ≤ addr ∨ n = 0 ∨ 64 < n ∨ 64 < a % 64 + n ∨ ¬ ap.valid then none
  else (s.sendCtx ap.flow.toNat).map fun x =>
    (ap.flow.toNat, x, BitVec.ofNat 64 (ap.win.toNat * 2 ^ 40 + ap.offhi.toNat * 2 ^ 36 + a % 2 ^ 36))

/-- An aperture store (R312): false is an error response. Poison cannot be sent. -/
def State.apStore (s : State) (addr : Nat) (bs : List (PVal Byte)) (o : Owner) : State × Bool :=
  match s.apTarget addr bs.length, allSome bs with
  | some (c, x, r), some b => (match (s.touchCtx c).sendPacket (ctxPacket c x 2 3 0 0 0 r b) o with
      | (v, true) => (v, true)
      | (v, false) => (v.pktSent o, true))
  | _, _ => (s, false)

/-- A module address behind the remote-window aperture. -/
def inAperture (a : Nat) : Bool := decide (0x13000000000 ≤ a) && decide (a < 2 ^ 48)

/-- Bytes as the data of packets, one after the other. -/
def fillPackets : List Packet → List Byte → List Packet
  | [], _ => []
  | k :: r, bs => { k with body := k.body.take 16 ++ bs.take (k.body.length - 16) } :: fillPackets r (bs.drop (k.body.length - 16))

/-- The bytes that the put of arc `e` waits for have come through the aperture: its packets go with them; poison cannot go. -/
def State.putHeld (s : State) (u e : Nat) (bs : List (PVal Byte)) : State × Bool :=
  match (mget [] s.copies u).find? fun c => c.entry == e && !c.finished with
  | none => (s, true)
  | some c =>
    let s1 := { s with copies := mput [] s.copies u ((mget [] s.copies u).map fun (y : CopyJob) =>
      if y.entry = e ∧ y.finished = false then { y with held := [] } else y) }
    match allSome bs with
    | none => (c.held.foldl (fun a _ => a.pktSent (.arc u e)) s1, false)
    | some b => ((fillPackets c.held b).foldl (fun (a : State) k => match (a.touchCtx k.flow.toNat).sendPacket k (.arc u e) with
        | (v, true) => v
        | (v, false) => v.pktSent (.arc u e)) s1, true)

/-- Write bytes where an answer goes: a module address, or the owner's tile store; false when the write was refused. -/
def State.putLocal (s : State) (o : Owner) (space : Bool) (dst : Nat) (bs : List (PVal Byte)) : State × Bool :=
  let toSpace := fun (w : Who) =>
    if inAperture dst then (match s.apStore dst bs o with
      | (v, true) => (v, true)
      | (v, false) => (v.pktSent o, false))
    else s.putX w (BitVec.ofNat 64 dst) bs
  match o with
  | .gone => (s, true)
  | .core c => (s.setCore c { s.core_ c with ap := some (dst, some bs) }, true)
  | .coll _ | .unit => (s.send (.apertureReply bs), true)
  | .tile t _ => if space then toSpace .tile else ({ s with mem := s.mem.wr (tst t dst) bs }, true)
  | .arc u e => if space then toSpace .unit else s.putHeld u e bs

def State.dropReq (s : State) (rid : Nat) : State := { s with outst := s.outst.filter fun o => o.rid != rid }



/-- STATUS and RESULT go into the operand block of an atomic (R185). -/
def State.atomRecord (s : State) (o : Outst) (status : Nat) (result : Option (List Byte)) : State :=
  match o.owner with
  | .tile t _ =>
    let op := hCode o.pkt
    let res : List (PVal Byte) := match result with
      | some b => b.map some
      | none => List.replicate (atomSize op) none
    let m := if status = 0 ∧ 8 ≤ op then s.mem else s.mem.wr (tst t (o.dst + 32)) res
    { s with mem := m.wr (tst t (o.dst + 48)) ((toLE 2 status).map some) }
  | _ => s

/-- The RPUT that a request's bytes are for, which go from it into packets (R312). -/
def State.rputOf (s : State) (o : Outst) : Option (Nat × QEntry) :=
  match o.owner with
  | .tile t id => (s.entry? t 3 id).bind fun e => if wMajor e.word.toNat = 0x22 then some (t, e) else none
  | _ => none

/-- An outstanding request ends with an error: poison at a load's destination, or an atomic's STATUS (R319, R331). -/
def State.reqFail (s : State) (o : Outst) (status code : Nat) : State :=
  let s1 := s.dropReq o.rid
  let c := s1.ctx o.ctx
  let s2 := if o.atom then
      (if o.sent then s1.setCtx o.ctx { c with outn := c.outn - 1 } else s1).atomRecord o status none
    else if (s1.rputOf o).isSome then s1
    else (s1.putLocal o.owner o.space o.dst (List.replicate o.len none)).1
  s2.ownerDone o.owner (errNote o.dst code true)

/-- JOB_TARGET_LOST (R331). -/
def State.targetLost (s : State) (o : Outst) : State :=
  let pg := pgFlow (o.ctx % 2)
  let s1 := if s.bit pg 0x104 8 then s
    else s.setReg64 pg 0x170 (o.ctx + 2 ^ 32 * o.pkt.dst.toNat)
  (((s1.reqFail o 2 4).orReg pg 0x104 0x100).count pg 0x15C).raise pg 0

/-- The request's 16-bit identifier in its header (RID, Table 14.5), never 0. -/
def Outst.id16 (o : Outst) : Nat := 1 + o.rid % 65535

/-- Requests of an F-die that are out. -/
def State.outCount (s : State) (die : Nat) : Nat := (s.outst.filter fun o => o.sent && o.ctx % 2 == die).length

/-- A COPY engine has its 64 packets in flight (R324). -/
def State.engineFull (s : State) (o : Owner) : Bool :=
  match o with
  | .arc u _ => decide (64 ≤ (s.outst.filter fun y => y.sent && (match y.owner with
      | .arc v _ => v == u
      | _ => false)).length)
  | _ => false

/-- Send a request that waits, when it may go (R320, R324, R327): no other one that is out carries its identifier. -/
def State.trySend (s : State) (o : Outst) : State :=
  let c := s.ctx o.ctx
  if o.sent || decide (4096 ≤ s.outCount (o.ctx % 2)) || (o.atom && decide (256 ≤ c.outn)) ||
      s.engineFull o.owner || s.outst.any (fun y => y.sent && y.id16 == o.id16) then s
  else
    let aseq := c.aseq.toNat
    let k := if o.atom then { o.pkt with body := o.pkt.body.take 4 ++ toLE 2 aseq ++ o.pkt.body.drop 6 } else o.pkt
    let o1 := { o with pkt := k, sent := true, sentAt := s.clk }
    let s1 := { s with outst := s.outst.map (fun (y : Outst) => if y.rid = o.rid then o1 else y) }
    let s2 := if o.atom then s1.setCtx o.ctx { c with aseq := c.aseq + 1, outn := c.outn + 1 } else s1
    let (s3, ok) := (s2.touchCtx o.ctx).sendPacket k .unit
    if ok ∨ s.live k.tag k.gen = false then s3 else s3.targetLost o1

/-- Waiting requests go as credit returns, in order. -/
def State.pump (s : State) : State := s.outst.foldl (fun a o => if o.sent then a else a.trySend o) s

/-- A new outstanding request; its identifier is put into its header. -/
def State.addReq (s : State) (c : Nat) (k : Packet) (o : Owner) (space : Bool) (dst len : Nat) (atom cache : Bool) : State :=
  let k1 := { k with body := k.body.take 6 ++ toLE 2 (1 + s.nextRid % 65535) ++ k.body.drop 8 }
  let x : Outst := ⟨s.nextRid, c, k1, o, space, dst, len, atom, cache, false, 0, 0⟩
  ({ s with outst := s.outst ++ [x], nextRid := s.nextRid + 1 }).pump

/-- Ranges `[a, a + n)` cut at multiples of `g`. -/
def cutAt (g : Nat) : Nat → Nat → Nat → List (Nat × Nat)
  | 0, _, _ => []
  | f + 1, a, n =>
    if n = 0 then []
    else
      let k := min n (g - a % g)
      (a, k) :: cutAt g f (a + k) (n - k)

def cuts (g a n : Nat) : List (Nat × Nat) := cutAt g (n / g + 2) a n

/-! ### Remote-line cache (R325, R326) -/

/-- The line at `off` of a window through a context, in the cache of F-die `die`. -/
def State.rlcFind (s : State) (die : Nat) (x : Ctx) (w off : Nat) : Option RLine :=
  s.rlc.find? fun l => l.die == die && l.tag == x.tag && l.gen == x.gen && l.dst == x.dst && l.win == w && l.off == off

/-- Lookups and fills are on (FLW_CTL.RLC_EN). -/
def State.rlcOn (s : State) (die : Nat) : Bool := s.bit (pgFlow die) 0x100 1

/-- A lookup; whether the line was evicted before it is a free bit (log 6). -/
def State.rlcLook (s : State) (die : Nat) (x : Ctx) (w off : Nat) : Option (List Byte) × State :=
  match s.rlcFind die x w off with
  | none => (none, s.count (pgFlow die) 0x16C)
  | some l =>
    let s1 := { s with fresh := s.fresh + 1 }
    if Config.freeBit s.fresh then (some l.data, s1.count (pgFlow die) 0x168)
    else (none, { s1 with rlc := s1.rlc.filter fun y => y != l }.count (pgFlow die) 0x16C)

/-- Parts of a get that must be requested, and the bytes that the cache serves, in order (R325). -/
def State.rlcSplit (s : State) (die : Nat) (x : Ctx) (w off len : Nat) : State × List (Nat × Nat) × List (Nat × List Byte) :=
  (cuts 64 off len).foldl (fun (acc : State × List (Nat × Nat) × List (Nat × List Byte)) c =>
    let (u, ask, have_) := acc
    if c.2 ≠ 64 then (u, ask ++ [c], have_)
    else match u.rlcLook die x w c.1 with
      | (some d, u1) => (u1, ask, have_ ++ [(c.1, d)])
      | (none, u1) => (u1, ask ++ [c], have_)) (s, [], [])

/-- Neighbouring parts are one request, cut at 2 KiB of the source offset (R320). -/
def joinParts : List (Nat × Nat) → List (Nat × Nat)
  | (a, n) :: (b, m) :: r =>
    if a + n = b ∧ b % 2048 ≠ 0 then
      match joinParts ((b, m) :: r) with
      | (c, k) :: t => if c = b then (a, n + k) :: t else (a, n) :: (c, k) :: t
      | [] => [(a, n)]
    else (a, n) :: joinParts ((b, m) :: r)
  | l => l

/-- A get of `len` bytes at offset `off` of window `w` through context `c` to `dst`: what the cache has is written, the rest
requested. The numbers of requests and of writes come back; a refused write of cached bytes is false. -/
def State.startGet (s : State) (c : Nat) (x : Ctx) (w off len : Nat) (o : Owner) (space : Bool) (dst : Nat) (cache : Bool) :
    State × Nat × Nat × Bool :=
  let die := c % 2
  let (s1, ask, have_) :=
    if cache && s.rlcOn die then s.rlcSplit die x w off len else (s, cuts 2048 off len, [])
  let (s2, ok) := have_.foldl (fun (a : State × Bool) h =>
    let (u, k) := a.1.putLocal o space (dst + (h.1 - off)) (h.2.map some)
    (u, a.2 && k)) (s1, true)
  let parts := joinParts ask
  (parts.foldl (fun u p =>
    let k := ctxPacket c x 2 1 0 0 0 (BitVec.ofNat 64 (w * 2 ^ 40 + p.1)) (toLE 8 (p.2 - 1))
    u.addReq c k o space (dst + (p.1 - off)) p.2 false cache) s2, parts.length, parts.length + have_.length, ok)

/-- STOREs or PUTs of `bs` at offset `off` of window `w` (R321). -/
def putPackets (c : Nat) (x : Ctx) (w off : Nat) (bs : List Byte) (puts : Bool) : List Packet :=
  (cuts (if puts then 2048 else 64) off bs.length).map fun p =>
    ctxPacket c x (if puts then 4 else 2) (if puts then 4 else 3) 0 0 0 (BitVec.ofNat 64 (w * 2 ^ 40 + p.1))
      (slice_ bs (p.1 - off) p.2)

/-- Send an owner's packets; one that has nowhere to go has gone (R332), and lets the next one of a COPY engine go. -/
def State.sendAll (s : State) (c : Nat) (ks : List Packet) (o : Owner) : State :=
  ks.foldl (fun u k => match (u.touchCtx c).sendPacket k o with
    | (v, true) => v
    | (v, false) => (v.pktSent o).feed o) s

def putCount (puts : Bool) (off n : Nat) : Nat := (cuts (if puts then 2048 else 64) off n).length

/-! ### Flow commands (R314) -/

/-- Context image (Table 14.1): its context, or none for a reserved field or TMO above 8. -/
def ctxOf (b : List Byte) : Option Ctx :=
  let fl := field b 3 1
  if 8 ≤ fl ∨ 2 ^ 14 ≤ field b 4 2 ∨ 8 < field b 6 1 ∨ 2 ^ 20 ≤ field b 8 3 ∨ field b 11 1 ≠ 0 ∨ field b 22 2 ≠ 0 ∨
      2 ^ 14 ≤ field b 24 2 ∨ 2 ^ 20 ≤ field b 26 3 ∨ field b 29 1 ≠ 0 ∨ 2 ^ 15 ≤ field b 30 2 ∨ ¬ allZero (b.drop 38) then
    none
  else some
    { tag := BitVec.ofNat 16 (field b 0 2), gen := BitVec.ofNat 8 (field b 2 1), valid := bitAt fl 0, send := bitAt fl 1
      atom := bitAt fl 2, dst := BitVec.ofNat 14 (field b 4 2), tmo := field b 6 1, waitms := field b 7 1
      tctx := BitVec.ofNat 20 (field b 8 3), aseq := 0, outn := 0, arrived := BitVec.ofNat 48 (field b 16 6)
      peer := BitVec.ofNat 14 (field b 24 2), pflow := BitVec.ofNat 20 (field b 26 3), rslot := BitVec.ofNat 15 (field b 30 2)
      high := 0xFFFF, applied := 0 }

/-- The 64 bytes of an entry. -/
def ctxBytes (x : Ctx) : List Byte :=
  toLE 2 x.tag.toNat ++ toLE 1 x.gen.toNat ++
    toLE 1 ((if x.valid then 1 else 0) + (if x.send then 2 else 0) + (if x.atom then 4 else 0)) ++
    toLE 2 x.dst.toNat ++ toLE 1 x.tmo ++ toLE 1 x.waitms ++ toLE 3 x.tctx.toNat ++ toLE 1 0 ++ toLE 2 x.aseq.toNat ++
    toLE 2 x.outn ++ toLE 6 x.arrived.toNat ++ toLE 2 0 ++ toLE 2 x.peer.toNat ++ toLE 3 x.pflow.toNat ++ toLE 1 0 ++
    toLE 2 x.rslot.toNat ++ toLE 2 x.high.toNat ++ toLE 4 x.applied.toNat ++ List.replicate 26 0

def winOf (b : List Byte) : Win :=
  ⟨BitVec.ofNat 16 (field b 0 2), BitVec.ofNat 8 (field b 2 1), BitVec.ofNat 4 (field b 3 1), bitAt (field b 3 1) 4,
   w64At b 8, field b 16 8⟩

/-- BASE and SIZE of a window (R316). -/
def Win.ok (w : Win) : Bool :=
  let b := w.base.toNat
  b % 64 == 0 && w.size % 64 == 0 && decide (w.size ≤ 2 ^ 40) &&
  (if w.base.getLsbD 63 then
    bits b 60 37 == 0 && decide (bits b 62 61 < 3) && decide (bits b 32 26 < 72) && decide (bits b 25 0 + w.size ≤ sliceBytes)
   else
    decide (b < 2 ^ 48) && (match regionOf b, regionOf (b + (w.size - 1)) with
      | .far _, .far _ => true
      | .near _, .near _ => true
      | _, _ => false))

/-- A refused command: FLW_CMDERR, CMD_ERR and its event. -/
def State.flwRefuse (s : State) (f code : Nat) : State :=
  ((s.setReg (pgFlow f) 0x120 (BitVec.ofNat 32 code)).orReg (pgFlow f) 0x104 0x400).raise (pgFlow f) 2

def State.flwNum (s : State) (f : Nat) : Nat := s.fld (pgFlow f) 0x10C 19 0

/-- The command's image of `n` bytes in the near tier (R314). -/
def State.flwImage (s : State) (f n : Nat) : Option (List Byte) :=
  let a := s.reg64 (pgFlow f) 0x110
  if inNear a n then (s.load .unit a n).bind allSome else none

/-- Run a flow command on the page of F-die `f`. -/
def State.flwCmd (s : State) (f : Nat) (g : Nat → State) : Out :=
  if 2 ≤ f ∨ s.pageBusy (pgFlow f) then .next s else .next (g (s.flwNum f))

/-- CREATE. -/
def execFlwCreate (f : Nat) (s : State) : Out :=
  s.flwCmd f fun c =>
    if c % 2 ≠ f then s.flwRefuse f 1
    else if (s.ctx c).valid then s.flwRefuse f 3
    else match s.flwImage f 64 with
      | none => s.flwRefuse f 6
      | some b =>
        if s.live (BitVec.ofNat 16 (field b 0 2)) (BitVec.ofNat 8 (field b 2 1)) = false then s.flwRefuse f 4
        else match ctxOf b with
          | none => s.flwRefuse f 5
          | some x =>
            if x.atom ∧ s.ctxs.any (fun e => e.1 != c && e.2.valid && e.2.atom && e.2.rslot == x.rslot) = true then
              s.flwRefuse f 8
            else s.setCtx c x

/-- A running CWAIT on context `c` (R323). -/
def QEntry.cwaits (e : QEntry) (c : Nat) : Bool :=
  e.st == .running && wMajor e.word.toNat == 0x25 &&
    ((e.ops.getD (bits e.word.toNat 37 34) none).map fun n => n.toNat % 2 ^ 20) == some c

/-- Change every running CWAIT on context `c` that `p` names. -/
def State.eachCwait (s : State) (c : Nat) (p : QEntry → Bool) (f : QEntry → QEntry) : State :=
  s.tiles.foldl (fun a te => te.2.q3.foldl (fun b e => if e.cwaits c && p e then b.setEntry te.1 3 e.id f else b) a) s

/-- A threshold that a running CWAIT on context `c` has reached retires it (R323). -/
def State.wakeCwaits (s : State) (c : Nat) : State :=
  let v := (s.ctx c).arrived.toNat
  s.eachCwait c (fun e => match e.ops.getD (bits e.word.toNat 33 30) none with
    | some th => decide (th.toNat % 2 ^ 48 ≤ v)
    | none => false) fun y => { y with st := .finished }

/-- Every running CWAIT on a context that is not VALID any more ends with an error response (R323). -/
def State.failCwaits (s : State) (c : Nat) : State :=
  s.eachCwait c (fun _ => true) fun y => { y with st := .finished, err := errNote c 9 false }

/-- DESTROY. -/
def execFlwDestroy (f : Nat) (s : State) : Out :=
  s.flwCmd f fun c =>
    if c % 2 ≠ f then s.flwRefuse f 1
    else if ¬ (s.ctx c).valid then s.flwRefuse f 2
    else (s.setCtx c { s.ctx c with valid := false }).failCwaits c

/-- READ. -/
def execFlwRead (f : Nat) (s : State) : Out :=
  s.flwCmd f fun c =>
    if c % 2 ≠ f then s.flwRefuse f 1
    else if ¬ (s.ctx c).valid then s.flwRefuse f 2
    else
      let a := s.reg64 (pgFlow f) 0x110
      if ¬ inNear a 64 then s.flwRefuse f 6
      else match s.store .unit a ((ctxBytes (s.ctx c)).map some) with
        | .ok s1 => s1
        | .err s1 => s1.flwRefuse f 6
        | .hold k => s.held_ k

/-- SETARR; what arrived in this nanosecond is added to the written value (Table 14.8). -/
def execFlwSetarr (f : Nat) (s : State) : Out :=
  s.flwCmd f fun c =>
    if c % 2 ≠ f then s.flwRefuse f 1
    else if ¬ (s.ctx c).valid then s.flwRefuse f 2
    else (s.setCtx c { s.ctx c with
      arrived := BitVec.ofNat 48 (s.reg64 (pgFlow f) 0x118) + BitVec.ofNat 48 (mget 0 s.arrNow c) }).wakeCwaits c

/-- WINDOW. -/
def execFlwWindow (f : Nat) (s : State) : Out :=
  s.flwCmd f fun c =>
    match s.flwImage f 32 with
    | none => s.flwRefuse f 6
    | some b =>
      let w := winOf b
      if s.live w.tag w.gen = false then s.flwRefuse f 4
      else if 2 ^ 5 ≤ field b 3 1 ∨ field b 4 4 ≠ 0 ∨ field b 24 8 ≠ 0 then s.flwRefuse f 5
      else if ¬ w.ok then s.flwRefuse f 7
      else { s with wins := mput Win.none_ s.wins (c % 4096) w }

/-- UNWINDOW. -/
def execFlwUnwindow (f : Nat) (s : State) : Out :=
  s.flwCmd f fun c => { s with wins := mdel s.wins (c % 4096) }

/-- APERTURE. -/
def execFlwAperture (f : Nat) (s : State) : Out :=
  s.flwCmd f fun c =>
    if 4076 < c then s.flwRefuse f 1
    else match s.flwImage f 8 with
      | none => s.flwRefuse f 6
      | some b =>
        let v := leNat b
        if bits v 62 36 ≠ 0 then s.flwRefuse f 5
        else
          let ap : Apt := ⟨BitVec.ofNat 20 v, BitVec.ofNat 12 (v / 2 ^ 20), BitVec.ofNat 4 (v / 2 ^ 32), bitAt v 63⟩
          { s with apts := mput Apt.none_ s.apts c ap }

/-- INVALL (R325). -/
def execFlwInvall (f : Nat) (s : State) : Out :=
  if 2 ≤ f ∨ s.pageBusy (pgFlow f) then .next s else .next { s with rlc := s.rlc.filter fun l => l.die != f }

/-- R312: a load of `len` bytes through the aperture; `o` is whose it is, with `space` and `dst`. False: an error response. -/
def State.apLoad (s : State) (addr len : Nat) (o : Owner) (space : Bool) (dst : Nat) : State × Bool :=
  match s.apTarget addr len with
  | some (c, x, r) => (s.addReq c (ctxPacket c x 2 1 0 0 0 r (toLE 8 (len - 1))) o space dst len false false, true)
  | none => (s, false)

/-- R312, R265: a load or a store from outside through the aperture; one of no bytes is done at once. -/
def execApertureAccess (addr len : Nat) (wr : Option (List Byte)) (s : State) : Out :=
  match wr with
  | some b =>
    let (s1, ok) := s.apStore addr (b.map some) .unit
    .next (if ok || b.isEmpty then s1 else s.send (.apertureReply []))
  | none =>
    let (s1, ok) := s.apLoad addr len .unit false 0
    .next (if ok then s1 else s.send (.apertureReply (List.replicate len none)))

/-! ### Receiver (R318) -/

/-- The next packet in the inbox with an operation code of `ops`, and where it came from. -/
def State.nextPkt (s : State) (ops : List Nat) : Option (Nat × Packet) :=
  s.inbox.find? fun e => ops.contains e.2.op.toNat

/-- The next VC2 write or atomic, of operation `op`: the first of its F-die in the order of arrival (R330). -/
def State.nextWrite (s : State) (op : Nat) : Option (Nat × Packet) :=
  (([0, 1] : List Nat).filterMap fun d => s.inbox.find? fun e => (e.2.op == 3 || e.2.op == 5) && dieOf e.1 e.2 == d).find? fun e =>
    e.2.op.toNat == op

/-- Take it out. -/
def dropFirst (p : Nat × Packet → Bool) : List (Nat × Packet) → List (Nat × Packet)
  | [] => []
  | x :: r => if p x then r else x :: dropFirst p r

def State.taken (s : State) (ops : List Nat) : State :=
  { s with inbox := dropFirst (fun e => ops.contains e.2.op.toNat) s.inbox }

/-- Take this packet out. -/
def State.takenPkt (s : State) (x : Nat × Packet) : State := { s with inbox := dropFirst (fun e => e == x) s.inbox }

/-- NAK a request with a reason, counted at the receiving F-die. -/
def State.sendNak (s : State) (die : Nat) (k : Packet) (reason : Nat) : State :=
  ((s.count (pgFlow die) 0x150).sendPacket (answer k 3 7 reason 0 []) .unit).1

/-- Check 3 over the common fields. -/
def hdrOk (k : Packet) : Bool :=
  decide (16 ≤ k.body.length) && decide (hTctx k < 2 ^ 20) && decide (hCode k < 16) && decide ((hAddr k).toNat < 2 ^ 52) &&
    (k.op == 5 || hAseq k == 0)

/-- Check 3 by operation. -/
def fmtOk (k : Packet) : Bool :=
  let n := (hData k).length
  let off := (hAddr k).toNat % 2 ^ 40
  hdrOk k &&
  (if k.op = 1 then n == 8 && decide (leNat (hData k) < 2048)
   else if k.op = 3 then decide (1 ≤ n) && decide (n ≤ 64) && decide (off % 64 + n ≤ 64)
   else if k.op = 4 then decide (1 ≤ n) && decide (n ≤ 2048) && decide (off % 2048 + n ≤ 2048)
   else n == 32 && decide (hCode k < 10))

/-- Check 3 of an answer: LOAD_RSP, ATOM_RSP or NAK. -/
def rspOk (k : Packet) : Bool :=
  let n := (hData k).length
  decide (16 ≤ k.body.length) && decide (hTctx k < 2 ^ 20) &&
  (if k.op = 2 then hCode k == 0 && hAseq k == 0 && decide ((hAddr k).toNat < 2 ^ 32) && decide (1 ≤ n) && decide (n ≤ 2048)
   else if k.op = 6 then (hCode k == 0 || hCode k == 1 || hCode k == 3) && hAddr k == 0 && n == 16
   else decide (1 ≤ hCode k) && decide (hCode k ≤ 8) && hAddr k == 0 && n == 0)

/-- Bytes that a request touches. -/
def reqLen (k : Packet) : Nat :=
  if k.op = 1 then leNat (hData k) + 1 else if k.op = 5 then atomSize (hCode k) else (hData k).length

/-- Outcome of the checks before the context: the address, a NAK's reason, or nothing to do (R318, R332). -/
inductive Checked where
  | drop
  | nak (reason : Nat)
  | pass (a : W64)
  deriving DecidableEq, Repr

/-- Checks 1 to 7. -/
def State.check (s : State) (k : Packet) : Checked :=
  if s.live k.tag k.gen = false then .drop
  else if ¬ fmtOk k then .nak 8
  else
    let w := s.win (bits (hAddr k).toNat 51 40)
    let off := (hAddr k).toNat % 2 ^ 40
    if ¬ w.valid ∨ w.tag ≠ k.tag ∨ w.gen ≠ k.gen then .nak 1
    else if ¬ w.rights.getLsbD (if k.op = 1 then 0 else if k.op = 5 then 2 else 1) then .nak 2
    else if w.size < off + reqLen k then .nak 3
    else if k.op = 5 ∧ off % reqLen k ≠ 0 then .nak 4
    else .pass (w.addr off)

/-- The partition that an address lies in is in reset: nothing is done (R332). -/
def State.toReset (s : State) (a : W64) : Bool :=
  (s.part (if a.getLsbD 63 then bits a.toNat 36 33 else (regionOf a.toNat).part)).inReset

/-- Reason of a refused write: 6 by the field plane or the coded state, 7 by the tier. -/
def State.refusedBy (s : State) (a : W64) (n : Nat) : Nat :=
  match s.xlateParts a n with
  | none => 7
  | some l =>
    let ps := l.flatMap fun x => match regionOf x.1 with
      | .near _ => s.pieces 1200 x.1 x.2
      | _ => []
    if (l.all fun x => s.accessOk .fabric x.1 x.2) && (s.refused .fabric 0 ps).isSome then 6 else 7

/-- Poison mask of a load's data: bit l for line l, bytes 64 l to 64 l + 63, of the data (Table 14.5). -/
def poisonMask (bs : List (PVal Byte)) : Nat :=
  (List.range 32).foldl (fun m l => if ((bs.drop (64 * l)).take 64).any (·.isNone) then m + 2 ^ l else m) 0

/-- LOAD_REQ (R318, R320). -/
def execLoadReq (s : State) : Out :=
  match s.nextPkt [1] with
  | none => .next s
  | some (i, k) =>
    let s1 := s.taken [1]
    match s.check k with
    | .drop => .next (s1.dropUnlive (dieOf i k) k)
    | .nak r => .next (s1.sendNak (dieOf i k) k r)
    | .pass a =>
      if s.toReset a then .next s1
      else match s.loadX .fabric a (reqLen k) with
        | none => .next (s1.sendNak (dieOf i k) k 7)
        | some bs =>
          .next (s.unlessHeld fun u =>
            (((u.taken [1]).readNoteX a (reqLen k)).sendPacket (answer k 3 2 0 (poisonMask bs) (bs.map (·.getD 0))) .unit).1)

/-- Operations that wait for a line at the F-die `die`: the ports' and this module's own, with their ports. -/
def State.lineOps (s : State) (die : Nat) : List (Nat × LineOp) :=
  (List.range 73).flatMap fun j => ((s.port j).lineq.filter fun y => dieOf j y.pkt == die).map fun y => (j, y)

/-- The line of an operation. -/
def State.lineOf (s : State) (a : W64) : Option Nat := (s.xlate a 1).map (· / 64)

/-- Queue an operation for its line. -/
def State.toLine (s : State) (i : Nat) (k : Packet) (a : W64) : State :=
  let p := s.port i
  { s.setPort i { p with lineq := p.lineq ++ [⟨k, a, s.nextOrd⟩] } with nextOrd := s.nextOrd + 1 }

/-- STORE: checked and queued for its line (R318, R330). -/
def execStore (s : State) : Out :=
  match s.nextWrite 3 with
  | none => .next s
  | some (i, k) =>
    let s1 := s.takenPkt (i, k)
    match s.check k with
    | .drop => .next (s1.dropUnlive (dieOf i k) k)
    | .nak r => .next (s1.sendNak (dieOf i k) k r)
    | .pass a =>
      let c := s.ctx (hTctx k)
      let s0 := s1.touchCtx (hTctx k)
      if ¬ c.valid ∨ c.tag ≠ k.tag ∨ c.gen ≠ k.gen then .next (s0.sendNak (dieOf i k) k 5)
      else
        let waits := (s.lineOps (dieOf i k)).any fun y =>
          y.2.pkt.op == 3 && s.lineOf y.2.addr == s.lineOf a && y.2.pkt.src != k.src
        let s2 := s0.toLine i k a
        .next (if waits && decide (i < 72) then (s2.count (pgPort i) 0x180).variance 5 i else s2)

/-- R322: the bytes are in place and are counted. -/
def State.arrive_ (s : State) (c n : Nat) : State :=
  let x := s.ctx c
  let s1 := { s with arrNow := mput 0 s.arrNow c (mget 0 s.arrNow c + n) }
  (s1.setCtx c { x with arrived := x.arrived + BitVec.ofNat 48 n }).wakeCwaits c

/-- PUT (R318, R322): written at once. -/
def execPut (s : State) : Out :=
  match s.nextPkt [4] with
  | none => .next s
  | some (i, k) =>
    let s1 := s.taken [4]
    match s.check k with
    | .drop => .next (s1.dropUnlive (dieOf i k) k)
    | .nak r => .next (s1.sendNak (dieOf i k) k r)
    | .pass a =>
      let c := s.ctx (hTctx k)
      let s0 := s1.touchCtx (hTctx k)
      if ¬ c.valid ∨ c.tag ≠ k.tag ∨ c.gen ≠ k.gen then .next (s0.sendNak (dieOf i k) k 5)
      else if s.toReset a then .next s0
      else match s0.storeX .fabric a ((hData k).map some) with
        | .ok s2 => .next (s2.arrive_ (hTctx k) (reqLen k))
        | .err s2 => .next (s2.sendNak (dieOf i k) k (s.refusedBy a (reqLen k)))
        | .hold h => .next (s.held_ h)

/-- ATOM_REQ: checked and queued for its line; a context that does not accept it answers UNKNOWN. -/
def execAtomReq (s : State) : Out :=
  match s.nextWrite 5 with
  | none => .next s
  | some (i, k) =>
    let s1 := s.takenPkt (i, k)
    match s.check k with
    | .drop => .next (s1.dropUnlive (dieOf i k) k)
    | .nak r => .next (s1.sendNak (dieOf i k) k r)
    | .pass a =>
      let c := s.ctx (hTctx k)
      let s0 := s1.touchCtx (hTctx k)
      if ¬ c.valid ∨ ¬ c.atom ∨ c.peer ≠ k.src ∨ c.pflow ≠ k.flow then
        .next (s0.sendPacket (answer k 3 6 1 0 (List.replicate 16 0)) .unit).1
      else .next (s0.toLine i k a)

/-! ### Atomics (R327 to R329) -/

/-- What an atomic leaves in memory (Table 7.11): FetchAdd and Fold-Add wrap, FP64 rounds RNE, CAS compares. -/
def atomNew (op old operand compare : Nat) (f : Nat → Nat → Nat) : Nat :=
  let w := 2 ^ (8 * atomSize op)
  if op = 0 ∨ op = 1 ∨ op = 8 ∨ op = 9 then (old + operand) % w
  else if op = 2 then f old operand
  else if op = 3 ∨ op = 4 then operand % w
  else if old = compare % w then operand % w else old

/-- Result `q` of a context's replay slot (R328). -/
def replayKey (c : Ctx) (q : BitVec 16) : Nat := c.rslot.toNat * 32 + q.toNat % 32

/-- Old value and new bytes of an atomic at `a`; none when the word is poisoned or cannot be read. -/
def State.atomCompute (s : State) (k : Packet) (a : W64) : Option (Nat × List Byte) :=
  let op := hCode k
  let sz := atomSize op
  match (s.loadX .fabric a sz).bind pNat with
  | none => none
  | some old =>
    let nv := atomNew op old (field (hData k) 0 sz) (field (hData k) 16 sz) fun x y => (f64.add 0 x y).1
    some (old, toLE sz nv)

/-- Take the entry at place `j` out of port `i`'s line queue. -/
def State.unqueue (s : State) (i j : Nat) : State :=
  let p := s.port i
  s.setPort i { p with lineq := p.lineq.eraseIdx j }

/-- The answer of a done atomic: Fold-Add returns no result. -/
def atomDone (k : Packet) (res : BitVec 128) : Packet :=
  answer k 3 6 0 0 (toLE 16 (if 8 ≤ hCode k then 0 else res.toNat))

/-- R328: sequence `q` against the window of context `c`; 0 new, 1 in the window, 2 below it, with the distance. -/
def atomWindow (c : Ctx) (q : BitVec 16) : Nat × Nat :=
  let d := (q - c.high).toNat
  if 1 ≤ d ∧ d ≤ 32767 then (0, d) else if d = 0 ∨ 65505 ≤ d then (1, (c.high - q).toNat) else (2, 0)

/-- An atomic at its line (R328, R318 check 9). -/
def State.applyAtom (s : State) (die i j : Nat) (k : Packet) (a : W64) : State :=
  let ci := hTctx k
  let c := s.ctx ci
  let q := BitVec.ofNat 16 (hAseq k)
  let s1 := s.unqueue i j
  let (kind, d) := atomWindow c q
  if ¬ c.valid ∨ ¬ c.atom then (s1.sendPacket (answer k 3 6 1 0 (List.replicate 16 0)) .unit).1
  else if kind = 2 then ((s1.count (pgFlow die) 0x160).sendPacket (answer k 3 6 1 0 (List.replicate 16 0)) .unit).1
  else if kind = 1 ∧ c.applied.getLsbD d = true then
    ((s1.count (pgFlow die) 0x164).sendPacket (atomDone k (mget 0 s.replay (replayKey c q))) .unit).1
  else match s.atomCompute k a with
    | none => (s1.readNoteX a (atomSize (hCode k))).sendNak die k 7
    | some (old, new) =>
      match (s1.readNoteX a (atomSize (hCode k))).storeX .fabric a (new.map some) with
      | .err s2 => s2.sendNak die k (s.refusedBy a new.length)
      | .hold h => s.held_ h
      | .ok s2 =>
        let c1 := if kind = 0 then { c with high := q, applied := (c.applied <<< d) ||| 1 }
          else { c with applied := c.applied ||| (1 <<< d) }
        let res := BitVec.ofNat 128 old
        let s3 := { s2.setCtx ci c1 with replay := mput 0 s2.replay (replayKey c q) res }
        (s3.sendPacket (atomDone k res) .unit).1

/-- Port `i`'s next operation that no earlier one at its F-die shares a line with: its place and itself. -/
def State.nextLine (s : State) (i : Nat) : Option (Nat × LineOp) :=
  let q := (s.port i).lineq
  ((List.range q.length).zip q).find? fun jy =>
    (s.lineOps (dieOf i jy.2.pkt)).all fun z => !(decide (z.2.ord < jy.2.ord) && s.lineOf z.2.addr == s.lineOf jy.2.addr)

/-- LINE_APPLY (R330): the next STORE or atomic of port `i` (72: this module's own) at its line. -/
def execLineApply (i : Nat) (s : State) : Out :=
  if 72 < i then .next s
  else match s.nextLine i with
    | none => .next s
    | some (j, y) =>
      let k := y.pkt
      let die := dieOf i k
      if s.live k.tag k.gen = false then .next ((s.unqueue i j).dropUnlive die k)
      else if s.toReset y.addr then .next (s.unqueue i j)
      else if k.op = 5 then .next (s.unlessHeld fun u => u.applyAtom die i j k y.addr)
      else match (s.unqueue i j).storeX .fabric y.addr ((hData k).map some) with
        | .ok s1 => .next (s1.arrive_ (hTctx k) (reqLen k))
        | .err s1 => .next (s1.sendNak die k (s.refusedBy y.addr (reqLen k)))
        | .hold h => .next (s.held_ h)

/-! ### Answers at the sender (R319, R320, R325) -/

/-- The request that an answer is for. -/
def State.reqOf (s : State) (k : Packet) : Option Outst :=
  s.outst.find? fun o => o.sent && o.id16 == hRid k && o.ctx == hTctx k && o.pkt.dst == k.src

/-- Lines of an answer that may be kept: whole, of an answer with no line marked in POISON, on a get that asked for it, and with no RINV
over them in this nanosecond (R325, R326). Whether the window's RIGHTS.CACHE was set does not travel with the answer; at another module
it is a free bit (log 6). -/
def State.rlcFill (s : State) (o : Outst) (bs : List (PVal Byte)) : State :=
  let die := o.ctx % 2
  let w := bits (hAddr o.pkt).toNat 51 40
  let off := (hAddr o.pkt).toNat % 2 ^ 40
  let own : Bool := s.modId == some o.pkt.dst
  let may := if own then (s.win w).rights.getLsbD 3 else Config.freeBit s.fresh
  let s0 := if own then s else { s with fresh := s.fresh + 1 }
  match allSome bs with
  | none => s0
  | some b =>
    if o.cache && s.rlcOn die && may then
      (cuts 64 off o.len).foldl (fun u c =>
        if c.2 ≠ 64 ∨ s.rinvs.any (fun r => r.1 == w && overlaps c.1 64 r.2.1 r.2.2) = true then u
        else
          let l : RLine := ⟨die, o.pkt.tag, o.pkt.gen, o.pkt.dst, w, c.1, slice_ b (c.1 - off) 64⟩
          let keep := u.rlc.filter fun y =>
            !(y.die == die && y.tag == l.tag && y.gen == l.gen && y.dst == l.dst && y.win == w && y.off == c.1)
          let full : Bool := decide (65536 ≤ (keep.filter fun y => y.die == die).length)
          { u with rlc := (if full then keep.eraseP fun y => y.die == die else keep) ++ [l] }) s0
    else s0

/-- RPUT of bytes that are here (R184, R321): it retires when every packet has entered the sending port's replay buffer. -/
def State.rputGo (s : State) (t : Nat) (e : QEntry) (bs : List (PVal Byte)) : State :=
  let n := bs.length
  match (e.op (bits e.word.toNat 37 34)).bind remoteOf, e.fld 24 21 with
  | some (win, off), some c => (match s.sendCtx c, allSome bs with
      | some x, some b =>
        let puts : Bool := decide (256 ≤ n)
        (s.setEntry t 3 e.id fun y => { y with st := .running, need := putCount puts off n, since := s.clk }).sendAll (c % 2 ^ 20)
          (putPackets (c % 2 ^ 20) x win off b puts) (.tile t e.id)
      | none, _ => s.failOut t 3 e c 9
      | _, none => s.failOut t 3 e 0 8)
  | _, _ => s.failOut t 3 e 0 3

/-- The bytes of an answer go where they were asked for: to the owner's destination, or into the RPUT that waits for them. False when a
write was refused. -/
def State.answerTo (s : State) (o : Outst) (bs : List (PVal Byte)) : State :=
  match s.rputOf o with
  | some (t, e) => s.rputGo t e bs
  | none =>
    let (s1, ok) := s.putLocal o.owner o.space o.dst bs
    (s1.rlcFill o bs).ownerDone o.owner (if ok then none else errNote o.dst 5 false)

/-- LOAD_RSP (R320): the bytes go to their destination, poison where the mask says so. -/
def execLoadRsp (s : State) : Out :=
  match s.nextPkt [2] with
  | none => .next s
  | some (i, k) =>
    let s1 := s.taken [2]
    if s.live k.tag k.gen = false then .next (s1.dropUnlive (dieOf i k) k)
    else if ¬ rspOk k then .next (s1.sendNak (dieOf i k) k 8)
    else match s.reqOf k with
      | none => .next s1
      | some o =>
        if o.atom then .next s1
        else
          let mask := (hAddr k).toNat
          let bs : List (PVal Byte) := (List.range o.len).map fun b => if mask.testBit (b / 64) then none else (hData k)[b]?
          .next (s.unlessHeld fun _ =>
            let s2 := { s1 with cs.held := none }.dropReq o.rid
            (s2.answerTo o bs).pump)

/-- ATOM_RSP (R185, R327). -/
def execAtomRsp (s : State) : Out :=
  match s.nextPkt [6] with
  | none => .next s
  | some (i, k) =>
    let s1 := s.taken [6]
    if s.live k.tag k.gen = false then .next (s1.dropUnlive (dieOf i k) k)
    else if ¬ rspOk k then .next (s1.sendNak (dieOf i k) k 8)
    else match s.reqOf k with
      | none => .next s1
      | some o =>
        if ¬ o.atom then .next s1
        else if hCode k ≠ 0 then .next ((s1.touchCtx o.ctx).reqFail o (hCode k) 6).pump
        else
          let c := s1.ctx o.ctx
          let s2 := ((s1.touchCtx o.ctx).dropReq o.rid).setCtx o.ctx { c with outn := c.outn - 1 }
          let s3 := s2.atomRecord o 0 (some ((hData k).take (atomSize (hCode o.pkt))))
          let s4 := match o.owner with
            | .tile t id => if hCode o.pkt = 2 then s3.setEntry t 3 id fun e => { e with var := 2 } else s3
            | _ => s3
          .next (s4.ownerDone o.owner none).pump

/-- NAK (R319): of a load, an atomic, or a store or put, which carry RID 0; a second answer to a request is discarded (R327). -/
def execNak (s : State) : Out :=
  match s.nextPkt [7] with
  | none => .next s
  | some (i, k) =>
    let s1 := s.taken [7]
    if s.live k.tag k.gen = false then .next (s1.dropUnlive (dieOf i k) k)
    else if ¬ rspOk k then .next (s1.sendNak (dieOf i k) k 8)
    else match s.reqOf k with
      | some o => .next (s.unlessHeld fun u => (((u.taken [7]).reqFail o 3 (16 + hCode k)).pump))
      | none =>
        if hRid k ≠ 0 then .next s1 else
        let pg := pgFlow (hTctx k % 2)
        let s2 := if s1.bit pg 0x104 9 then s1
          else s1.setReg pg 0x178 (BitVec.ofNat 32 (hTctx k % 2 ^ 20 + 2 ^ 20 * (hCode k % 16)))
        .next (((s2.orReg pg 0x104 0x200).count pg 0x154).raise pg 1)

/-! ### Resends and timeouts (R327, R331, R323) -/

/-- Flow timeout of a context in nanoseconds. -/
def Ctx.timeout (c : Ctx) : Nat := 125000 * 2 ^ c.tmo

/-- R327: an answer is overdue by another quarter of the timeout; at most three resends. -/
def execAtomResend (rid : Nat) (s : State) : Out :=
  match s.outst.find? fun o => o.id16 == rid && o.sent with
  | none => .next s
  | some o =>
    let c := s.ctx o.ctx
    if o.resends < 3 ∧ o.sentAt + (o.resends + 1) * (c.timeout / 4) ≤ s.clk then
      let s1 := { s with outst := s.outst.map (fun (y : Outst) => if y.rid = o.rid then { y with resends := y.resends + 1 } else y) }
      let (s2, ok) := ((s1.count (pgFlow (o.ctx % 2)) 0x158).touchCtx o.ctx).sendPacket o.pkt .unit
      .next (if ok ∨ s.live o.pkt.tag o.pkt.gen = false then s2 else (s2.targetLost o).pump)
    else .next s

/-- An answer to a request has arrived and is not yet taken. -/
def State.answered (s : State) (o : Outst) : Bool :=
  s.inbox.any fun e => (e.2.op == 2 || e.2.op == 6 || e.2.op == 7) && (s.reqOf e.2).map (·.rid) == some o.rid

/-- R331: an answer of the nanosecond in which the timeout ends wins (Table 14.8), so the request ends after it. -/
def execFlowTimeout (rid : Nat) (s : State) : Out :=
  match s.outst.find? fun o => o.id16 == rid && o.sent with
  | none => .next s
  | some o => if o.sentAt + (s.ctx o.ctx).timeout < s.clk ∧ s.answered o = false then .next (s.unlessHeld fun u => (u.targetLost o).pump) else .next s

/-- R323: a CWAIT has waited WAITMS milliseconds; a threshold reached in that nanosecond wins (Table 14.8). -/
def execCwaitTimeout (t i : Nat) (s : State) : Out :=
  match s.entry? t 3 i with
  | none => .next s
  | some e =>
    match e.ops.getD (bits e.word.toNat 37 34) none with
    | none => .next s
    | some n =>
      let c := n.toNat % 2 ^ 20
      let x := s.ctx c
      if e.st = .running ∧ wMajor e.word.toNat = 0x25 ∧ x.waitms ≠ 0 ∧ e.since + 1000000 * x.waitms < s.clk then
        .next (((s.finish t 3 i 0 (errNote 0 7 false)).orReg (pgFlow (c % 2)) 0x104 0x800).raise (pgFlow (c % 2)) 3)
      else .next s

end Sys2Proof.Machine
end

