-- ==== Sys2Proof/Machine/Collective.lean ====
section
/-! DEFINITION. Collectives by direct exchange (R338 to R353), folded canonically over logical shard ranks (R248 to R252), and
on the perimeter ring (R354 to R357). -/
namespace Sys2Proof.Machine

/-! ### Descriptor, rank map and local list -/

/-- Element bytes of an OP (R339). -/
def collEsize (op : Nat) : Nat := if op = 1 ∨ op = 3 then 4 else 8

/-- An OP on two elements: RNE where it rounds, integers wrap (R344). -/
def collOp (op a b : Nat) : Nat :=
  if op = 0 then (f64.add 0 a b).1
  else if op = 1 then (f32.add 0 a b).1
  else if op = 2 then (a + b) % 2 ^ 64
  else if op = 3 then (a + b) % 2 ^ 32
  else if op = 4 then (f64.minmax true a b).1
  else if op = 5 then (f64.minmax false a b).1
  else if op = 6 then max a b
  else if op = 7 then min a b
  else if op = 8 then a &&& b
  else a ||| b

def collVec (op : Nat) (a b : List Nat) : List Nat := List.zipWith (collOp op) a b

/-- Elements of `e` bytes. -/
def elemsOf (e : Nat) : Nat → List Byte → List Nat
  | 0, _ => []
  | n + 1, bs => leNat (bs.take e) :: elemsOf e n (bs.drop e)

def elemBytes (e : Nat) (xs : List Nat) : List Byte := xs.flatMap fun x => toLE e x

/-- Collective descriptor (Table 15.1). -/
structure CollDesc where
  kind : Nat
  op : Nat
  ring : Bool
  hier : Bool
  cseq : BitVec 16
  r : Nat
  nloc : Nat
  n : Nat
  root : Nat
  rankmap : W64
  local_ : W64
  rxbuf : W64
  rxsize : Nat
  deriving DecidableEq, Repr

def collDescOf (b : List Byte) : CollDesc :=
  { kind := field b 0 1, op := field b 1 1, ring := bitAt (field b 2 1) 0, hier := bitAt (field b 2 1) 1
    cseq := BitVec.ofNat 16 (field b 4 2), r := field b 8 3, nloc := field b 12 4, n := field b 16 4, root := field b 20 3
    rankmap := w64At b 24, local_ := w64At b 32, rxbuf := w64At b 40, rxsize := field b 48 8 }

/-- Reserved values and fields of a descriptor, and the alignment of RXBUF (R340). -/
def collDescOk (b : List Byte) : Bool :=
  decide (field b 0 1 ≤ 5) && decide (field b 1 1 ≤ 9) && decide (field b 2 1 < 4) && field b 3 1 == 0 && field b 6 2 == 0 &&
    field b 11 1 == 0 && field b 23 1 == 0 && allZero (slice_ b 56 8) && field b 40 8 % 64 == 0 &&
    (field b 0 1 != 4 || field b 8 3 == 0 || decide (field b 20 3 < field b 8 3))

/-- Entry of a rank map; none when it is not VALID or a reserved bit is set (R338). -/
def rankEntOf (b : List Byte) : Option RankEnt :=
  let v := field b 0 8
  if bitAt v 63 && bits v 62 36 == 0 && bits v 15 14 == 0 then some ⟨BitVec.ofNat 14 v, BitVec.ofNat 20 (v / 2 ^ 16)⟩ else none

/-- Entry of a local list; none when a reserved byte is set (R339). -/
def localEntOf (b : List Byte) : Option LocalEnt :=
  if field b 3 5 == 0 && field b 24 8 == 0 then some ⟨field b 0 3, w64At b 8, w64At b 16⟩ else none

/-- An array of `n` entries of `z` bytes at an address, or none when it cannot be read. -/
def State.readArray (s : State) (a : W64) (z n : Nat) : Option (List (List Byte)) :=
  match (s.loadX .unit a (z * n)).bind allSome with
  | some b => some ((List.range n).map fun i => slice_ b (z * i) z)
  | none => none

/-- The context of a rank's entry may send to its module (R340). -/
def State.rankOk (s : State) (e : RankEnt) : Bool :=
  match s.sendCtx e.flow.toNat with
  | some x => x.dst == e.modid
  | none => false

/-- This module. -/
def State.me (s : State) : BitVec 14 := s.modId.getD 0

/-- Ranks that a map places on a module. -/
def ranksOf (map : List RankEnt) (m : BitVec 14) : List Nat :=
  (List.range map.length).filter fun r => match map[r]? with
    | some e => e.modid == m
    | none => false

/-! ### Chunks and nodes (R343, R344) -/

def chunkElems (n r : Nat) : Nat := if r = 0 then 0 else (n + r - 1) / r
def chunkBytes (n r e : Nat) : Nat := (chunkElems n r * e + 63) / 64 * 64

def Coll.e (c : Coll) : Nat := collEsize c.op
def Coll.r (c : Coll) : Nat := c.map.length
def Coll.ch (c : Coll) : Nat := chunkElems c.n c.r
def Coll.chb (c : Coll) : Nat := chunkBytes c.n c.r c.e

/-- Elements of chunk `i`. -/
def Coll.count (c : Coll) (i : Nat) : Nat := min ((i + 1) * c.ch) c.n - i * c.ch

/-- The owner of a chunk, or the module of a rank. -/
def Coll.at_ (c : Coll) (r : Nat) : BitVec 14 := ((c.map[r]?).map (·.modid)).getD 0

def Coll.isLocal (c : Coll) (r : Nat) : Bool := c.locals_.any fun x => x.rank == r

/-- Leaves of the node (first, k) of a tree over `r` (R248). -/
def nodeEnd (r first k : Nat) : Nat := min (first + 2 ^ k) r

/-- Least k with 2^k at least `n`. -/
def clog2 (n : Nat) : Nat := if n ≤ 1 then 0 else Nat.log2 (n - 1) + 1

/-- The largest nodes within [lo, hi) whose leaves are all held (R250). -/
def heldNodes (has : Nat → Bool) : Nat → Nat → Nat → List (Nat × Nat)
  | 0, _, _ => []
  | f + 1, lo, hi =>
    let k := clog2 (hi - lo)
    if hi ≤ lo then []
    else if (List.range (hi - lo)).all fun i => has (lo + i) then [(lo, k)]
    else if k = 0 then []
    else heldNodes has f lo (lo + 2 ^ (k - 1)) ++ heldNodes has f (lo + 2 ^ (k - 1)) hi

/-- The canonical fold over [lo, hi) (R248), where `val` gives a finished subtree or a leaf. -/
def treeFold {α : Type} (op : α → α → α) (val : Nat → Nat → Option α) : Nat → Nat → Nat → Option α
  | 0, _, _ => none
  | f + 1, lo, hi =>
    match val lo hi with
    | some v => some v
    | none =>
      if hi ≤ lo + 1 then none
      else
        let m := lo + 2 ^ (clog2 (hi - lo) - 1)
        match treeFold op val f lo m, treeFold op val f m hi with
        | some a, some b => some (op a b)
        | _, _ => none

/-- [b, b + n) is a node of the tree over `r` (R248). -/
def isNode (r b n : Nat) : Bool := decide (0 < n) && b % 2 ^ clog2 n == 0 && b + n == nodeEnd r b (clog2 n)

/-! ### The hierarchical path (R351) -/

/-- First rank and number of ranks that a map places in a pod. -/
def podRanks (map : List RankEnt) (q : Nat) : Nat × Nat :=
  let rs := (List.range map.length).filter fun r => match map[r]? with
    | some e => podOf e.modid == q
    | none => false
  (rs.headD 0, rs.length)

/-- For every pod, its ranks form one node. -/
def hierTest (map : List RankEnt) : Bool :=
  ((map.map fun e => podOf e.modid).eraseDups).all fun q =>
    let (b, n) := podRanks map q
    isNode map.length b n && (List.range n).all fun i => ((map[b + i]?).map fun e => podOf e.modid) == some q

/-- Rank of the proxy of pod `q` for chunk `i`. -/
def Coll.proxy (c : Coll) (q i : Nat) : Nat :=
  let (b, n) := podRanks c.map q
  b + (if n = 0 then 0 else i % n)

/-- Module that a member's nodes of chunk `i` go to. -/
def Coll.target (c : Coll) (me : BitVec 14) (i : Nat) : BitVec 14 :=
  if c.hier && podOf (c.at_ i) != podOf me then c.at_ (c.proxy (podOf me) i) else c.at_ i

/-- Does `me` fold chunk `i` as a proxy? -/
def Coll.proxies (c : Coll) (me : BitVec 14) (i : Nat) : Bool :=
  c.hier && podOf (c.at_ i) != podOf me && c.at_ (c.proxy (podOf me) i) == me

/-- The leaves that `me` folds for a chunk: all of them at the owner, its pod's at a proxy. -/
def Coll.span (c : Coll) (me : BitVec 14) (i : Nat) : Nat × Nat :=
  if c.proxies me i then
    let (b, n) := podRanks c.map (podOf me)
    (b, b + n)
  else (0, c.r)

/-! ### Running collectives -/

def State.setColl (s : State) (e : Nat) (f : Coll → Coll) : State :=
  { s with colls := s.colls.map fun (c : Coll) => if c.entry = e then f c else c }

/-- What a ring collective that has ended leaves for the tokens still to pass (R356 step 2). -/
def Coll.past (c : Coll) : List RcPast :=
  match c.ring with
  | some g => [⟨c.tag, c.gen, BitVec.ofNat 8 c.cseq.toNat, c.op, c.e, g.value⟩]
  | none => []

/-- The collective of arc `e` ends. -/
def State.dropColl (s : State) (e : Nat) : State :=
  let new := (s.colls.filter fun c => c.entry == e).flatMap Coll.past
  { s with
    colls := s.colls.filter fun c => c.entry != e
    rcPast := (s.rcPast.filter fun y => !new.any fun z => z.tag == y.tag && z.gen == y.gen && z.cseq == y.cseq) ++ new }

/-- COL_FIRST, when it records no failure (R353). -/
def State.collFirst (s : State) (tag : BitVec 16) (gen : BitVec 8) (cseq cause : Nat) : State :=
  if s.fld pgColl 0x120 19 16 ≠ 0 then s
  else (s.setReg pgColl 0x120 (BitVec.ofNat 32 (cseq + 2 ^ 16 * cause))).setReg pgColl 0x124
    (BitVec.ofNat 32 (tag.toNat + 2 ^ 16 * gen.toNat))

/-- A running collective ends with an error response. -/
def State.collFail (s : State) (c : Coll) (cause : Nat) : State :=
  ((s.dropColl c.entry).collFirst c.tag c.gen c.cseq.toNat cause).failArc 16 c.entry cause

/-- A refused descriptor (R340). -/
def State.collRefuse (s : State) (e : Nat) (cseq : Nat) : State :=
  let (t, g) := s.mjob.getD (0, 0)
  ((((s.orReg pgColl 0x104 0x400).raise pgColl 2).collFirst t g cseq 3)).failArc 16 e 3

/-- The collective is complete: COL_DONE, and its arc (R347). -/
def State.collDone (s : State) (e : Nat) : State := ((s.dropColl e).count pgColl 0x108).completeArc 16 e false

/-- Chunks that `me` folds, as owner or proxy. -/
def Coll.folds (c : Coll) (me : BitVec 14) : List Nat :=
  (List.range c.r).filter fun i => c.count i != 0 && (c.at_ i == me || c.proxies me i)

/-- Blocks that are to arrive (R346): source rank and destination rank. -/
def Coll.awaited (c : Coll) : List (Nat × Nat) :=
  if c.kind = 3 then ((List.range c.r).filter fun r => !c.isLocal r).map fun r => (r, 0)
  else if c.kind = 4 then (if c.isLocal c.root then [] else [(c.root, 0)])
  else if c.kind = 5 then
    ((List.range c.r).filter fun r => !c.isLocal r).flatMap fun r => c.locals_.map fun x => (r, x.rank)
  else []

/-- Other members, each once. -/
def Coll.others (c : Coll) (me : BitVec 14) : List (BitVec 14) := ((c.map.map (·.modid)).eraseDups).filter fun m => m != me

/-- R347. -/
def Coll.finished (c : Coll) (me : BitVec 14) : Bool :=
  c.ring.isNone && c.unsent == 0 &&
  (if c.kind = 0 then (c.others me).all c.barrier.contains
   else if c.kind ≤ 2 then
     (c.folds me).all c.folded.contains &&
       (c.kind == 2 || (List.range c.r).all fun i =>
         c.count i == 0 || c.at_ i == me || c.results.contains (i, c.count i * c.e))
   else c.awaited.all fun x => c.blocks.contains (x.1, x.2, c.n * c.e))

/-- A collective that has done all it must completes. -/
def State.collTry (s : State) (e : Nat) : State :=
  match s.colls.find? fun c => c.entry == e with
  | some c => if c.finished s.me then s.collDone e else s
  | none => s

/-! ### Packets (R348) -/

/-- Collective header (Table 15.2). -/
def collHeader (c : Coll) (first k chunk off : Nat) : List Byte :=
  toLE 2 c.cseq.toNat ++ toLE 1 c.kind ++ toLE 1 0 ++ toLE 3 first ++ toLE 1 k ++ toLE 3 chunk ++ toLE 1 0 ++ toLE 4 off

/-- A packet to member `m`, on the flow of its lowest rank (R341). -/
def State.collSend (s : State) (e : Nat) (m : BitVec 14) (op : Nat) (hdr : Coll → List Byte) (data : List Byte) : State :=
  match s.colls.find? fun c => c.entry == e with
  | none => s
  | some c => match c.map.find? fun x => x.modid == m with
    | none => s
    | some r =>
      let x := s.ctx r.flow.toNat
      let k : Packet := { dst := m, hops := 0, src := 0, vc := 1, gen := x.gen, tag := x.tag, flow := r.flow
                          op := BitVec.ofNat 8 op, body := hdr c ++ data }
      ((s.setColl e fun y => { y with unsent := y.unsent + 1 }).sendPacket k (.coll e)).1

/-- Data to a member, split at 2 KiB of OFFSET. -/
def State.collStream (s : State) (e : Nat) (m : BitVec 14) (op first k chunk : Nat) (data : List Byte) : State :=
  (cuts 2048 0 data.length).foldl (fun a p =>
    a.collSend e m op (fun c => collHeader c first k chunk p.1) (slice_ data p.1 p.2)) s

/-- Write at an address field plus an offset; a refused write is an access error of the collective. -/
def State.collPut (s : State) (a : W64) (bs : List Byte) : State × Bool := s.putX .unit a (bs.map some)

/-- The same bytes for every local rank, at DST + `off`. -/
def State.collPutAll (s : State) (c : Coll) (off : Nat) (bs : List Byte) : State × Bool :=
  c.locals_.foldl (fun (a : State × Bool) x =>
    let (u, ok) := a.1.collPut (plus x.dst off) bs
    (u, a.2 && ok)) (s, true)

/-- Where the owner keeps the node that begins at `first` of its chunk `i`. -/
def Coll.rxAt (c : Coll) (i first : Nat) : W64 :=
  let q := (c.locals_.filter fun x => decide (x.rank < i)).length
  plus c.rxbuf (q * c.r * c.chb + first * c.chb)

/-- Bytes of a node arrive at this module, as owner or proxy. -/
def State.nodeData (s : State) (c : Coll) (i first k off : Nat) (data : List Byte) : State × Bool :=
  let proxy : Bool := c.proxies s.me i
  let same := fun (x : NodeRx) => x.chunk == i && x.first == first
  let upd := fun (y : Coll) =>
    if y.nodes.any same then
      { y with nodes := y.nodes.map fun x =>
          if same x then { x with got := x.got + data.length, data := if proxy then x.data ++ data else x.data } else x }
    else { y with nodes := y.nodes ++ [⟨i, first, k, data.length, if proxy then data else []⟩] }
  let s1 := s.setColl c.entry upd
  if proxy then (s1, true) else s1.collPut (plus (c.rxAt i first) off) data

/-! ### Posting -/

/-- Elements of a local rank's SRC, by element, or none when they cannot be read or are poison. -/
def State.srcElems (s : State) (c : Coll) (n : Nat) : Option (List (Nat × List Nat)) :=
  allSome (c.locals_.map fun x =>
    ((s.loadX .unit x.src (n * c.e)).bind allSome).map fun b => (x.rank, elemsOf c.e n b))

/-- The errors that reading local ranks' SRC meets (R269). -/
def State.srcNote (s : State) (ls : List LocalEnt) (n : Nat) : State := ls.foldl (fun a x => a.readNoteX x.src n) s

/-- Value of the node [lo, hi) of chunk `i` over local ranks. -/
def preFold (c : Coll) (src : List (Nat × List Nat)) (i lo hi : Nat) : List Nat :=
  (treeFold (collVec c.op) (fun a b =>
    if b = a + 1 then (src.find? fun x => x.1 == a).map fun x => (x.2.drop (i * c.ch)).take (c.count i) else none)
    25 lo hi).getD []

/-- KIND 1 and 2: each node of the local ranks goes to its chunk's owner or proxy, or stays here (R344, R351). -/
def State.postReduce (s : State) (c : Coll) (src : List (Nat × List Nat)) : State × Bool :=
  let nodes := heldNodes c.isLocal 25 0 c.r
  ((List.range c.r).filter fun i => c.count i != 0).foldl (fun (a : State × Bool) i =>
    nodes.foldl (fun (b : State × Bool) x =>
      let data := elemBytes c.e (preFold c src i x.1 (nodeEnd c.r x.1 x.2))
      let m := c.target s.me i
      if m = s.me then
        let (u, ok) := b.1.nodeData c i x.1 x.2 0 data
        (u, b.2 && ok)
      else (b.1.collStream c.entry m 0x10 x.1 x.2 i data, b.2)) a) (s, true)

/-- KIND 3 and 4: rank `r`'s elements to every rank (R346). -/
def State.postSpread (s : State) (c : Coll) (off r : Nat) (data : List Byte) : State × Bool :=
  let s1 := (c.others s.me).foldl (fun a m => a.collStream c.entry m 0x12 r 0 0 data) s
  s1.collPutAll c off data

/-- KIND 5: block by block. -/
def State.postExchange (s : State) (c : Coll) (r : Nat) (data : List Byte) : State × Bool :=
  let z := c.n * c.e
  (List.range c.r).foldl (fun (a : State × Bool) d =>
    let blk := slice_ data (d * z) z
    match c.locals_.find? fun x => x.rank == d with
    | some x =>
      let (u, ok) := a.1.collPut (plus x.dst (r * z)) blk
      (u, a.2 && ok)
    | none => (a.1.collStream c.entry (c.at_ d) 0x12 r 0 d blk, a.2)) (s, true)

/-- Post a direct collective whose descriptor passed. -/
def State.postDirect (s : State) (c : Coll) : State :=
  let n := if c.kind = 5 then c.n * c.r else if c.kind = 0 then 0 else c.n
  let need := if c.kind = 4 then (c.locals_.filter fun x => x.rank == c.root) else c.locals_
  match s.srcElems { c with locals_ := need } n with
  | none => (s.srcNote need (n * c.e)).collFail c 4
  | some src =>
    let data := fun (x : Nat × List Nat) => elemBytes c.e x.2
    let (s1, ok) :=
      if c.kind = 0 then ((c.others s.me).foldl (fun a m => a.collSend c.entry m 0x13 (fun y => collHeader y 0 0 0 0) []) s, true)
      else if c.kind ≤ 2 then (s.srcNote need (n * c.e)).postReduce c src
      else src.foldl (fun (a : State × Bool) x =>
        let (u, k) := if c.kind = 3 then a.1.postSpread c (x.1 * c.n * c.e) x.1 (data x)
          else if c.kind = 4 then a.1.postSpread c 0 x.1 (data x)
          else a.1.postExchange c x.1 (data x)
        (u, a.2 && k)) (s.srcNote need (n * c.e), true)
    if ok then s1.collTry c.entry else s1.collFail c 4

/-! ### The perimeter ring (R354 to R357) -/

/-- A token as it goes on the ring (Table 15.3); `result` for RC_RESULT. -/
def rcBytes (result : Bool) (t : RcToken) : List Byte :=
  [if result then 0x11 else 0x10, BitVec.ofNat 8 (t.op.toNat + 16 * t.status.toNat)] ++ toLE 1 t.count ++ toLE 1 t.expect ++
    toLE 2 t.tag.toNat ++ toLE 1 t.gen.toNat ++ toLE 1 t.cseq.toNat ++ toLE 8 t.mask.toNat ++ t.data

/-- A collective's token: (tag, generation, CSEQ[7:0]). -/
def rcKey (t : RcToken) : BitVec 16 × BitVec 8 × BitVec 8 := (t.tag, t.gen, t.cseq)

def Coll.rcKey (c : Coll) : BitVec 16 × BitVec 8 × BitVec 8 := (c.tag, c.gen, BitVec.ofNat 8 c.cseq.toNat)

/-- The running ring collective of a token. -/
def State.rcColl (s : State) (t : RcToken) : Option (Coll × RingColl) :=
  match s.colls.find? fun c => c.ring.isSome && c.rcKey == rcKey t with
  | some c => c.ring.map fun g => (c, g)
  | none => none

/-- Forward a frame clockwise (R304). -/
def State.rcForward (s : State) (result : Bool) (hops : Nat) (t : RcToken) : State :=
  if s.inRing then (s.count pgRing 0x10C).send (.ring true (ringFrame (hops % 256) (rcBytes result t))) else s

/-- This member's value `v` of `e`-byte elements into a token, once (R356 step 2). -/
def State.rcAdd (s : State) (op e : Nat) (v : List Byte) (t : RcToken) : RcToken :=
  let i := s.pins.slot.toNat
  if t.mask.getLsbD i then t
  else
    let n := v.length / e
    { t with
      count := t.count + 1, mask := t.mask ||| (1 <<< i)
      data := elemBytes e (collVec op (elemsOf e n t.data) (elemsOf e n v)) }

/-- The value of a running collective into a token. -/
def State.rcContribute (s : State) (c : Coll) (g : RingColl) (t : RcToken) : RcToken := s.rcAdd c.op c.e g.value t

/-- The leader's token of an attempt. -/
def State.rcToken (s : State) (c : Coll) (g : RingColl) (attempt : Nat) : RcToken :=
  { op := BitVec.ofNat 4 c.op, status := BitVec.ofNat 4 attempt, count := 1, expect := ((c.map.map (·.modid)).eraseDups).length
    tag := c.tag, gen := c.gen, cseq := BitVec.ofNat 8 c.cseq.toNat, mask := (1 : W64) <<< s.pins.slot.toNat
    data := g.value }

/-- The leader sends an attempt. -/
def State.rcSend (s : State) (c : Coll) (g : RingColl) (attempt : Nat) : State :=
  let s1 := s.setColl c.entry fun y => { y with ring := some { g with attempt := attempt, sentAt := s.clk } }
  s1.ringPut (rcBytes false (s.rcToken c g attempt))

/-- R354. -/
def State.ringOk (s : State) (d : CollDesc) (map : List RankEnt) : Bool :=
  decide (d.kind ≤ 1) && decide (d.n * collEsize d.op ≤ 48) && ([2, 3, 6, 7, 8, 9].contains d.op) &&
    map.all (fun e => podOf e.modid == s.ownPod) && s.inRing

/-- Post a ring collective: local ranks are combined; a leader sends, held tokens are contributed to and go on. -/
def State.postRing (s : State) (c : Coll) : State :=
  let n := if c.kind = 0 then 0 else c.n
  match s.srcElems c n with
  | none => s.collFail c 4
  | some src =>
    let z := List.replicate (c.n * c.e) (0 : Byte)
    let value := if c.kind = 0 then z else match src with
      | x :: r => elemBytes c.e (r.foldl (fun a y => collVec c.op a y.2) x.2)
      | [] => z
    let leader : Bool := c.map.all fun e => decide (s.pins.slot.toNat ≤ slotOf e.modid)
    let g : RingColl := ⟨value, leader, 0, s.clk, false⟩
    let mine := s.heldToks.filter fun h => rcKey h.tok == c.rcKey
    let s1 := { s.setColl c.entry (fun y => { y with ring := some g }) with
      heldToks := s.heldToks.filter fun h => rcKey h.tok != c.rcKey
      led := (s.led.filter fun k => k != c.rcKey) ++ (if leader then [c.rcKey] else []) }
    if leader then s1.rcSend c g 0
    else mine.foldl (fun a h => a.rcForward false h.hops (a.rcContribute c g h.tok)) s1

/-! ### ARC_COLLECTIVE (R339 to R342, R351) -/

/-- Next unposted CSEQ of a job (R342). -/
def State.setCseq (s : State) (tag : BitVec 16) (v : BitVec 16) : State := s.setJob tag { s.job tag with cseq := v }

/-- The map and the local list pass (R340). -/
def State.collListsOk (s : State) (d : CollDesc) (map : List RankEnt) (locs : List LocalEnt) : Bool :=
  let m := (ranksOf map s.me).length
  map.all s.rankOk && locs.map (·.rank) == ranksOf map s.me &&
    (d.n == 0 || d.kind == 0 || decide (2 < d.kind) || decide (m * d.r * chunkBytes d.n d.r (collEsize d.op) ≤ d.rxsize))

/-- A posted descriptor that passed: it runs. -/
def State.collStart (s : State) (e : Nat) (d : CollDesc) (map : List RankEnt) (locs : List LocalEnt) : State :=
  let (t, g) := s.mjob.getD (0, 0)
  let kind := if d.n = 0 then 0 else d.kind
  let red : Bool := kind == 1 || kind == 2
  let hier := red && d.hier && !d.ring && hierTest map
  let c : Coll :=
    { entry := e, tag := t, gen := g, kind := kind, op := d.op, hier := hier, cseq := d.cseq, n := d.n, root := d.root
      map := map, locals_ := locs, rxbuf := d.rxbuf, nodes := [], folded := [], results := [], blocks := [], barrier := []
      ring := none, unsent := 0, postedAt := s.clk }
  let s1 := { s with colls := s.colls ++ [c] }
  if d.ring then s1.postRing c
  else
    let s2 := if ¬ red then s1 else if hier then s1.count pgColl 0x110 else
      (if d.hier then s1.orReg pgColl 0x104 0x800 else s1).count pgColl 0x10C
    s2.postDirect c

/-- Check and start a descriptor. -/
def State.collPost (s : State) (e : Nat) (b : List Byte) : State :=
  let d := collDescOf b
  let (t, _) := s.mjob.getD (0, 0)
  let right : Bool := (s.job t).cseq == d.cseq
  let s1 := if right then s.setCseq t (d.cseq + 1) else s
  let bad := s1.collRefuse e d.cseq.toNat
  if ¬ collDescOk b ∨ ¬ right then bad
  else if d.r = 0 then s1.collDone e
  else match s.readArray d.rankmap 8 d.r, s.readArray d.local_ 32 d.nloc with
    | some m, some l =>
      match allSome (m.map rankEntOf), allSome (l.map localEntOf) with
      | some map, some locs =>
        if ¬ s.collListsOk d map locs ∨ (d.ring ∧ s.ringOk d map = false) then bad
        else if locs.isEmpty then s1.collDone e
        else s1.collStart e d map locs
      | _, _ => bad
    | _, _ =>
      let (tg, g) := s.mjob.getD (0, 0)
      (s1.collFirst tg g d.cseq.toNat 4).failArc 16 e 4

/-- ARC_COLLECTIVE. -/
def execArcCollective (u e : Nat) (s : State) : Out :=
  .next (s.unlessHeld fun t => t.fire u e 4 fun x a =>
    match (a.loadX .unit x.w3 64).bind allSome with
    | some b => if x.arg % 64 = 0 then a.collPost e b else a.collRefuse e 0
    | none =>
      let (tg, g) := a.mjob.getD (0, 0)
      (a.collFirst tg g 0 4).failArc 16 e 4)

/-! ### Arriving packets (R341, R345 to R348) -/

/-- The packet's CSEQ is its job's next unposted one: it is held (R341). -/
def State.collHeld (s : State) (k : Packet) : Bool :=
  s.live k.tag k.gen && BitVec.ofNat 16 (field k.body 0 2) == (s.job k.tag).cseq &&
    !(s.colls.any fun c => c.tag == k.tag && c.gen == k.gen && c.cseq == BitVec.ofNat 16 (field k.body 0 2))

/-- The first packet with operation `op` that stands at the head of its port's VC1 queue and is not held. -/
def State.headVc1 (s : State) (op : Nat) : Option (Nat × Packet) :=
  let q := s.inbox.filter fun e => e.2.vc == 1
  let heads := (q.map (·.1)).eraseDups.filterMap fun i => q.find? fun e => e.1 == i
  heads.find? fun e => e.2.op.toNat == op && !s.collHeld e.2

/-- It is taken from its queue, whose credits are now owed back. -/
def State.takeVc1 (s : State) (i : Nat) (k : Packet) : State :=
  let s1 := { s with inbox := dropFirst (fun e => e.1 == i && e.2 == k) s.inbox }
  if 72 ≤ i then s1 else s1.owe i 1 k

/-- A VC1 packet is held at the head of a port's queue (R341). -/
def State.vc1Held (s : State) : Bool :=
  let q := s.inbox.filter fun e => e.2.vc == 1 && decide (e.1 < 72)
  ((q.map (·.1)).eraseDups.filterMap fun i => q.find? fun e => e.1 == i).any fun e => s.collHeld e.2

def cFirst (k : Packet) : Nat := field k.body 4 3
def cK (k : Packet) : Nat := field k.body 7 1
def cChunk (k : Packet) : Nat := field k.body 8 3
def cOff (k : Packet) : Nat := field k.body 12 4
def cData (k : Packet) : List Byte := k.body.drop 16

/-- The header's fields are in order, and those an operation does not use are 0. -/
def cHdrOk (c : Coll) (k : Packet) : Bool :=
  decide (16 ≤ k.body.length) && field k.body 2 1 == c.kind && field k.body 3 1 == 0 && field k.body 11 1 == 0 &&
    (k.op == 0x10 || cK k == 0) && (k.op == 0x10 || k.op == 0x12 || cFirst k == 0)

/-- Data of a stream of `total` bytes at its next OFFSET, after `got`. -/
def cNext (k : Packet) (got total : Nat) : Bool :=
  cOff k == got && decide (got < total) && (cData k).length == min 2048 (total - got)

/-- Take the next packet of an operation; `f` answers with what it does to its collective, none when the packet fails its
check. -/
def State.collTake (s : State) (op : Nat) (f : State → Coll → Packet → Option (State × Bool)) : State :=
  match s.headVc1 op with
  | none => s
  | some (i, k) =>
    let s1 := s.takeVc1 i k
    if s.live k.tag k.gen = false then s1.dropUnlive (dieOf i k) k
    else match s.colls.find? fun c =>
        c.ring.isNone && c.tag == k.tag && c.gen == k.gen && c.cseq == BitVec.ofNat 16 (field k.body 0 2) with
      | none => s1.badColl
      | some c =>
        if ¬ cHdrOk c k then s1.badColl
        else s.unlessHeld fun t => match f { s1 with cs := t.cs } c k with
          | none => s1.badColl
          | some (s2, true) => s2.collTry c.entry
          | some (s2, false) => s2.collFail c 4

/-- COLL_CONTRIB: the chunk is folded here, the node is valid, and no leaf comes twice. -/
def execCollContrib (s : State) : Out :=
  .next (s.collTake 0x10 fun a c k =>
    let i := cChunk k
    let first := cFirst k
    let hi := nodeEnd c.r first (cK k)
    let (lo, end_) := c.span s.me i
    let total := c.count i * c.e
    let here := c.kind == 1 || c.kind == 2
    let mine := c.nodes.find? fun x => x.chunk == i && x.first == first && x.k == cK k
    let clash := c.nodes.any fun x => x.chunk == i && decide (x.first < hi) && decide (first < nodeEnd c.r x.first x.k)
    if ¬ here ∨ ¬ (c.folds s.me).contains i ∨ 24 < cK k ∨ first % 2 ^ cK k ≠ 0 ∨ first < lo ∨ end_ < hi ∨ hi ≤ first then none
    else match mine with
      | some x => if cNext k x.got total then some (a.nodeData c i first (cK k) (cOff k) (cData k)) else none
      | none => if clash ∨ cNext k 0 total = false then none else some (a.nodeData c i first (cK k) 0 (cData k)))

/-- COLL_RESULT: a folded chunk of an all-reduce (R345). -/
def execCollResult (s : State) : Out :=
  .next (s.collTake 0x11 fun a c k =>
    let i := cChunk k
    let got := ((c.results.find? fun x => x.1 == i).map (·.2)).getD 0
    if c.kind ≠ 1 ∨ c.r ≤ i ∨ c.at_ i ≠ k.src ∨ c.at_ i = s.me ∨ cNext k got (c.count i * c.e) = false then none
    else
      let b := a.setColl c.entry fun y => { y with
        results := (y.results.filter fun x => x.1 != i) ++ [(i, got + (cData k).length)] }
      some (b.collPutAll c (i * c.chb + got) (cData k)))

/-- COLL_BLOCK: a rank's elements or block (R346). -/
def execCollBlock (s : State) : Out :=
  .next (s.collTake 0x12 fun a c k =>
    let r := cFirst k
    let d := cChunk k
    let z := c.n * c.e
    let got := ((c.blocks.find? fun x => x.1 == r && x.2.1 == d).map (·.2.2)).getD 0
    if ¬ c.awaited.contains (r, d) ∨ c.at_ r ≠ k.src ∨ cNext k got z = false then none
    else
      let b := a.setColl c.entry fun y => { y with
        blocks := (y.blocks.filter fun x => !(x.1 == r && x.2.1 == d)) ++ [(r, d, got + (cData k).length)] }
      if c.kind = 5 then
        match c.locals_.find? fun x => x.rank == d with
        | some x => some (b.collPut (plus x.dst (r * z + got)) (cData k))
        | none => none
      else some (b.collPutAll c ((if c.kind = 3 then r * z else 0) + got) (cData k)))

/-- COLL_BARRIER. -/
def execCollBarrier (s : State) : Out :=
  .next (s.collTake 0x13 fun a c k =>
    if c.kind ≠ 0 ∨ ¬ (c.others s.me).contains k.src ∨ c.barrier.contains k.src ∨ (cData k).isEmpty = false ∨ cChunk k ≠ 0 ∨
        cOff k ≠ 0 then none
    else some (a.setColl c.entry (fun y => { y with barrier := y.barrier ++ [k.src] }), true))

/-! ### Folding (R345, R351) -/

/-- Leaves of chunk `i` that are all here. -/
def Coll.leaves (c : Coll) (i : Nat) : Nat :=
  (c.nodes.filter fun x => x.chunk == i && x.got == c.count i * c.e).foldl
    (fun n x => n + (nodeEnd c.r x.first x.k - x.first)) 0

/-- The bytes of the node [lo, hi) of chunk `i`, where it is one that was received whole. -/
def State.nodeVal (s : State) (c : Coll) (i lo hi : Nat) : Option (PVal (List Nat)) :=
  match c.nodes.find? fun x => x.chunk == i && x.first == lo && nodeEnd c.r x.first x.k == hi with
  | none => none
  | some x =>
    if c.proxies s.me i then some (some (elemsOf c.e (c.count i) x.data))
    else some (((s.loadX .unit (c.rxAt i lo) (c.count i * c.e)).bind allSome).map (elemsOf c.e (c.count i)))

/-- The chunk's value over the leaves folded here; poison or an unreadable node gives none. -/
def State.foldChunk (s : State) (c : Coll) (i : Nat) : Option (List Byte) :=
  let (lo, hi) := c.span s.me i
  let op : PVal (List Nat) → PVal (List Nat) → PVal (List Nat) := fun x y => match x, y with
    | some a, some b => some (collVec c.op a b)
    | _, _ => none
  ((treeFold op (s.nodeVal c i) 25 lo hi).getD none).map (elemBytes c.e)

/-- A folded chunk goes where it must. -/
def State.chunkOut (s : State) (c : Coll) (i : Nat) (data : List Byte) : State × Bool :=
  if c.proxies s.me i then
    let (b, n) := podRanks c.map (podOf s.me)
    (s.collStream c.entry (c.at_ i) 0x10 b (clog2 n) i data, true)
  else if c.kind = 2 then
    match c.locals_.find? fun x => x.rank == i with
    | some x => s.collPut x.dst data
    | none => (s, true)
  else ((c.others s.me).foldl (fun a m => a.collStream c.entry m 0x11 0 0 i data) s).collPutAll c (i * c.chb) data

/-- COLL_FOLD: chunk `i` of the `k`-th running collective. -/
def execCollFold (k i : Nat) (s : State) : Out :=
  match s.colls[k]? with
  | none => .next s
  | some c =>
    let (lo, hi) := c.span s.me i
    if ¬ (c.kind = 1 ∨ c.kind = 2) ∨ c.ring.isSome ∨ ¬ (c.folds s.me).contains i ∨ c.folded.contains i ∨ c.leaves i ≠ hi - lo then
      .next s
    else
      .next (s.unlessHeld fun t0 =>
        let t := if c.proxies s.me i then t0
          else (c.nodes.filter fun x => x.chunk == i).foldl (fun (a : State) x => a.readNoteX (c.rxAt i x.first) x.got) t0
        match t.foldChunk c i with
        | none => t.collFail c 4
        | some data =>
          match (t.setColl c.entry fun y => { y with folded := y.folded ++ [i] }).chunkOut c i data with
          | (s1, true) => s1.collTry c.entry
          | (s1, false) => s1.collFail c 4)

/-! ### Timeout (R353) -/

/-- Bytes at a local rank's SRC. -/
def Coll.srcLen (c : Coll) (x : LocalEnt) : Nat :=
  if c.kind = 0 ∨ (c.kind = 4 ∧ x.rank ≠ c.root) then 0 else c.n * c.e * (if c.kind = 5 then c.r else 1)

/-- Bytes at a local rank's DST. -/
def Coll.dstLen (c : Coll) : Nat :=
  if c.kind = 0 then 0
  else if c.ring.isSome ∨ c.kind = 4 then c.n * c.e
  else if c.kind = 1 then (c.r - 1) * c.chb + c.ch * c.e
  else if c.kind = 2 then c.ch * c.e
  else c.r * c.n * c.e

/-- Bytes of the receive area. -/
def Coll.rxLen (c : Coll) : Nat :=
  if (c.kind = 1 ∨ c.kind = 2) ∧ c.ring.isNone then c.locals_.length * c.r * c.chb else 0

/-- DST and RXBUF of a collective that did not end as it should have undefined contents (R245, R353). -/
def State.collUndef (s : State) (c : Coll) : State :=
  (c.locals_.foldl (fun a x => a.undef .unit x.dst c.dstLen) s).undef .unit c.rxbuf c.rxLen

/-- Something is missing that no fold here can bring (R347): the timeout applies to it. -/
def Coll.lacks (c : Coll) (me : BitVec 14) : Bool :=
  c.ring.isSome || c.unsent != 0 ||
  (if c.kind = 0 then !(c.others me).all c.barrier.contains
   else if c.kind ≤ 2 then
     (c.folds me).any (fun i => !c.folded.contains i && c.leaves i != (c.span me i).2 - (c.span me i).1) ||
       (c.kind == 1 && !(List.range c.r).all fun i => c.count i == 0 || c.at_ i == me || c.results.contains (i, c.count i * c.e))
   else !c.awaited.all fun x => c.blocks.contains (x.1, x.2, c.n * c.e))

/-- COLL_TIMEOUT: the `k`-th running collective. A packet of the nanosecond in which TMO ends still counts, and a chunk whose leaves
are all here is folded (Table 15.5). -/
def execCollTimeout (k : Nat) (s : State) : Out :=
  let tmo := s.fld pgColl 0x100 15 0
  match s.colls[k]? with
  | none => .next s
  | some c =>
    if tmo = 0 ∨ s.clk ≤ c.postedAt + 1000 * tmo ∨ c.lacks s.me = false then .next s
    else
      let s1 := ((s.collUndef c).orReg pgColl 0x104 0x100).count pgColl 0x114
      .next ((s1.collFail c 1).raise pgColl 0)

/-! ### Ring tokens (R356, R357) -/

/-- The token's job is LIVE here and has not posted its collective yet: its CSEQ is the next one, or one of the 127 after it. -/
def State.rcWaits (s : State) (t : RcToken) : Bool :=
  s.live t.tag t.gen && decide ((t.cseq - BitVec.ofNat 8 (s.job t.tag).cseq.toNat).toNat < 128)

/-- What this member posted for a token's collective, which has ended here. -/
def State.rcOld (s : State) (t : RcToken) : Option RcPast :=
  s.rcPast.find? fun y => y.tag == t.tag && y.gen == t.gen && y.cseq == t.cseq

/-- The leader takes a returning token and sends RC_RESULT twice. -/
def State.rcReturn (s : State) (c : Coll) (g : RingColl) (t : RcToken) : State :=
  let s1 := s.setColl c.entry fun y => { y with ring := some { g with returned := true } }
  if t.count = t.expect then
    let b := rcBytes true { t with status := 0 }
    (s1.ringPut b).ringPut b
  else
    let (bs, s2) := s1.freshBytes t.data.length
    let b := rcBytes true { t with status := 1, data := bs }
    (s2.ringPut b).ringPut b

/-- RC_COLLECT. -/
def execRcCollect (t : RcToken) (s : State) : Out :=
  if ¬ s.inRing then .next s
  else match s.rcColl t with
    | some (c, g) =>
      if g.leader then .next (if g.returned then s else s.rcReturn c g t)
      else .next (s.rcForward false s.ringHops (s.rcContribute c g t))
    | none =>
      if s.led.contains (rcKey t) then .next s
      else if s.rcWaits t then .next { s with heldToks := s.heldToks ++ [⟨t, s.ringHops, s.clk⟩] }
      else match s.rcOld t with
        | some y => .next (s.rcForward false s.ringHops (s.rcAdd y.op y.e y.value t))
        | none => .next (s.rcForward false s.ringHops t)

/-- A member takes a result (R357). -/
def State.rcTake (s : State) (c : Coll) (t : RcToken) : State :=
  if t.status = 0 then
    if c.kind = 0 then s.collDone c.entry
    else s.unlessHeld fun a => match a.collPutAll c 0 (t.data.take (c.n * c.e)) with
      | (b, true) => b.collDone c.entry
      | (b, false) => b.collFail c 4
  else
    let s1 := (((s.orReg pgColl 0x104 0x200).count pgColl 0x11C).setReg64 pgColl 0x128 t.mask.toNat)
    (s1.collFail c 2).raise pgColl 1

/-- RC_RESULT: the first valid one is taken; the leader removes its own. -/
def execRcResult (t : RcToken) (s : State) : Out :=
  if ¬ s.inRing then .next s
  else
    let s1 := if s.led.contains (rcKey t) then s else s.rcForward true s.ringHops t
    match s.rcColl t with
    | some (c, _) => .next (if t.status.toNat ≤ 1 then s1.rcTake c t else s1)
    | none => .next s1

/-- RC_RESEND: nothing has returned 8 µs after the latest token. -/
def execRcResend (k : Nat) (s : State) : Out :=
  match s.colls[k]? with
  | none => .next s
  | some c => match c.ring with
    | none => .next s
    | some g =>
      if g.leader && !g.returned && decide (g.attempt < 3) && decide (g.sentAt + 8000 ≤ s.clk) then
        .next (s.rcSend c g (g.attempt + 1))
      else .next s

/-- RC_HOLD_EXPIRE: the `k`-th held token goes on unchanged; a posting in the nanosecond in which the hold ends wins (Table 15.5). -/
def execRcHoldExpire (k : Nat) (s : State) : Out :=
  match s.heldToks[k]? with
  | none => .next s
  | some h =>
    if h.at_ + 1000 * s.fld pgColl 0x100 23 16 < s.clk then
      .next ({ s with heldToks := s.heldToks.eraseIdx k }.rcForward false h.hops h.tok)
    else .next s

/-! ### What others do to collectives (R31, R358, R360) -/

/-- Collectives of a job are abandoned and report nothing (R31); what they were writing is undefined (R245). -/
def State.dropColls (s : State) (tag : BitVec 16) (gen : BitVec 8) : State :=
  let mine := fun (c : Coll) => c.tag == tag && c.gen == gen
  let s1 := (s.colls.filter mine).foldl State.collUndef s
  { s1 with
    colls := s1.colls.filter fun c => !mine c
    rcPast := s1.rcPast.filter fun y => !(y.tag == tag && y.gen == gen)
    heldToks := s1.heldToks.filter fun h => !(h.tok.tag == tag && h.tok.gen == gen) }

/-- The `n` bytes at an address field reach into partition `p`'s memory. -/
def reaches (p : Nat) (a : W64) (n : Nat) : Bool :=
  if a.getLsbD 63 then bits a.toNat 36 33 == p && n != 0
  else overlaps a.toNat n (p * 0x1000000000) 0x1000000000 || overlaps a.toNat n (nearOf p) 0x100000000 ||
    overlaps a.toNat n (tst (72 * p) 0) (72 * 0x200000)

/-- A partition reset ends every collective with a buffer in it (R358). -/
def State.collPartReset (s : State) (p : Nat) : State :=
  (s.colls.filter fun c => reaches p c.rxbuf c.rxLen || c.locals_.any fun x =>
    reaches p x.src (c.srcLen x) || reaches p x.dst c.dstLen).foldl (fun a c => a.collFail c 4) s

/-- A block soft reset of the collective page abandons every running collective (R360). -/
def State.collAbandon (s : State) : State :=
  s.colls.foldl (fun a c => (a.dropColl c.entry).completeArc 16 c.entry true) s

end Sys2Proof.Machine
end

