-- ==== Sys2Proof/Machine/TileCtl.lean ====
section
/-! DEFINITION. Tile control (R71, R72, R80, R140, R149), retiring (R76), work lists (R90 to R95) and the end of a slice swap
(R86 to R88). -/
namespace Sys2Proof.Machine

/-- The metadata region of partition `p` holds `[a, a + n)` (R71). -/
def inMeta (p a n : Nat) : Bool := n == 0 || (decide (metaOf p ≤ a) && decide (a + n ≤ metaOf p + 0x4000000))

/-- R71. -/
def execTileImgload (t : Nat) (s : State) : Out :=
  if 1152 ≤ t ∨ s.pageBusy (pgTile t) then .next s
  else
    let x := s.tile t
    let a := s.reg64 (pgTile t) 0x118
    let n := s.fld (pgTile t) 0x120 13 0
    let idle : Bool := s.tileOn t && (x.seq == .idle || x.seq == .stopped)
    if idle && decide (n ≤ 8192) && inMeta (t / 72) a (8 * n) && x.loading.isNone then
      if n = 0 then .next s
      else .next (s.setTile t { x with loading := some (a, n), loadAt := s.clk + 1 })
    else .next (s.tileStat t 2)

/-- Poison covers whole 64-bit words. -/
def wordPoison (bs : List (PVal Byte)) : Nat → List (PVal Byte)
  | 0 => []
  | n + 1 =>
    let w := bs.take 8
    (if w.any (·.isNone) then List.replicate 8 none else w) ++ wordPoison (bs.drop 8) n

/-- Copy `n` words at `a` into the instruction memory of tile `t`, with IMEM_ERR and a record of the first poisoned word
(R71). -/
def State.copyImage (s : State) (t a n : Nat) : State :=
  let bs := wordPoison ((s.load .unit a (8 * n)).getD (List.replicate (8 * n) none)) n
  let s1 := { s with mem := s.mem.wr (imemOf t) bs }
  match (List.range n).find? fun i => (bs.getD (8 * i) none).isNone with
  | none => s1
  | some i =>
    (s1.orReg (pgTile t) 0x108 0x400).report (pgTile t) ⟨t, 3, 4, 0, 0, a + 8 * i, 0⟩ (some 2)

/-- R71; the image becomes the one that a move of the tile's logical tile loads (R86). -/
def execTileImgloadDone (t : Nat) (s : State) : Out :=
  match (s.tile t).loading with
  | some (a, n) =>
    let s1 := (s.setTile t { s.tile t with loading := none }).copyImage t a n
    let p := t / 72
    .next (match (s.unit t).lt with
      | some k => s1.setPart p { s1.part p with images := mput (0, 0) (s1.part p).images k (a, n) }
      | none => s1)
  | none => .next s

/-- Set TILE_STAT.RUN_REFUSED. -/
def State.runRefused (s : State) (t : Nat) : State := s.orReg (pgTile t) 0x108 0x1000

/-- What a write of 1 to TILE_CTL.RUN does to a tile that loads no image begun in this nanosecond (R70, R71, R72, R88); after a
dispatch of this nanosecond it is refused (R96). DESIGN CHOICE (log 96): in a partition below 48 logical tiles, which takes no work
(R18), an idle tile's RUN is refused likewise. -/
def State.runNow (s : State) (t : Nat) : State :=
  let x := s.tile t
  if x.loading.isSome ∨ (x.seq = .stopped ∧ x.fetchStop = true) ∨
      (x.seq = .idle ∧ (s.withheld t = true ∨ s.takesWork (t / 72) = false)) ∨ (x.seq = .run ∧ x.dispAt = s.clk + 1) then
    s.runRefused t
  else if x.seq = .idle ∧ s.tileOn t = true then
    s.setTile t { x with seq := .run, pc := s.fld (pgTile t) 0x110 12 0, item := none, itemErr := false }
  else if x.seq = .stopped then (s.setTile t { x with seq := .run }).tryEnd t
  else s

/-- R72; an image load requested in the same nanosecond is refused, since RUN takes effect first (R96). -/
def execTileRun (t : Nat) (s : State) : Out :=
  if 1152 ≤ t ∨ s.pageBusy (pgTile t) then .next s
  else
    let x := s.tile t
    if x.loading.isSome ∧ x.loadAt = s.clk + 1 then
      .next (((s.setTile t { x with loading := none }).tileStat t 2).runNow t)
    else .next (s.runNow t)

/-- The malformed word at the head of issue that is rejected in this nanosecond: the word and its extension words. -/
def State.headRejected (s : State) (t : Nat) : Option (Nat × Nat) :=
  if ¬ s.issuing t then none
  else match s.fetch t with
    | .words w e1 e2 n => if wordOk w e1 e2 = false ∧ s.tokHeld t w = true then some (w, n) else none
    | .error _ => none

/-- R72: no effect but in RUN and WAIT. With a word rejected in the same nanosecond the tile stops at that word, its error completion
applied (R190). -/
def execTileStop (t : Nat) (s : State) : Out :=
  if 1152 ≤ t ∨ s.pageBusy (pgTile t) then .next s
  else
    let x := s.tile t
    if x.rejAt = s.clk + 1 then
      .next ((if x.seq = .run ∨ x.seq = .wait then s.setTile t { x with pc := x.lastPc } else s).stopSeq t)
    else match s.headRejected t with
      | some (w, n) =>
        let s1 := s.reject t w n
        .next ((s1.setTile t { s1.tile t with pc := x.pc }).stopSeq t)
      | none => .next (s.stopSeq t)

/-- R80: all 64 counters. DEDUCED: as with R80's other clear and its write, what rose in this nanosecond is counted after the clear
(log 96). -/
def execTileTokclr (t : Nat) (s : State) : Out :=
  if 1152 ≤ t ∨ s.pageBusy (pgTile t) then .next s
  else .next ((List.range 64).foldl (fun a i =>
    a.setReg (pgTile t) (0x200 + 4 * i) (BitVec.ofNat 32 (s.cntNow (pgTile t) (0x200 + 4 * i)))) s)

/-- R76: the `i`-th entry of queue `q` retires, the matrix, vector and solver queues in order, copies in any order. -/
def execInstrRetire (t q i : Nat) (s : State) : Out :=
  if 1152 ≤ t ∨ 4 ≤ q ∨ s.pageBusy (pgTile t) then .next s
  else match ((s.tile t).queue q)[i]? with
    | some e => if e.st = .finished ∧ (q = 3 ∨ i = 0) then .next (s.retire t q e) else .next s
    | none => .next s

/-- R149; the clear falls between vector instructions (Table 6.6). -/
def execVecRegclr (t : Nat) (s : State) : Out :=
  if 1152 ≤ t ∨ s.pageBusy (pgTile t) then .next s else .next (s.setTile t (s.tile t).clearVec)

/-- R140; an output fed in this nanosecond is fed after the clear (R145). -/
def execArrDigclr (t : Nat) (s : State) : Out :=
  if 1152 ≤ t ∨ s.pageBusy (pgTile t) then .next s
  else
    let f := (s.tile t).fed
    let s1 := s.digClear t
    if f.1 = s.clk + 1 then
      .next (((s1.setReg64 (pgTile t) 0x1B0 f.2.1).setReg (pgTile t) 0x1B8 1).setTile t { s1.tile t with digPois := f.2.2 })
    else .next s1

/-! ### Work lists -/

/-- The wait condition of a slot holds (R90). -/
def State.wlOpen (s : State) (p : Nat) (w : WlSlot) : Bool :=
  decide (w.waitCount ≤ (mget 0 (s.arcu p).toks w.waitIdx).toNat)

/-- An address range in a tier (R90). -/
def inTier (a n : Nat) : Bool :=
  match regionOf a, regionOf (a + (n - 1)) with
  | .near _, .near _ => true
  | .far _, .far _ => true
  | _, _ => false

/-- A descriptor that may start (Table 3.4, R91). DESIGN CHOICE: a start is refused, as one with a reserved field set is, when ITEMS is
not 64-byte aligned or the item array lies outside both tiers: R90 forbids both, and R91 states no outcome for either (log 34). -/
def wlSlotOf (b : List Byte) : Option WlSlot :=
  let count := field b 0 4
  let items := field b 8 8
  if allZero (slice_ b 4 4) && decide (field b 16 1 < 64) && field b 17 1 == 0 && decide (field b 20 1 < 64) &&
      decide (field b 21 1 < 2) && allZero (b.drop 22) && items % 64 == 0 && (count == 0 || inTier items (16 * count)) then
    some { active := true, count := count, items := items, waitIdx := field b 16 1, waitCount := field b 18 2
           doneIdx := field b 20 1, doneEn := field b 21 1 == 1, next := 0, back := [], running := [], done := 0, errIdx := none, own := false }
  else none

/-- Refuse a start: WL_STAT.REFUSED and its event (R91). -/
def State.wlRefuse (s : State) (p k : Nat) : State := (s.orReg (pgPart p) (0x10C + 0x20 * k) 8).raise (pgPart p) 1

/-- An empty work list whose gate is open completes (R91). -/
def State.wlEmpty (s : State) (p k : Nat) : State :=
  let x := s.part p
  match x.wl[k]? with
  | none => s
  | some w =>
    if w.active && !w.own && w.count == 0 && s.wlOpen p w then
      let s1 := s.setPart p { x with wl := x.wl.set k { w with active := false } }
      if w.doneEn then s1.arcTok p w.doneIdx else s1
    else s

/-- Start a work list in slot `k` (R91). A partition below 48 logical tiles takes none (R18). -/
def State.wlStart (s : State) (p k addr : Nat) : State :=
  let x := s.part p
  match x.wl[k]?, s.load .unit addr 64 with
  | some old, some bs =>
    if old.active ∨ s.takesWork p = false then s.wlRefuse p k
    else match (allSome bs).bind wlSlotOf with
      | some w => (s.setPart p { x with wl := x.wl.set k w }).wlEmpty p k
      | none => s.wlRefuse p k
  | _, _ => s.wlRefuse p k

def execWlGo (p k : Nat) (s : State) : Out :=
  if 16 ≤ p ∨ 4 ≤ k ∨ s.pageBusy (pgPart p) then .next s
  else
    let a := s.reg64 (pgPart p) (0x100 + 0x20 * k)
    .next (s.unlessHeld fun t => (t.readNote a 64).wlStart p k a)

/-- The lowest undispatched item of a slot. -/
def WlSlot.head (w : WlSlot) : Option Nat :=
  match w.back with
  | i :: _ => some i
  | [] => if w.next < w.count then some w.next else none

/-- The slot without its head, which is now given out. -/
def WlSlot.take (w : WlSlot) : WlSlot :=
  match w.back with
  | i :: r => { w with back := r, running := i :: w.running }
  | [] => { w with next := w.next + 1, running := w.next :: w.running }

/-- The logical tile on physical tile `t` is being copied to a spare (R401). -/
def State.auditing (s : State) (t : Nat) : Bool :=
  match (s.unit t).lt with
  | some k => (s.part (t / 72)).audit.any fun u => u.moving && u.k == k
  | none => false

/-- A logical tile to which an item may be given (R71, R88, R92). -/
def State.tileFree (s : State) (t : Nat) : Bool :=
  let x := s.tile t
  s.tileOn t && x.seq == .idle && x.loading.isNone && !s.withheld t && !s.auditing t && !s.pageBusy (pgTile t)

/-- Item `idx` of slot `k` starts on tile `t` at `entry` with `arg` (R92, R140, R149, R172). -/
def State.dispatch (s : State) (t k idx entry arg : Nat) : State :=
  let x := (s.tile t).clearVec
  let s1 := s.setTile t { x with
    seq := .run, pc := entry, item := some (k, idx), itemErr := false, ended := none, dispAt := s.clk + 1
    digWas := (s.reg64 (pgTile t) 0x1B0, s.reg (pgTile t) 0x1B8, x.digPois)
    ars := [some (BitVec.ofNat 64 arg), some (BitVec.ofNat 64 idx)] ++ List.replicate 14 (some 0) }
  (s1.digClear t).setReg (pgTile t) 0x138 (BitVec.ofNat 32 idx)

/-- The lowest-numbered active slot with its gate open and an item to give out (R92). -/
def State.wlNext (s : State) (p : Nat) : Option (Nat × WlSlot × Nat) :=
  (List.range 4).findSome? fun k => match (s.part p).wl[k]? with
    | some w => if w.active && !w.own && s.wlOpen p w then w.head.map fun idx => (k, w, idx) else none
    | none => none

/-- Give item `idx` of slot `k` to tile `t`; an item entry that cannot be read or has a reserved bit set completes with an error. -/
def State.wlGive (s : State) (p k : Nat) (w : WlSlot) (idx t : Nat) : State :=
  let x := s.part p
  let s1 := (s.setPart p { x with wl := x.wl.set k w.take, wlAt := s.clk + 1 }).readNote (w.items + 16 * idx) 16
  match (s.load .unit (w.items + 16 * idx) 16).bind allSome with
  | some b =>
    if field b 0 2 < 8192 ∧ allZero (slice_ b 2 6) = true then s1.dispatch t k idx (field b 0 2) (field b 8 8)
    else s1.itemDone p k idx true
  | none => s1.itemDone p k idx true

/-- R91, R92: every empty list whose gate is open completes, and one item at most is dispatched in a nanosecond. -/
def execWlDispatch (p : Nat) (s : State) : Out :=
  if 16 ≤ p ∨ s.pageBusy (pgPart p) ∨ s.takesWork p = false then .next s
  else
    let s0 := (List.range 4).foldl (fun a k => a.wlEmpty p k) s
    if (s.part p).wlAt = s.clk + 1 then .next s0
    else match s0.wlNext p, ((List.range (s0.part p).n).filterMap (s0.ptile p)).find? s0.tileFree with
      | some (k, w, idx), some t => .next (s0.unlessHeld fun a => a.wlGive p k w idx t)
      | _, _ => .next s0

/-! ### Slice swap (R86, R87) -/

/-- The running swap of partition `p` has done its first `upto` segment pairs: their contents have changed places (R87). -/
def State.swapSegs (s : State) (p upto : Nat) : State :=
  match (s.part p).swap with
  | [] => s
  | w :: r =>
    if upto ≤ w.segs then s
    else
      let at_ := fun (j : Nat) => nearOf p + j * sliceBytes + w.segs * 65536
      let s1 := if w.a = w.b then s else { s with mem := s.mem.swap (at_ w.a) (at_ w.b) ((upto - w.segs) * 65536) }
      (s1.setPart p { s1.part p with swap := { w with segs := upto } :: r }).setFld (pgPart p) 0x190 10 1 upto

/-- Segment pairs that a swap begun at nanosecond `since` has done: 128 cycles each after a fill of 128 (R87). -/
def swapDue (now since : Nat) : Nat := min 896 ((now - since - 128) / 128)

/-- R88: the running swap ends, the slice map follows, SWAP_DONE is raised, and its tile is no longer withheld by it; a swap that
waits begins. The segment pairs still to come change places with it: the end comes when the command says so (log 4). -/
def execSliceSwapDone (p : Nat) (s : State) : Out :=
  match (s.part p).swap with
  | [] => .next s
  | w :: r =>
    let s1 := s.swapSegs p 896
    let x := s1.part p
    let m := (List.range 72).map fun l =>
      let j := s.slice p l
      if j = w.a then w.b else if j = w.b then w.a else j
    let rest := match r with
      | v :: vs => { v with since := s.clk } :: vs
      | [] => []
    let s2 := s1.setPart p { x with swap := rest, smap := if w.a = w.b then x.smap else m }
    .next ((if rest.isEmpty then s2 else s2.setFld (pgPart p) 0x190 10 1 0).raise (pgPart p) 2)

end Sys2Proof.Machine
end

