-- ==== Sys2Proof/Machine/Units.lean ====
section
/-! DEFINITION. The unit state table (R26 to R28, R396), fault history (R394, R395), fencing (R397), takeover and reduction
(R86, R18), steward takeover (R400, R421), and the placement of tiles and slices at a rebuild (R398, R510). -/
namespace Sys2Proof.Machine


/-- FLT_CLOCK now: it advances once a second once it is not 0 (R407). -/
def State.fltClock (s : State) : Nat :=
  let b := (s.reg pgFault 0x118).toNat
  if b = 0 then 0 else (b + (s.clk - s.fltNs) / 1000000000) % 2 ^ 32

/-- R395: a counted event of class `cls` at unit `u`. -/
def State.classify (s : State) (u cls : Nat) : State :=
  let h := s.histOf u
  let c := s.fltClock
  let t := if c = 0 then (match h.times with
    | x :: _ => x + 1
    | [] => 1) else c
  let times := (t :: h.times).take 12
  let lim := min 12 (s.fld pgFault 0x108 3 0)
  let n := (times.filter fun (x : Nat) => decide (t ≤ x + 86400 * s.fld pgFault 0x108 15 8)).length
  let perm : Bool := h.st == 2 || (decide (0 < lim) && decide (lim ≤ n))
  let s1 := { s with
    hist := mput Hist.clean s.hist u ⟨if perm then 2 else 1, min 255 (h.total + 1), cls, times⟩
    opt.histDue := if s.opt.histDue.contains u then s.opt.histDue else s.opt.histDue ++ [u] }
  if perm && h.st != 2 then (s1.orReg pgFault 0x100 4).raise pgFault 2 else s1

/-! ### Moves of a logical tile (R86) -/

/-- The token counters of tile `t` are cleared. -/
def State.clearToks (s : State) (t : Nat) : State :=
  (List.range 64).foldl (fun a i => a.setReg (pgTile t) (0x200 + 4 * i) 0) s

/-- Physical tile `t` is left with no program: `seq` is its sequencer's state. Its address registers stay (Table 7.13). -/
def State.tileBlank (s : State) (t : Nat) (seq : Seq) : State :=
  s.setTile t { s.tile t with
    seq := seq, fetchStop := false, item := none, itemErr := false, ended := none
    q0 := [], q1 := [], q2 := [], q3 := [], loading := none, acc0 := none, acc1 := none, digPois := false
    acc := Store.empty, vr := Store.empty, msk := [], mskPois := [], vcnt := [], vcntPois := [] }

/-- Logical tile `k` of partition `p` is now carried by its tile `c`, and the slices of `f` and `c` begin to change places
(R86 steps 1 to 3, R87, R88). -/
def State.moveTile (s : State) (p k f c : Nat) : State :=
  let t := p * 72 + c
  let x := s.part p
  let s1 := (s.setUnit t ⟨.active, some k⟩).setPart p { x with tmap := x.tmap.set k c, swap := x.swap ++ [⟨f, c, k, c, 0, s.clk⟩] }
  let s2 := if x.swap.isEmpty then s1.setFld (pgPart p) 0x190 10 1 0 else s1
  let (a, n) := mget (0, 0) x.images k
  (s2.tileBlank t .idle).copyImage t a n

/-- A takeover or reduction leaves `c` with cleared token counters and an undefined tile store (R86 step 4). -/
def State.takeTile (s : State) (p k f c : Nat) : State :=
  let t := p * 72 + c
  ((s.openBytes (tstoreOf t) 0x180000).moveTile p k f c).clearToks t

/-- Free spares of partition `p`: in state SPARE and not the target of an audit move in progress. -/
def State.spares (s : State) (p : Nat) : List Nat :=
  (List.range 72).filter fun c => (s.unit (p * 72 + c)).st == .spare && !(s.part p).audit.any fun a => a.moving && a.c == c

/-- Below 48 logical tiles the partition is reported as lost to the job (R18, R374). -/
def State.shrinkNote (s : State) (p : Nat) : State :=
  let s1 := s.raise (pgPart p) 3
  if (s.part p).n < 48 then s1.send (.partReport p) else s1

/-- Logical tile `k` leaves tile `f` of partition `p` for a spare, or the count falls by one (R86). -/
def State.leaveTile (s : State) (p k f : Nat) : State :=
  match s.spares p with
  | c :: _ => s.takeTile p k f c
  | [] =>
    let x := s.part p
    let last := x.n - 1
    let c := x.tmap.getD last 0
    let s1 := (s.setPart p { x with n := last }).shrinkNote p
    if k = last then s1 else (s1.isolate (p * 72 + c)).takeTile p k f c

/-! ### Fencing (R28, R397) -/

/-- Audits of partition `p` that tile `f` (carrying `k?`) or spare `f` meets as it is fenced (Table 17.6). The tile that an
audit move in progress was copying to, if that move completes as a takeover. -/
def State.auditFence (s : State) (p f : Nat) (k? : Option Nat) : State × Option Nat :=
  let x := s.part p
  let gone := x.audit.filter fun a => a.c == f
  let into := x.audit.find? fun a => a.moving && some a.k == k?
  let s1 := s.setPart p { x with audit := x.audit.filter fun a => !(a.c == f) && !(a.moving && some a.k == k?) }
  let s2 := gone.foldl (fun a u => (a.orReg pgFault 0x100 0x20).failArc p u.entry 2) s1
  match into with
  | some a => (s2.completeArc p a.entry false, some a.c)
  | none => (s2, none)

/-- The tile runs a program that is no work item (R89). -/
def Tile.loose (x : Tile) : Bool := x.item.isNone && (x.seq == .run || x.seq == .wait)

/-- A fence cuts off a program that is no work item: the partition cannot finish the step's work, and is reported (R89, R374). -/
def State.cutOff (s : State) (u : Nat) : State :=
  if (s.tile u).loose then (s.setPart (u / 72) { s.part (u / 72) with cut := true }).send (.partReport (u / 72)) else s

/-- A physical tile becomes FENCED. -/
def State.fenceTile (s : State) (u : Nat) : State :=
  let p := u / 72
  let f := u % 72
  let k? := (s.unit u).lt
  let s1 := ((((s.cutOff u).dropPostings u).setUnit u ⟨.fenced, none⟩).isolate u).tileBlank u .off
  let (s2, tgt) := s1.auditFence p f k?
  match k? with
  | none => s2
  | some k => match tgt with
    | some c => s2.takeTile p k f c
    | none => s2.leaveTile p k f

/-- A far-tier channel becomes FENCED (R276). -/
def State.fenceChannel (s : State) (u : Nat) : State :=
  let p := (u - 1152) / 32
  let c := (u - 1152) % 32
  let x := s.part p
  let s1 := (s.setUnit u ⟨.fenced, none⟩).setPart p { x with far := { x.far with live := x.far.live &&& ~~~ ((1 : W32) <<< c) } }
  (s1.orReg (pgFar p) 0x104 0x800).raise (pgFar p) 3

/-- No steward is left (R421): a warm reset is requested. -/
def State.noSteward_ (s : State) : State :=
  (({ s with rst.noSteward := true, rst.warmReq := true, rst.takeover := false }).raise pgReset 1).raise pgReset 2

/-- A steward core becomes FENCED (R397, R400, R421). -/
def State.fenceSteward (s : State) (u : Nat) : State :=
  let active : Nat := if s.rst.active1 then 1801 else 1800
  let s1 := s.setUnit u ⟨.fenced, none⟩
  if u ≠ active then (if s.rst.takeover then s1.noSteward_ else s1)
  else if u = 1801 ∨ (s.unit 1801).st = .fenced then s1.noSteward_
  else { s1 with rst.takeover := true }

/-- A service core stops: its queued postings are gone and their credits return (R456), and an aperture load of its own is waited for
no longer; `f` is what else happens to it. -/
def State.coreDrop (s : State) (c : Nat) (f : Core_ → Core_) : State :=
  { s.setCore c { f (s.core_ c) with posts := [], heldPost := none, ap := none } with
    outst := s.outst.map fun (o : Outst) => o.orphan fun w => w == .core c }

/-- A fenced core's postings still queued complete with error responses (R28). -/
def State.corePosts (s : State) (c : Nat) : State :=
  ((s.core_ c).posts ++ (s.core_ c).heldPost.toList).foldl (fun (a : State) addr =>
    a.report (pgCore c) ⟨1736 + c, 3, 0, 10, 0, addr.toNat, 10⟩ none) s

/-- A unit becomes FENCED; one that already is stays so. -/
def State.fence (s : State) (u : Nat) : State :=
  if (s.unit u).st = .fenced then s
  else if u < 1152 then (s.fenceTile u).updRepl
  else if u < 1664 then (s.fenceChannel u).updRepl
  else if u < 1736 then s.portFence (u - 1664)
  else if u < 1800 then
    ((s.setUnit u ⟨.fenced, none⟩).corePosts (u - 1736)).coreDrop (u - 1736) fun x => { x with running := false, psvOn := false }
  else s.fenceSteward u

/-- What a counted event of class `cls`, in a record of page `pg`, does to its unit (R27, Table 17.5). -/
def State.respond (s : State) (pg u cls : Nat) : State :=
  let perm : Bool := (s.histOf u).st == 2
  if u < 1152 then s.fence u
  else if u < 1736 then (if perm || cls == 5 then s.fence u else s)
  else if u < 1800 then s.fence u
  else if cls = 4 ∧ pg = pgReset then (if perm then s.fence u else s)
  else s.fence u

/-! ### Rebuild (R398, R510) -/

/-- Tile map of a partition: usable tiles, in the order that logical tiles take them. -/
def placeTiles (n : Nat) (usable : List Nat) : List Nat :=
  let stay := usable.filter fun t => decide (t < n)
  let rest := usable.filter fun t => decide (n ≤ t)
  let holes := (List.range n).filter fun j => !stay.contains j
  (List.range n).map fun j => if stay.contains j then j else rest.getD (holes.idxOf j) 0

/-- Slice map that goes with a tile map. -/
def placeSlices (tmap : List Nat) : List Nat := tmap ++ (List.range 72).filter fun i => !tmap.contains i

/-- The tiles, channels and slices of partition `p`, placed afresh for a grade; a far tier whose mapping changes has undefined
contents (R276). -/
def State.rebuildPart (s : State) (grade p : Nat) : State :=
  let bad := fun u => (s.histOf u).st == 2
  let usable := (List.range 72).filter fun t => !bad (p * 72 + t)
  let n := min grade usable.length
  let tm := placeTiles n usable
  let x := s.part p
  let live : W32 := (List.range 32).foldl (fun m c => if bad (1152 + p * 32 + c) then m &&& ~~~ ((1 : W32) <<< c) else m) ones32
  let far := { x.far with live := live, degraded := live != ones32, cmap := live }
  let same : Bool := far.degraded == x.far.degraded && (!far.degraded || far.cmap == x.far.cmap)
  let s1 := s.setPart p { x with n := n, grade := grade, tmap := tm, smap := placeSlices tm, swap := [], far := far }
  let s2 := (List.range 72).foldl (fun (a : State) t =>
    let u := p * 72 + t
    let e : UEntry :=
      if bad u then ⟨.fenced, none⟩
      else if tm.contains t then ⟨.active, some (tm.idxOf t)⟩
      else ⟨.spare, none⟩
    (a.setUnit u e).setTile u { a.tile u with seq := if e.st == .active then .idle else .off }) s1
  let s3 := (List.range 32).foldl (fun (a : State) c =>
    a.setUnit (1152 + p * 32 + c) ⟨if bad (1152 + p * 32 + c) then .fenced else .active, none⟩) s2
  let s4 := if same then s3 else s3.openBytes (p * 0x1000000000) 0x1000000000
  if n < 48 then s4.send (.partReport p) else s4

/-- R398; the replace pin follows from here on (Table 18.3). -/
def State.rebuild (s : State) (grade : Nat) : State :=
  let s1 := (List.range 16).foldl (fun a p => a.rebuildPart grade p) s
  let s2 := ((List.range 138).map (· + 1664)).foldl (fun (a : State) u =>
    a.setUnit u ⟨if (a.histOf u).st == 2 then .fenced else .active, none⟩) s1
  let a0 : Bool := (s.histOf 1800).st == 2
  let a1 : Bool := (s.histOf 1801).st == 2
  { s2 with rst.active1 := a0 && !a1 }.updateLost

/-! ### Core clocks -/

/-- Core cycles in five nanoseconds: 12 at 2.4 GHz, 3 while the P-die is throttled (R477). -/
def State.coreCycles5 (s : State) (c : Nat) : Nat := if s.power.throttled.contains (16 + c / 32) then 3 else 12

end Sys2Proof.Machine
end

