-- ==== Sys2Proof/Machine/Coded.lean ====
section
/-! DEFINITION. Coded state (R361 to R382): group descriptors, the Chord Coder and its holder, holds, recovery epochs and
rebuild. The holds and refusals of a write stand with the writes, in Machine/Ops.lean. -/
namespace Sys2Proof.Machine

/-! ### GF(2^8) (R363) -/

def gfDouble (a : Nat) : Nat := if a < 128 then 2 * a else (2 * a) ^^^ 0x11D

def gfMulFrom : Nat → Nat → Nat → Nat
  | 0, _, _ => 0
  | n + 1, a, b => (if b % 2 = 1 then a else 0) ^^^ gfMulFrom n (gfDouble a) (b / 2)

def gfMul (a b : Nat) : Nat := gfMulFrom 8 a b

def gfInv (a : Nat) : Nat := ((List.range 256).find? fun x => gfMul a x == 1).getD 0

/-- Coefficient of data position `d` in parity `i`. -/
def codeCoef (m i d : Nat) : Nat := if m = 1 then 1 else gfInv (i ^^^ (d + 2))

/-- A byte string times a coefficient. -/
def gfScale (c : Nat) (bs : List Byte) : List Byte :=
  if c = 1 then bs else bs.map fun b => BitVec.ofNat 8 (gfMul c b.toNat)

/-! ### Stripes (R364) -/

/-- Parity index that member `q` holds in stripe `s`. -/
def parityOf (n m s q : Nat) : Option Nat := (List.range m).find? fun i => (s + i) % n == q

/-- Data members of a stripe, by data position. -/
def dataMembers (n m s : Nat) : List Nat := (List.range n).filter fun q => (parityOf n m s q).isNone

def dataPos (n m s q : Nat) : Nat := (dataMembers n m s).idxOf q

/-- Member `q`'s data segment in a stripe whose data member it is. -/
def segOfStripe (n m q s : Nat) : Nat :=
  let res := (List.range n).filter fun r => (parityOf n m r q).isNone
  (n - m) * (s / n) + res.idxOf (s % n)

def Group.slots (g : Group) : Nat := g.m * ((g.dmax + (g.n - g.m) - 1) / (g.n - g.m))
def Group.parsz (g : Group) : Nat := g.slots * 65536
def Group.slot (g : Group) (stripe i : Nat) : Nat := g.m * (stripe / g.n) + i
def Group.stripes (g : Group) : Nat := g.n * ((g.dmax + (g.n - g.m) - 1) / (g.n - g.m))

/-- Far-tier address of buffer `b` of a parity slot (R371). -/
def Group.bufAt (g : Group) (b : Bool) (slot : Nat) : Nat := g.parity + (if b then g.parsz else 0) + slot * 65536

def Group.member (g : Group) (r : Nat) : Member := g.members.getD r ⟨0, 0⟩

/-- Members other than this one. -/
def Group.others (g : Group) : List Nat := (List.range g.n).filter fun r => r != g.self

/-! ### Segments of the coded space (R365) -/

/-- A data segment of this member: number, coding-map entry, field entry, logical slice, and its place in the slice. -/
structure Seg where
  j : Nat
  m : MapEnt
  e : FplEnt
  l : Nat
  t : Nat

def Seg.len (x : Seg) : Nat := min 65536 (x.e.len - x.t * 65536)

def State.segList (s : State) : List Seg :=
  s.codingMap.flatMap fun (i, m) => match s.mapField m with
    | none => []
    | some e => (List.range (s.mapSegs m)).map fun x =>
        ⟨s.segBase (s.codingMap.map (·.2)) i + x, m, e, e.first + m.slf + x / segsOf e.len, x % segsOf e.len⟩

/-- Step whose write half holds epoch `ep`. -/
def Group.stepOf (g : Group) (ep : Nat) : Nat := g.ebase.toNat + g.k * ep

/-- Offset in its slice of the bytes of epoch `ep` (Table 16.3). -/
def Seg.at_ (x : Seg) (g : Group) (ep : Nat) : Nat :=
  x.t * 65536 + (if x.e.kind ≠ 1 then x.e.off
    else if g.k = 1 then x.e.off + (1 - g.stepOf ep % 2) * x.e.len
    else x.m.retoff + ep % 2 * x.e.len)

/-- Read, or write exempt from R239, an offset of the segment's slice. -/
def State.segLoad (s : State) (x : Seg) (off : Nat) : Option (List (PVal Byte)) :=
  s.loadSlice .exempt x.m.part x.l off x.len

/-- What such a read does beside (R269). -/
def State.segNote (s : State) (x : Seg) (off : Nat) : State :=
  ((s.sliceParts x.m.part x.l off x.len).getD []).foldl (fun t y => t.readNote y.1 y.2) s

def State.segStore (s : State) (part l off : Nat) (bs : List (PVal Byte)) : State :=
  match (s.sliceParts part l off bs.length).map fun ps => s.storeParts .exempt ps bs with
  | some (.ok s1) => s1
  | _ => s

/-! ### LOAD (R361, R362, R382) -/

def State.csErr (s : State) (bit ev : Nat) : State := (s.orReg pgCs 0x104 (1 <<< bit)).raise pgCs ev

/-- Coding-map entry (Table 16.2), or none for a reserved bit or a value out of its range. -/
def mapEntOf (b : List Byte) : Option MapEnt :=
  let ret := field b 8 4
  if field b 3 1 < 16 ∧ field b 4 1 < 32 ∧ field b 5 1 < 128 ∧ field b 6 1 ≤ 72 ∧ field b 7 1 = 0 ∧ ret < 2 ^ 26 ∧
      ret % 64 = 0 ∧ field b 12 4 = 0 then
    some ⟨field b 0 3, field b 3 1, field b 4 1, field b 5 1, field b 6 1, ret⟩
  else none

/-- Bytes [off, off + n) of logical slices [l, l + c) lie wholly within a SCRATCH entry (R382). -/
def State.inScratch (s : State) (p l c off n : Nat) : Bool :=
  (s.fplEntries p).any fun e =>
    e.kind == 3 && decide (e.first ≤ l) && decide (l + c ≤ e.first + e.nsl) && decide (e.off ≤ off) &&
      decide (off + n ≤ e.off + e.len)

/-- An entry names a PAIR or FROZEN entry of an active table, and has its retention buffers (R365, R382). -/
def State.mapEntOk (s : State) (k : Nat) (m : MapEnt) : Bool :=
  match s.mapField m with
  | none => false
  | some e => (e.kind == 1 || e.kind == 2) && decide (m.slf + m.sln ≤ e.nsl) &&
      (e.kind != 1 || decide (k < 2) || m.sln == 0 || s.inScratch m.part (e.first + m.slf) m.sln m.retoff (2 * e.len))

/-- A member entry (Table 16.1): VALID, nothing reserved, and its context leads to it. -/
def State.memberOf (s : State) (b : List Byte) : Option Member :=
  let v := leNat b
  let x := s.ctx (bits v 35 16)
  if bitAt v 63 && bits v 62 36 == 0 && bits v 15 14 == 0 && x.valid && x.send && x.dst == BitVec.ofNat 14 v then
    some ⟨BitVec.ofNat 14 v, BitVec.ofNat 20 (v / 2 ^ 16)⟩
  else none

/-- The group that a descriptor names, or none when it is refused. -/
def State.groupOf (s : State) (b : List Byte) : Option Group :=
  let n := field b 3 1
  let m := field b 4 1
  let k := field b 6 1
  let tag := BitVec.ofNat 16 (field b 0 2)
  let gen := BitVec.ofNat 8 (field b 2 1)
  let off : Bool := n == 0 || k == 0
  let basic : Bool := s.live tag gen && (n == 0 || (decide (4 ≤ n) && decide (n ≤ 16))) && (m == 1 || m == 2) &&
    decide (field b 5 1 < 16) && (n == 0 || decide (field b 5 1 < n)) && field b 7 1 == 0 && field b 16 8 % 2048 == 0 &&
    decide (field b 32 4 ≤ 1024) && allZero (slice_ b 36 28) && allZero (b.drop 192) &&
    allZero (slice_ b (64 + 8 * n) (128 - 8 * n))
  if ¬ basic then none
  else match allSome ((List.range n).map fun q => s.memberOf (slice_ b (64 + 8 * q) 8)),
      (if off then some [] else s.readArray (w64At b 24) 16 (field b 32 4)) with
    | some ms, some es =>
      match allSome (es.map mapEntOf) with
      | none => none
      | some map =>
        let g : Group :=
          { tag := tag, gen := gen, n := n, m := m, self := field b 5 1, k := k, ebase := BitVec.ofNat 32 (field b 8 4)
            dmax := field b 12 4, parity := field b 16 8, members := ms, map := map
            digest := crc64 (b.take 5 ++ [0] ++ b.drop 6) }
        if (n = 0 ∨ g.parity + 2 * g.parsz ≤ 0x10000000000) ∧
            (off ∨ (map.all (s.mapEntOk k) ∧ ((map.map s.mapSegs).foldl (· + ·) 0) ≤ g.dmax)) then some g
        else none
    | _, _ => none

/-- Coding metadata as at a group's start. -/
def State.csFresh (s : State) (g : Option Group) (st : CsSt) : State :=
  { s with cs := { Coded.reset with st := st, group := g, epoch := s.cs.epoch, hcomplete := s.cs.hcomplete } }

/-- CS_LOAD: a write of `w` to CS_CMD. -/
def execCsLoad (w : W32) (s : State) : Out :=
  if s.pageBusy pgCs ∨ bits w.toNat 2 0 ≠ 1 then .next s
  else if s.cs.st ≠ .off ∧ s.cs.st ≠ .reform then .next (s.csErr 14 5)
  else
    let a := s.reg64 pgCs 0x110
    match (if inNear a 256 then (s.load .unit a 256).bind allSome else none) with
    | none => .next (s.csErr 14 5)
    | some b => match s.groupOf b with
      | none => .next (s.csErr 14 5)
      | some g =>
        let s1 := if g.n = 0 then s else { s with mem := s.mem.clear g.parity (2 * g.parsz) }
        if g.n = 0 ∨ g.k = 0 then
          let s2 := s1.csFresh none .off
          .next (if s.cs.st = .reform ∧ g.n = 0 then (s2.orReg pgCs 0x104 0x2000).updRepl else s2)
        else
          if s.cs.st = .off then
            .next { s1 with cs := { (s1.csFresh (some g) .coding).cs with epoch := none, hcomplete := none } }
          else
            let s2 := s1.csFresh (some g) .reform
            .next { s2 with cs := { s2.cs with reformLoaded := true } }

/-! ### Packets (Table 16.4) -/

/-- Send a coding packet to member `r`. -/
def State.codeSend (s : State) (g : Group) (r op : Nat) (hdr data : List Byte) : State :=
  let m := g.member r
  let x := s.ctx m.flow.toNat
  let k : Packet := { dst := m.modid, hops := 0, src := 0, vc := 5, gen := x.gen, tag := x.tag, flow := m.flow
                      op := BitVec.ofNat 8 op, body := (hdr ++ List.replicate (16 - hdr.length) 0) ++ data }
  (s.sendPacket k .unit).1

def kEpoch (k : Packet) : W32 := BitVec.ofNat 32 (field k.body 0 4)
def kStripe (k : Packet) : Nat := field k.body 4 4
def kPidx (k : Packet) : Nat := field k.body 8 1
def kData (k : Packet) : List Byte := k.body.drop 16

/-- Stripe number that stands for a CODE_END in a CODE_ACK. -/
def endMark : Nat := 0xFFFFFFFF

/-- The group codes: CODING, or REFORM with its new descriptor loaded (R380). -/
def State.codingOn (s : State) : Bool := s.cs.st == .coding || (s.cs.st == .reform && s.cs.reformLoaded)

/-- Epoch of the current step, if it is an epoch step (R366). -/
def State.epochOf (s : State) (g : Group) : Option Nat :=
  let i := s.tb.stepIdx.toNat
  if g.k ≠ 0 ∧ g.ebase.toNat ≤ i ∧ (i - g.ebase.toNat) % g.k = 0 then some ((i - g.ebase.toNat) / g.k % 2 ^ 32) else none

def countOf (l : List (Nat × Nat)) (r : Nat) : Nat := ((l.find? fun x => x.1 == r).map (·.2)).getD 0
def bump (l : List (Nat × Nat)) (r : Nat) : List (Nat × Nat) := (l.filter fun x => x.1 != r) ++ [(r, countOf l r + 1)]

/-- The building version is of epoch `ep`. -/
def Coded.build (c : Coded) (ep : W32) : Coded :=
  if c.building = some ep then c
  else { c with building := some ep, built := [], deltas := [], opened := [], ends := [], readies := [], sentReady := false }

/-! ### The Chord Coder (R369, R370) -/

/-- Code one candidate segment: the retention copy, NZ, and its deltas; the acknowledgements owed. False: its bytes cannot
be read. -/
def State.codeSegment (s : State) (g : Group) (ep : Nat) (x : Seg) : State × List (Nat × Nat) × Bool :=
  let src := if x.e.kind = 1 ∧ 2 ≤ g.k then x.t * 65536 + x.e.off + (1 - s.readHalf) * x.e.len else x.at_ g ep
  let old := if s.cs.firstEpoch then some (List.replicate x.len 0) else (s.segLoad x (x.at_ g (ep + 1))).bind allSome
  match (s.segLoad x src).bind allSome, old with
  | some new, some was =>
    let s0 := (s.segNote x src).segNote x (x.at_ g (ep + 1))
    let s1 := if src = x.at_ g ep then s0 else s0.segStore x.m.part x.l (x.at_ g ep) (new.map some)
    let delta := List.zipWith (· ^^^ ·) new was
    let nz := !allZero delta
    let s2 := { s1 with cs := { s1.cs with written := mdel s1.cs.written x.j, nz := mput false s1.cs.nz x.j nz } }
    if nz then
      let stripe := stripeOf g.n g.m g.self x.j
      let d := dataPos g.n g.m stripe g.self
      let s3 := (List.range g.m).foldl (fun (a : State) i =>
        let r := (stripe + i) % g.n
        let v := gfScale (codeCoef g.m i d) delta
        let b := (cuts 2048 0 v.length).foldl (fun u p =>
          u.codeSend g r 0x20 (toLE 4 ep ++ toLE 4 stripe ++ toLE 1 i ++ toLE 3 p.1) (slice_ v p.1 p.2)) a
        { b with cs := { b.cs with sent := bump b.cs.sent r } }) s2
      (s3.count pgCs 0x120, (List.range g.m).map fun i => (stripe, i), true)
    else (s2.count pgCs 0x124, [], true)
  | _, _ => (s, [], false)

/-- CODE_END to every other member, with the deltas sent to it by the CODE that ends. -/
def State.codeEnds (s : State) (g : Group) (ep : Nat) : State :=
  let s1 := g.others.foldl (fun a r =>
    a.codeSend g r 0x22 (toLE 4 ep ++ toLE 4 (countOf s.cs.sent r) ++ toLE 8 g.digest.toNat) []) s
  { s1 with cs := { s1.cs with sent := [] } }

/-- Partitions whose active arc table has a CODE arc. -/
def State.coders (s : State) : List Nat :=
  (List.range 16).filter fun p => (s.arcu p).active.any fun x => x.action == 3

/-- A CODE that reports nothing posted: it failed or was abandoned, and its epoch cannot commit. -/
def CodeRun.gone (p e : Nat) : CodeRun := ⟨p, e, false, []⟩

/-- The CODE of partition `p` in epoch step `ep` (R369, R370). -/
def State.codePart (s : State) (g : Group) (p e ep : Nat) : State :=
  let s0 := { s with cs := s.cs.build (BitVec.ofNat 32 ep) }
  let todo := s0.segList.filter fun x => x.m.part == p &&
    (s0.cs.firstEpoch || mget false s0.cs.written x.j || mget false s0.cs.nz x.j)
  let (s1, owed, ok) := todo.foldl (fun (a : State × List (Nat × Nat) × Bool) x =>
    let (u, o, k) := a.1.codeSegment g ep x
    (u, a.2.1 ++ o, a.2.2 && k)) (s0, [], true)
  if ¬ ok then
    let s2 := s1.failArc p e 3
    { s2 with cs := { s2.cs with sent := [], codes := s2.cs.codes ++ [CodeRun.gone p e] } }
  else
    let s2 := s1.codeEnds g ep
    let run : CodeRun := ⟨p, e, false, owed ++ g.others.map fun r => (endMark, r)⟩
    let last : Bool := s2.coders.all s2.cs.codedParts.contains && s2.cs.codes.all fun c => !c.waits && !c.owed.isEmpty
    { s2 with cs := { s2.cs with
        codes := s2.cs.codes ++ [run]
        lastCoded := if last then some (BitVec.ofNat 32 ep) else s2.cs.lastCoded
        firstEpoch := s2.cs.firstEpoch && !last } }

/-- Why a CODE of partition `p` waits (R372, R384): 1, the epoch coded before is not committed; 3, a retention buffer that its copy
writes is still being drained. -/
def State.codeHold (s : State) (g : Group) (p ep : Nat) : Option Nat :=
  if s.cs.lastCoded.isSome ∧ s.cs.lastCoded ≠ s.cs.epoch ∨ 2 ≤ g.k ∧ s.commitDue = true then some 1
  else if 2 ≤ g.k ∧ (s.segList.any fun x => x.m.part == p && x.e.kind == 1 && s.drainHold p x.l (x.at_ g ep) x.len) = true then
    some 3
  else none

/-- ARC_CODE (R366, R370, R372, R380): the CODE fires, and refuses later writes (R368); what it does may wait. -/
def execArcCode (u e : Nat) (s : State) : Out :=
  .next (s.fire u e 3 fun x a =>
    match a.cs.group with
    | none => a.completeArc u e false
    | some g => match a.codingOn, a.epochOf g with
      | true, some ep =>
        if a.cs.codedParts.contains u then a.completeArc u e false
        else
          let b := { a with cs := { a.cs with codedParts := u :: a.cs.codedParts } }
          let c := if x.late then b.codeLate else b
          match c.codeHold g u ep with
          | some k => { c with cs := { c.cs with held := some k, codes := c.cs.codes ++ [⟨u, e, true, []⟩] } }
          | none => c.codePart g u e ep
      | _, _ => a.completeArc u e false)

/-- The CODEs that wait go on, each once nothing holds it (R372); those still held are a held write of the nanosecond. -/
def State.codeResume (s : State) : State :=
  match s.cs.group with
  | none => s
  | some g => match s.epochOf g with
    | none => s
    | some ep => (s.cs.codes.filter (·.waits)).foldl (fun a c =>
        match a.codeHold g c.part ep with
        | some k => a.held_ k
        | none => { a with cs := { a.cs with
            codes := a.cs.codes.filter fun y => !(y.waits && y.part == c.part && y.entry == c.entry) } }.codePart g c.part c.entry ep) s

/-! ### Arriving coding packets (R370, R371) -/

def State.badCode (s : State) : State := s.count pgCs 0x138

/-- Take the next coding packet with operation `op`: its sender's index in the loaded group. -/
def State.codeTake (s : State) (op : Nat) (f : State → Group → Nat → Packet → State) : State :=
  match s.inbox.find? fun e => e.2.vc == 5 && e.2.op.toNat == op with
  | none => s
  | some (i, k) =>
    let s1 := { s with inbox := dropFirst (fun e => e.2.vc == 5 && e.2.op.toNat == op) s.inbox }
    if s.live k.tag k.gen = false then s1.dropUnlive (dieOf i k) k
    else match s.cs.group with
      | none => s1.badCode
      | some g =>
        match (List.range g.n).find? fun r => (g.member r).modid == k.src with
        | none => s1.badCode
        | some r => if g.tag ≠ k.tag ∨ g.gen ≠ k.gen ∨ k.body.length < 16 ∨ r = g.self then s1.badCode else f s1 g r k

/-- Packets of epoch `ep` are for the building version. -/
def State.buildOk (s : State) (ep : W32) : Bool :=
  s.codingOn && (match s.cs.building, s.cs.epoch with
    | some b, _ => b == ep
    | none, some c => s.cs.firstEpoch || s.cs.reformLoaded || ep == c + 1
    | none, none => true)

/-- XOR with poison. -/
def pxor (a b : PVal Byte) : PVal Byte := match a, b with
  | some x, some y => some (x ^^^ y)
  | _, _ => none

/-- Apply delta bytes to a slot's building buffer, which starts as the committed value. -/
def State.applyDelta (s : State) (g : Group) (slot off : Nat) (data : List Byte) : State :=
  let c := mget false s.cs.sel slot
  let tgt := g.bufAt (!c) slot
  let s1 := if s.cs.built.contains slot then s
    else { s with mem := s.mem.copyRange (g.bufAt c slot) tgt 65536, cs := { s.cs with built := slot :: s.cs.built } }
  s1.poke (tgt + off) (List.zipWith pxor (s1.mem.rd (tgt + off) data.length) (data.map some))

/-- Acknowledge a segment, whole. -/
def State.codeAck (s : State) (g : Group) (r stripe pidx : Nat) : State :=
  let ep := (s.cs.building.getD 0).toNat
  s.codeSend g r 0x21 (toLE 4 ep ++ toLE 4 stripe ++ toLE 1 pidx) []

/-- Deltas that the CODE_ENDs received from member `r` count. -/
def Coded.ended (c : Coded) (r : Nat) : Nat :=
  (c.ends.filter fun (x : Nat × Nat) => x.1 == r).foldl (fun n (x : Nat × Nat) => n + x.2) 0

/-- Parity segment (`stripe`, `i`) of member `r` is whole: it counts and is acknowledged. -/
def State.closeSeg (s : State) (g : Group) (r stripe i : Nat) : State :=
  { s with cs := { s.cs with
      opened := s.cs.opened.filter (fun x => !(x.1 == r && x.2.1 == stripe && x.2.2 == i))
      deltas := bump s.cs.deltas r } }.codeAck g r stripe i

/-- Once the segments of member `r` that are whole or begun are as many as its CODE_ENDs count, those begun are whole: a CODE_END
follows the packets that it counts. -/
def State.closeAll (s : State) (g : Group) (r : Nat) : State :=
  let mine := s.cs.opened.filter fun x => x.1 == r
  if s.cs.ended r = countOf s.cs.deltas r + mine.length then mine.foldl (fun a x => a.closeSeg g r x.2.1 x.2.2) s else s

/-- The epoch commits: selectors flip, CS_EPOCH follows, holds are released (R371, R380); a write that meets one in this nanosecond is
held until the next (R386). -/
def State.codeCommit (s : State) : State :=
  let c := s.cs
  { s with cs := { c with
      sel := c.built.foldl (fun m b => mput false m b (!mget false m b)) c.sel
      epoch := c.building, building := none, built := [], deltas := [], opened := [], ends := [], readies := []
      sentReady := false, reformLoaded := false
      st := if c.st = .reform then .coding else c.st
      commitNs := if c.st = .coding then s.clk + 1 else c.commitNs
      held := if c.held = some 1 then none else c.held } }

/-- A member that holds CODE_READY from all commits. -/
def State.commitTry (s : State) (g : Group) : State :=
  if (List.range g.n).all s.cs.readies.contains then s.codeCommit else s

/-- A holder with CODE_END from every other member, the deltas they count, and all of its own CODEs posted, is complete and says
so (R371). DEDUCED: every partition's CODE sends its own CODE_END, and no member says how many it sends; that a member is ready only
when its own CODEs are posted keeps the epoch from committing before the last of them (log 84). -/
def State.holderTry (s : State) (g : Group) : State :=
  let all := g.others.all fun r =>
    (s.cs.ends.any fun (x : Nat × Nat) => x.1 == r) && s.cs.ended r == countOf s.cs.deltas r
  if all && s.cs.building.isSome && s.cs.lastCoded == s.cs.building && s.cs.codes.isEmpty && !s.cs.sentReady then
    let ep := s.cs.building
    let s1 := g.others.foldl (fun a r => a.codeSend g r 0x23 (toLE 4 (ep.getD 0).toNat) []) s
    ({ s1 with cs := { s1.cs with hcomplete := ep, sentReady := true, readies := g.self :: s1.cs.readies } }).commitTry g
  else s

/-- CODE_DELTA. -/
def execCodeDelta (s : State) : Out :=
  .next (s.codeTake 0x20 fun a g r k =>
    let st := kStripe k
    let i := kPidx k
    let off := field k.body 9 3
    let n := (kData k).length
    if a.buildOk (kEpoch k) = false ∨ g.stripes ≤ st ∨ g.m ≤ i ∨ (st + i) % g.n ≠ g.self ∨ (parityOf g.n g.m st r).isSome ∨
        off % 2048 ≠ 0 ∨ n = 0 ∨ 2048 < n ∨ 65536 < off + n ∨ field k.body 12 4 ≠ 0 then a.badCode
    else
      let b := { a with cs := a.cs.build (kEpoch k) }
      let d := b.applyDelta g (g.slot st i) off (kData k)
      let e := if d.cs.opened.contains (r, st, i) then d
        else { d with cs := { d.cs with opened := d.cs.opened ++ [(r, st, i)] } }
      (if n < 2048 ∨ off + n = 65536 then e.closeSeg g r st i else e).closeAll g r |>.holderTry g)

/-- CODE_ACK: the CODE whose last acknowledgement comes completes. -/
def execCodeAck (s : State) : Out :=
  .next (s.codeTake 0x21 fun a g r k =>
    let x : Nat × Nat := if kStripe k = endMark then (endMark, r) else (kStripe k, kPidx k)
    let right : Bool := kStripe k == endMark || (kStripe k + kPidx k) % g.n == r
    match a.cs.codes.find? fun c => c.owed.contains x with
    | none => a.badCode
    | some c =>
      if ¬ right ∨ a.epochOf g ≠ some (kEpoch k).toNat then a.badCode
      else
        let o := c.owed.erase x
        let rest := a.cs.codes.filter fun y => y.entry != c.entry || y.part != c.part
        if o.isEmpty then ({ a with cs := { a.cs with codes := rest } }.completeArc c.part c.entry false).holderTry g
        else { a with cs := { a.cs with codes := rest ++ [{ c with owed := o }] } })

/-- CODE_END; one with another descriptor's digest is discarded (R362). -/
def execCodeEnd (s : State) : Out :=
  .next (s.codeTake 0x22 fun a g r k =>
    if a.buildOk (kEpoch k) = false then a.badCode
    else if field k.body 8 8 ≠ g.digest.toNat then a.csErr 11 1
    else
      let b := { a with cs := a.cs.build (kEpoch k) }
      let c := { b with cs := { b.cs with ends := b.cs.ends ++ [(r, field k.body 4 4)] } }
      ((c.closeAll g r).codeAck g r endMark 0xFF).holderTry g)

/-- CODE_READY. -/
def execCodeReady (s : State) : Out :=
  .next (s.codeTake 0x23 fun a g r k =>
    if a.buildOk (kEpoch k) = false then a.badCode
    else
      let c := a.cs.build (kEpoch k)
      { a with cs := { c with readies := if c.readies.contains r then c.readies else r :: c.readies } }.commitTry g)

/-! ### Holds (R373) -/

/-- HOLD_LATE: 1 coding, 2 rebuild, 3 drain. -/
def execHoldLate (kind : Nat) (s : State) : Out :=
  let g := s.fld pgCs 0x100 15 0
  if s.cs.held ≠ some kind ∨ s.cs.holdSaid = true ∨ s.guardReached g = false then .next s
  else
    let s1 := { s with cs := { s.cs with holdSaid := true } }
    let s2 := ((s1.setFld pgCs 0x104 5 4 kind).orReg pgCs 0x104 0x200).count pgCs 0x12C
    .next (s2.raise (if kind = 3 then pgVault else pgCs) 0)

/-! ### Freeze and recovery (R375 to R378, R381) -/

/-- FREEZE of the group: HALTED, every building version discarded (R375, log 85); a loss while rebuilding or reforming loses the
group (R381). -/
def State.codeFreeze (s : State) : State :=
  if s.cs.group.isNone then s
  else
    let c := s.cs
    let s1 := { s with cs := { c with
      st := .halted, codes := [], sent := [], opened := [], readies := [], ends := [], deltas := [], held := none
      rebuild := [], reformLoaded := false
      building := none, built := [], sentReady := false, next := none } }
    if c.st = .rebuild ∨ c.st = .reform then s1.csErr 12 4 else s1

/-- Segments in ascending stripe order. -/
def insertSeg (x : RebSeg) : List RebSeg → List RebSeg
  | [] => [x]
  | y :: r => if x.stripe < y.stripe then x :: y :: r else y :: insertSeg x r

/-- The lost segments that an adoption rebuilds: at the adopter, with where their bytes go. -/
def State.adoptSegs (s : State) (g : Group) (ep : Nat) (lost : List Nat) (a : Adoption) : List RebSeg :=
  match (List.range g.n).find? fun r => (g.member r).modid == a.member with
  | none => []
  | some q =>
    let m : MapEnt := ⟨a.rank, a.part, a.fent, a.slf, a.sln, a.retoff⟩
    let mine : Bool := s.modId == some a.adopter
    (List.range a.nseg).map fun x =>
      let st := stripeOf g.n g.m q (a.seg0 + x)
      let base : RebSeg := ⟨st, dataPos g.n g.m st q, lost, a.adopter, 0, 0, [], 0, [], (parityOf g.n g.m st g.self).isSome⟩
      if ¬ mine then base
      else match s.mapField m with
        | none => { base with done := true }
        | some e =>
          let y : Seg := ⟨0, m, e, e.first + m.slf + x / segsOf e.len, x % segsOf e.len⟩
          let half := e.off + (if e.kind = 1 then (1 - g.stepOf ep % 2) * e.len else 0) + y.t * 65536
          { base with
            part := m.part, slice := y.l, len := y.len, done := false
            offs := half :: (if e.kind = 1 ∧ 2 ≤ g.k then [y.at_ g ep] else []) }

/-- The adopter has the space for what it receives (R382). -/
def State.adoptOk (s : State) (g : Group) (a : Adoption) : Bool :=
  let m : MapEnt := ⟨a.rank, a.part, a.fent, a.slf, a.sln, a.retoff⟩
  s.modId != some a.adopter || (s.mapEntOk g.k m && s.mapSegs m == a.nseg)

/-- Symbols that rebuild a segment: surviving data positions in order, then parities (R379). -/
def rebSymbols (g : Group) (stripe : Nat) (lost : List Nat) : List Nat :=
  let dm := dataMembers g.n g.m stripe
  let ds := (List.range dm.length).filter fun d => !lost.contains (dm.getD d 0)
  let ps := (List.range g.m).filter fun i => !lost.contains ((stripe + i) % g.n)
  (ds ++ ps.map fun i => 0x80 + i).take (g.n - g.m)

/-- The member that holds a symbol of a stripe. -/
def symbolOwner (g : Group) (stripe sym : Nat) : Nat :=
  if 0x80 ≤ sym then (stripe + (sym - 0x80)) % g.n else (dataMembers g.n g.m stripe).getD sym 0

/-- This member's own symbol of a stripe: the bytes it has, none when they are poison or it has no such symbol. -/
def State.symbolBytes (s : State) (g : Group) (stripe sym : Nat) : Option (List Byte) :=
  if symbolOwner g stripe sym ≠ g.self then none
  else if 0x80 ≤ sym then
    let slot := g.slot stripe (sym - 0x80)
    allSome (s.mem.rd (g.bufAt (mget false s.cs.sel slot) slot) 65536)
  else match s.segList.find? fun x => x.j == segOfStripe g.n g.m g.self stripe with
    | none => some []
    | some x => (s.segLoad x (x.at_ g s.cs.recovered)).bind allSome

/-- What reading it does beside (R269, R273). -/
def State.symbolNote (s : State) (g : Group) (stripe sym : Nat) : State :=
  if 0x80 ≤ sym then
    let slot := g.slot stripe (sym - 0x80)
    s.readNote (g.bufAt (mget false s.cs.sel slot) slot) 65536
  else match s.segList.find? fun x => x.j == segOfStripe g.n g.m g.self stripe with
    | none => s
    | some x => s.segNote x (x.at_ g s.cs.recovered)

def symByte (bs : List Byte) (i : Nat) : Nat := (bs.getD i 0).toNat

/-- The lost bytes from the symbols (R363, R379). -/
def rebBytes (g : Group) (x : RebSeg) : List Byte :=
  let dm := dataMembers g.n g.m x.stripe
  let known := x.got.filter fun y => decide (y.1 < 0x80)
  let pars := x.got.filter fun y => decide (0x80 ≤ y.1)
  let other := ((List.range dm.length).filter fun d => x.lost.contains (dm.getD d 0) && d != x.pos).headD 0
  let syn := fun (i b : Nat) =>
    known.foldl (fun v y => v ^^^ gfMul (codeCoef g.m i y.1) (symByte y.2.1 b))
      (match pars.find? fun y => y.1 == 0x80 + i with
        | some y => symByte y.2.1 b
        | none => 0)
  (List.range x.len).map fun b =>
    BitVec.ofNat 8 (match pars with
      | [p] => gfMul (gfInv (codeCoef g.m (p.1 - 0x80) x.pos)) (syn (p.1 - 0x80) b)
      | _ =>
        let c := fun i d => codeCoef g.m i d
        let det := gfMul (c 0 x.pos) (c 1 other) ^^^ gfMul (c 0 other) (c 1 x.pos)
        gfMul (gfInv det) (gfMul (c 1 other) (syn 0 b) ^^^ gfMul (c 0 other) (syn 1 b)))

/-- CS_REBUILT and CS_REBTOTAL count this module's stripes. -/
def State.rebCount (s : State) : State :=
  let mine := s.cs.rebuild.filter fun r => some r.adopter == s.modId
  let all := (mine.map (·.stripe)).eraseDups
  let done := all.filter fun st => mine.all fun r => r.stripe != st || r.done
  (s.setReg pgCs 0x130 (BitVec.ofNat 32 done.length)).setReg pgCs 0x134 (BitVec.ofNat 32 all.length)

def State.setReb (s : State) (i : Nat) (x : RebSeg) : State :=
  { s with cs := { s.cs with rebuild := s.cs.rebuild.set i x } }

/-- Place of the segment being rebuilt here, of ours that are not done: the one whose symbols are being fetched, else one of the stripe
that an access makes the next, else the first (R379). -/
def State.rebHead (s : State) : Option (Nat × RebSeg) :=
  let l := ((List.range s.cs.rebuild.length).zip s.cs.rebuild).filter fun x => !x.2.done && some x.2.adopter == s.modId
  (l.find? fun x => !x.2.got.isEmpty) <|> (l.find? fun x => s.cs.next == some x.2.stripe) <|> l.head?

/-- Ask for the symbols of the next segment; our own are read here. -/
def State.rebAsk (s : State) (g : Group) : State :=
  match s.rebHead with
  | none => s
  | some (i, x) =>
    if ¬ x.got.isEmpty then s
    else (rebSymbols g x.stripe x.lost).foldl (fun (a : State) sym =>
      let y := (a.cs.rebuild[i]?).getD x
      if symbolOwner g x.stripe sym = g.self then
        (a.symbolNote g x.stripe sym).setReb i { y with got := y.got ++ [match s.symbolBytes g x.stripe sym with
          | some bs => (sym, bs, true)
          | none => (sym, [], false)] }
      else
        (a.setReb i { y with got := y.got ++ [(sym, [], false)] }).codeSend g (symbolOwner g x.stripe sym) 0x24
          (toLE 4 x.stripe ++ toLE 4 sym) []) s

/-- A segment with all its symbols is computed and written, and the next is asked for. -/
def State.rebFinish (s : State) (g : Group) (i : Nat) (x : RebSeg) : State :=
  if x.got.all fun y => y.2.2 then
    let bs := (rebBytes g x).map some
    let s1 := x.offs.foldl (fun a o => a.segStore x.part x.slice o bs) (s.setReb i { x with done := true, got := [] })
    s1.rebCount.rebAsk g
  else s

/-- RECOVER's effect on the group of its job (R378, R379). -/
def State.codeRecover (s : State) (r : RecoverArgs) : State :=
  match s.cs.group with
  | none => s
  | some g =>
    let ep := r.epoch.toNat
    let lost := (List.range g.n).filter fun q => r.lost.contains (g.member q).modid
    if s.cs.st ≠ .halted ∨ r.adopt.any (fun a => !s.adoptOk g a) = true then s.csErr 14 5
    else
      let far : Bool := match s.cs.hcomplete with
        | some h => decide (1 < (h - r.epoch).toNat) && decide ((h - r.epoch).toNat < 2 ^ 31)
        | none => false
      let s1 := if far ∨ g.m < lost.length then s.csErr 12 4 else s
      let segs := s1.segList
      let s3 := if g.k < 2 then s1 else segs.foldl (fun (a : State) x =>
        if x.e.kind ≠ 1 then a
        else match a.segLoad x (x.at_ g ep) with
          | some bs => (a.segNote x (x.at_ g ep)).segStore x.m.part x.l
              (x.t * 65536 + x.e.off + (1 - g.stepOf ep % 2) * x.e.len) bs
          | none => a) s1
      let reb := (r.adopt.flatMap (s.adoptSegs g ep lost)).foldl (fun l x => insertSeg x l) []
      let s4 := { s3 with cs := { s3.cs with
        st := if lost.isEmpty then .coding else .rebuild
        epoch := some r.epoch, hcomplete := some r.epoch, building := none, built := [], lastCoded := some r.epoch
        recovered := ep, nz := [], written := segs.foldl (fun m x => mput false m x.j true) []
        rebuild := if lost.isEmpty then [] else reb } }
      if lost.isEmpty then s4 else s4.rebCount.rebAsk g

/-! ### Rebuild (R379, R380) -/

/-- The first segment not yet rebuilt of stripe `st` at adopter `ad` is served: its hold here ends (R379). -/
def servedSeg (st : Nat) (ad : BitVec 14) : List RebSeg → List RebSeg
  | [] => []
  | x :: r => if x.stripe = st ∧ x.adopter = ad ∧ x.done = false then { x with done := true } :: r else x :: servedSeg st ad r

/-- REB_REQ: this member's symbol goes back, whole; the segment it has served holds no more. -/
def execRebReq (s : State) : Out :=
  .next (s.codeTake 0x24 fun a g r k =>
    let st := field k.body 0 4
    let sym := field k.body 4 4
    if g.stripes ≤ st ∨ symbolOwner g st sym ≠ g.self ∨ (g.m ≤ sym - 0x80 ∧ 0x80 ≤ sym) then a.badCode
    else match a.symbolBytes g st sym with
      | none => a
      | some bs =>
        let parts := if bs.length % 2048 = 0 ∧ bs.length < 65536 then cuts 2048 0 bs.length ++ [(bs.length, 0)]
          else cuts 2048 0 bs.length
        let b := parts.foldl (fun u p =>
          u.codeSend g r 0x25 (toLE 4 st ++ toLE 4 sym ++ toLE 4 p.1) (slice_ bs p.1 p.2)) (a.symbolNote g st sym)
        if some k.src = a.modId then b else { b with cs := { b.cs with rebuild := servedSeg st k.src b.cs.rebuild } })

/-- REB_RSP: bytes of a symbol; a packet shorter than 2 KiB, or the one that reaches 64 KiB, ends it. -/
def execRebRsp (s : State) : Out :=
  .next (s.codeTake 0x25 fun a g r k =>
    let st := field k.body 0 4
    let sym := field k.body 4 4
    let off := field k.body 8 4
    match a.rebHead with
    | none => a.badCode
    | some (i, x) =>
      match x.got.find? fun y => y.1 == sym && !y.2.2 with
      | none => a.badCode
      | some y =>
        if x.stripe ≠ st ∨ symbolOwner g st sym ≠ r ∨ off ≠ y.2.1.length ∨ 65536 < off + (kData k).length ∨ 2048 < (kData k).length then a.badCode
        else
          let n := (kData k).length
          let whole : Bool := decide (n < 2048) || off + n == 65536
          let x1 := { x with got := x.got.map fun z => if z.1 = sym then (sym, y.2.1 ++ kData k, whole) else z }
          (a.setReb i x1).rebFinish g i x1)

/-- REBUILD_DONE: every segment is rebuilt, here and, as far as this member serves them, elsewhere. -/
def execRebuildDone (s : State) : Out :=
  if s.cs.st = .rebuild ∧ s.cs.rebuild.all (·.done) = true then
    .next ({ s with cs := { s.cs with
      st := .reform, reformLoaded := false, held := if s.cs.held = some 2 then none else s.cs.held } }.raise pgCs 3)
  else .next s

/-! ### What others do to coded state -/

/-- Teardown of the group's job: OFF (Table 16.5). -/
def State.codeTeardown (s : State) (tag : BitVec 16) (gen : BitVec 8) : State :=
  match s.cs.group with
  | some g => if g.tag = tag ∧ g.gen = gen then { s with cs := { Coded.reset with epoch := s.cs.epoch, hcomplete := s.cs.hcomplete } }
    else s
  | none => s

/-- A partition reset abandons the partition's Chord Coder work (R389): the wrapper completes its arcs (R28), and nothing of it is
posted. -/
def State.codePartReset (s : State) (p : Nat) : State :=
  (s.cs.codes.filter fun c => c.part == p).foldl (fun a c => a.failArc p c.entry 1 true)
    { s with cs := { s.cs with codes := s.cs.codes.map fun c => if c.part = p then CodeRun.gone p c.entry else c } }

end Sys2Proof.Machine
end

