-- ==== Sys2Proof/Machine/Sequencer.lean ====
section
/-! DEFINITION. Sequencer instructions (R175 to R177). -/
namespace Sys2Proof.Machine

def isMajor (m : Nat) (w : Nat) : Bool := wMajor w == m

/-- A sequencer instruction issues, changes the tile by `f`, and applies its signal (R170). -/
def State.seqStep (s : State) (t w n : Nat) (f : Tile → Tile) : State :=
  let a := s.advance t n
  (a.setTile t (f (a.tile t))).signal t w

/-- A sequencer instruction completes with an error response: record, ERR, signal (R77, R172). -/
def State.seqErr (s : State) (t w n addr : Nat) (f : Tile → Tile) : State :=
  let x := s.tile t
  let a := s.advance t n
  ((a.setTile t (f (a.tile t))).instrErr t (wMajor w) x.pc false x.item.isSome ⟨3, addr, 0, false⟩).signal t w

def fR (w : Nat) : Nat := bits w 37 34
def fS (w : Nat) : Nat := bits w 33 30
def fTarget (w : Nat) : Nat := bits w 12 0

/-- Signed 30-bit immediate. -/
def fImm (w : Nat) : W64 := (BitVec.ofNat 30 w).signExtend 64

/-- NOP: its signal alone. Words of reserved majors complete here as rejected (R171). -/
def execNop (t : Nat) (s : State) : Out := .next (s.issue t (isMajor 0) true fun w _ _ n a => a.seqStep t w n id)

/-- END: issue stops; the end comes when every program-issued instruction has retired (R72). -/
def execEndI (t : Nat) (s : State) : Out :=
  .next (s.issue t (isMajor 1) false fun w _ _ n a =>
    let b := a.advance t n
    (b.setTile t { b.tile t with ended := some (BitVec.ofNat 64 w) }).tryEnd t)

def execWaittok (t : Nat) (s : State) : Out :=
  .next (s.issue t (isMajor 2) false fun w _ _ n a =>
    if bits w 31 0 ≤ a.tokSeen t (bits w 37 32) then a.seqStep t w n id else a.waits t)

/-- R175. DESIGN CHOICE: while QWAIT, and in the same way BLD, BST or BGETC, holds for a queue, TILE_STAT.SEQ shows WAIT; Table 3.1
names only a token or a queue credit as what WAIT waits on (log 96). -/
def execQwait (t : Nat) (s : State) : Out :=
  .next (s.issue t (isMajor 3) false fun w _ _ n a =>
    if (a.tile t).busy (bits w 3 0) then a.waits t else a.seqStep t w n id)

def execJmp (t : Nat) (s : State) : Out :=
  .next (s.issue t (isMajor 4) false fun w _ _ n a => a.seqStep t w n fun x => { x with pc := fTarget w })

/-- R176. -/
def execLoop (t : Nat) (s : State) : Out :=
  .next (s.issue t (isMajor 5) false fun w _ _ n a =>
    match (a.tile t).ar (fR w) with
    | none => a.seqErr t w n 0 id
    | some v =>
      if v.toNat ≤ 1 then a.seqStep t w n fun x => x.setAr (fR w) (some 0)
      else a.seqStep t w n fun x => { x.setAr (fR w) (some (v - 1)) with pc := fTarget w })

/-- Branch on an address register (R175); a poisoned one is an error and is not taken (R172). -/
def State.branch (s : State) (t m : Nat) (onZero : Bool) : State :=
  s.issue t (isMajor m) false fun w _ _ n a =>
    match (a.tile t).ar (fR w) with
    | none => a.seqErr t w n 0 id
    | some v => if (v == 0) = onZero then a.seqStep t w n fun x => { x with pc := fTarget w } else a.seqStep t w n id

def execBrz (t : Nat) (s : State) : Out := .next (s.branch t 6 true)
def execBrnz (t : Nat) (s : State) : Out := .next (s.branch t 7 false)

def execBset (t : Nat) (s : State) : Out :=
  .next (s.issue t (isMajor 8) false fun w e1 _ n a =>
    a.seqStep t w n fun x => x.setAr (fR w) (some (BitVec.ofNat 64 e1)))

def execBaddi (t : Nat) (s : State) : Out :=
  .next (s.issue t (isMajor 9) false fun w _ _ n a =>
    a.seqStep t w n fun x => x.setAr (fR w) ((x.ar (fS w)).map (· + fImm w)))

def execBmuli (t : Nat) (s : State) : Out :=
  .next (s.issue t (isMajor 10) false fun w _ _ n a =>
    a.seqStep t w n fun x => x.setAr (fR w) ((x.ar (fS w)).map (· * fImm w)))

/-- FN of BALU (Table 7.4). -/
def balu (fn : Nat) (a b : W64) : W64 :=
  if fn = 0 then a + b
  else if fn = 1 then a - b
  else if fn = 2 then a * b
  else if fn = 3 then a <<< (b.toNat % 64)
  else if fn = 4 then a >>> (b.toNat % 64)
  else if fn = 5 then a &&& b
  else if a.toNat ≤ b.toNat then a else b

def execBalu (t : Nat) (s : State) : Out :=
  .next (s.issue t (isMajor 11) false fun w _ _ n a =>
    a.seqStep t w n fun x =>
      x.setAr (fR w) (match x.ar (fS w), x.ar (bits w 29 26) with
        | some u, some v => some (balu (bits w 25 23) u v)
        | _, _ => none))

/-- R177: a usable 8-byte tile-store offset. -/
def bldOffset (v : PVal W64) : Option Nat :=
  match v with
  | some o => if o.toNat % 8 = 0 ∧ o.toNat < 0x180000 then some o.toNat else none
  | none => none

/-- R177; an error leaves AR[D] poisoned. -/
def execBld (t : Nat) (s : State) : Out :=
  .next (s.issue t (isMajor 12) false fun w _ _ n a =>
    if (a.tile t).busy 15 then a.waits t
    else match bldOffset ((a.tile t).ar (fS w)) with
      | none => a.seqErr t w n (((a.tile t).ar (fS w)).getD 0).toNat fun x => x.setAr (fR w) none
      | some o => a.seqStep t w n fun x => x.setAr (fR w) ((a.mem.num (tst t o) 8).map (BitVec.ofNat 64)))

/-- R177; a poisoned source is written as poison. -/
def execBst (t : Nat) (s : State) : Out :=
  .next (s.issue t (isMajor 13) false fun w _ _ n a =>
    if (a.tile t).busy 15 then a.waits t
    else match bldOffset ((a.tile t).ar (fS w)) with
      | none => a.seqErr t w n (((a.tile t).ar (fS w)).getD 0).toNat id
      | some o =>
        ({ a with mem := a.mem.wr (tst t o) (pBytes 8 (((a.tile t).ar (fR w)).map BitVec.toNat)) }).seqStep t w n id)

/-- R177. -/
def execBgetc (t : Nat) (s : State) : Out :=
  .next (s.issue t (isMajor 14) false fun w _ _ n a =>
    if (a.tile t).busy 2 then a.waits t
    else a.seqStep t w n fun x => x.setAr (fR w) ((x.cnt (bits w 2 0)).map (BitVec.ofNat 64)))

end Sys2Proof.Machine
end

