-- ==== Sys2Proof/Machine/Matrix.lean ====
section
/-! DEFINITION. The matrix queue: array products (R119 to R136), digests and their marks (R138 to R141, R180), and casts
(R114 to R116, R130). -/
namespace Sys2Proof.Machine

/-! ### Accumulator sets (R128) -/

/-- Initial values: +0, loaded or resident (R128). -/
def State.accInit (s : State) (t mode sel accin base : Nat) (i j : Nat) : PVal Nat :=
  if accin = 0 then some 0
  else if accin = 1 then s.mem.num (tst t (base + elemOff mode i j)) (elemSize mode)
  else (s.tile t).acc.num (0x4000 * sel + elemOff mode i j) (elemSize mode)

/-- The record of a special value (R136). -/
def State.specScan (s : State) (t mode : Nat) (e : QEntry) (els : List ((Nat × Nat) × PVal Nat)) : State :=
  let f := modeFmt mode
  match els.find? fun x => match x.2 with
      | some v => f.isNan v || f.isInf v
      | none => false with
  | none => s
  | some ((i, j), v) =>
    let b := v.getD 0
    let kind := if f.isNan b then 1 else if f.neg b then 3 else 2
    let s1 := s.count (pgTile t) 0x1AC
    if s1.bit (pgTile t) 0x1A8 0 then s1
    else s1.setReg (pgTile t) 0x1A8 (BitVec.ofNat 32
      (1 + 2 * kind + (if e.posted then 8 else 0) + 16 * (i * outPitch mode + j) + 0x10000 * (if e.posted then 0 else e.pc)))

/-- What an output feeds to the running digest (R139): its elements' bytes in row-major order, zeros for one that is poison. -/
def digBytes (mode : Nat) (els : List ((Nat × Nat) × PVal Nat)) : List Byte × Bool :=
  (els.flatMap fun x => toLE (elemSize mode) (x.2.getD 0), els.any fun x => x.2.isNone)

/-- Write the results `els` of an array instruction: drained to `base`, or left resident (R128, R136, R139). -/
def State.accOut (s : State) (t mode sel base m n : Nat) (keep dig : Bool) (e : QEntry) (els : List ((Nat × Nat) × PVal Nat)) :
    State :=
  if keep then
    let x := s.tile t
    let acc := els.foldl (fun a z => a.wr (0x4000 * sel + elemOff mode z.1.1 z.1.2) (pBytes (elemSize mode) z.2)) x.acc
    s.setTile t ({ x with acc := acc }.setAccRes sel (some ⟨mode, m, n⟩))
  else
    let mem := els.foldl (fun (a : Store) z =>
      a.wr (tst t (base + elemOff mode z.1.1 z.1.2)) (pBytes (elemSize mode) z.2)) s.mem
    let s1 := { s with mem := mem }
    let x := s1.tile t
    let s2 := s1.setTile t ({ x with acc := x.acc.clear (0x4000 * sel) 0x4000 }.setAccRes sel none)
    let s3 := s2.specScan t mode e els
    if dig && !e.posted && s3.bit (pgTile t) 0x1A0 1 then
      s3.setEntry t 0 e.id fun y => { y with feed := some (digBytes mode els) }
    else s3

/-- An array instruction ends with an error response: its outputs hold poison (R77, R126, R128). DESIGN CHOICE: with ACCOUT = WRITE
the named set is no longer resident, with KEEP it is resident with poison; and whatever its DIG bit says, it feeds nothing to
ARR_DIG, counts nothing in ARR_DIGCNT and leaves DIGPOIS alone (log 100). -/
def State.accFail (s : State) (t sel : Nat) (keep : Bool) (e : QEntry) (addr code : Nat) : State :=
  (if keep then s else s.setTile t ((s.tile t).setAccRes sel none)).failOut t 0 e addr code

/-- KEEP finds what it needs (R128). -/
def Tile.keepOk (x : Tile) (sel mode m n : Nat) : Bool := x.accRes sel == some ⟨mode, m, n⟩

/-! ### FP products (R120 to R123, R131, R134) -/

/-- Element of an FP operand unit: row `r`, column `c`, `w` elements wide, FP32 elements widened in FP64 mode. -/
def State.fpElem (s : State) (t base w : Nat) (single trans : Bool) (mode r c : Nat) : PVal Nat × Nat :=
  let (r, c) := if trans then (c, r) else (r, c)
  let sz := if single then 4 else 8
  match s.mem.num (tst t (base + sz * (w * r + c))) sz with
  | none => (none, 0)
  | some v => if mode = 0 ∧ single = true then let (x, f) := f32.conv f64 0 v; (some x, f) else (some v, 0)

/-- One step of K: c ← fma(±a, b, c) (R131); a step whose accumulator is already poison raises no flag (log 100). -/
def fmaStep (f : FFmt) (rm : Nat) (neg : Bool) (acc : PVal Nat × Nat) (a b : PVal Nat × Nat) : PVal Nat × Nat :=
  match acc, a, b with
  | (some c, fl), (some x, fx), (some y, fy) => let (v, g) := f.fma rm neg x y c; (some v, fl ||| fx ||| fy ||| g)
  | (_, fl), _, _ => (none, fl)

/-- MMAD (mode 0) and MMAS (mode 1). -/
def State.mmaFp (s : State) (t mode : Nat) (e : QEntry) : State :=
  let w := e.word.toNat
  let dim := if mode = 0 then 8 else 16
  let sel := if bitAt w 23 then 1 else 0
  let accin := bits w 22 21
  let keep := bitAt w 20
  let k := bits w 11 0
  let singleA : Bool := mode == 1 || bitAt w 15
  let singleB : Bool := mode == 1 || bitAt w 14
  let uA := dim * dim * (if singleA then 4 else 8)
  let uB := dim * dim * (if singleB then 4 else 8)
  let xs := bitAt w 13
  let sA := if xs then 64 * bits e.ext1.toNat 63 32 else uA
  let sB := if xs then 64 * bits e.ext1.toNat 31 0 else uB
  let usesC : Bool := accin == 1 || !keep
  let a := if k = 0 then some 0 else e.opn (bits w 37 34)
  let b := if k = 0 then some 0 else e.opn (bits w 33 30)
  let c := if usesC then e.opn (bits w 29 26) else some 0
  match a, b, c with
  | some a, some b, some c =>
    let okA := (List.range k).all fun i => arrRange (a + sA * i) uA
    let okB := (List.range k).all fun i => arrRange (b + sB * i) uB
    let okC : Bool := !usesC || arrRange c (outBytes mode dim dim)
    if ¬ (okA && okB && okC) then s.accFail t sel keep e (if okA then (if okB then c else b) else a) 1
    else if accin = 2 ∧ ¬ (s.tile t).keepOk sel mode dim dim then s.accFail t sel keep e 0 2
    else
      let f := modeFmt mode
      let els := (positions dim dim).map fun (i, j) =>
        ((i, j), (List.range (k * dim)).foldl (fun acc kk =>
          fmaStep f (bits w 25 24) (bitAt w 17) acc
            (s.fpElem t (a + sA * (kk / dim)) dim singleA (bitAt w 19) mode i (kk % dim))
            (s.fpElem t (b + sB * (kk / dim)) dim singleB (bitAt w 18) mode (kk % dim) j))
          (s.accInit t mode sel accin c i j, 0))
      let fl := els.foldl (fun g z => g ||| z.2.2) 0
      (s.accOut t mode sel c dim dim keep (bitAt w 16) e (els.map fun z => (z.1, z.2.1))).finish t 0 e.id fl none
  | _, _, _ => s.accFail t sel keep e 0 3

def execMmad (t : Nat) (ph : Phase) (s : State) : Out := .next (s.engine t 0 ph (isMajor 0x10) fun e a => a.mmaFp t 0 e)
def execMmas (t : Nat) (ph : Phase) (s : State) : Out := .next (s.engine t 0 ph (isMajor 0x11) fun e a => a.mmaFp t 1 e)

/-! ### MX products (R124, R125, R133, R134) -/

/-- One block pair added to an accumulator, with the flags and the truncations so far. DESIGN CHOICE: once the accumulator is poison,
later blocks raise no flag and count no truncation (R106, R111; log 100). -/
def mxPair (ta tb : Nat) (acc : PVal Nat × Nat × Nat) (a b xa xb : PVal Nat) : PVal Nat × Nat × Nat :=
  match acc, a, b, xa, xb with
  | (some c, fl, n), some a, some b, some x, some y =>
    let (v, g) := mxStep ta tb a b x y c
    (some v, fl ||| g, n + (if g &&& fMxTrunc = 0 then 0 else 1))
  | (_, fl, n), _, _, _, _ => (none, fl, n)

def State.mmax (s : State) (t : Nat) (e : QEntry) : State :=
  let w := e.word.toNat
  let x1 := e.ext1.toNat
  let ta := bits w 21 19
  let tb := bits w 18 16
  let mode := if ta = 4 ∧ tb = 4 then 3 else 2
  let sel := if bitAt w 15 then 1 else 0
  let accin := bits w 14 13
  let keep := bitAt w 12
  let k := bits w 11 0
  let m := bits x1 6 0
  let n := bits x1 14 8
  if m = 0 ∨ n = 0 then s.finish t 0 e.id 0 none
  else
    let usesC : Bool := accin == 1 || !keep
    let a := if k = 0 then some 0 else e.opn (bits w 37 34)
    let b := if k = 0 then some 0 else e.opn (bits w 33 30)
    let z := if k = 0 then some 0 else e.opn (bits w 25 22)
    let c := if usesC then e.opn (bits w 29 26) else some 0
    let ba := mxBlock ta
    let bb := mxBlock tb
    match a, b, z, c with
    | some a, some b, some z, some c =>
      let okA := (List.range k).all fun i => arrRange (a + 64 * ba * i) (ba * m)
      let okB := (List.range k).all fun i => arrRange (b + 64 * bb * i) (bb * n)
      let okZ := (List.range k).all fun i => arrRange (z + 128 * i) m && arrRange (z + 128 * i + 64) n
      let okC : Bool := !usesC || arrRange c (outBytes mode m n)
      if ¬ (okA && okB && okZ && okC) then
        s.accFail t sel keep e (if okA then (if okB then (if okZ then c else z) else b) else a) 1
      else if accin = 2 ∧ ¬ (s.tile t).keepOk sel mode m n then s.accFail t sel keep e 0 2
      else
        let els := (positions m n).map fun (i, j) =>
          ((i, j), (List.range k).foldl (fun acc kk =>
            mxPair ta tb acc (s.mem.num (tst t (a + 64 * ba * kk + ba * i)) ba) (s.mem.num (tst t (b + 64 * bb * kk + bb * j)) bb)
              (s.mem.num (tst t (z + 128 * kk + i)) 1) (s.mem.num (tst t (z + 128 * kk + 64 + j)) 1))
            (s.accInit t mode sel accin c i j, 0, 0))
        let fl := els.foldl (fun g y => g ||| y.2.2.1) 0
        let cut := els.foldl (fun g y => g + y.2.2.2) 0
        let s1 := s.accOut t mode sel c m n keep (bitAt x1 16) e (els.map fun y => (y.1, y.2.1))
        (if cut = 0 then s1 else s1.count (pgTile t) 0x188 cut).finish t 0 e.id fl none
    | _, _, _, _ => s.accFail t sel keep e 0 3

def execMmax (t : Nat) (ph : Phase) (s : State) : Out := .next (s.engine t 0 ph (isMajor 0x12) fun e a => a.mmax t e)

/-! ### Casts (R114 to R116, R130, R180) -/

/-- Pack element codes of `w` bits, element 0 lowest (R109). -/
def packCodes (w : Nat) (cs : List Nat) : Nat := cs.foldr (fun c r => c + 2 ^ w * r) 0

def State.castm (s : State) (t : Nat) (e : QEntry) : State :=
  let w := e.word.toNat
  let ty := bits w 25 23
  let src := if bitAt w 22 then f32 else f64
  let nb := bits w 11 0
  let bb := mxBlock ty
  if nb = 0 then s.finish t 0 e.id 0 none
  else match e.opn (bits w 37 34), e.opn (bits w 33 30), e.opn (bits w 29 26) with
    | some a, some d, some x =>
      if arrRange a (32 * src.bytes * nb) && arrRange d (bb * nb) && arrRange x nb then
        let step := fun (acc : State × Nat × Nat) (j : Nat) =>
          let (u, fl, sat) := acc
          let xs := (List.range 32).map fun i => s.mem.num (tst t (a + (32 * j + i) * src.bytes)) src.bytes
          match allSome xs with
          | some vs =>
            let (sc, cs, g, n) := castTo src ty vs
            let m1 := u.mem.wr (tst t (d + bb * j)) ((toLE bb (packCodes (mxWidth ty) cs)).map some)
            ({ u with mem := m1.wr (tst t (x + j)) [some (BitVec.ofNat 8 sc)] }, fl ||| g, sat + n)
          | none =>
            let m1 := u.mem.wr (tst t (d + bb * j)) (List.replicate bb none)
            ({ u with mem := m1.wr (tst t (x + j)) [none] }, fl, sat)
        let (u, fl, sat) := (List.range nb).foldl step (s, 0, 0)
        (if sat = 0 then u else u.count (pgTile t) 0x184 sat).finish t 0 e.id fl none
      else s.failOut t 0 e a 1
    | _, _, _ => s.failOut t 0 e 0 3

def execCastm (t : Nat) (ph : Phase) (s : State) : Out := .next (s.engine t 0 ph (isMajor 0x13) fun e a => a.castm t e)

def State.castf (s : State) (t : Nat) (e : QEntry) : State :=
  let w := e.word.toNat
  let ty := bits w 25 23
  let dst := if bitAt w 22 then f32 else f64
  let rm := if bitAt w 22 then bits w 21 20 else 0
  let nb := bits w 11 0
  let bb := mxBlock ty
  if nb = 0 then s.finish t 0 e.id 0 none
  else match e.opn (bits w 37 34), e.opn (bits w 33 30), e.opn (bits w 29 26) with
    | some a, some x, some d =>
      if arrRange a (bb * nb) && arrRange x nb && arrRange d (32 * dst.bytes * nb) then
        let step := fun (acc : State × Nat) (j : Nat) =>
          let (u, fl) := acc
          let blk := s.mem.rd (tst t (a + bb * j)) bb
          let sc := s.mem.num (tst t (x + j)) 1
          (List.range 32).foldl (fun (acc : State × Nat) i =>
            let (u, fl) := acc
            let bi := i * mxWidth ty
            let part := pNat ((blk.drop (bi / 8)).take ((bi % 8 + mxWidth ty + 7) / 8))
            match part, sc with
            | some v, some sx =>
              let (r, g) := castFrom dst rm ty sx (v / 2 ^ (bi % 8) % 2 ^ mxWidth ty)
              ({ u with mem := u.mem.wr (tst t (d + (32 * j + i) * dst.bytes)) ((toLE dst.bytes r).map some) }, fl ||| g)
            | _, _ => ({ u with mem := u.mem.wr (tst t (d + (32 * j + i) * dst.bytes)) (List.replicate dst.bytes none) }, fl))
            (u, fl)
        let (u, fl) := (List.range nb).foldl step (s, 0)
        u.finish t 0 e.id fl none
      else s.failOut t 0 e a 1
    | _, _, _ => s.failOut t 0 e 0 3

def execCastf (t : Nat) (ph : Phase) (s : State) : Out := .next (s.engine t 0 ph (isMajor 0x14) fun e a => a.castf t e)

/-! ### Digest marks (R141, R180) -/

/-- Logical tile ID on physical tile `t` (R5); 0 when it carries none. -/
def State.ltileId (s : State) (t : Nat) : Nat :=
  match (s.unit t).lt with
  | some j => t / 72 * 64 + j
  | none => 0

/-- Digest record (Table 5.4). -/
def State.digRecord (s : State) (t ring : Nat) (partial_ item : Bool) : List Byte :=
  let fl := (if partial_ then 1 else 0) + (if s.bit (pgTile t) 0x1A8 0 then 2 else 0) + (if item then 4 else 0) +
    (if (s.tile t).digPois then 8 else 0)
  toLE 8 (s.reg64 (pgTile t) 0x1B0) ++ toLE 4 s.tb.stepIdx.toNat ++ toLE 4 (s.reg (pgTile t) 0x1B8).toNat ++
    toLE 2 (s.ltileId t) ++ toLE 1 ring ++ toLE 1 fl ++
    toLE 4 (if item then (s.reg (pgTile t) 0x138).toNat else 0) ++ toLE 8 0

def execDmark (t : Nat) (ph : Phase) (s : State) : Out :=
  .next (s.engine t 0 ph (isMajor 0x15) fun e u =>
    match e.opn (bits e.word.toNat 37 34) with
    | none => u.failOut t 0 e 0 3
    | some a =>
      if a % 32 = 0 ∧ inTier a 32 = true then
        match u.store .unit a ((u.digRecord t 0 e.posted (e.inItem && !e.posted)).map some) with
        | .ok u1 => (u1.digClear t).finish t 0 e.id 0 none
        | .err u1 => u1.failOut t 0 e a 4
        | .hold k => u.held_ k
      else u.failOut t 0 e a 1)

/-- A DIG instruction of the program that has not retired. -/
def Tile.digPending (x : Tile) : Bool :=
  x.q0.any fun e => !e.posted &&
    (if wMajor e.word.toNat = 0x12 then bitAt e.ext1.toNat 16
     else (wMajor e.word.toNat == 0x10 || wMajor e.word.toNat == 0x11) && bitAt e.word.toNat 16)

/-- Arc-form mark of the tile that carries logical tile `j` of partition `p` (R141, R259). Of a dispatch in the same nanosecond the
mark is recorded first, with PARTIAL = 1 (R145). -/
def State.arcMark (s : State) (p j ring : Nat) : State :=
  match s.ptile p j with
  | none => s
  | some t =>
    let x := s.tile t
    let part : Bool := x.digPending || x.item.isSome
    let was : State :=
      if x.dispAt = s.clk + 1 then
        ((s.setTile t { x with digPois := x.digWas.2.2 }).setReg64 (pgTile t) 0x1B0 x.digWas.1).setReg (pgTile t) 0x1B8 x.digWas.2.1
      else s
    let a := metaOf p + 0x2000000 + j * 0x2000 + ring * 0x20
    let s1 := (s.put .unit a ((was.digRecord t ring part false).map some)).1
    (if part then s1.count pgRep 0x12C else s1).digClear t

/-- DIGEST_MARK arc (R141). -/
def execArcDigestMark (u e : Nat) (s : State) : Out :=
  .next (s.fire u e 5 fun x a =>
    (((List.range (a.part u).n).filter fun j => x.target.testBit j).foldl (fun b j => b.arcMark u j (bits x.arg 7 0))
      a).completeArc u e false)

end Sys2Proof.Machine
end

