-- ==== Sys2Proof/Machine/LinAlg.lean ====
section
/-! DEFINITION. Factors and their pivots (R203, R204, R208 to R210), and the arithmetic kernels of the solver sequencer
(R226). Numbers are FP64 patterns that may be poison; flags go along where an instruction records them. -/
namespace Sys2Proof.Machine

/-! ### FP64 on values that may be poison -/

def one64 : Nat := 0x3FF0000000000000

def pop1 (f : Nat → Nat × Nat) (a : PVal Nat) : PVal Nat × Nat :=
  match a with
  | some x => let (v, g) := f x; (some v, g)
  | none => (none, 0)

def pfma (neg : Bool) (a b c : PVal Nat) : PVal Nat × Nat :=
  match a, b, c with
  | some x, some y, some z => let (v, g) := f64.fma 0 neg x y z; (some v, g)
  | _, _, _ => (none, 0)

def pdiv (a b : PVal Nat) : PVal Nat × Nat :=
  match a, b with
  | some x, some y => let (v, g) := f64.div 0 x y; (some v, g)
  | _, _ => (none, 0)

def pmul (a b : PVal Nat) : PVal Nat × Nat :=
  match a, b with
  | some x, some y => let (v, g) := f64.mul 0 x y; (some v, g)
  | _, _ => (none, 0)

def padd (a b : PVal Nat) : PVal Nat × Nat :=
  match a, b with
  | some x, some y => let (v, g) := f64.add 0 x y; (some v, g)
  | _, _ => (none, 0)

/-- Sign turned; a NaN keeps its other bits. -/
def pneg (a : PVal Nat) : PVal Nat := a.map fun x => x ^^^ f64.signBit

/-- A positive finite normal number. -/
def posNormal (b : Nat) : Bool := decide (2 ^ 52 ≤ b) && decide (b < f64.inf)

def finite64 (b : Nat) : Bool := !f64.isNan b && !f64.isInf b

/-! ### Pivots (R208, R209) -/

/-- Kind (0 Cholesky, 1 LDLᵀ, 2 LU), whether replacement is on, threshold and replacement. -/
structure PivPar where
  kind : Nat
  on : Bool
  thr : Nat
  rep : Nat
  deriving DecidableEq, Repr

def PivStat.zero_ : PivStat := ⟨0, 0, 0, none, false, false, false⟩

/-- A positive finite normal scale is used, any other becomes 1.0 (R208 step 2). -/
def pivScale (v : Nat) : Nat × Bool := if posNormal v then (v, false) else (one64, true)

/-- The parameters of a policy and the flags of their products, unless it is refused (R208). -/
def pivPolicy (kind taup taur scale : Nat) : Option (PivPar × Nat) :=
  let neg : Bool := f64.neg taup && !f64.isZero taup
  let (thr, f) := f64.mul 0 taup scale
  let (rep, g) := f64.mul 0 taur scale
  if neg || !finite64 taup || (!f64.isZero taup && !posNormal rep) then none
  else some (⟨kind, !f64.isZero taup, thr, rep⟩, f ||| g)

/-- The test of one pivot: the pivot used, its record, and flags (R209, R210); an infinity is not replaced. -/
def pivTest (k : PivPar) (st : PivStat) (idx : Nat) (d : PVal Nat) : PVal Nat × PivStat × Nat :=
  match d with
  | none => (none, { st with pois := true }, 0)
  | some b =>
    let (lt, fl) := if k.kind = 0 then f64.cmp 1 b k.thr else f64.cmp 1 (b % f64.signBit) k.thr
    let swap : Bool := k.on && lt && !f64.isInf b
    let st1 := { st with
      rep := st.rep + (if swap then 1 else 0)
      zero := st.zero + (if f64.isZero b then 1 else 0)
      nf := st.nf + (if finite64 b then 0 else 1)
      first := if swap && st.first.isNone then some idx else st.first
      neg := st.neg || (k.kind == 0 && f64.neg b && !f64.isZero b && !f64.isNan b) }
    let r := if k.kind ≠ 0 ∧ f64.neg b = true then k.rep ^^^ f64.signBit else k.rep
    (some (if swap then r else b), st1, if k.on then fl else 0)

/-! ### Elimination (R203, R204) -/

/-- Element (i, j) of a matrix held as a map. -/
def mkey (i j : Nat) : Nat := i * 0x10000000 + j

abbrev Mx := SMap (PVal Nat)

def Mx.at_ (m : Mx) (i j : Nat) : PVal Nat := mget (some 0) m (mkey i j)
def Mx.set_ (m : Mx) (i j : Nat) (v : PVal Nat) : Mx := mput (some 0) m (mkey i j) v

/-- A factorisation on its way: elements, flags, pivots, and the row swapped with each row, poison when a poisoned element hides the
choice (R106). -/
structure Elim where
  m : Mx
  fl : Nat
  st : PivStat
  perm : List (PVal Nat)
  deriving DecidableEq, Repr

/-- The order of the pivot search: a NaN is larger than any number. -/
def pivKey (v : PVal Nat) : Nat :=
  match v with
  | none => 0
  | some b => if f64.isNan b then f64.inf + 1 else b % f64.signBit

/-- The lowest row of the search set with the largest magnitude. -/
def pivSearch (m : Mx) (p : Nat) (rows : List Nat) : Nat :=
  rows.foldl (fun best i => if pivKey (m.at_ best p) < pivKey (m.at_ i p) then i else best) p

/-- Rows `a` and `b` change places in the columns given. -/
def swapRows (m : Mx) (a b : Nat) (cols : List Nat) : Mx :=
  if a = b then m
  else cols.foldl (fun x j => (x.set_ a j (m.at_ b j)).set_ b j (m.at_ a j)) m

/-- Rows `p` and `r` change places; a choice hidden by poison leaves every row of the search set poison (R106). -/
def moveRows (m : Mx) (dim p : Nat) (search : List Nat) (r : PVal Nat) : Mx :=
  match r with
  | some r => swapRows m p r (List.range dim)
  | none => search.foldl (fun x i => (List.range dim).foldl (fun y j => y.set_ i j none) x) m

/-- The interchange of pivot `p` (R204): the row it takes, and the rows after it. -/
def pivRows (k : PivPar) (m : Mx) (dim p : Nat) (search : List Nat) : PVal Nat × Mx :=
  if k.kind ≠ 2 then (some p, m)
  else
    let r := if search.any fun i => (m.at_ i p).isNone then none else some (pivSearch m p search)
    (r, moveRows m dim p search r)

/-- One pivot index `p` of a matrix of `dim` rows with `n` unknowns: search, test, divides, updates. `has i j` says that
the brick of (i, j) is stored; `search` gives the rows searched below p. -/
def elimStep (k : PivPar) (dim n : Nat) (has : Nat → Nat → Bool) (search : List Nat) (base : Nat) (e : Elim) (p : Nat) :
    Elim :=
  let (r, m0) := pivRows k e.m dim p search
  let (d, st, f0) := if p < n then pivTest k e.st (base + p) (m0.at_ p p) else (m0.at_ p p, e.st, 0)
  let (l, f1) := if k.kind = 0 then pop1 (f64.sqrt 0) d else (d, 0)
  let m1 := m0.set_ p p l
  let below := ((List.range dim).drop (p + 1)).filter fun i => has i p
  let (m2, f2) := below.foldl (fun (a : Mx × Nat) i =>
    let (v, g) := pdiv (m0.at_ i p) l
    (a.1.set_ i p v, a.2 ||| g)) (m1, f0 ||| f1)
  let right := if k.kind = 2 then ((List.range dim).drop (p + 1)).filter (fun j => has p j) else below
  let (m3, f3) := right.foldl (fun (a : Mx × Nat) j =>
    let (u, g) :=
      if k.kind = 2 then (m2.at_ p j, 0)
      else if k.kind = 1 then pmul (m2.at_ j p) l
      else (m2.at_ j p, 0)
    (below.filter fun i => k.kind == 2 || decide (j ≤ i)).foldl (fun (a : Mx × Nat) i =>
      let (v, h) := pfma true (m2.at_ i p) u (a.1.at_ i j)
      (a.1.set_ i j v, a.2 ||| h)) (a.1, a.2 ||| g)) (m2, f2)
  ⟨m3, e.fl ||| f3, st, e.perm ++ [r]⟩

/-- What element (·, j) is multiplied by in the update from pivot `p` (R203): l_jp, fl(l_jp d_p), or u_pj. -/
def updBy (kind : Nat) (m : Mx) (p j : Nat) : PVal Nat × Nat :=
  if kind = 2 then (m.at_ p j, 0) else if kind = 1 then pmul (m.at_ j p) (m.at_ p p) else (m.at_ j p, 0)

/-- `v` after its updates by the pairs given, with flags. -/
def updates (v : PVal Nat) (l : List (PVal Nat × PVal Nat)) : PVal Nat × Nat :=
  l.foldl (fun (a : PVal Nat × Nat) q =>
    let (w, f) := pfma true q.1 q.2 a.1
    (w, a.2 ||| f)) (v, 0)

/-- Row `i` of L in brick column `c` (R203), from the factored diagonal brick: its eight elements, with flags. -/
def rowOfL (kind : Nat) (m : Mx) (c i : Nat) : List (PVal Nat) × Nat :=
  (List.range 8).foldl (fun (a : List (PVal Nat) × Nat) jj =>
    let j := 8 * c + jj
    let us := (List.range jj).map fun p => updBy kind m (8 * c + p) j
    let (v, f) := updates (m.at_ i j) (a.1.zip (us.map (·.1)))
    let (w, g) := pdiv v (m.at_ j j)
    (a.1 ++ [w], us.foldl (fun x u => x ||| u.2) (a.2 ||| f ||| g))) ([], 0)

/-- Column `j` of U in brick row `c` of an LU factor (R203), from the factored diagonal brick. -/
def colOfU (m : Mx) (c j : Nat) : List (PVal Nat) × Nat :=
  (List.range 8).foldl (fun (a : List (PVal Nat) × Nat) pp =>
    let p := 8 * c + pp
    let (v, f) := updates (m.at_ p j) (((List.range pp).map fun q => m.at_ p (8 * c + q)).zip a.1)
    (a.1 ++ [v], a.2 ||| f)) ([], 0)

/-- Element (i, j) of a trailing brick after its updates from brick column `c`; `us` are what it is multiplied by. -/
def trailAt (m : Mx) (c i j : Nat) (us : List (PVal Nat)) : PVal Nat × Nat :=
  updates (m.at_ i j) (((List.range 8).map fun p => m.at_ i (8 * c + p)).zip us)

/-- Factor one brick as a whole matrix, with `npad` padding rows (R211). -/
def factorBrick (k : PivPar) (npad : Nat) (xs : List (PVal Nat)) : Elim :=
  let m := (positions 8 8).foldl (fun (m : Mx) ij => m.set_ ij.1 ij.2 (xs.getD (8 * ij.1 + ij.2) none)) []
  (List.range 8).foldl (fun e p => elimStep k 8 (8 - npad) (fun _ _ => true) ((List.range 8).drop p) 0 e p)
    ⟨m, 0, PivStat.zero_, []⟩

/-- The 64 values of a factored brick; a symmetric kind leaves +0 above the diagonal (R203). -/
def Elim.brick (e : Elim) (kind : Nat) : List (PVal Nat) :=
  (positions 8 8).map fun ij => if kind ≠ 2 ∧ ij.1 < ij.2 then some 0 else e.m.at_ ij.1 ij.2

/-! ### Vectors (R226) -/

abbrev Vec := List (PVal Nat)

def Vec.at_ (v : Vec) (i : Nat) : PVal Nat := v.getD i none

/-- Dot product by the canonical fold over rounded products (R158, R226). -/
def vdot64 (x y : Vec) : PVal Nat := (pfold (f64.add 0) ((x.zip y).map fun p => (pmul p.1 p.2).1)).1

/-- The rounded square root of the dot product. -/
def vnorm (x : Vec) : PVal Nat := (pop1 (f64.sqrt 0) (vdot64 x x)).1

/-- y + a x, or y - a x, one fma per entry. -/
def axpy (neg : Bool) (a : PVal Nat) (x y : Vec) : Vec := (x.zip y).map fun p => (pfma neg a p.1 p.2).1

/-- A chain of fma over pairs. -/
def fmaChain (neg : Bool) (c : PVal Nat) (l : List (PVal Nat × PVal Nat)) : PVal Nat :=
  l.foldl (fun c p => (pfma neg p.1 p.2 c).1) c

/-- Forward pass over a lower triangle (R226): row `i`'s entries left of the diagonal, ascending, and its diagonal. -/
def forward (unit : Bool) (rows : List (List (Nat × PVal Nat) × PVal Nat)) (b : Vec) : Vec :=
  ((List.range rows.length).zip rows).foldl (fun y r =>
    let v := fmaChain true (b.at_ r.1) (r.2.1.map fun q => (q.2, Vec.at_ y q.1))
    y ++ [if unit then v else (pdiv v r.2.2).1]) []

/-- Backward pass (R226): row `i`'s entries right of the diagonal, ascending, and its diagonal. -/
def backward (unit : Bool) (rows : List (List (Nat × PVal Nat) × PVal Nat)) (y : Vec) : Vec :=
  let n := rows.length
  let out := ((List.range n).reverse.zip rows.reverse).foldl (fun (x : Vec) r =>
    let v := fmaChain true (y.at_ r.1) (r.2.1.map fun q => (q.2, x.at_ (q.1 - (r.1 + 1))))
    (if unit then v else (pdiv v r.2.2).1) :: x) []
  out

/-- Entries j of a vector swapped with the entries that `perm` names, in ascending j. -/
def permute (perm : List Nat) (b : Vec) : Vec :=
  ((List.range perm.length).zip perm).foldl (fun v jr =>
    if jr.1 = jr.2 then v else (v.set jr.1 (Vec.at_ v jr.2)).set jr.2 (Vec.at_ v jr.1)) b

/-- M\b for a factor of a kind, whose lower rows and upper rows are given with their diagonals (R226). -/
def triSolve (kind : Nat) (perm : List Nat) (low up : List (List (Nat × PVal Nat) × PVal Nat)) (b : Vec) : Vec :=
  if kind = 2 then backward false up (forward true low (permute perm b))
  else if kind = 1 then
    backward true up (((forward true low b).zip low).map fun p => (pdiv p.1 p.2.2).1)
  else backward false up (forward false low b)

/-- Solve against one factored brick of `n` live rows (block Jacobi). -/
def brickSolve (kind n : Nat) (perm : List Nat) (xs : List (PVal Nat)) (b : Vec) : Vec :=
  let el := fun i j => xs.getD (8 * i + j) none
  let low := (List.range n).map fun i => ((List.range i).map fun j => (j, el i j), el i i)
  let up := (List.range n).map fun i =>
    (((List.range n).drop (i + 1)).map fun j => (j, if kind = 2 then el i j else el j i), el i i)
  triSolve kind (perm.take n) low up b

end Sys2Proof.Machine
end

