-- ==== Sys2Proof/Machine/Assembly.lean ====
section
/-! DEFINITION. Matrices in bricks (R191, R192), their signature (R224), and the Assembly Stage (R193 to R202, R216). -/
namespace Sys2Proof.Machine

/-! ### Matrix headers -/

/-- A matrix header that can be used (Table 8.1). -/
structure MatHdr where
  at_ : W64
  sparse : Bool
  sym : Bool
  n : Nat
  nblk : Nat
  rowptr : W64
  colidx : W64
  bricks : W64
  diagmax : PVal Nat
  deriving DecidableEq, Repr

/-- DIAGMAX and SIG may be poison; every other byte must not be. -/
def State.matHdr (s : State) (a : W64) : Option MatHdr :=
  match s.loadX .unit a 64 with
  | none => none
  | some bs =>
    match allSome (bs.take 40 ++ bs.drop 56) with
    | none => none
    | some b =>
      let form := field b 0 1
      if a.toNat % 64 ≠ 0 ∨ 4 ≤ form ∨ ¬ allZero (slice_ b 1 3) ∨ ¬ allZero (slice_ b 12 4) ∨ ¬ allZero (slice_ b 40 8) ∨
          2 ^ 27 < field b 4 4 ∨ field b 32 8 % 64 ≠ 0 then none
      else some ⟨a, bitAt form 0, bitAt form 1, field b 4 4, field b 8 4, w64At b 16, w64At b 24, w64At b 32,
        pNat ((bs.drop 40).take 8)⟩

/-- Brick rows. -/
def MatHdr.nb (h : MatHdr) : Nat := (h.n + 7) / 8

/-- A 32-bit entry of an index array; unreadable and poison give none. -/
def State.idx32 (s : State) (a : W64) (i : Nat) : PVal Nat :=
  match s.loadX .unit (plus a (4 * i)) 4 with
  | some b => pNat b
  | none => none

/-- An FP64 entry of an array; what cannot be read counts as poison (R77). -/
def State.fp64At (s : State) (a : W64) (i : Nat) : PVal Nat :=
  match s.loadX .unit (plus a (8 * i)) 8 with
  | some b => pNat b
  | none => none

/-- Stored bricks of brick row `r`: column and index, ascending (R192). -/
def State.rowBricks (s : State) (h : MatHdr) (r : Nat) : List (Nat × Nat) :=
  if h.nb ≤ r then []
  else if h.sparse then
    match s.idx32 h.rowptr r, s.idx32 h.rowptr (r + 1) with
    | some lo, some hi => ((List.range (min hi h.nblk)).drop lo).filterMap fun i => (s.idx32 h.colidx i).map fun c => (c, i)
    | _, _ => []
  else if h.sym then (List.range (r + 1)).map fun c => (c, r * (r + 1) / 2 + c)
  else (List.range h.nb).map fun c => (c, r * h.nb + c)

/-- Index of brick (r, c), when it is stored. -/
def State.brickAt (s : State) (h : MatHdr) (r c : Nat) : Option Nat :=
  ((s.rowBricks h r).find? fun b => b.1 == c).map (·.2)

/-- Address of element (i, j) in the brick with index `b` of a brick array. -/
def elemAddr (bricks : W64) (b i j : Nat) : W64 := plus bricks (512 * b + 8 * (8 * (i % 8) + j % 8))

/-- Signature (R224), poison when its index arrays are. -/
def State.signature (s : State) (h : MatHdr) : PVal Nat :=
  let head := toLE 4 h.n ++ [BitVec.ofNat 8 ((if h.sparse then 1 else 0) + (if h.sym then 2 else 0))]
  if h.sparse ∧ h.n ≠ 0 then
    match allSome ((List.range (h.nb + 1)).map (s.idx32 h.rowptr)), allSome ((List.range h.nblk).map (s.idx32 h.colidx)) with
    | some r, some c => some (crc64 (head ++ r.flatMap (toLE 4) ++ c.flatMap (toLE 4))).toNat
    | _, _ => none
  else some (crc64 head).toNat

/-! ### Programs (R193) -/

structure AsmPass where
  kind : Nat
  count : Nat
  recs : W64
  slot : Nat
  waitIdx : Nat
  waitCount : Nat
  deriving DecidableEq, Repr

structure AsmProg where
  at_ : W64
  matrix : W64
  clear : Bool
  diag : Bool
  lo : Nat
  hi : Nat
  rhs : W64
  passes : List AsmPass
  deriving DecidableEq, Repr

def asmPassOf (b : List Byte) : Option AsmPass :=
  let k := field b 0 1
  if (k = 1 ∨ k = 2) ∧ allZero (slice_ b 1 3) = true ∧ field b 8 8 % 64 = 0 ∧ field b 16 4 ≠ 0 ∧ field b 16 4 % 64 = 0 ∧
      field b 20 1 < 64 ∧ field b 21 1 = 0 ∧ allZero (b.drop 24) = true then
    some ⟨k, field b 4 4, w64At b 8, field b 16 4, field b 20 1, field b 22 2⟩
  else none

/-- A program that the stage can run: in the near tier, aligned, its reserved fields 0 (R193). -/
def State.asmProg (s : State) (a : W64) : Option AsmProg :=
  match s.xlate a 64, (s.loadX .unit a 64).bind (fun bs => allSome (bs.take 32 ++ bs.drop 40)) with
  | some x, some b =>
    let np := field b 8 4
    if x % 64 ≠ 0 ∨ ¬ inNear x (64 + 32 * min np 16) ∨ 16 < np ∨ 4 ≤ field b 12 1 ∨ ¬ allZero (slice_ b 13 3) ∨
        ¬ allZero (b.drop 32) then none
    else match allSome ((List.range np).map fun i =>
        ((s.loadX .unit (plus a (64 + 32 * i)) 32).bind allSome).bind asmPassOf) with
      | some ps => some ⟨a, w64At b 0, bitAt (field b 12 1) 0, bitAt (field b 12 1) 1, field b 16 4, field b 20 4,
          w64At b 24, ps⟩
      | none => none
  | _, _ => none

/-- The rows of `h` that the program applies (R196). -/
def AsmProg.rows (g : AsmProg) (h : MatHdr) : List Nat := (List.range (min g.hi h.nb)).drop g.lo

/-! ### Posting and starting -/

/-- ASSEMBLE (R193, R201). -/
def execArcAssemble (u e : Nat) (s : State) : Out :=
  .next (s.fire u e 7 fun x a =>
    let p := a.part u
    a.setPart u { p with asm := { p.asm with queue := p.asm.queue ++ [⟨e, x.arg, false⟩] } })

def State.setRun (s : State) (p : Nat) (r : Option AsmRun) : State :=
  let x := s.part p
  s.setPart p { x with asm := { x.asm with run := r } }

/-- The arc completes with an error response and the program is abandoned. -/
def State.asmFail (s : State) (p e code : Nat) : State := (s.setRun p none).failArc p e code

/-- Two address fields name the same place. -/
def State.sameAddr (s : State) (a b : W64) : Bool := s.xlate a 64 == s.xlate b 64

/-- The solver sequencer holds the matrix at `a`: in its input queue, or in its running request (R201, R220). -/
def State.matHeld (s : State) (p : Nat) (a : W64) : Bool :=
  let v := (s.part p).slv
  v.ready.any (fun h => s.sameAddr (BitVec.ofNat 64 h) a) ||
    (match v.run with
     | some r => (r.consumed || r.phase == .factor) &&
         (match s.loadX .unit (plus (BitVec.ofNat 64 r.req.addr) 16) 8 with
          | some b => (match pNat b with
            | some m => s.sameAddr (BitVec.ofNat 64 m) a
            | none => false)
          | none => false)
     | none => false)

/-- The first writes of a program: CLEAR and the padding, over every stored brick and the whole right-hand side (R192, R193). -/
def State.asmPrepare (s : State) (g : AsmProg) (h : MatHdr) : State :=
  let s1 := (List.range h.nb).foldl (fun a r => (s.rowBricks h r).foldl (fun a cb =>
    (positions 8 8).foldl (fun a ij =>
      let i := 8 * r + ij.1
      let j := 8 * cb.1 + ij.2
      let pad : Bool := decide (h.n ≤ i) || decide (h.n ≤ j)
      if pad || g.clear then
        (a.putX .unit (elemAddr h.bricks cb.2 ij.1 ij.2)
          ((toLE 8 (if pad ∧ i = j then one64 else 0)).map some)).1
      else a) a) a) s
  if g.clear ∧ g.rhs ≠ 0 then
    (List.range h.n).foldl (fun a i => (a.putX .unit (plus g.rhs (8 * i)) ((toLE 8 0).map some)).1) s1
  else s1

/-- R201. A program that breaks R193 completes its arc with an error response. -/
def execAsmProgramStart (p : Nat) (s : State) : Out :=
  let x := s.part p
  if 16 ≤ p ∨ x.asm.run.isSome ∨ s.pageBusy (pgAsm p) ∨ s.takesWork p = false then .next s
  else match x.asm.queue with
    | [] => .next s
    | q :: rest =>
      let s0 := (s.setPart p { x with asm := { x.asm with queue := rest } }).setReg64 (pgAsm p) 0x120 (q.addr / 64 * 64 % 2 ^ 48)
      match s.asmProg (BitVec.ofNat 64 q.addr) with
      | none => .next (s0.asmFail p q.entry 1)
      | some g =>
        if s.matHeld p g.matrix then .next s
        else match s.matHdr g.matrix with
          | none => .next (s0.asmFail p q.entry 2)
          | some h =>
            .next (s.unlessHeld fun _ =>
              let s1 := s0.setRun p (some ⟨q.entry, q.addr, 0, false, 0, none, q.late⟩)
              { s1 with cs.held := none }.asmPrepare g h)

/-- The running program of partition `p` with its header. -/
def State.asmNow (s : State) (p : Nat) : Option (AsmRun × AsmProg × MatHdr) :=
  match (s.part p).asm.run with
  | none => none
  | some r => match s.asmProg (BitVec.ofNat 64 r.addr) with
    | none => none
    | some g => (s.matHdr g.matrix).map fun h => (r, g, h)

/-- What cannot be read any more ends the program with an error response. -/
def State.asmLost (s : State) (p : Nat) : State :=
  match (s.part p).asm.run with
  | some r => s.asmFail p r.entry 2
  | none => s

/-- R193: the pass's wait condition holds; a pass of no records completes. -/
def execAsmPassStart (p : Nat) (s : State) : Out :=
  if 16 ≤ p ∨ s.pageBusy (pgAsm p) then .next s
  else match s.asmNow p with
    | none => .next (s.asmLost p)
    | some (r, g, _) =>
      match g.passes[r.pass]? with
      | none => .next s
      | some q =>
        if r.started ∨ (mget 0 (s.arcu p).toks q.waitIdx).toNat < q.waitCount then .next s
        else if q.count = 0 then .next (s.setRun p (some { r with pass := r.pass + 1, started := false, recNo := 0, lastSrc := none }))
        else .next (s.setRun p (some { r with started := true, recNo := 0, lastSrc := none }))

/-! ### Records (R194 to R198) -/

/-- A contribution: to element (i, j), or to right-hand-side entry i. -/
inductive Contrib where
  | mat (i j : Nat)
  | rhs (i : Nat)
  deriving DecidableEq, Repr

/-- A record that passed every check: its SRC, its bytes, and what it contributes, in order, with the flags of forming it. -/
structure AsmRec where
  src : Nat
  len : Nat
  parts : List (Contrib × PVal Nat × Nat)
  deriving DecidableEq, Repr

def roundUp8 (x : Nat) : Nat := (x + 7) / 8 * 8

/-- R195 over an element record; `rd` reads its first bytes. -/
def elementRec (rd : Nat → Option (List (PVal Byte))) (slot n : Nat) (last : Option Nat) : Option AsmRec :=
  match (rd 8).bind allSome with
  | none => none
  | some hd =>
    let src := field hd 0 4
    let ne := field hd 4 2
    let fl := field hd 6 2
    let o := roundUp8 (8 + 4 * ne)
    let len := o + 8 * ne * ne + (if bitAt fl 0 then 8 * ne else 0)
    let bad : Bool := match last with
      | some l => decide (src ≤ l)
      | none => false
    if bad ∨ 64 < ne ∨ 2 ≤ fl ∨ slot < len then none
    else match rd len with
      | none => none
      | some bs =>
        match allSome ((List.range ne).map fun a => pNat ((bs.drop (8 + 4 * a)).take 4)) with
        | none => none
        | some dof =>
          if dof.any fun d => decide (n ≤ d) then none
          else
            let val := fun k => pNat ((bs.drop (o + 8 * k)).take 8)
            let mats := (positions ne ne).map fun ab =>
              (Contrib.mat (dof.getD ab.1 0) (dof.getD ab.2 0), val (ab.1 * ne + ab.2), 0)
            let rhss := if bitAt fl 0 then
              (List.range ne).map fun a => (Contrib.rhs (dof.getD a 0), val (ne * ne + a), 0) else []
            some ⟨src, len, mats ++ rhss⟩

/-- R195, R196 over an observation record. -/
def observationRec (rd : Nat → Option (List (PVal Byte))) (slot n : Nat) (last : Option Nat) : Option AsmRec :=
  match (rd 24).bind (fun bs => allSome (bs.take 8)), rd 24 with
  | some hd, some bs0 =>
    let src := field hd 0 4
    let nh := field hd 4 2
    let o := roundUp8 (24 + 4 * nh)
    let len := o + 8 * nh
    let bad : Bool := match last with
      | some l => decide (src ≤ l)
      | none => false
    if bad ∨ 64 < nh ∨ field hd 6 2 ≠ 0 ∨ slot < len then none
    else match rd len with
      | none => none
      | some bs =>
        match allSome ((List.range nh).map fun a => pNat ((bs.drop (24 + 4 * a)).take 4)) with
        | none => none
        | some col =>
          if col.any fun d => decide (n ≤ d) then none
          else
            let wt := pNat ((bs0.drop 8).take 8)
            let y := pNat ((bs0.drop 16).take 8)
            let hh := fun a => pNat ((bs.drop (o + 8 * a)).take 8)
            let t := fun a => pmul wt (hh a)
            let mats := (positions nh nh).map fun ab =>
              let v := pmul (t ab.1).1 (hh ab.2)
              (Contrib.mat (col.getD ab.1 0) (col.getD ab.2 0), v.1, v.2 ||| (t ab.1).2)
            let rhss := (List.range nh).map fun a =>
              let v := pmul (t a).1 y
              (Contrib.rhs (col.getD a 0), v.1, v.2 ||| (t a).2)
            some ⟨src, len, mats ++ rhss⟩
  | _, _ => none

/-- v ← fl(v + c) in memory, with its flags (R197). -/
def State.foldInto (s : State) (p : Nat) (a : W64) (c : PVal Nat) (fl : Nat) : State :=
  let v := padd (s.fp64At a 0) c
  (((s.readNoteX a 8).putX .unit a (pBytes 8 v.1)).1).orReg (pgAsm p) 0x118 (BitVec.ofNat 32 ((fl ||| v.2) % 32))

/-- R198. -/
def State.asmMiss (s : State) (p : Nat) (r : AsmRun) : State :=
  let s1 := s.count (pgAsm p) 0x10C
  let s2 := if s1.bit (pgAsm p) 0x100 9 then s1
    else (s1.setReg (pgAsm p) 0x108 (BitVec.ofNat 32 r.recNo)).setFld (pgAsm p) 0x11C 11 8 r.pass
  (s2.orReg (pgAsm p) 0x100 0x200).raise (pgAsm p) 2

/-- One contribution: applied, dropped, or not of this program's rows or stored half. -/
def State.contribute (s : State) (p : Nat) (r : AsmRun) (g : AsmProg) (h : MatHdr) (c : Contrib × PVal Nat × Nat) : State :=
  let mine := fun i => decide (g.lo ≤ i / 8) && decide (i / 8 < g.hi)
  match c.1 with
  | .rhs i => if mine i && g.rhs != 0 then s.foldInto p (plus g.rhs (8 * i)) c.2.1 c.2.2 else s
  | .mat i j =>
    if ¬ mine i ∨ (h.sym = true ∧ i < j) then s
    else match s.brickAt h (i / 8) (j / 8) with
      | some b => s.foldInto p (elemAddr h.bricks b i j) c.2.1 c.2.2
      | none => s.asmMiss p r

/-- R195: the record is skipped. -/
def State.asmSkip (s : State) (p : Nat) (r : AsmRun) : State :=
  let s2 := if s.bit (pgAsm p) 0x100 8 then s
    else (s.setReg (pgAsm p) 0x104 (BitVec.ofNat 32 r.recNo)).setFld (pgAsm p) 0x11C 3 0 r.pass
  (s2.orReg (pgAsm p) 0x100 0x100).raise (pgAsm p) 1

/-- The next record, or the pass is done. -/
def AsmRun.nextRec (r : AsmRun) (q : AsmPass) (src : Option Nat) : AsmRun :=
  if r.recNo + 1 < q.count then { r with recNo := r.recNo + 1, lastSrc := src }
  else { r with pass := r.pass + 1, started := false, recNo := 0, lastSrc := none }

/-- R195 to R198. -/
def execAsmRecord (p : Nat) (s : State) : Out :=
  if 16 ≤ p ∨ s.pageBusy (pgAsm p) then .next s
  else match s.asmNow p with
    | none => .next (s.asmLost p)
    | some (r, g, h) =>
      match g.passes[r.pass]? with
      | none => .next s
      | some q =>
        if ¬ r.started then .next s
        else
          let rd := fun n => s.loadX .unit (plus q.recs (r.recNo * q.slot)) n
          let rec_ := if q.kind = 1 then elementRec rd q.slot h.n r.lastSrc else observationRec rd q.slot h.n r.lastSrc
          match rec_ with
          | none => .next (s.unlessHeld fun a =>
              ((a.readNoteX (plus q.recs (r.recNo * q.slot)) (if q.kind = 1 then 8 else 24)).asmSkip p r).setRun p
                (some (r.nextRec q r.lastSrc)))
          | some c =>
            .next (s.unlessHeld fun a =>
              ((c.parts.foldl (fun b x => b.contribute p r g h x) (a.readNoteX (plus q.recs (r.recNo * q.slot)) c.len)).count (pgAsm p) 0x110).setRun p
                (some (r.nextRec q (some c.src))))

/-! ### Completion (R199, R201) -/

/-- The final lower half of a diagonal brick is copied into its upper half (R197). -/
def State.mirror (s : State) (h : MatHdr) (r : Nat) : State :=
  match s.brickAt h r r with
  | none => s
  | some b => (positions 8 8).foldl (fun a ij =>
      if ij.1 < ij.2 then (a.putX .unit (elemAddr h.bricks b ij.1 ij.2)
        (pBytes 8 (s.fp64At (elemAddr h.bricks b ij.2 ij.1) 0))).1
      else a) s

/-- Largest magnitude on the diagonal of the applied rows, with flags; none where there is no such element (log 6). -/
def State.diagMax (s : State) (g : AsmProg) (h : MatHdr) : Option (PVal Nat × Nat) :=
  let ds := (g.rows h).flatMap fun r => match s.brickAt h r r with
    | none => []
    | some b => ((List.range 8).filter fun i => decide (8 * r + i < h.n)).map fun i =>
        (s.fp64At (elemAddr h.bricks b i i) 0).map (· % f64.signBit)
  match ds with
  | [] => none
  | d :: r => some (r.foldl (fun a x => pop2 (f64.minmax true) a (x, 0)) (d, 0))

/-- DIAGPART and, when every row was applied, DIAGMAX (R199). -/
def State.writeDiag (s : State) (p : Nat) (g : AsmProg) (h : MatHdr) : State :=
  let (v, fl, s1) := match s.diagMax g h with
    | some (v, fl) => (v, fl, s)
    | none => let (b, t) := s.freshBytes 8; (some (leNat b), 0, t)
  let s2 := (s1.putX .unit (plus g.at_ 32) (pBytes 8 v)).1
  let s3 := if g.lo = 0 ∧ h.nb ≤ g.hi then (s2.putX .unit (plus h.at_ 40) (pBytes 8 v)).1 else s2
  s3.orReg (pgAsm p) 0x118 (BitVec.ofNat 32 (fl % 32))

/-- The last writes of a program (R197, R199, R202): an empty matrix receives nothing, and without a pass no brick is mirrored. -/
def State.asmFinal (s : State) (p : Nat) (g : AsmProg) (h : MatHdr) : State :=
  if h.n = 0 then s
  else
    let s1 := if h.sym ∧ g.passes.length ≠ 0 then (g.rows h).foldl (fun b i => b.mirror h i) s else s
    let s2 := if g.diag then s1.writeDiag p g h else s1
    (s2.putX .unit (plus h.at_ 48) (pBytes 8 (s2.signature h))).1

/-- R199, R201: the last pass is done and the sequencer's input queue holds a credit. -/
def execAsmProgramDone (p : Nat) (s : State) : Out :=
  if 16 ≤ p ∨ s.pageBusy (pgAsm p) then .next s
  else match s.asmNow p with
    | none => .next (s.asmLost p)
    | some (r, g, h) =>
      if r.pass < g.passes.length ∨ 8 ≤ (s.part p).slv.ready.length then .next s
      else
        .next (s.unlessHeld fun a =>
          let s3 := a.asmFinal p g h
          let x := s3.part p
          let s4 := s3.setPart p { x with
            asm := { x.asm with run := none }
            slv := { x.slv with
              ready := x.slv.ready ++ [g.matrix.toNat]
              factors := x.slv.factors.filter fun f => !s.sameAddr (BitVec.ofNat 64 f.1) g.matrix } }
          (s4.completeArc p r.entry false).raise (pgAsm p) 3)

/-- R202: the stage's programs whose guard the angle has reached. -/
def execAsmLate (p : Nat) (s : State) : Out :=
  let x := s.part p
  let late : Nat → Bool := fun e => match (s.arcu p).active[e]? with
    | some y => y.st == .fired && s.guardReached y.guard_
    | none => false
  let q := x.asm.queue.map fun r => if late r.entry then { r with late := true } else r
  let run := x.asm.run.map fun r => if late r.entry then { r with late := true } else r
  if 16 ≤ p ∨ (q = x.asm.queue ∧ run = x.asm.run) then .next s
  else .next (((s.setPart p { x with asm := ⟨q, run⟩ }).orReg (pgAsm p) 0x100 0x400).raise (pgAsm p) 0)

end Sys2Proof.Machine
end

