-- ==== Sys2Proof/Machine/Vector.lean ====
section
/-! DEFINITION. The vector engine (R147 to R162, R181, R182). -/
namespace Sys2Proof.Machine

/-! ### Operands -/

def State.vget (s : State) (t sz : Nat) (p : VPlace) (i : Nat) : PVal Nat :=
  match p with
  | .reg r => (s.tile t).vr.num (256 * r + sz * i) sz
  | .mem o => s.mem.num (tst t (o + sz * i)) sz

def State.vput (s : State) (t sz : Nat) (p : VPlace) (i : Nat) (v : PVal Nat) : State :=
  match p with
  | .reg r => let x := s.tile t; s.setTile t { x with vr := x.vr.wr (256 * r + sz * i) (pBytes sz v) }
  | .mem o => { s with mem := s.mem.wr (tst t (o + sz * i)) (pBytes sz v) }

/-- Mask bit `i` of MKm; MK0 reads as ones (R148). -/
def Tile.mbit (x : Tile) (m i : Nat) : PVal Bool :=
  if m = 0 then some true
  else if (mget 0 x.mskPois m).getLsbD i then none
  else some ((mget 0 x.msk m).getLsbD i)

/-- A vector instruction ends with an error response: its destination holds poison; `bit` is the VEC_STAT bit it sets, 0 for none. -/
def State.vecFail (s : State) (t : Nat) (e : QEntry) (bit addr : Nat) : State :=
  (if bit = 0 then s else s.orReg (pgTile t) 0x1D4 (1 <<< bit)).failOut t 1 e addr bit

def vsIdx : Nat := 8
def vsVl : Nat := 9
def vsRange : Nat := 10

/-! ### Element results (Table 6.2) -/

/-- The result and flags of an element-wise instruction on its sources a and b and on the prior destination element c. -/
def vecElem (w e1 e2 : Nat) (a b c : Nat) : Nat × Nat :=
  let m := wMajor w
  let ty := vTy w
  let f := tyFmt ty
  let int := tyInt ty
  let wd := 8 * tyBytes ty
  let rm := vRm w
  if m = 0x28 then
    if int then (imod ty (if vVar w then (a : Int) - b else a + b), 0)
    else if vVar w then f.sub rm a b else f.add rm a b
  else if m = 0x29 then (if int then (imod ty ((a : Int) * b), 0) else f.mul rm a b)
  else if m = 0x2A then f.fma rm (vVar w) a b c
  else if m = 0x2B then
    if int then
      let lt := ilt ty (rm.testBit 1) a b
      (if lt != rm.testBit 0 then a else b, 0)
    else f.minmax (rm.testBit 0) a b
  else if m = 0x2C then
    -- DESIGN CHOICE: on INT types VCLAMP compares signed; Table 6.2 gives it no variant (R157; log 100).
    if int then
      let x := if ilt ty false a e1 then e1 else a
      (if ilt ty false e2 x then e2 else x, 0)
    else
      let (x, g) := f.minmax true a e1
      let (y, h) := f.minmax false x e2
      (y, g ||| h)
  else if m = 0x2D then
    if int then (if vVar w || a.testBit (wd - 1) then imod ty (-(a : Int)) else a, 0)
    else (if vVar w then a ^^^ f.signBit else a % f.signBit, 0)
  else if m = 0x2E then (if rm = 0 then a &&& b else if rm = 1 then a ||| b else a ^^^ b, 0)
  else if m = 0x2F then
    let n := b % wd
    (if rm = 0 then a * 2 ^ n % 2 ^ wd else if rm = 1 then a / 2 ^ n else imod ty (sint wd a / (2 ^ n : Nat)), 0)
  else if m = 0x30 then
    let src := vB w % 4
    if tyInt src then
      if int then (imod ty (sint (8 * tyBytes src) a), 0) else f.ofInt (8 * tyBytes src) rm a
    else if int then (tyFmt src).toInt wd rm a
    else (tyFmt src).conv f rm a
  else (a, 0)

/-- Does the instruction read a second source element (register, stream or immediate)? -/
def vecUsesB (w : Nat) : Bool :=
  let m := wMajor w
  m == 0x28 || m == 0x29 || m == 0x2A || m == 0x2B || m == 0x2E || m == 0x2F

/-- Element `i`: its value and flags, poison when a source is (R106). -/
def State.vecAt (s : State) (t : Nat) (e : QEntry) (d a : VPlace) (b : Option VPlace) (i : Nat) : PVal Nat × Nat :=
  let w := e.word.toNat
  let (szD, szA) := vecSizes w
  let e1 := e.ext1.toNat
  let bv := match b with
    | some p => s.vget t szD p i
    | none => some (if vIb w then e1 else 0)
  let cv := if wMajor w = 0x2A then s.vget t szD d i else some 0
  match s.vget t szA a i, bv, cv with
  | some x, some y, some z => let (v, g) := vecElem w e1 e.ext2.toNat x y z; (some v, g)
  | _, _, _ => (none, 0)

/-- Register form: every element below VL whose mask bit is set; sources are read before the destination is written. -/
def State.vecReg (s : State) (t : Nat) (e : QEntry) (n : Nat) (d a : VPlace) (b : Option VPlace) : State :=
  let w := e.word.toNat
  let (szD, _) := vecSizes w
  let x := s.tile t
  let rs := (List.range n).map fun i => (i, x.mbit (vMk w) i, s.vecAt t e d a b i)
  let s1 := rs.foldl (fun u r => match r.2.1 with
    | some true => u.vput t szD d r.1 r.2.2.1
    | some false => u
    | none => u.vput t szD d r.1 none) s
  let fl := rs.foldl (fun g r => if r.2.1 = some true then g ||| r.2.2.2 else g) 0
  s1.finish t 1 e.id fl none

/-- Stream form: strips of 256 B of the wider type in ascending order, each read before it is written (R152, R153). -/
def State.vecStream (s : State) (t : Nat) (e : QEntry) (n : Nat) (d a : VPlace) (b : Option VPlace) : State :=
  let w := e.word.toNat
  let (szD, szA) := vecSizes w
  let per := 256 / max szD szA
  let strip := fun (acc : State × Nat) (k : Nat) =>
    let (u, fl) := acc
    let rs := (List.range (min per (n - k * per))).map fun i => (k * per + i, u.vecAt t e d a b (k * per + i))
    (rs.foldl (fun v r => v.vput t szD d r.1 r.2.1) u, rs.foldl (fun g r => g ||| r.2.2) fl)
  let (s1, fl) := (List.range ((n + per - 1) / per)).foldl strip (s, 0)
  s1.finish t 1 e.id fl none

/-- A destination that partly overlaps a source (R153). -/
def partOverlap (d : VPlace) (szD : Nat) (a : VPlace) (szA n : Nat) : Bool :=
  match d, a with
  | .mem x, .mem y => overlaps x (szD * n) y (szA * n) && !(x == y && szD == szA)
  | _, _ => false

/-- An element-wise instruction (R150 to R153, R157). DESIGN CHOICE: a poisoned count register is an error that sets no VEC_STAT bit, in
every form; and VL = 0 reads no address register, so that a poisoned one is no error then (R150, R162; log 100). -/
def State.vecWise (s : State) (t : Nat) (e : QEntry) : State :=
  let w := e.word.toNat
  let x := s.tile t
  let (szD, szA) := vecSizes w
  let lim := regElems (max szD szA)
  let useB := vecUsesB w && !vIb w
  match x.vlen w with
  | none => s.vecFail t e 0 0
  | some 0 => s.finish t 1 e.id 0 none
  | some n =>
    match e.place (vD w), e.place (vA w), (if useB then (e.place (vB w)).map some else some none) with
    | some d, some a, some b =>
      if ¬ vForm w then
        if lim < n then s.vecFail t e vsVl 0
        else s.vecReg t e n d a b
      else
        let bOk := match b with
          | some p => p.ok szD n
          | none => true
        if d.ok szD n && a.ok szA n && bOk then
          let ov := partOverlap d szD a szA n || (match b with
            | some p => partOverlap d szD p szD n
            | none => false)
          (if ov then s.count (pgTile t) 0x1F0 else s).vecStream t e n d a b
        else s.vecFail t e vsRange 0
    | _, _, _ => s.vecFail t e 0 0

/-- Words of a major with VAR as given. -/
def isVar (m : Nat) (v : Bool) (w : Nat) : Bool := wMajor w == m && vVar w == v

/-- Words of a major with a sub-operation in RM. -/
def isSub (m : Nat) (f : Nat → Bool) (w : Nat) : Bool := wMajor w == m && f (vRm w)

def State.vecRow (s : State) (t : Nat) (ph : Phase) (mine : Nat → Bool) : State :=
  s.engine t 1 ph mine fun e a => a.vecWise t e

def execVadd (t : Nat) (ph : Phase) (s : State) : Out := .next (s.vecRow t ph (isVar 0x28 false))
def execVsub (t : Nat) (ph : Phase) (s : State) : Out := .next (s.vecRow t ph (isVar 0x28 true))
def execVmul (t : Nat) (ph : Phase) (s : State) : Out := .next (s.vecRow t ph (isMajor 0x29))
def execVfma (t : Nat) (ph : Phase) (s : State) : Out := .next (s.vecRow t ph (isVar 0x2A false))
def execVfnma (t : Nat) (ph : Phase) (s : State) : Out := .next (s.vecRow t ph (isVar 0x2A true))
def execVmin (t : Nat) (ph : Phase) (s : State) : Out := .next (s.vecRow t ph (isSub 0x2B fun r => !r.testBit 0))
def execVmax (t : Nat) (ph : Phase) (s : State) : Out := .next (s.vecRow t ph (isSub 0x2B fun r => r.testBit 0))
def execVclamp (t : Nat) (ph : Phase) (s : State) : Out := .next (s.vecRow t ph (isMajor 0x2C))
def execVabs (t : Nat) (ph : Phase) (s : State) : Out := .next (s.vecRow t ph (isVar 0x2D false))
def execVneg (t : Nat) (ph : Phase) (s : State) : Out := .next (s.vecRow t ph (isVar 0x2D true))
def execVand (t : Nat) (ph : Phase) (s : State) : Out := .next (s.vecRow t ph (isSub 0x2E fun r => r == 0))
def execVor (t : Nat) (ph : Phase) (s : State) : Out := .next (s.vecRow t ph (isSub 0x2E fun r => r == 1))
def execVxor (t : Nat) (ph : Phase) (s : State) : Out := .next (s.vecRow t ph (isSub 0x2E fun r => decide (2 ≤ r)))
def execVshl (t : Nat) (ph : Phase) (s : State) : Out := .next (s.vecRow t ph (isSub 0x2F fun r => r == 0))
def execVshrl (t : Nat) (ph : Phase) (s : State) : Out := .next (s.vecRow t ph (isSub 0x2F fun r => r == 1))
def execVshra (t : Nat) (ph : Phase) (s : State) : Out := .next (s.vecRow t ph (isSub 0x2F fun r => decide (2 ≤ r)))
def execVcvt (t : Nat) (ph : Phase) (s : State) : Out := .next (s.vecRow t ph (isMajor 0x30))

/-! ### Comparison, selection, load, store, splat, count -/

/-- `a op b` of VCMP and VCOMPRESS. -/
def vecCmp (w a b : Nat) : Bool × Nat :=
  if tyInt (vTy w) then (icmp (vTy w) (vRm w) (vVar w) a b, 0) else (tyFmt (vTy w)).cmp (vRm w) a b

def State.vcmpStart (s : State) (t : Nat) (e : QEntry) : State :=
  let w := e.word.toNat
  let x := s.tile t
  let sz := tyBytes (vTy w)
  match x.vlen w with
  | none => s.vecFail t e 0 0
  | some n =>
    if regElems sz < n then s.vecFail t e vsVl 0
    else
      let step := fun (acc : Tile × Nat) (i : Nat) =>
        match x.mbit (vMk w) i with
        | some false => acc
        | none => (acc.1.setMbit (vD w) i none, acc.2)
        | some true =>
          match s.vget t sz (.reg (vA w)) i, (if vIb w then some e.ext1.toNat else s.vget t sz (.reg (vB w)) i) with
          | some a, some b => let (r, g) := vecCmp w a b; (acc.1.setMbit (vD w) i (some r), acc.2 ||| g)
          | _, _ => (acc.1.setMbit (vD w) i none, acc.2)
      let (y, fl) := (List.range n).foldl step (x, 0)
      (s.setTile t y).finish t 1 e.id fl none

def execVcmp (t : Nat) (ph : Phase) (s : State) : Out := .next (s.engine t 1 ph (isMajor 0x31) fun e a => a.vcmpStart t e)

/-- Write elements computed beforehand to a register. -/
def State.vputAll (s : State) (t sz r : Nat) (vs : List (PVal Nat)) : State :=
  ((List.range vs.length).zip vs).foldl (fun u v => u.vput t sz (.reg r) v.1 v.2) s

def State.vselStart (s : State) (t : Nat) (e : QEntry) : State :=
  let w := e.word.toNat
  let x := s.tile t
  let sz := tyBytes (vTy w)
  match x.vlen w with
  | none => s.vecFail t e 0 0
  | some n =>
    if regElems sz < n then s.vecFail t e vsVl 0
    else
      let vs := (List.range n).map fun i => match x.mbit (vMk w) i with
        | some true => s.vget t sz (.reg (vA w)) i
        | some false => s.vget t sz (.reg (vB w)) i
        | none => none
      (s.vputAll t sz (vD w) vs).finish t 1 e.id 0 none

def execVsel (t : Nat) (ph : Phase) (s : State) : Out := .next (s.engine t 1 ph (isMajor 0x32) fun e a => a.vselStart t e)

/-- VLD and VST: VL contiguous elements between register D and the tile store at AR[A]. -/
def State.vmove (s : State) (t : Nat) (e : QEntry) (st : Bool) : State :=
  let w := e.word.toNat
  let x := s.tile t
  let sz := tyBytes (vTy w)
  let reg : VPlace := .reg (vD w)
  let mem : Option VPlace := (e.opn (vA w)).map .mem
  match x.vlen w with
  | none => s.vecFail t e 0 0
  | some 0 => s.finish t 1 e.id 0 none
  | some n =>
    if regElems sz < n then s.vecFail t e vsVl 0
    else match mem with
      | none => s.vecFail t e 0 0
      | some m =>
        if ¬ m.ok sz n then s.vecFail t e vsRange 0
        else
          let d := if st then m else reg
          let a := if st then reg else m
          ((List.range n).foldl (fun u i => match x.mbit (vMk w) i with
            | some true => u.vput t sz d i (s.vget t sz a i)
            | some false => u
            | none => u.vput t sz d i none) s).finish t 1 e.id 0 none

def execVld (t : Nat) (ph : Phase) (s : State) : Out :=
  .next (s.engine t 1 ph (isVar 0x33 false) fun e a => a.vmove t e false)
def execVst (t : Nat) (ph : Phase) (s : State) : Out :=
  .next (s.engine t 1 ph (isVar 0x33 true) fun e a => a.vmove t e true)

def State.vsplatStart (s : State) (t : Nat) (e : QEntry) : State :=
  let w := e.word.toNat
  let x := s.tile t
  let sz := tyBytes (vTy w)
  match x.vlen w with
  | none => s.vecFail t e 0 0
  | some n =>
    if regElems sz < n then s.vecFail t e vsVl 0
    else
      ((List.range n).foldl (fun u i => match x.mbit (vMk w) i with
        | some true => u.vput t sz (.reg (vD w)) i (some e.ext1.toNat)
        | some false => u
        | none => u.vput t sz (.reg (vD w)) i none) s).finish t 1 e.id 0 none

def execVsplat (t : Nat) (ph : Phase) (s : State) : Out :=
  .next (s.engine t 1 ph (isMajor 0x34) fun e a => a.vsplatStart t e)

/-- VSETC (R181). -/
def execVsetc (t : Nat) (ph : Phase) (s : State) : Out :=
  .next (s.engine t 1 ph (isMajor 0x3A) fun e a =>
    let w := e.word.toNat
    let x := a.tile t
    match e.opn (vA w) with
    | none => a.vecFail t e 0 0
    | some v =>
      if 4095 < v then
        let b := a.vecFail t e vsVl 0
        b.setTile t ((b.tile t).setCnt (vD w) (some 0))
      else (a.setTile t (x.setCnt (vD w) (some v))).finish t 1 e.id 0 none)

/-! ### Reductions (R158) -/

/-- One fold step of a reduction. -/
def redOp (w a b : Nat) : Nat × Nat :=
  let f := tyFmt (vTy w)
  if wMajor w = 0x36 then f.minmax (!vVar w) a b else f.add (vRm w) a b

/-- A leaf: the element, or for VDOT the rounded product. -/
def State.redLeaf (s : State) (t : Nat) (w : Nat) (a b : VPlace) (i : Nat) : PVal Nat × Nat :=
  let f := tyFmt (vTy w)
  let sz := tyBytes (vTy w)
  match s.vget t sz a i, (if wMajor w = 0x37 then s.vget t sz b i else some 0) with
  | some x, some y => if wMajor w = 0x37 then let (v, g) := f.mul (vRm w) x y; (some v, g) else (some x, 0)
  | _, _ => (none, 0)

/-- The canonical fold over the unmasked elements; the destination is unchanged when there is none (R162). -/
def State.reduce (s : State) (t : Nat) (e : QEntry) (n : Nat) (d a b : VPlace) : State :=
  let w := e.word.toNat
  let x := s.tile t
  let mk := if vForm w then 0 else vMk w
  let leaves := (List.range n).filterMap fun i => match x.mbit mk i with
    | some true => some (s.redLeaf t w a b i)
    | some false => none
    | none => some (none, 0)
  match cfold (pop2 (redOp w)) leaves with
  | some (v, fl) => (s.vput t (tyBytes (vTy w)) d 0 v).finish t 1 e.id fl none
  | none => s.finish t 1 e.id 0 none

def State.vred (s : State) (t : Nat) (e : QEntry) : State :=
  let w := e.word.toNat
  let sz := tyBytes (vTy w)
  match (s.tile t).vlen w with
  | none => s.vecFail t e 0 0
  | some 0 => s.finish t 1 e.id 0 none
  | some n =>
    match e.place (vD w), e.place (vA w), (if wMajor w = 0x37 then e.place (vB w) else e.place (vA w)) with
    | some d, some a, some b =>
      if ¬ vForm w then
        if regElems sz < n then s.vecFail t e vsVl 0 else s.reduce t e n d a b
      else if d.ok sz 1 && a.ok sz n && b.ok sz n then s.reduce t e n d a b
      else s.vecFail t e vsRange 0
    | _, _, _ => s.vecFail t e 0 0

def execVrsum (t : Nat) (ph : Phase) (s : State) : Out := .next (s.engine t 1 ph (isMajor 0x35) fun e a => a.vred t e)
def execVrmax (t : Nat) (ph : Phase) (s : State) : Out := .next (s.engine t 1 ph (isVar 0x36 false) fun e a => a.vred t e)
def execVrmin (t : Nat) (ph : Phase) (s : State) : Out := .next (s.engine t 1 ph (isVar 0x36 true) fun e a => a.vred t e)
def execVdot (t : Nat) (ph : Phase) (s : State) : Out := .next (s.engine t 1 ph (isMajor 0x37) fun e a => a.vred t e)

/-! ### Compress and expand (R159, R160) -/

/-- No two of these tile-store ranges overlap. -/
def noOverlap : List (Nat × Nat) → Bool
  | [] => true
  | (o, n) :: r => (r.all fun p => !overlaps o n p.1 p.2) && noOverlap r

def VPlace.range (p : VPlace) (bytes : Nat) : List (Nat × Nat) :=
  match p with
  | .reg _ => []
  | .mem o => [(o, bytes)]

/-- VCOMPRESS ends with an error response; a count is left in VCNTc, or poison. -/
def State.compFail (s : State) (t : Nat) (e : QEntry) (c : PVal Nat) (bit : Nat) : State :=
  let s1 := s.vecFail t e bit 0
  s1.setTile t ((s1.tile t).setCnt (bits (listWord e.word.toNat e.ext1.toNat e.ext2.toNat) 10 8) c)

/-- DESIGN CHOICE: a poisoned mask bit cannot decide the selection either, and counts as a poisoned comparison (R159; log 100). -/
def State.vcompress (s : State) (t : Nat) (e : QEntry) : State :=
  let w := e.word.toNat
  let lw := listWord w e.ext1.toNat e.ext2.toNat
  let c := bits lw 10 8
  let sz := tyBytes (vTy w)
  let tl := s.tile t
  let xo := e.opn (bits lw 3 0)
  match tl.vlen w with
  | none => s.compFail t e none 0
  | some 0 => (s.setTile t (tl.setCnt c (some 0))).finish t 1 e.id 0 none
  | some n =>
    match e.place (vD w), e.place (vA w), (if vIb w then some none else (e.place (vB w)).map some), xo with
    | some d, some a, some b, some x =>
      let bR := match b with
        | some p => p.range (sz * n)
        | none => []
      let bOk := match b with
        | some p => p.ok sz n
        | none => true
      if ¬ vForm w ∧ regElems sz < n then s.compFail t e none vsVl
      else if ¬ (d.ok sz n && a.ok sz n && bOk && streamOk x 2 n &&
          noOverlap (d.range (sz * n) ++ a.range (sz * n) ++ bR ++ [(x, 2 * n)])) then
        s.compFail t e none vsRange
      else
        let mk := if vForm w then 0 else vMk w
        let step := fun (acc : Option (List (Nat × Nat) × Nat)) (i : Nat) =>
          match acc, tl.mbit mk i with
          | none, _ => none
          | _, none => none
          | some r, some false => some r
          | some (l, fl), some true =>
            let bv := match b with
              | some p => s.vget t sz p i
              | none => some e.ext1.toNat
            match s.vget t sz a i, bv with
            | some u, some v => let (r, g) := vecCmp w u v; some (if r then l ++ [(i, u)] else l, fl ||| g)
            | _, _ => none
        match (List.range n).foldl step (some ([], 0)) with
        | none => s.compFail t e (some 0) 0
        | some (l, fl) =>
          let s1 := ((List.range l.length).zip l).foldl (fun u r =>
            { u.vput t sz d r.1 (some r.2.2) with
              mem := (u.vput t sz d r.1 (some r.2.2)).mem.wr (tst t (x + 2 * r.1)) ((toLE 2 r.2.1).map some) }) s
          (s1.setTile t ((s1.tile t).setCnt c (some l.length))).finish t 1 e.id fl none
    | _, _, _, _ => s.compFail t e none 0

def execVcompress (t : Nat) (ph : Phase) (s : State) : Out :=
  .next (s.engine t 1 ph (isMajor 0x38) fun e a => a.vcompress t e)

/-- VEXPAND ends with an index error at entry `j` (R160, R166). -/
def State.expIdx (s : State) (t : Nat) (e : QEntry) (j : Nat) : State :=
  let s1 := if s.bit (pgTile t) 0x1D4 vsIdx then s
    else s.setReg (pgTile t) 0x1E8 (BitVec.ofNat 32 (j + 0x10000 * (if e.posted then 0 else e.pc)))
  s1.vecFail t e vsIdx 0

/-- The first entry that is poison, not above the one before it, or not below VL. -/
def badEntry (n : Nat) : Nat → Option Nat → List (PVal Nat) → Option Nat
  | _, _, [] => none
  | j, _, none :: _ => some j
  | j, prev, some v :: r =>
    if v < n ∧ (match prev with
        | some p => decide (p < v)
        | none => true) = true then badEntry n (j + 1) (some v) r
    else some j

/-- R160, as its code runs: the fill, then each entry in turn. With VL = 0 it reads no operand but the list's length (R162). -/
def State.vexpand (s : State) (t : Nat) (e : QEntry) : State :=
  let w := e.word.toNat
  let lw := e.ext1.toNat
  let sz := tyBytes (vTy w)
  let n := vVl w
  match (s.tile t).cnt (bits lw 10 8) with
  | none => s.vecFail t e 0 0
  | some l =>
    if n = 0 then (if l = 0 then s.finish t 1 e.id 0 none else s.expIdx t e 0)
    else match e.place (vD w), e.place (vA w), e.opn (bits lw 3 0) with
      | some d, some a, some x =>
        if ¬ vForm w ∧ regElems sz < n then s.vecFail t e vsVl 0
        else if ¬ (d.ok sz n && (l == 0 || (a.ok sz l && streamOk x 2 l)) &&
            noOverlap (d.range (sz * n) ++ a.range (sz * l) ++ [(x, 2 * l)])) then
          s.vecFail t e vsRange 0
        else
          let idx := (List.range l).map fun j => s.mem.num (tst t (x + 2 * j)) 2
          match badEntry n 0 none idx with
          | some j => s.expIdx t e j
          | none =>
            let s1 := if vVar w then (List.range n).foldl (fun u i => u.vput t sz d i (some 0)) s else s
            (((List.range l).zip idx).foldl (fun u r => u.vput t sz d (r.2.getD 0) (u.vget t sz a r.1)) s1).finish t 1 e.id 0 none
      | _, _, _ => s.vecFail t e 0 0

def execVexpand (t : Nat) (ph : Phase) (s : State) : Out :=
  .next (s.engine t 1 ph (isMajor 0x39) fun e a => a.vexpand t e)

end Sys2Proof.Machine
end

