-- ==== Sys2Proof/Machine/Dru.lean ====
section
/-! DEFINITION. The solver/DRU queue: stream divides and roots, PIVOT, and the solve requests of a tile (R183, R211 to R214,
R218, R219). -/
namespace Sys2Proof.Machine

/-! ### DRU (R183, R212, R213) -/

/-- Issue interval and latency (Table 8.6). -/
def druTiming (single : Bool) (fn : Nat) : Nat × Nat :=
  if single then (1, if fn = 1 then 12 else 10) else (2, if fn = 1 then 17 else 14)

def druOp (f : FFmt) (fn rm a b : Nat) : Nat × Nat :=
  if fn = 0 then f.div rm a b else if fn = 1 then f.sqrt rm a else f.rsqrt rm a

/-- Element `i` from the sources as they now are. -/
def State.druElem (s : State) (t sz fn rm a b i : Nat) : PVal Nat × Nat :=
  let f := if sz = 4 then f32 else f64
  match s.vget t sz (.mem a) i, (if fn = 0 then s.vget t sz (.mem b) i else some 0) with
  | some x, some y => let (v, g) := druOp f fn rm x y; (some v, g)
  | _, _ => (none, 0)

/-- The stream: element i is read in cycle r i and written in cycle r i + L + 2 (R213), so that a read sees the elements
written `lag` places before it. -/
def State.druRun (s : State) (t sz fn rm lag d a b n : Nat) : State × Nat :=
  let step := fun (acc : State × List (PVal Nat) × Nat) (i : Nat) =>
    let (u, rs, fl) := acc
    let u1 := if lag ≤ i then u.vput t sz (.mem d) (i - lag) (rs.getD (i - lag) none) else u
    let (v, g) := u1.druElem t sz fn rm a b i
    (u1, rs ++ [v], fl ||| g)
  let (u, rs, fl) := (List.range n).foldl step (s, [], 0)
  (((List.range n).drop (n - lag)).foldl (fun x i => x.vput t sz (.mem d) i (rs.getD i none)) u, fl)

def State.druStart (s : State) (t : Nat) (e : QEntry) : State :=
  let w := e.word.toNat
  let fn := bits w 37 36
  let single := bitAt w 35
  let sz := if single then 4 else 8
  let n := bits w 11 0
  let (r, l) := druTiming single fn
  let b := if fn = 0 then e.opn (bits w 24 21) else some 0
  if n = 0 then s.finish t 2 e.id 0 none
  else match e.opn (bits w 32 29), e.opn (bits w 28 25), b with
    | some d, some a, some b =>
      if streamOk d sz n && streamOk a sz n && (fn != 0 || streamOk b sz n) then
        let (s1, fl) := s.druRun t sz fn (bits w 34 33) ((l + 2) / r + 1) d a b n
        s1.finish t 2 e.id fl none
      else s.failOut t 2 e 0 1
    | _, _, _ => s.failOut t 2 e 0 3

def execDru (t : Nat) (ph : Phase) (s : State) : Out := .next (s.engine t 2 ph (isMajor 0x18) fun e a => a.druStart t e)

/-! ### PIVOT (R211, Table 8.5) -/

/-- TAU_P, TAU_R, SCALE and CTL of policy set `q` of partition `p` (Table 8.11). -/
def State.policy (s : State) (p q : Nat) : Nat × Nat × Nat × Nat :=
  let o := 0x100 + 0x20 * q
  (s.reg64 (pgSlv p) o, s.reg64 (pgSlv p) (o + 8), s.reg64 (pgSlv p) (o + 0x10), (s.reg (pgSlv p) (o + 0x18)).toNat)

/-- The flag byte of a pivot record and of SLV_PIVSTAT (R210). -/
def PivStat.flags (st : PivStat) : Nat :=
  (if st.zero ≠ 0 then 1 else 0) + (if st.rep ≠ 0 then 2 else 0) + (if st.neg then 4 else 0) +
    (if st.nf ≠ 0 then 8 else 0) + (if st.scaleDef then 16 else 0)

/-- The outputs of a pivot record, at bytes 0 to 28 and 32 to 39. -/
def State.pivRecord (s : State) (t a : Nat) (b0 : List (PVal Byte)) (perm : List (PVal Byte)) : State :=
  { s with mem := (s.mem.wr (tst t a) b0).wr (tst t (a + 32)) perm }

/-- The counts of a pivot record, bytes 24 to 28: poison when a poisoned pivot was tested (R106). -/
def PivStat.bytes (st : PivStat) : List (PVal Byte) :=
  let first := match st.first with
    | some i => 0x80 + i
    | none => 0
  if st.pois then List.replicate 5 none
  else [BitVec.ofNat 8 st.rep, BitVec.ofNat 8 first, BitVec.ofNat 8 st.zero, BitVec.ofNat 8 st.nf, BitVec.ofNat 8 st.flags].map some

def State.pivotStart (s : State) (t : Nat) (e : QEntry) : State :=
  let w := e.word.toNat
  let kind := bits w 29 28
  match e.opn (bits w 37 34), e.opn (bits w 33 30) with
  | some b, some r =>
    if ¬ (arrRange b 512 && arrRange r 64) then s.failOut t 2 e 0 1
    else
      let (taup, taur, scale, ctl) := s.policy (t / 72) (bits w 27 26)
      let src := if bitAt ctl 0 then some scale else s.mem.num (tst t r) 8
      match src, s.mem.num (tst t (r + 29)) 1 with
      | some v, some npad =>
        if 8 ≤ npad then s.failOut t 2 e 0 2
        else
          let (sc, dflt) := pivScale v
          match pivPolicy kind taup taur sc with
          | none => s.failOut t 2 e 0 2
          | some (k, f0) =>
            let el := factorBrick k npad ((List.range 64).map fun i => s.mem.num (tst t (b + 8 * i)) 8)
            let st := { el.st with scaleDef := dflt }
            let xs := el.brick kind
            let s1 := { s with mem := (List.range 64).foldl (fun m i =>
              m.wr (tst t (b + 8 * i)) (pBytes 8 (xs.getD i none))) s.mem }
            let out := (toLE 8 sc ++ toLE 8 k.thr ++ toLE 8 k.rep).map some ++ st.bytes
            (s1.pivRecord t r out (el.perm.map fun i => i.map (BitVec.ofNat 8))).finish t 2 e.id (f0 ||| el.fl) none
      | _, _ => ((e.dests (s.tile t)).foldl (State.poisonDst t) s).finish t 2 e.id 0 none
  | _, _ => s.failOut t 2 e 0 3

def execPivot (t : Nat) (ph : Phase) (s : State) : Out :=
  .next (s.engine t 2 ph (isMajor 0x19) fun e a => a.pivotStart t e)

/-! ### Solve requests (R218, R219) -/

/-- Post a solve request from the head of a tile's solver/DRU queue, when the sequencer's queue holds a credit. -/
def State.postSolve (s : State) (t : Nat) (e : QEntry) (bounded : Bool) : State :=
  let p := t / 72
  match e.opn (bits e.word.toNat 37 34) with
  | none => s.finish t 2 e.id 0 (errNote 0 3 false)
  | some a =>
    if s.arcCredit p 8 = false ∨ s.pageBusy (pgSlv p) = true then s
    else
      let x := s.part p
      let s1 := s.setPart p { x with slv := { x.slv with queue := x.slv.queue ++ [⟨a, .tile t e.id, bounded, 0, false⟩] } }
      s1.setEntry t 2 e.id fun y => { y with st := .running }

def execSolve (t : Nat) (ph : Phase) (s : State) : Out :=
  .next (s.engine t 2 ph (isMajor 0x1A) fun e a => a.postSolve t e false)

def execSolveb (t : Nat) (ph : Phase) (s : State) : Out :=
  .next (s.engine t 2 ph (isMajor 0x1B) fun e a => a.postSolve t e true)

end Sys2Proof.Machine
end

