-- ==== Sys2Proof/Machine/Solver.lean ====
section
/-! DEFINITION. The solver sequencer: requests and their checks (R205, R208, R218 to R225), the factor step (R203 to R210),
the methods (R226 to R229), guards (R230, R231) and the final status (R232). -/
namespace Sys2Proof.Machine

/-! ### Programs and vectors (Tables 9.1 and 9.2) -/

structure SolveProg where
  method : Nat
  kind : Nat
  polset : Nat
  factor : Bool
  bounded : Bool
  warm : Bool
  prec : Nat
  maxit : Nat
  inner : Nat
  guard_ : Nat
  matrix : W64
  fhdr : W64
  b : W64
  x : W64
  perm : W64
  scratch : W64
  nscr : Nat
  tol : Nat
  lo : W64
  hi : W64
  status : W64
  deriving DecidableEq, Repr

/-- The program's bytes as they stand. -/
def solveProgOf (b : List Byte) : SolveProg :=
  let ctl := field b 2 1
  { method := field b 0 1, kind := field b 1 1, polset := bits ctl 1 0, factor := bitAt ctl 2, bounded := bitAt ctl 3
    warm := bitAt ctl 4, prec := field b 3 1, maxit := field b 4 4, inner := field b 8 2, guard_ := field b 10 2
    matrix := w64At b 16, fhdr := w64At b 24, b := w64At b 32, x := w64At b 40, perm := w64At b 48
    scratch := w64At b 56, nscr := field b 64 4, tol := field b 72 8, lo := w64At b 80, hi := w64At b 88
    status := w64At b 96 }

/-- Reserved values and fields (R222). -/
def solveReserved (b : List Byte) : Bool :=
  let g := solveProgOf b
  decide (6 < g.method) || decide (2 < g.kind) || decide (2 < g.prec) || decide (32 ≤ field b 2 1) ||
    !allZero (slice_ b 12 4) || !allZero (slice_ b 68 4) || !allZero (b.drop 104) || decide (g.scratch.toNat % 64 ≠ 0) ||
    (if g.method = 5 then decide (g.inner = 0) || decide (64 < g.inner)
     else if g.method = 6 then decide (g.inner = 0) else decide (g.inner ≠ 0))

/-- The 128 bytes of a program in the near tier, aligned to 64 B. -/
def State.solveBytes (s : State) (a : W64) : Option (List Byte) :=
  match s.xlate a 128 with
  | some x => if x % 64 = 0 ∧ inNear x 128 = true then (s.loadX .unit a 128).bind allSome else none
  | none => none

structure VecHdr where
  n : Nat
  data : W64
  sig : PVal Nat
  deriving DecidableEq, Repr

/-- A vector header with nothing reserved set; its SIG may be poison. -/
def State.vecHdr (s : State) (a : W64) : Option VecHdr :=
  match s.loadX .unit a 64 with
  | none => none
  | some bs =>
    match allSome (bs.take 16 ++ bs.drop 24) with
    | none => none
    | some b =>
      if allZero (slice_ b 4 4) && field b 8 8 % 64 == 0 && allZero (b.drop 16) then
        some ⟨field b 0 4, w64At b 8, pNat ((bs.drop 16).take 8)⟩
      else none

def State.readVec (s : State) (a : W64) (n : Nat) : Vec := (List.range n).map (s.fp64At a)

/-- Entries of the vector whose header is at `a`. -/
def State.vecAtHdr (s : State) (a : W64) (n : Nat) : Vec :=
  match s.vecHdr a with
  | some h => s.readVec h.data n
  | none => List.replicate n none

def State.writeVec (s : State) (a : W64) (v : Vec) : State :=
  ((List.range v.length).zip v).foldl (fun t iv => (t.putX .unit (plus a (8 * iv.1)) (pBytes 8 iv.2)).1) s

/-! ### Matrices by rows (R226) -/

/-- The matrix with its bricks held elsewhere (a factor has the source's layout, R203). -/
def MatHdr.withBricks (h : MatHdr) (a : W64) : MatHdr := { h with bricks := a }

/-- Stored entries of row `i` in ascending column order below N; symmetric storage reads (i, j), j > i, as (j, i). -/
def State.matRow (s : State) (h : MatHdr) (i : Nat) : List (Nat × PVal Nat) :=
  let here := (s.rowBricks h (i / 8)).flatMap fun cb =>
    ((List.range 8).map fun c => (8 * cb.1 + c, s.fp64At (elemAddr h.bricks cb.2 i c) 0))
  let left := here.filter fun e => decide (e.1 < h.n) && (!h.sym || decide (e.1 ≤ i))
  if h.sym then
    let right := ((List.range h.nb).drop (i / 8)).flatMap fun r =>
      match s.brickAt h r (i / 8) with
      | some b => ((List.range 8).map fun c => (8 * r + c, s.fp64At (elemAddr h.bricks b c i) 0)).filter
          fun e => decide (i < e.1) && decide (e.1 < h.n)
      | none => []
    left ++ right
  else left

def State.matRows (s : State) (h : MatHdr) : List (List (Nat × PVal Nat)) := (List.range h.n).map (s.matRow h)

/-- y := start ± A x over the rows given. -/
def matVec (neg : Bool) (rows : List (List (Nat × PVal Nat))) (start : Vec) (x : Vec) : Vec :=
  ((List.range rows.length).zip rows).map fun r =>
    fmaChain neg (start.at_ r.1) (r.2.map fun e => (e.2, x.at_ e.1))

def zeros (n : Nat) : Vec := List.replicate n (some 0)

/-- M\b by the factor whose bricks are at `h` (R226). -/
def State.factorSolve (s : State) (h : MatHdr) (kind : Nat) (perm : W64) (b : Vec) : Vec :=
  let el := fun i j => match s.brickAt h (i / 8) (j / 8) with
    | some k => s.fp64At (elemAddr h.bricks k i j) 0
    | none => some 0
  let rowL := fun i => (s.rowBricks h (i / 8)).flatMap fun cb =>
    ((List.range 8).map fun c => (8 * cb.1 + c, s.fp64At (elemAddr h.bricks cb.2 i c) 0)).filter fun e => decide (e.1 < i)
  let rowU := fun i => ((List.range h.nb).drop (i / 8)).flatMap fun r =>
    if kind = 2 then match s.brickAt h (i / 8) r with
      | some k => ((List.range 8).map fun c => (8 * r + c, s.fp64At (elemAddr h.bricks k i c) 0)).filter
          fun e => decide (i < e.1) && decide (e.1 < h.n)
      | none => []
    else match s.brickAt h r (i / 8) with
      | some k => ((List.range 8).map fun c => (8 * r + c, s.fp64At (elemAddr h.bricks k c i) 0)).filter
          fun e => decide (i < e.1) && decide (e.1 < h.n)
      | none => []
  let low := (List.range h.n).map fun i => (rowL i, el i i)
  let up := (List.range h.n).map fun i => (rowU i, el i i)
  let ps := if kind = 2 then (List.range h.n).map fun j => (s.idx32 perm j).getD j else []
  triSolve kind ps low up b

/-! ### Checks (R205, R208, R222, R223) -/

/-- Every stored brick of the matrix as (row, column). -/
def State.pattern (s : State) (h : MatHdr) : List (Nat × Nat) :=
  (List.range h.nb).flatMap fun r => (s.rowBricks h r).map fun cb => (r, cb.1)

/-- R205, R192 over a brick-sparse pattern. -/
def patternClosed (sym : Bool) (nb : Nat) (ps : List (Nat × Nat)) : Bool :=
  ((List.range nb).all fun i => ps.contains (i, i)) &&
  (if sym then
    ps.all fun a => ps.all fun b => !(a.2 == b.2 && decide (a.2 < b.1) && decide (b.1 ≤ a.1)) || ps.contains (a.1, b.1)
  else
    ps.all fun a => ps.all fun b =>
      !(a.2 == b.1 && decide (a.2 < a.1) && decide (b.1 < b.2)) || ps.contains (a.1, b.2))

/-- Does this program run the factor step? -/
def SolveProg.factors (g : SolveProg) : Bool := g.method == 0 || (g.factor && g.method != 2)

def SolveProg.iterative (g : SolveProg) : Bool := decide (3 ≤ g.method)

/-- Scratch bricks of an iterative method (R223). -/
def SolveProg.width (g : SolveProg) : Nat :=
  if g.method = 3 then 4 else if g.method = 4 then 7 else if g.method = 5 then g.inner + 3 else 5

/-- A factor is at the program's FACTOR header, from an earlier solve (R222). -/
def State.hasFactor (s : State) (p : Nat) (g : SolveProg) : Bool :=
  (s.part p).slv.factors.any fun f => s.sameAddr (BitVec.ofNat 64 f.1) g.fhdr

/-- The vectors a program names. -/
def SolveProg.vecs (g : SolveProg) : List W64 :=
  (if g.method = 0 then [] else [g.b, g.x]) ++ (if g.method = 6 then [g.lo, g.hi] else [])

/-- BLSQ's bounds are in order and no bound is a NaN. -/
def boundsOk (lo hi : Vec) : Bool :=
  (lo.zip hi).all fun p => match p with
    | (some a, some b) => !f64.isNan a && !f64.isNan b && !(f64.cmp 1 b a).1
    | _ => false

/-- The bit of SLV_STAT that a refused program sets; none when it passes. -/
def State.solveCheck (s : State) (p : Nat) (g : SolveProg) (h : MatHdr) : Option Nat :=
  let (taup, taur, scale, ctl) := s.policy p g.polset
  let src := if bitAt ctl 0 then scale else h.diagmax.getD 0
  let needF : Bool := g.factors || g.method == 1 || g.method == 2 || (g.iterative && g.prec == 2)
  let fOk : Bool := !needF || (s.matHdr g.fhdr).any fun f => f.n == h.n
  let vOk : Bool := g.vecs.all fun a => (s.vecHdr a).any fun v => v.n == h.n
  if ¬ fOk ∨ ¬ vOk ∨ (s.signature h).isNone ∨ (f64.neg g.tol && !f64.isZero g.tol || !finite64 g.tol) = true then some 11
  else if (g.method = 3 ∨ g.method = 6) ∧ h.sym = false then some 11
  else if g.method = 6 ∧ boundsOk (s.vecAtHdr g.lo h.n) (s.vecAtHdr g.hi h.n) = false then some 11
  else if (g.method = 2 ∨ (g.iterative = true ∧ g.prec = 2)) ∧ s.hasFactor p g = false then some 11
  else if g.iterative ∧ g.nscr < g.width * h.nb then some 9
  else if g.factors then
    if g.nscr = 0 then some 9
    else if (h.sparse = false ∧ 16384 < h.n) ∨ ((g.kind ≠ 2) ≠ (h.sym = true)) ∨
        (h.sparse = true ∧ patternClosed h.sym h.nb (s.pattern h) = false) then some 8
    else if (pivPolicy g.kind taup taur (pivScale src).1).isNone ∨ (bits ctl 7 4 ≠ 0 ∧ s.sameAddr g.fhdr g.matrix = true) then
      some 10
    else none
  else if g.iterative ∧ g.prec = 1 ∧ (pivPolicy g.kind taup taur (pivScale src).1).isNone then some 10
  else none

/-! ### The end of a request (R231, R232) -/

def State.setSolve (s : State) (p : Nat) (r : Option SolveRun) : State :=
  let x := s.part p
  s.setPart p { x with slv := { x.slv with run := r } }

/-- The status record and SLV_FINAL, and completion to the arc or the instruction. `pivs` says that a factor step ran. -/
def State.solveFinal (s : State) (p : Nat) (req : SolveReq) (status : Option W64) (final : Nat) (flags : BitVec 8)
    (iter : Nat) (resid : PVal Nat) (sig : W64) (pivs : Bool) : State :=
  let pc := if pivs then (s.reg (pgSlv p) 0x180).toNat else 0
  let pf := if pivs then (s.reg (pgSlv p) 0x18C).toNat else 0
  let rec_ : List (PVal Byte) :=
    (toLE 1 final ++ toLE 1 flags.toNat ++ toLE 2 0 ++ toLE 4 iter).map some ++ pBytes 8 resid ++
    (toLE 8 sig.toNat ++ toLE 4 s.tb.stepIdx.toNat ++ toLE 2 s.angle ++ toLE 2 0 ++ toLE 4 pc ++ toLE 4 pf ++
      List.replicate 24 0).map some
  let s1 := match status with
    | some a => (s.putX .unit a rec_).1
    | none => s
  let s2 := (s1.setReg (pgSlv p) 0x1B0 (BitVec.ofNat 32 (final + 256 * flags.toNat))).count (pgSlv p) 0x1D0
  let s3 := ((s2.setSolve p none).setPart p (s2.setSolve p none |>.part p).noOwn).raise (pgSlv p) 3
  match req.asker with
  | .arc e => s3.completeArc p e false
  | .tile t id => s3.finish t 2 id 0 (if final = 4 ∨ final = 6 then errNote req.addr final false else none)

/-- The STEP_LATE flag of a request that ran past its guard while it waited (R230). -/
def SolveReq.lateFlag (q : SolveReq) : BitVec 8 := if q.late then 1 else 0

/-- Refused: nothing changes but the status (R222). -/
def State.solveRefuse (s : State) (p : Nat) (req : SolveReq) (status : Option W64) (bit : Nat) (sig : W64) : State :=
  (((s.orReg (pgSlv p) 0x1A0 (1 <<< bit)).raise (pgSlv p) 2)).solveFinal p req status 6 req.lateFlag 0 (some 0) sig false

/-- The running request ends with `final`. -/
def State.solveEnd (s : State) (p : Nat) (g : SolveProg) (r : SolveRun) (final iter : Nat) (resid : PVal Nat) : State :=
  s.solveFinal p r.req (some g.status) final r.flags iter resid r.sig g.factors

/-- One BOUNDED stop (R231): SLV_STAT, its event, and the variance it counts. -/
def State.boundedStop (s : State) (p : Nat) (r : SolveRun) : State :=
  let s1 := ((s.orReg (pgSlv p) 0x1A0 0x4000).raise (pgSlv p) 4).count (pgSlv p) 0x1BC
  match r.req.asker with
  | .arc _ => s1.variance 4 p
  | .tile t _ => (s1.count (pgTile t) 0x148).variance 3 t

/-- Scratch contents are not said to be anything while a request runs or after it (R206, R223; log 6). -/
def State.scratch (s : State) (g : SolveProg) : State := s.undef .unit g.scratch (512 * g.nscr)

/-! ### Starting (R218 to R225) -/

/-- SOLVE arc (R218). -/
def execArcSolve (u e : Nat) (s : State) : Out :=
  .next (s.fire u e 8 fun x a =>
    let p := a.part u
    a.setPart u { p with slv := { p.slv with queue := p.slv.queue ++ [⟨x.arg, .arc e, false, x.guard_, false⟩] } })

/-- An ASSEMBLE program whose destination is this matrix is queued or running (R220). -/
def State.assembling (s : State) (p : Nat) (m : W64) : Bool :=
  let x := (s.part p).asm
  (x.queue.map (·.addr) ++ (match x.run with
    | some r => [r.addr]
    | none => [])).any fun a => match s.asmProg (BitVec.ofNat 64 a) with
      | some g => s.sameAddr g.matrix m
      | none => false

/-- The policy and guard of a request (R219). -/
def SolveReq.resolve (q : SolveReq) (g : SolveProg) : SolveReq :=
  match q.asker with
  | .arc _ => { q with bounded := g.bounded }
  | .tile _ _ => { q with guard_ := g.guard_ }

/-- The phase a request begins in. -/
def SolveProg.firstPhase (g : SolveProg) : SolvePhase :=
  if g.factors then .factor else if g.iterative then .iterate else .tri

/-- IEEE flags of a work list's items go to the tiles that run them (R105, R117, R211). DEDUCED: the sequencer's list gives its items in
order to the idle logical tiles in ascending order, over and over (R92; log 42). -/
def State.itemsFlags (s : State) (p : Nat) (fls : List Nat) : State :=
  let all := (List.range (s.part p).n).filterMap (s.ptile p)
  let idle := all.filter s.tileFree
  let ts := if idle.isEmpty then all else idle
  ((List.range fls.length).zip fls).foldl (fun a kf => match ts[kf.1 % ts.length]? with
    | some t => a.orReg (pgTile t) 0x180 (BitVec.ofNat 32 (kf.2 % 32))
    | none => a) s

/-- The running request of partition `p`, its program and its matrix. -/
def State.solveNow (s : State) (p : Nat) : Option (SolveRun × SolveProg × MatHdr) :=
  match (s.part p).slv.run with
  | none => none
  | some r => match s.solveBytes (BitVec.ofNat 64 r.req.addr) with
    | none => none
    | some b => (s.matHdr (solveProgOf b).matrix).map fun h => (r, solveProgOf b, h)

/-- The next work list of a factor step that is not done starts in the lower free slot of 0 and 1; while both are active it waits
(R244). -/
def State.slvTake (s : State) (p : Nat) : State :=
  match s.solveNow p with
  | some (r, _, h) =>
    if r.phase ≠ .factor ∨ r.slot.isSome ∨ h.nb ≤ r.col then s
    else match [0, 1].find? fun k => (((s.part p).wl[k]?).map (·.active)) == some false with
      | none => s
      | some k =>
        let x := s.part p
        s.setPart p { x with
          wl := x.wl.set k { WlSlot.free with active := true, own := true }
          slv := { x.slv with run := some { r with slot := some k } } }
  | none => s

/-- A request that passed every check. -/
def State.solveBegin (s : State) (p : Nat) (g : SolveProg) (h : MatHdr) (q : SolveReq) (consumed : Bool) (sig : W64) :
    State :=
  let (taup, taur, scale, ctl) := s.policy p g.polset
  let (sc, dflt) := pivScale (if bitAt ctl 0 then scale else h.diagmax.getD 0)
  let k := ((pivPolicy g.kind taup taur sc).map (·.1)).getD ⟨g.kind, false, 0, 0⟩
  let n := h.n
  let xh := s.vecHdr g.x
  let warm : Bool := g.iterative && g.warm && (match xh with
    | some v => v.sig == some sig.toNat
    | none => false)
  let reject : Bool := g.iterative && g.warm && !warm
  let x0 := if warm then s.vecAtHdr g.x n else zeros n
  let jac : List (List (PVal Nat) × List Nat × Nat) := if g.iterative ∧ g.prec = 1 then
    (List.range h.nb).map fun r => match s.brickAt h r r with
      | some b =>
        let e := factorBrick k (min 7 (8 * (r + 1) - n)) ((positions 8 8).map fun ij => s.fp64At (elemAddr h.bricks b ij.1 ij.2) 0)
        (e.brick g.kind, e.perm.map (fun (i : PVal Nat) => Option.getD i 0), e.fl)
      | none => (List.replicate 64 none, [], 0)
    else []
  let run : SolveRun :=
    { req := q, consumed := consumed, phase := g.firstPhase, col := 0, list := 0, slot := none, on := k.on, thr := k.thr, rep := k.rep
      piv := { PivStat.zero_ with scaleDef := dflt }, refineLeft := 0, iter := 0, vecs := [x0], scals := [], jac := jac.map fun x => (x.1, x.2.1)
      bnorm := if g.method = 0 then some 0 else vnorm (s.vecAtHdr g.b n)
      flags := q.lateFlag ||| (if reject then 2 else 0), late := q.late, sig := sig }
  let s1 := ((s.setSolve p (some run)).itemsFlags p (jac.map fun x => x.2.2)).scratch g |>.slvTake p
  if reject then ((s1.orReg (pgSlv p) 0x1A0 0x2000).raise (pgSlv p) 1).count (pgSlv p) 0x1D4 else s1

/-- The signature of a readable matrix, as a number: free where its index arrays are poison (log 6). -/
def State.sigOf (s : State) (h : MatHdr) : W64 × State :=
  match s.signature h with
  | some v => (BitVec.ofNat 64 v, s)
  | none => let (b, t) := s.freshBytes 8; (BitVec.ofNat 64 (leNat b), t)

/-- A readable program: refused, ended as EMPTY, or begun (R207, R222, R224). -/
def State.solveGo (s : State) (p : Nat) (g : SolveProg) (q : SolveReq) (reserved consumed : Bool) : State :=
  match s.matHdr g.matrix with
  | none => s.solveRefuse p q (some g.status) 11 0
  | some h =>
    let (sig, s1) := s.sigOf h
    let s2 := s1.setReg64 (pgSlv p) 0x1C8 sig.toNat
    if reserved then s2.solveRefuse p q (some g.status) 11 sig
    else if h.n = 0 then s2.solveFinal p q (some g.status) 1 q.lateFlag 0 (some 0) sig false
    else match s2.solveCheck p g h with
      | some bit => s2.solveRefuse p q (some g.status) bit sig
      | none => s2.solveBegin p g h q consumed sig

/-- R218 to R225: the head request starts, waits for its matrix, or is refused. A partition below 48 logical tiles takes none (R18). -/
def execSolveRequestStart (p : Nat) (s : State) : Out :=
  let x := s.part p
  if 16 ≤ p ∨ x.slv.run.isSome ∨ s.pageBusy (pgSlv p) ∨ s.takesWork p = false then .next s
  else match x.slv.queue with
    | [] => .next s
    | q0 :: rest =>
      let s0 := (s.setPart p { x with slv := { x.slv with queue := rest } }).setReg64 (pgSlv p) 0x1A8
        (q0.addr / 64 * 64 % 2 ^ 48)
      match s.solveBytes (BitVec.ofNat 64 q0.addr) with
      | none => .next (s0.solveRefuse p q0 none 11 0)
      | some b =>
        let g := solveProgOf b
        let q := q0.resolve g
        if solveReserved b then .next (s.unlessHeld fun _ => { s0 with cs.held := none }.solveGo p g q true false)
        else if s.assembling p g.matrix then .next s
        else
          let mine := x.slv.ready.find? fun m => s.sameAddr (BitVec.ofNat 64 m) g.matrix
          let s1 := match mine with
            | some m => s0.setPart p { s0.part p with slv := { (s0.part p).slv with ready := x.slv.ready.erase m } }
            | none => s0
          .next (s.unlessHeld fun _ => { s1 with cs.held := none }.solveGo p g q false mine.isSome)

/-- Abandon a request whose program or matrix can no longer be read: final status SOLVE_ERR, no record. -/
def State.solveLost (s : State) (p : Nat) : State :=
  match (s.part p).slv.run with
  | some r => s.solveRefuse p r.req none 11 r.sig
  | none => s

/-! ### The factor step (R203 to R206) -/

/-- A list cut into runs of `k`. -/
def chunksOf {α : Type} (k : Nat) (l : List α) : List (List α) :=
  (List.range ((l.length + k - 1) / k)).map fun i => (l.drop (i * k)).take k

/-- The work lists of brick column `c` (R206), each as its step, 0 pivot, 1 L, 2 trailing update, and the bricks its items write, in
ascending order and at most NSCR of them. -/
def State.factorPlan (s : State) (g : SolveProg) (h : MatHdr) (c : Nat) : List (Nat × List (Nat × Nat)) :=
  let ps := s.pattern h
  let low := ps.filter fun a => a.2 == c && decide (c < a.1)
  let trail := ps.filter fun a =>
    if h.sym then decide (c < a.2) && low.contains (a.1, c) && low.contains (a.2, c)
    else decide (c < a.2) && (a.1 == c || (decide (c < a.1) && low.contains (a.1, c) && ps.contains (c, a.2)))
  (0, [(c, c)]) :: ((chunksOf g.nscr low).map fun l => (1, l)) ++ (chunksOf g.nscr trail).map fun l => (2, l)

/-- Every stored element, as a map. -/
def State.matMap (s : State) (h : MatHdr) : Mx :=
  (List.range h.nb).foldl (fun m r => (s.rowBricks h r).foldl (fun m cb =>
    (positions 8 8).foldl (fun (m : Mx) ij => m.set_ (8 * r + ij.1) (8 * cb.1 + ij.2)
      (s.fp64At (elemAddr h.bricks cb.2 ij.1 ij.2) 0)) m) m) []

/-- Reading every stored brick of a matrix does beside giving them what a read does (R269). -/
def State.matNote (s : State) (h : MatHdr) : State :=
  (List.range h.nb).foldl (fun a r => (s.rowBricks h r).foldl (fun a cb => a.readNoteX (plus h.bricks (512 * cb.2)) 512) a) s

/-- Write back the bricks of `m` that `pick` names. -/
def State.putBricks (s : State) (h : MatHdr) (m : Mx) (pick : Nat → Nat → Bool) : State :=
  (List.range h.nb).foldl (fun a r => (s.rowBricks h r).foldl (fun a cb =>
    if pick r cb.1 then
      (positions 8 8).foldl (fun a ij =>
        (a.putX .unit (elemAddr h.bricks cb.2 ij.1 ij.2) (pBytes 8 (m.at_ (8 * r + ij.1) (8 * cb.1 + ij.2)))).1) a
    else a) a) s

/-- Rows that the search of pivot `i` of brick column `c` looks at (R204). -/
def searchRows (h : MatHdr) (c i : Nat) : List Nat :=
  if h.sparse then (List.range (8 * c + 8)).drop i else (List.range (8 * h.nb)).drop i

/-- The pivot step of brick column `c` (R203, R204, R209, R211): dense LU follows the whole column for its search. -/
def pivotPanel (k : PivPar) (h : MatHdr) (c : Nat) (st : PivStat) (m : Mx) : Elim :=
  let whole : Bool := k.kind == 2 && !h.sparse
  ((List.range 8).map fun i => 8 * c + i).foldl (fun e i =>
    elimStep k (8 * h.nb) h.n (fun i j => (whole || i / 8 == c) && j / 8 == c) (searchRows h c i) 0 e i) ⟨m, 0, st, []⟩

/-- One item of the lists of column `c` (R206): what brick (`br`, `bc`) becomes, with flags. `have_` says that brick (`c`, `bc`) of U is in
place already. -/
def factorItem (kind step : Nat) (m : Mx) (c br bc : Nat) (have_ : Bool) : List (PVal Nat) × Nat :=
  if step = 1 then
    (List.range 8).foldl (fun (a : List (PVal Nat) × Nat) i =>
      let (l, f) := rowOfL kind m c (8 * br + i)
      (a.1 ++ l, a.2 ||| f)) ([], 0)
  else
    let us := (List.range 8).map fun j =>
      if kind = 2 then (if have_ then ((List.range 8).map fun p => m.at_ (8 * c + p) (8 * bc + j), 0) else colOfU m c (8 * bc + j))
      else
        let l := (List.range 8).map fun p => updBy kind m (8 * c + p) (8 * bc + j)
        (l.map (·.1), l.foldl (fun x u => x ||| u.2) 0)
    let el := (positions 8 8).map fun ij =>
      if br = c then (((us.getD ij.2 ([], 0)).1).getD ij.1 none, 0)
      else if kind ≠ 2 ∧ br = bc ∧ ij.1 < ij.2 then (m.at_ (8 * br + ij.1) (8 * bc + ij.2), 0)
      else trailAt m c (8 * br + ij.1) (8 * bc + ij.2) (us.getD ij.2 ([], 0)).1
    (el.map (·.1), (us.map (·.2) ++ el.map (·.2)).foldl (· ||| ·) 0)

/-- The matrix that list `l` of column `c` reads: the source before the first commit, the factor after it. -/
def factorFrom (h hf : MatHdr) (c l : Nat) : MatHdr := if c = 0 ∧ l < 2 then h else hf

/-- The items of a work list run (R206): each writes its scratch slot, and its flags go to its tile; the pivot step's record is taken. -/
def State.factorRun (s : State) (p : Nat) (g : SolveProg) (h hf : MatHdr) (r : SolveRun) (step : Nat) (bs : List (Nat × Nat)) :
    State × PivStat :=
  let k : PivPar := ⟨g.kind, r.on, r.thr, r.rep⟩
  let src := factorFrom h hf r.col r.list
  let m := s.matMap src
  let e := pivotPanel k h r.col r.piv m
  let ready := (s.factorPlan g h r.col).take (r.list / 2) |>.flatMap (·.2)
  let outs := bs.map fun b =>
    if step = 0 then
      ((positions 8 8).map fun ij =>
        if g.kind ≠ 2 ∧ ij.1 < ij.2 then some 0 else e.m.at_ (8 * r.col + ij.1) (8 * r.col + ij.2), e.fl)
    else factorItem g.kind step m r.col b.1 b.2 (ready.contains (r.col, b.2))
  let s1 := ((List.range outs.length).zip outs).foldl (fun (a : State) ko => a.writeVec (plus g.scratch (512 * ko.1)) ko.2.1)
    (s.matNote src)
  (s1.itemsFlags p (outs.map (·.2)), if step = 0 then e.st else r.piv)

/-- A commit list copies the scratch slots to their bricks (R206). With the pivot step's, an out-of-place factor takes over the source,
and LU interchanges its rows and writes their permutation (R204). -/
def State.factorCommit (s : State) (g : SolveProg) (h hf : MatHdr) (r : SolveRun) (step : Nat) (bs : List (Nat × Nat)) : State :=
  let c := r.col
  let s1 :=
    if step ≠ 0 then s
    else
      let m := s.matMap (factorFrom h hf c r.list)
      let e := pivotPanel ⟨g.kind, r.on, r.thr, r.rep⟩ h c r.piv m
      let m1 := if g.kind = 2 then
          ((List.range 8).zip e.perm).foldl (fun x jr =>
            moveRows x (8 * h.nb) (8 * c + jr.1) (searchRows h c (8 * c + jr.1)) jr.2) m
        else m
      let changed := fun br bc => (positions 8 8).any fun ij =>
        m1.at_ (8 * br + ij.1) (8 * bc + ij.2) != m.at_ (8 * br + ij.1) (8 * bc + ij.2)
      let u := s.putBricks hf m1 fun br bc => (c == 0 && !s.sameAddr g.fhdr g.matrix) || changed br bc
      if g.kind = 2 then
        ((List.range 8).zip e.perm).foldl (fun a jr =>
          if 8 * c + jr.1 < h.n then (a.putX .unit (plus g.perm (4 * (8 * c + jr.1))) (pBytes 4 jr.2)).1 else a) u
      else u
  ((List.range bs.length).zip bs).foldl (fun a kb => match s.brickAt h kb.2.1 kb.2.2 with
    | some b => a.writeVec (plus hf.bricks (512 * b)) (s.readVec (plus g.scratch (512 * kb.1)) 64)
    | none => a) s1

/-- Work list `r.list` of column `r.col` is done, an even one its items, an odd one its commit: what it leaves, and the run's place. -/
def State.factorDone (s : State) (p : Nat) (g : SolveProg) (h : MatHdr) (r : SolveRun) : State :=
  match s.matHdr g.fhdr with
  | none => s
  | some f =>
    let hf := h.withBricks f.bricks
    let plan := s.factorPlan g h r.col
    let (step, bs) := plan.getD (r.list / 2) (0, [])
    let (s1, st) := if r.list % 2 = 0 then s.factorRun p g h hf r step bs else (s.factorCommit g h hf r step bs, r.piv)
    let last : Bool := decide (2 * plan.length ≤ r.list + 1)
    let s2 := s1.setPart p (s1.part p).noOwn
    (s2.setSolve p (some { r with
      col := if last then r.col + 1 else r.col, list := if last then 0 else r.list + 1, slot := none, piv := st })).slvTake p

/-- R206: a work list of the running factor step completes, and the next one or the commit list starts; one that has no slot starts
first (R244). -/
def execFactorWorkListDone (p : Nat) (s : State) : Out :=
  if 16 ≤ p ∨ s.pageBusy (pgSlv p) then .next s
  else match s.solveNow p with
    | none => .next (s.solveLost p)
    | some (r, g, h) =>
      if r.phase ≠ .factor ∨ h.nb ≤ r.col then .next s
      else if r.slot.isNone then .next (s.slvTake p)
      else .next (s.unlessHeld fun a => a.factorDone p g h r)

/-! ### Commit points (R225 to R231) -/

/-- FP64 comparison a < b, a = b; poison and NaN give false. -/
def plt (a b : PVal Nat) : Bool := match a, b with
  | some x, some y => (f64.cmp 1 x y).1
  | _, _ => false
def ple (a b : PVal Nat) : Bool := match a, b with
  | some x, some y => (f64.cmp 2 x y).1
  | _, _ => false
def pisZero (a : PVal Nat) : Bool := match a with
  | some x => f64.isZero x
  | none => false
/-- Neither a NaN, nor an infinity, nor poison. -/
def pfinite (a : PVal Nat) : Bool := match a with
  | some x => finite64 x
  | none => false

/-- The iterate goes to X with X's SIG, and SLV_ITER and SLV_RESID take their values (R228). -/
def State.commitX (s : State) (p : Nat) (g : SolveProg) (sig : W64) (x : Vec) (iter : Nat) (resid : PVal Nat) : State :=
  let s1 := match s.vecHdr g.x with
    | some v => (s.writeVec v.data x).putX .unit (plus g.x 16) ((toLE 8 sig.toNat).map some) |>.1
    | none => s
  let s2 := s1.setReg (pgSlv p) 0x1B4 (BitVec.ofNat 32 iter)
  match resid with
  | some v => s2.setReg64 (pgSlv p) 0x1C0 v
  | none => let (b, t) := s2.freshBytes 8; t.setReg64 (pgSlv p) 0x1C0 (leNat b)

/-- RESID, ‖r‖ / ‖b‖ (Table 9.5, R101). -/
def relResid (rn bn : PVal Nat) : PVal Nat := (pdiv rn bn).1

/-- M\r: identity, block Jacobi or the factor. -/
def State.precond (s : State) (g : SolveProg) (h : MatHdr) (jac : List (List (PVal Nat) × List Nat)) (v : Vec) : Vec :=
  if g.prec = 0 then v
  else if g.prec = 1 then
    (((List.range jac.length).zip jac).flatMap fun k =>
      let m := min 8 (h.n - 8 * k.1)
      brickSolve g.kind m k.2.2 k.2.1 ((v.drop (8 * k.1)).take m))
  else match s.matHdr g.fhdr with
    | some f => s.factorSolve (h.withBricks f.bricks) g.kind g.perm v
    | none => v.map fun _ => none

/-- What one commit unit of an iterative method leaves: the iterate and the method's data, the norm tested, the count, or
a breakdown. -/
structure Unit_ where
  x : Vec
  vecs : List Vec
  scals : List (PVal Nat)
  rnorm : PVal Nat
  iter : Nat
  broke : Bool
  deriving DecidableEq, Repr

/-- PCG (R228). The start is the commit unit of iteration 0. -/
def pcgStart (mv : Vec → Vec → Vec) (pre : Vec → Vec) (b x : Vec) : Unit_ :=
  let r := mv b x
  let z := pre r
  ⟨x, [r, z], [vdot64 r z], vnorm r, 0, false⟩

/-- One PCG iteration: `mv c v` is c - A v; A p is formed from +0. -/
def pcgStep (av : Vec → Vec) (pre : Vec → Vec) (fresh : Bool) (u : Unit_) : Unit_ :=
  let r := u.vecs.getD 0 []
  let p0 := u.vecs.getD 1 []
  let rho0 := u.scals.getD 0 none
  let z := if fresh then p0 else pre r
  let rho := if fresh then rho0 else vdot64 r z
  let p := if fresh then p0 else axpy false (pdiv rho rho0).1 p0 z
  let q := av p
  let den := vdot64 p q
  if ¬ plt (some 0) den then { u with broke := true }
  else
    let al := (pdiv rho den).1
    let r1 := axpy true al q r
    ⟨axpy false al p u.x, [r1, p], [rho], vnorm r1, u.iter + 1, false⟩

/-- BiCGStab (R228). -/
def bicgStart (mv : Vec → Vec → Vec) (b x : Vec) : Unit_ :=
  let r := mv b x
  ⟨x, [r, r, zeros x.length, zeros x.length], [some one64, some one64, some one64], vnorm r, 0, false⟩

def bicgStep (av : Vec → Vec) (pre : Vec → Vec) (u : Unit_) : Unit_ :=
  let v := fun i => u.vecs.getD i []
  let c := fun i => u.scals.getD i none
  let rn := vdot64 (v 1) (v 0)
  if rn.isNone || pisZero rn || pisZero (c 2) || (c 2).isNone then { u with broke := true }
  else
    let beta := (pmul (pdiv rn (c 0)).1 (pdiv (c 1) (c 2)).1).1
    let p := axpy false beta (axpy true (c 2) (v 2) (v 3)) (v 0)
    let ph := pre p
    let vv := av ph
    let al := (pdiv rn (vdot64 (v 1) vv)).1
    let sv := axpy true al vv (v 0)
    let sh := pre sv
    let t := av sh
    let om := (pdiv (vdot64 t sv) (vdot64 t t)).1
    let x := axpy false om sh (axpy false al ph u.x)
    let r := axpy true om t sv
    ⟨x, [r, v 1, vv, p], [rn, al, om], vnorm r, u.iter + 1, false⟩

/-- A rotation applied to a pair that may be poison (log 6). -/
def prot (cs : PVal (Nat × Nat)) (a b : PVal Nat) : PVal Nat × PVal Nat :=
  match cs, a, b with
  | some (c, s), some x, some y => let (u, v) := Config.rotate c s x y; (some u, some v)
  | _, _, _ => (none, none)

/-- The inner loop of GMRES: basis vectors, columns of the triangle, rotations, the rotated right-hand side. -/
structure Krylov where
  vs : List Vec
  cols : List (List (PVal Nat))
  rots : List (PVal (Nat × Nat))
  gs : List (PVal Nat)
  stop : Bool
  deriving DecidableEq, Repr

def gmresInner (w : Vec → Vec) (tol : PVal Nat) : Nat → Krylov → Krylov
  | 0, k => k
  | n + 1, k =>
    if k.stop then k
    else
      let w0 := w (k.vs.getLastD [])
      let (w1, hs) := k.vs.foldl (fun (a : Vec × List (PVal Nat)) v =>
        let h := vdot64 a.1 v
        (axpy true h v a.1, a.2 ++ [h])) (w0, [])
      let hn := vnorm w1
      let col := ((List.range k.rots.length).zip k.rots).foldl (fun (c : List (PVal Nat)) ir =>
        let (a, b) := prot ir.2 (c.getD ir.1 none) (c.getD (ir.1 + 1) none)
        (c.set ir.1 a).set (ir.1 + 1) b) hs
      let j := k.rots.length
      let rot : PVal (Nat × Nat) := match col.getD j none, hn with
        | some a, some b => some (Config.givens a b)
        | _, _ => none
      let (d, _) := prot rot (col.getD j none) hn
      let (g0, g1) := prot rot (k.gs.getD j none) (some 0)
      let est := g1.map (· % f64.signBit)
      let stop := pisZero hn || hn.isNone || ple est tol
      gmresInner w tol n
        { vs := if stop then k.vs else k.vs ++ [w1.map fun e => (pdiv e hn).1]
          cols := k.cols ++ [col.set j d], rots := k.rots ++ [rot], gs := (k.gs.set j g0) ++ [g1], stop := stop }

/-- One restart cycle of GMRES (R228). -/
def gmresCycle (mv : Vec → Vec → Vec) (av pre : Vec → Vec) (b : Vec) (tol : PVal Nat) (m : Nat) (u : Unit_) : Unit_ :=
  let r := mv b u.x
  let beta := vnorm r
  let k := gmresInner (fun v => av (pre v)) tol m ⟨[r.map fun e => (pdiv e beta).1], [], [], [beta], false⟩
  let j := k.cols.length
  let up := (List.range j).map fun i =>
    (((List.range j).drop (i + 1)).map fun c => (c, (k.cols.getD c []).getD i none), (k.cols.getD i []).getD i none)
  let y := backward false up (k.gs.take j)
  let vy := (List.range u.x.length).map fun i =>
    fmaChain false (some 0) ((k.vs.zip y).map fun p => (Vec.at_ p.1 i, p.2))
  let x := axpy false (some one64) (pre vy) u.x
  let r1 := mv b x
  ⟨x, [r1], [], vnorm r1, u.iter + j, false⟩

/-- VCLAMP's rule (Table 6.2). -/
def pclamp (x lo hi : PVal Nat) : PVal Nat :=
  match x, lo, hi with
  | some a, some l, some h => some (f64.minmax false (f64.minmax true a l).1 h).1
  | _, _, _ => none

def clampVec (x lo hi : Vec) : Vec := (List.range x.length).map fun i => pclamp (x.at_ i) (lo.at_ i) (hi.at_ i)

/-- g := A x - b, and g outside F set to +0 (R228). -/
def projected (rows : List (List (Nat × PVal Nat))) (b lo hi x : Vec) : Vec × List Bool :=
  let g := matVec false rows (b.map pneg) x
  let inF := (List.range x.length).map fun i =>
    let eq := fun (v : Vec) => match x.at_ i, v.at_ i with
      | some a, some c => (f64.cmp 0 a c).1
      | _, _ => false
    !(eq lo && plt (some 0) (g.at_ i)) && !(eq hi && plt (g.at_ i) (some 0))
  (g, inF)

def mask (inF : List Bool) (v : Vec) : Vec := (v.zip inF).map fun p => if p.2 then p.1 else some 0

/-- Inner PCG of BLSQ: at most `n` iterations from 0. -/
def innerPcg (av pre : Vec → Vec) (tol : PVal Nat) : Nat → Bool → Unit_ → Unit_
  | 0, _, u => u
  | n + 1, first, u =>
    if u.broke || ple u.rnorm tol then u else innerPcg av pre tol n false (pcgStep av pre first u)

def blsqStep (rows : List (List (Nat × PVal Nat))) (pre : Vec → Vec) (b lo hi : Vec) (tolRel : Nat) (inner : Nat)
    (u : Unit_) : Unit_ :=
  let (g, inF) := projected rows b lo hi u.x
  let rows' := ((rows.zip inF).map fun r => if r.2 then r.1.filter fun e => inF.getD e.1 false else [])
  let rhs := mask inF (g.map pneg)
  let av := fun v => mask inF (matVec false rows' (zeros u.x.length) v)
  let pr := fun v => mask inF (pre v)
  let mv := fun c v => mask inF (matVec true rows' c v)
  let u0 := pcgStart mv pr rhs (zeros u.x.length)
  let w := innerPcg av pr (pmul (some tolRel) (vnorm rhs)).1 inner true u0
  let x := clampVec (axpy false (some one64) w.x u.x) lo hi
  let (g1, f1) := projected rows b lo hi x
  ⟨x, [], [], vnorm (mask f1 g1), u.iter + 1, w.broke⟩

/-- The next commit unit of an iterative method; iteration 0 when `fresh`. -/
def State.nextUnit (s : State) (g : SolveProg) (h : MatHdr) (r : SolveRun) (fresh : Bool) : Unit_ :=
  let rows := s.matRows h
  let b := s.vecAtHdr g.b h.n
  let mv := fun c v => matVec true rows c v
  let av := fun v => matVec false rows (zeros h.n) v
  let pre := s.precond g h r.jac
  let tol := (pmul (some g.tol) r.bnorm).1
  let x := r.vecs.getD 0 []
  let u : Unit_ := ⟨x, r.vecs.drop 1, r.scals, none, r.iter, false⟩
  let lo := s.vecAtHdr g.lo h.n
  let hi := s.vecAtHdr g.hi h.n
  if fresh then
    if g.method = 3 then pcgStart mv pre b x
    else if g.method = 4 then bicgStart mv b x
    else if g.method = 5 then ⟨x, [], [], vnorm (mv b x), 0, false⟩
    else
      let xc := clampVec x lo hi
      let (gr, inF) := projected rows b lo hi xc
      ⟨xc, [], [], vnorm (mask inF gr), 0, false⟩
  else if g.method = 3 then pcgStep av pre (r.iter == 0) u
  else if g.method = 4 then bicgStep av pre u
  else if g.method = 5 then gmresCycle mv av pre b tol (min g.inner (g.maxit - r.iter)) u
  else blsqStep rows pre b lo hi g.tol g.inner u

/-- The request's guard is reached now (R230). -/
def State.solveGuard (s : State) (r : SolveRun) : Bool := s.guardReached r.req.guard_

/-- One commit point of an iterative method (R227, R228, R230, R231). A phase's first commit point is iteration 0. -/
def State.iterate (s : State) (p : Nat) (g : SolveProg) (h : MatHdr) (r : SolveRun) : State :=
  if r.list = 0 ∧ pisZero r.bnorm = true then
    let rs := relResid (some 0) r.bnorm
    (s.commitX p g r.sig (zeros h.n) 0 rs).solveEnd p g r 0 0 rs
  else
    let fresh : Bool := r.list == 0
    let u := s.nextUnit g h r fresh
    if u.broke then
      let rs : PVal Nat := some (s.reg64 (pgSlv p) 0x1C0)
      s.solveEnd p g r 4 r.iter rs
    else
      let rs := relResid u.rnorm r.bnorm
      let s1 := s.commitX p g r.sig u.x u.iter rs
      let tol := (pmul (some g.tol) r.bnorm).1
      if ¬ pfinite u.rnorm then
        s1.solveEnd p g (if u.rnorm.isSome then { r with flags := r.flags ||| 0x10 } else r) 4 u.iter rs
      else if ple u.rnorm tol then s1.solveEnd p g r 0 u.iter rs
      else if g.maxit ≤ u.iter then s1.solveEnd p g r 2 u.iter rs
      else if r.req.bounded ∧ fresh = false ∧ s.solveGuard r = true then
        (s1.boundedStop p r).solveEnd p g r 3 u.iter rs
      else s1.setSolve p (some { r with list := 1, iter := u.iter, vecs := u.x :: u.vecs, scals := u.scals })

/-- b - A x (R226). -/
def State.residual (s : State) (g : SolveProg) (h : MatHdr) (x : Vec) : Vec :=
  matVec true (s.matRows h) (s.vecAtHdr g.b h.n) x

/-- F\v with the program's factor. -/
def State.byFactor (s : State) (g : SolveProg) (h : MatHdr) (v : Vec) : Vec :=
  match s.matHdr g.fhdr with
  | some f => s.factorSolve (h.withBricks f.bricks) g.kind g.perm v
  | none => v.map fun _ => none

/-- A refinement step is cut off: the request goes to its triangular solve and its status says so (R231). -/
def State.refineCut (s : State) (p : Nat) (r : SolveRun) : State :=
  (s.boundedStop p r).setSolve p (some { r with phase := .tri, refineLeft := 0, flags := r.flags ||| 0x40 })

/-- One refinement step (R229). -/
def State.refine (s : State) (p : Nat) (g : SolveProg) (h : MatHdr) (r : SolveRun) : State :=
  let x := r.vecs.getD 0 []
  let v := s.residual g h x
  let x1 := axpy false (some one64) (s.byFactor g h v) x
  let rs := relResid (vnorm v) r.bnorm
  let s1 := s.commitX p g r.sig x1 0 rs
  let r1 := { r with vecs := [x1], scals := [rs], refineLeft := r.refineLeft - 1, flags := r.flags ||| 0x20 }
  if r1.refineLeft = 0 then s1.setSolve p (some { r1 with phase := .tri })
  else if r.req.bounded ∧ s.solveGuard r = true then s1.refineCut p r1
  else s1.setSolve p (some r1)

/-- The triangular solve: x := F\b, or after refinement x plus F\(b - A x). -/
def State.triangle (s : State) (p : Nat) (g : SolveProg) (h : MatHdr) (r : SolveRun) : State :=
  let refined : Bool := r.flags.getLsbD 5
  let x := r.vecs.getD 0 []
  let x1 := if refined then axpy false (some one64) (s.byFactor g h (s.residual g h x)) x
    else s.byFactor g h (s.vecAtHdr g.b h.n)
  let rs := if refined then r.scals.getD 0 none else some 0
  (s.commitX p g r.sig x1 0 rs).solveEnd p g r 5 0 rs

/-- The pivot registers at the end of a factorisation (R210); with a poisoned pivot tested they are free (R106; log 6). -/
def State.setPivots (s : State) (p : Nat) (st : PivStat) : State :=
  let (b, s0) := if st.pois then s.freshBytes 20 else (toLE 4 st.rep ++ toLE 4 st.zero ++ toLE 4 st.nf ++ (match st.first with
    | some i => toLE 4 (0x80000000 + i)
    | none => toLE 4 0) ++ toLE 4 st.flags, s)
  [(0x180, 0, ones32), (0x184, 4, ones32), (0x188, 8, ones32), (0x18C, 12, 0x87FFFFFF), (0x190, 16, 0x1F)].foldl
    (fun (a : State) (e : Nat × Nat × W32) => a.setReg (pgSlv p) e.1 (BitVec.ofNat 32 (field b e.2.1 4) &&& e.2.2)) s0

/-- The end of the whole factor (R207, R210): the pivot registers, then refinement, the solve or the iteration. -/
def State.factorEnd (s : State) (p : Nat) (g : SolveProg) (r : SolveRun) : State :=
  let st := r.piv
  let s1 := s.setPivots p st
  let x := s1.part p
  let s2 := s1.setPart p { x with slv := { x.slv with
    factors := (g.fhdr.toNat, g.kind) :: x.slv.factors.filter fun f => !s.sameAddr (BitVec.ofNat 64 f.1) g.fhdr } }
  let fl : BitVec 8 := r.flags ||| (if st.zero ≠ 0 then 8 else if st.rep ≠ 0 then 4 else 0)
  let refine := if st.zero ≠ 0 ∨ st.rep ≠ 0 then bits (s.policy p g.polset).2.2.2 7 4 else 0
  let r1 := { r with flags := fl, refineLeft := refine, list := 0 }
  if g.method = 0 then (s2.setReg (pgSlv p) 0x1B4 0 |>.setReg64 (pgSlv p) 0x1C0 0).solveEnd p g r1 5 0 (some 0)
  else if g.iterative then s2.setSolve p (some { r1 with phase := .iterate })
  else if refine = 0 then s2.setSolve p (some { r1 with phase := .tri })
  else if r.req.bounded ∧ s.solveGuard r = true then s2.refineCut p r1
  else s2.setSolve p (some { r1 with phase := .refine })

/-- What the reads of the matrix and the factor do beside (R269). -/
def State.solveNote (s : State) (g : SolveProg) (h : MatHdr) : State :=
  match s.matHdr g.fhdr with
  | some f => (s.matNote h).matNote (h.withBricks f.bricks)
  | none => s.matNote h

/-- R228 to R231: the running request reaches its next commit point. -/
def execSolveCommitPoint (p : Nat) (s : State) : Out :=
  if 16 ≤ p ∨ s.pageBusy (pgSlv p) then .next s
  else match s.solveNow p with
    | none => .next (s.solveLost p)
    | some (r, g, h) =>
      .next (s.unlessHeld fun a =>
        match r.phase with
        | .factor => if r.col < h.nb then a else a.factorEnd p g r
        | .refine => (a.solveNote g h).refine p g h r
        | .tri => (a.solveNote g h).triangle p g h r
        | .iterate => ((a.solveNote g h).iterate p g h r).scratch g)

/-- A request past its guard: LATE, STEP_LATE and the count (R230). -/
def State.solveLateSaid (s : State) (p : Nat) : State :=
  ((s.orReg (pgSlv p) 0x1A0 0x1000).raise (pgSlv p) 0).count (pgSlv p) 0x1B8

/-- The guard of a request that has not started (R219). -/
def State.waitGuard (s : State) (q : SolveReq) : Nat :=
  match q.asker, s.solveBytes (BitVec.ofNat 64 q.addr) with
  | .arc _, _ => q.guard_
  | .tile _ _, some b => (solveProgOf b).guard_
  | .tile _ _, none => 0

/-- R230: the running request, or the one at the head of the queue that waits for its matrix, passes its guard for the first time. -/
def execSolveGuardLate (p : Nat) (s : State) : Out :=
  let x := s.part p
  if 16 ≤ p then .next s
  else match x.slv.run, x.slv.queue with
    | some r, _ =>
      if r.late = false ∧ s.solveGuard r = true then
        .next ((s.setSolve p (some { r with late := true, flags := r.flags ||| 1 })).solveLateSaid p)
      else .next s
    | none, q :: rest =>
      if q.late = false ∧ s.guardReached (s.waitGuard q) = true then
        .next ((s.setPart p { x with slv := { x.slv with queue := { q with late := true } :: rest } }).solveLateSaid p)
      else .next s
    | none, [] => .next s

end Sys2Proof.Machine
end

