-- ==== Sys2Proof/Machine/Clock.lean ====
section
/-! DEFINITION. One nanosecond: pod time (R43, R44), and what goes on by itself meanwhile: swaps of slices (R87), the solver's wait for a
slot (R244), coding that was held (R372), and the counters of held and throttled cycles (R273, R341, R372, R448). -/
namespace Sys2Proof.Machine

/-- The running swap of partition `p` goes on (R87). -/
def State.swapTick (s : State) (p : Nat) : State :=
  match (s.part p).swap with
  | w :: _ => s.swapSegs p (swapDue s.clk w.since)
  | [] => s

/-- The solver sequencer of partition `p` has a list to start and no slot for it yet (R244). -/
def State.slotTick (s : State) (p : Nat) : State :=
  match (s.part p).slv.run with
  | some r => if r.phase = .factor ∧ r.slot.isNone then s.slvTake p else s
  | none => s

/-- A cycle of partition `p`'s stack spent throttled (Table 12.9). -/
def State.throttleTick (s : State) (p : Nat) : State := if (s.part p).far.refmode = 3 then s.count (pgFar p) 0x208 else s

/-- The core cycles of the nanosecond before this one in which core `c` holds a posting for a credit (R448). -/
def State.stallTick (s : State) (c : Nat) : State :=
  if (s.core_ c).heldPost.isSome then
    s.count (pgCore c) 0x11C (s.clk * s.coreCycles5 c / 5 - (s.clk - 1) * s.coreCycles5 c / 5)
  else s

/-- A write held in the nanosecond of a commit is held no longer (R386). -/
def State.holdTick (s : State) : State :=
  if s.cs.held = some 1 ∧ s.commitDue = false then { s with cs := { s.cs with held := none } } else s

/-- One nanosecond passes. -/
def State.nanosecond (s : State) : State :=
  let s1 := s.tbTick
  let s2 := (s.parts.map (·.1)).foldl (fun a p => ((a.swapTick p).slotTick p).throttleTick p) s1
  let s3 := (List.range 64).foldl State.stallTick (if s2.vc1Held then s2.count pgColl 0x130 else s2)
  let s4 := s3.codeResume
  if s4.cs.held.isSome then (s4.count pgCs 0x128).holdTick else s4

/-- R44: the nanosecond in which the free-running count reaches 1023. -/
def execTimeSlew (s : State) : Out :=
  if s.tb.timevalid && s.tb.slewCnt == 1022 then .next s.nanosecond else .next s

end Sys2Proof.Machine
end

