-- ==== Sys2Proof/Machine/Fault.lean ====
section
/-! DEFINITION. The fault log and its classification (R390 to R397, R405), the rotation audit (R401, R402), steward takeover
(R400), and the writes of PGCTL that fence a unit and acknowledge a record (R399, R487). -/
namespace Sys2Proof.Machine

/-- The active steward runs: its firmware has started, no bite has stopped it, and no takeover is under way (R400, R420,
R434). -/
def State.stewardOn (s : State) : Bool :=
  s.boot.stewardUp && !s.rst.stopped && !s.rst.takeover && !s.rst.noSteward && !s.rst.warmReq

/-! ### Error records at the steward -/

/-- Class of a record, as the log takes it: a further report of a unit already FENCED is class INFO (R405). -/
def State.logClass (s : State) (b : List Byte) : Nat :=
  let u := field b 2 2
  if field b 4 1 = 5 ∧ u < 1802 ∧ (s.unit u).st = .fenced then 0 else field b 4 1

/-- A record with its class set and its check made again. -/
def recWithClass (b : List Byte) (c : Nat) : List Byte :=
  let x := b.take 4 ++ toLE 1 c ++ slice_ b 5 55
  x ++ toLE 4 (crc32c x).toNat

/-- Append a record to the fault log (R393). -/
def State.logRecord (s : State) (b : List Byte) : State :=
  let s1 := (s.put .steward (s.logBase + 64 * (s.logCnt % 4096)) (b.map some)).1
  { s1 with logCnt := s.logCnt + 1, logHead := BitVec.ofNat 32 (field b 56 4 + 1) }

/-- The classes that count (Table 17.2). -/
def counted (cls : Nat) : Bool := cls == 2 || cls == 4 || cls == 5 || cls == 6

/-- R393, R395, R397: the next record that has reached the steward. -/
def execErrorRecord (s : State) : Out :=
  if s.stewardOn = false then .next s
  else match s.router.inbox with
    | [] => .next s
    | b :: r =>
      let s1 := { s with router.inbox := r }
      let c := s.logClass b
      let s2 := s1.logRecord (if c = field b 4 1 then b else recWithClass b c)
      let u := field b 2 2
      .next (if counted c = true ∧ u < 1802 then (s2.classify u c).respond (field b 0 2) u c else s2)

/-- R394: the two-copy write of the oldest changed history entry ends; with SFDP_ERR nothing is written (R426). -/
def execHistoryWriteDone (ok : Bool) (s : State) : Out :=
  match s.opt.histDue with
  | [] => .next s
  | u :: r =>
    if ¬ s.opt.sfdpOk then .next s
    else
      let s1 := { s with opt.histDue := r }
      .next (if ok then { s1 with opt.hist := mput Hist.clean s1.opt.hist u (s.histOf u) }
        else (s1.orReg pgFault 0x100 0x80).raise pgFault 5)

/-- R400: the P-die 1 steward takes over. -/
def execStewardTakeover (s : State) : Out :=
  if s.rst.takeover = false then .next s
  else
    let s1 := { s with rst.takeover := false, rst.active1 := true, rst.stopped := false, boot.stewardUp := true }
    .next (s1.report pgFault ⟨1801, 0, 0, 0, 0, 0, 0⟩ (some 4)).updRepl

/-- R399: a write of 1 to PGCTL.FENCE. -/
def execPgctlFence (page : Nat) (s : State) : Out :=
  match pageUnit page with
  | none => .next s
  | some u =>
    let s1 := s.report page ⟨u, 0, 0, 0, 0, 0, 0⟩ none
    let st := (s.unit u).st
    .next (if st = .active ∨ st = .spare ∨ st = .audit then s1.fence u else s1)

/-- R487: a write of 1 to PGCTL.ERRACK; a record written in the same cycle keeps PGSTAT.ERR set (R497). -/
def execPgctlErrack (page : Nat) (s : State) : Out :=
  .next { s with errSet := s.errSet.filter fun p => p != page || (mheld s.recWas p).isSome }

/-! ### Rotation audit (R401) -/

/-- Logical tile `k` of partition `p` is IDLE with empty queues, on its physical tile. -/
def State.auditIdle (s : State) (p k : Nat) : Bool :=
  match s.ptile p k with
  | some t => (s.tile t).seq == .idle && (s.tile t).queues.isEmpty && (s.tile t).loading.isNone
  | none => false

/-- The lowest-indexed TRANSIENT FENCED tile of the partition enters AUDIT (R401 step 6). -/
def State.auditFenced (s : State) (p : Nat) : State :=
  match (List.range 72).find? fun t => (s.unit (p * 72 + t)).st == .fenced && (s.histOf (p * 72 + t)).st == 1 with
  | some t => (s.setUnit (p * 72 + t) ⟨.audit, none⟩).tileBlank (p * 72 + t) .idle
  | none => s

/-- The arc cannot have its spare (R401 step 3). -/
def State.auditRefuse (s : State) (p e : Nat) : State := (s.orReg pgFault 0x100 0x20).failArc p e 2

/-- The spare an AUDIT arc names: the lowest free one, or the slot it gives. -/
def State.auditSpare (s : State) (p arg : Nat) : Option Nat :=
  if bitAt arg 15 then (s.spares p).head?
  else if (s.spares p).contains (bits arg 14 8) then some (bits arg 14 8) else none

/-- ARC_AUDIT (R401): the step filter, the logical tile and the spare; the copy begins if the tile is IDLE. -/
def execArcAudit (u e : Nat) (s : State) : Out :=
  .next (s.fire u e 6 fun x a =>
    let every := bits x.arg 31 16
    let i := a.tb.stepIdx.toNat
    let n := (a.part u).n
    if every = 0 ∨ i % every ≠ 0 then a.completeArc u e false
    else
      let k := if bitAt x.arg 32 ∧ n ≠ 0 then (bits x.arg 5 0 + i / every) % n else bits x.arg 5 0
      if n ≤ k then a.completeArc u e false
      else
        let c? := a.auditSpare u x.arg
        let b := a.auditFenced u
        match c? with
        | none => b.auditRefuse u e
        | some c =>
          let j : Audit := ⟨e, k, c, b.auditIdle u k⟩
          b.setPart u { b.part u with audit := (b.part u).audit ++ [j] })

def State.auditDrop (s : State) (p e : Nat) : State :=
  let x := s.part p
  s.setPart p { x with audit := x.audit.filter fun a => a.entry != e }

/-- The tile store and token counters are copied, the map is written and the arc completes; the freed tile is in AUDIT. -/
def State.auditMove (s : State) (p : Nat) (a : Audit) (f : Nat) : State :=
  let t := p * 72 + a.c
  let s1 := { s with mem := s.mem.copyRange (tstoreOf f) (tstoreOf t) 0x180000 }
  let s2 := (List.range 64).foldl (fun b i => b.setReg (pgTile t) (0x200 + 4 * i) (s.reg (pgTile f) (0x200 + 4 * i))) s1
  let s3 := (s2.moveTile p a.k (f % 72) a.c).setUnit f ⟨.audit, none⟩
  (s3.auditDrop p a.entry).completeArc p a.entry false

/-- An audit whose tile is still busy at the guard, or at overtime without one, moves nothing (R401 step 5). -/
def State.auditSkip (s : State) (p : Nat) (a : Audit) (f : Nat) : State :=
  let s1 := (s.orReg pgFault 0x100 0x10).report pgFault ⟨f, 0, 0, 0, 0, 0, 0⟩ none
  (s1.auditDrop p a.entry).completeArc p a.entry false

/-- The guard of an entry is reached, or overtime when it has none. -/
def State.auditDue (s : State) (p e : Nat) : Bool :=
  match (s.arcu p).active[e]? with
  | some x => if x.guard_ = 0 then s.tb.overtime else s.guardReached x.guard_
  | none => false

/-- An audit goes on: its copy begins, ends with the move, or is skipped. -/
def State.auditStep (s : State) (p e : Nat) : State :=
  match (s.part p).audit.find? fun a => a.entry == e with
  | none => s
  | some a => match s.ptile p a.k with
    | none => (s.auditDrop p e).completeArc p e false
    | some f =>
      if (s.unit (p * 72 + a.c)).st ≠ .spare then (s.auditDrop p e).auditRefuse p e
      else if s.auditIdle p a.k then
        if a.moving then s.auditMove p a f
        else
          let x := s.part p
          s.setPart p { x with audit := x.audit.map fun y => if y.entry = e then { y with moving := true } else y }
      else if s.auditDue p e then s.auditSkip p a f
      else s

/-- R402: the known-answer suite of the AUDIT tile `t` ends. -/
def execAuditSuiteDone (t : Nat) (pass : Bool) (s : State) : Out :=
  if 1152 ≤ t ∨ (s.unit t).st ≠ .audit then .next s
  else if pass = true ∧ (s.histOf t).st ≠ 2 then
    .next (((s.setUnit t ⟨.spare, none⟩).tileBlank t .off).count pgFault 0x124)
  else if pass then .next (s.fence t)
  else
    let s1 := ((s.count pgFault 0x128).orReg pgFault 0x100 8).report pgFault ⟨t, 6, 0, 0, 0, 0, 0⟩ (some 3)
    .next (s1.fence t)

end Sys2Proof.Machine
end

