-- ==== Sys2Proof/Machine/ResetState.lean ====
section
/-! DEFINITION. What a cold reset, a module warm reset and a loss of power leave of the module's state (R409, R411, R413,
Table 18.3, Table 18.4), and the thermal trip (R477). -/
namespace Sys2Proof.Machine

/-- The stored words that a reset's survival row keeps: their sticky bits. -/
def State.stickyWords (s : State) : SMap W32 :=
  mmap (fun a => resetWord (a / 0x1000) (a % 0x1000)) (fun a v => stickyPart (a / 0x1000) (a % 0x1000) v) s.regs

/-- Set bit `i` of RST_CAUSE. -/
def State.cause (s : State) (i : Nat) : State := s.orReg pgReset 0x100 (1 <<< i)

/-- The service cores' mtime (R442): nanoseconds since the release of phase 3. -/
def State.mtime (s : State) : W64 :=
  if s.rst.phase < 3 then 0 else BitVec.ofNat 64 (s.clk - s.rst.mtimeFrom)

/-- Reference cycles since reference cycle 0 (R4, R412): 6.4 ns each. -/
def State.refCycle (s : State) : Nat := (s.clk - s.rst.cycle0) * 5 / 32

/-- State after a cold reset begins (Table 18.4): what is kept is the queue, pins, the written fault history and the option
store, the vault drive, RST_CAUSE and PWR_TRIP. -/
def State.cold (s : State) : State :=
  let c := s.reg pgReset 0x100
  let trip := s.reg pgPower 0x12C
  let s1 := { State.reset with
    pending := s.pending, fresh := s.fresh, clk := s.clk, out := s.out, hist := s.opt.hist
    pins := { s.pins with replaceReq := false, bypassOpen := false, lasers := 0 }
    opt := { s.opt with pend := false, histDue := [] }
    vault := { Vault.reset with images := s.vault.images }
    power := { Power.reset with sample := s.power.sample }
    rst := { RstSeq.reset with running := s.pins.pwrOk && !s.pins.sysRst, cycle0 := s.clk } }
  (s1.setReg pgReset 0x100 c).setReg pgPower 0x12C trip

/-- State at power-on: RST_CAUSE is POR alone and PWR_TRIP is clear (R411). -/
def State.powerOn (s : State) : State := (s.cold.setReg pgReset 0x100 1).setReg pgPower 0x12C 0

/-- State while nothing is powered: as after a cold reset whose sequence does not run. -/
def State.powerDown (s : State) : State :=
  let s1 := s.cold
  { s1 with rst := { s1.rst with running := false } }

/-- State after a module warm reset begins (R413, R414, Table 18.4): both tiers, sticky fields, pins, the ring repeater, the
fault log and what a cold reset keeps. Phase 1 ends its hold of 1024 reference cycles. -/
def State.warm (s : State) : State :=
  { State.reset with
    pending := s.pending, fresh := s.fresh, clk := s.clk, out := s.out, hist := s.hist, pins := s.pins
    regs := s.stickyWords
    errSeq := s.errSeq, logBase := s.logBase, logHead := s.logHead, logCnt := s.logCnt
    mem := ⟨s.mem.cells.filter fun c => decide (c.1 < tileBase), s.mem.poison.filter fun c => decide (c.1 < tileBase)⟩
    tb := { Timebase.reset with admitted := s.tb.admitted }
    inRing := s.inRing, cwLock := s.cwLock, ccwLock := s.ccwLock
    opt := { s.opt with pend := false }
    vault := { Vault.reset with images := s.vault.images }
    power := { Power.reset with sample := s.power.sample, throttled := s.power.throttled, limit := s.power.limit }
    parts := mmap (fun _ => Part.reset) (fun _ (x : Part) => { Part.reset with far := { FarPort.reset with
      refmode := x.far.refmode, temp := x.far.temp, degraded := x.far.degraded, cmap := x.far.cmap } }) s.parts
    rst := { RstSeq.reset with cold := false, at_ := s.refCycle, cycle0 := s.rst.cycle0 } }

/-- A module warm reset (R413), or the restart of option loading when it comes in phase 2 (R414). -/
def State.warmReset (s : State) : State :=
  if s.rst.running ∧ s.rst.phase = 2 then
    let s1 := { s with rst := { s.rst with at_ := s.refCycle, loaded := false, phase := 1 } }
    s1.count pgReset 0x110
  else s.warm

/-! ### Thermal trip (R477) -/

/-- Every domain is powered down and PWR_TRIP is set. -/
def State.trip (s : State) : State :=
  let s1 := s.powerDown
  { s1.orReg pgPower 0x12C 1 with power := { s1.power with tripped := true } }

/-- The trip ends: a cold reset from reference cycle 0, with RST_CAUSE.THERMTRIP. -/
def State.tripEnd (s : State) : State := s.cold.cause 7

/-- WEIGHT as it acts: above 4096 it is 4096 (Table 12.10). -/
def State.arbWeight (s : State) (p n : Nat) : Nat := min 4096 (s.fld (pgFar p) (0x140 + 4 * n) 12 0)

/-- Every counter is refilled (R278). -/
def State.arbRefill (s : State) (p : Nat) : SMap Nat :=
  (List.range 16).foldl (fun m n => mput 0 m n (s.arbWeight p n)) []

end Sys2Proof.Machine
end

