-- ==== Sys2Proof/Machine/Boot.lean ====
section
/-! DEFINITION. Option loading (R40, R394, R426 to R429, R435), the firmware image (R431 to R434), measurement and
attestation (R436, R437). -/
namespace Sys2Proof.Machine

/-! ### Option blocks (Table 19.2) -/

/-- Payload of block `n` in use; none when it is defaulted. -/
def State.block (s : State) (n : Nat) : Option (List Byte) := (s.boot.blocks.find? fun b => b.1 == n).map (·.2)

/-- A block's own field checks (R428). The layouts are the model's: the spec gives contents only. -/
def blockOk (n : Nat) (b : List Byte) : Bool :=
  if n = 1 then b.length == 11 && (field b 8 1 == 56 || field b 8 1 == 64)
  else if n = 2 then b.length == 32 && (List.range 16).all fun i => decide (field b (2 * i) 2 < 8192)
  else if n = 3 then b.length == 7
  else if n = 4 then b.length == 8
  else if n = 5 then b.length == 5269
  else if n = 6 then decide (b.length ≤ 4 * 5261) && b.length % 5261 == 0
  else if n = 7 then b.length == 8
  else decide (b.length ≤ 65516)

/-- Grade count, serial number and MINSVN. -/
def State.gradeOpt (s : State) : Nat := ((s.block 1).map fun b => field b 8 1).getD 56
def State.serialOpt (s : State) : W64 := BitVec.ofNat 64 (((s.block 1).map fun b => field b 0 8).getD 0)
def State.minsvnOpt (s : State) : BitVec 16 := BitVec.ofNat 16 (((s.block 1).map fun b => field b 9 2).getD 0)

/-- Bits of a stored word that software may write. -/
def rwMask (pg o : Nat) : W32 := ((rowAt (pageClass pg) o).map (·.rw)).getD 0

/-- An option-derived value goes into the RW bits of a word. -/
def State.optReg (s : State) (pg o v : Nat) : State :=
  let m := rwMask pg o
  s.setReg pg o ((s.reg pg o &&& ~~~ m) ||| (BitVec.ofNat 32 v &&& m))

/-- ARBITER: the weights of every stack's arbiter. -/
def State.setArbiter (s : State) (b : List Byte) : State :=
  (List.range 16).foldl (fun a p => (List.range 16).foldl (fun a i => a.optReg (pgFar p) (0x140 + 4 * i) (field b (2 * i) 2)) a) s

/-- FABRIC: channel quanta, and the modulation of each uplink, a bit for each (R289). -/
def State.setFabric (s : State) (b : List Byte) : State :=
  let s1 := (List.range 2).foldl (fun a f => (a.optReg (pgFab f) 0x104 (field b 0 4)).optReg (pgFab f) 0x108 (field b 4 2)) s
  (List.range 8).foldl (fun a u => a.setFld (pgPort (portOfUplink u)) 0x100 1 1 (bits (field b 6 1) u u)) s1

/-- The loaded values become the option-derived settings (R429); a defaulted block leaves its reset values. -/
def State.settings (s : State) : State :=
  let on := fun (n : Nat) (f : State → List Byte → State) (a : State) => match a.block n with
    | some b => f a b
    | none => a
  let s1 := on 2 State.setArbiter s
  let s2 := on 3 State.setFabric s1
  let s3 := on 4 (fun a b => (a.optReg pgFault 0x108 (field b 0 4)).optReg pgFault 0x10C (field b 4 4)) s2
  on 7 (fun a b => (a.optReg pgPower 0x108 (field b 0 4)).optReg pgPower 0x10C (field b 4 4)) s3

/-! ### Measurement (R436) -/

/-- MOD_ID (Table 1.12). -/
def State.modIdWord (s : State) : W32 := BitVec.ofNat 32 (0x481000A1 + 256 * (s.part 0).grade)

/-- Extend register `i` by `d`. -/
def State.extend (s : State) (i : Nat) (d : List Byte) : State :=
  let m := s.boot.mrs.getD i (List.replicate 64 0)
  { s with boot := { s.boot with mrs := s.boot.mrs.set i (shake256 (m ++ shake256 d 64) 64) } }

/-- The 16 bytes that stand for a defaulted block. -/
def defaultedBytes (n : Nat) : List Byte := [0x44, 0x45, 0x46, 0x41, 0x55, 0x4C, 0x54] ++ toLE 9 n

/-- MR(0) by the ROM version and MOD_ID, MR(1) by every block in ascending ID. -/
def State.measure (s : State) : State :=
  (((List.range 10).map (· + 1)).foldl (fun a n => a.extend 1 ((s.block n).getD (defaultedBytes n))))
    (s.extend 0 (Config.romVersion ++ toLE 4 s.modIdWord.toNat))

/-! ### Option loading (R429) -/

/-- A slot of block `n` (R428): its header, payload and check word. -/
def slotBytes (n seq : Nat) (payload : List Byte) : List Byte :=
  let b := toLE 2 n ++ toLE 2 1 ++ toLE 4 seq ++ toLE 4 payload.length ++ toLE 4 0 ++ payload
  b ++ toLE 4 (crc32c b).toNat

/-- SEQ and payload of a valid slot of block `n` (R428). -/
def slotOf_ (n : Nat) (b : List Byte) : Option (Nat × List Byte) :=
  let len := field b 8 4
  if field b 0 2 = n ∧ field b 2 2 = 1 ∧ len ≤ 65516 ∧ 20 + len ≤ b.length ∧
      field b (16 + len) 4 = (crc32c (b.take (16 + len))).toNat then
    some (field b 4 4, slice_ b 16 len)
  else none

/-- Number of slot `s` of block `n` (Table 19.1), in slots of 64 KiB from the store's start. -/
def slotNo (n s : Nat) : Nat := 2 * (n - 1) + s

/-- The valid slot of block `n` with the larger SEQ, A on a tie: which it is, its SEQ and its payload (R428). -/
def OptStore.newer (o : OptStore) (n : Nat) : Option (Nat × Nat × List Byte) :=
  let at_ := fun (s : Nat) => ((o.slots.find? fun x => x.1 == slotNo n s).bind fun x => slotOf_ n x.2)
  match at_ 0, at_ 1 with
  | some a, some b => if a.1 < b.1 then some (1, b) else some (0, a)
  | some a, none => some (0, a)
  | none, some b => some (1, b)
  | none, none => none

/-- The slots of the store as the boot ROM reads them. -/
def OptStore.read (o : OptStore) (l : OptionLoad) : OptStore :=
  { o with
    sfdpOk := l.sfdpOk
    slots := (List.range 20).filterMap fun k =>
      if l.lost.contains k then none
      else (o.slots.find? fun x => x.1 == k).orElse fun _ => l.slots.find? fun x => x.1 == k }

/-- An update of block `n` (R430): SEQ is one above the newer valid slot's, and the other slot is written. DESIGN CHOICE: with no valid
slot, slot A is written with SEQ 1 (log 9). -/
def OptStore.update (o : OptStore) (n : Nat) (payload : List Byte) : OptStore :=
  let (s, seq) := match o.newer n with
    | some x => (1 - x.1, x.2.1 + 1)
    | none => (0, 1)
  { o with slots := (o.slots.filter fun (x : Nat × List Byte) => x.1 != slotNo n s) ++ [(slotNo n s, slotBytes n seq payload)], pend := true }

/-- The payload of each block's slot in use; one that fails the block's own checks is none (R428). -/
def OptStore.blocks (o : OptStore) : List (Nat × List Byte) :=
  ((List.range 10).map (· + 1)).filterMap fun n =>
    ((o.newer n).filter fun x => blockOk n x.2.2).map fun x => (n, x.2.2)

/-- Identity (R435): none when the helper data or the certificate is defaulted, or the fingerprints differ. -/
def State.identity (s : State) (l : OptionLoad) : State :=
  let help : Bool := (s.block 9).isSome
  let fp := if help then l.idfp.take 32 ++ List.replicate (32 - l.idfp.length) 0 else List.replicate 32 0
  { s with
    boot := { s.boot with idOk := help && (s.block 10).isSome && l.idOk, idfp := fp }
    mgtBootId := l.bootId }

/-- OPTION_LOAD_DONE: phase 2 ends. -/
def execOptionLoadDone (o : OptionLoad) (s : State) : Out :=
  if ¬ s.rst.running ∨ s.rst.phase ≠ 2 ∨ s.rst.loaded = true then .next s
  else
    let lose := fun (m : SMap Hist) => m.filter fun e => !o.histLost.contains e.1
    let s1 := { s with
      opt := { s.opt.read o with hist := lose s.opt.hist }
      boot := { s.boot with blocks := (s.opt.read o).blocks }
      hist := lose s.hist
      rst := { s.rst with loaded := true, at_ := s.refCycle } }
    let s2 := if o.histLost.isEmpty then s1 else s1.orReg pgFault 0x100 0x80
    let mask : W32 := ((List.range 10).map (· + 1)).foldl (fun (m : W32) n => if (s2.block n).isSome then m else m ||| (1 <<< n)) 0
    let s3 := { s2 with boot := { s2.boot with defaulted := mask, serial := s2.serialOpt, minsvn := s2.minsvnOpt } }
    let s4 := if mask = 0 then s3 else (s3.orReg pgBoot 0x100 0x100).raise pgBoot 0
    .next ((s4.settings.rebuild s4.gradeOpt).identity o).measure

/-! ### The image (R431 to R434) -/

/-- BOOT_STAT.WAITIMG. -/
def State.waitImg (s : State) : Bool := s.rst.phase == 8 && s.boot.image.isNone && !s.rst.running

/-- BOOT_GO: a write of `w` to BOOT_CTL. -/
def execBootGo (w : W32) (s : State) : Out :=
  let n := s.fld pgBoot 0x10C 23 0
  if w.getLsbD 0 = false ∨ s.pageBusy pgBoot ∨ ¬ s.waitImg ∨ s.boot.verifying.isSome ∨ n = 0 then .next s
  else .next ({ s with boot := { s.boot with verifying := some n } }.count pgBoot 0x114)

/-- The owner key and its scope serial (R433). -/
def State.ownerKey (s : State) : Option (List Byte × Nat) := (s.block 5).map fun b => (b.take 1952, field b 1952 8)

/-- The owner key is present and its scope fits; `endorsed`: its vendor endorsement verifies. -/
def State.ownerUsable (s : State) (endorsed : Bool) : Bool :=
  match s.ownerKey with
  | some (_, scope) => endorsed && (scope == 0 || scope == s.boot.serial.toNat)
  | none => false

/-- First failing check of Table 19.3; 0 when the image passes. -/
def State.imgCheck (s : State) (n : Nat) (b : List Byte) (v : ImgVerdict) : Nat :=
  let body := field b 8 4
  if n < 64 + 3309 ∨ 0x800000 < n ∨ n ≠ 64 + body + 3309 then 1
  else if field b 0 4 ≠ 0x44584657 ∨ 1 < field b 6 1 ∨ field b 7 1 ≠ 0 ∨ ¬ allZero (slice_ b 20 44) ∨ body ≤ field b 12 4 then 2
  else if field b 6 1 = 1 ∧ ¬ s.ownerUsable v.keyOk then 3
  else if ¬ v.sigOk then 4
  else if field b 4 2 < s.boot.minsvn.toNat then 5
  else 0

/-- IMG_VERIFY_DONE. -/
def execImgVerifyDone (v : ImgVerdict) (s : State) : Out :=
  match s.boot.verifying with
  | none => .next s
  | some n =>
    let b := ((s.boot.staging.rd 0 (min n 0x800000)).map fun x => x.getD 0)
    let s1 := { s with boot := { s.boot with verifying := none } }
    let c := s.imgCheck n b v
    if c ≠ 0 then .next (((s1.setFld pgBoot 0x100 15 12 c).orReg pgBoot 0x100 0x200).raise pgBoot 1)
    else
      let owner : Bool := field b 6 1 == 1
      let key := if owner then (s.ownerKey.map (·.1)).getD [] else Config.vendorKey
      let s2 := (s1.extend 2 (b.take (n - 3309))).extend 2 key
      .next { s2 with boot := { s2.boot with
        image := some b, signer := owner, svn := BitVec.ofNat 16 (field b 4 2), stewardUp := true } }

/-! ### Attestation (R437) -/

/-- The report of Table 19.4 over a nonce, with the signature that the key unit makes. -/
def State.attReport (s : State) (nonce : List Byte) : List Byte × State :=
  let b := toLE 4 0x44584154 ++ toLE 2 1 ++ toLE 1 (if s.boot.signer then 1 else 0) ++
    toLE 1 ((if s.bit pgBoot 0x100 8 then 1 else 0) + (if s.opt.sfdpOk then 0 else 2)) ++ toLE 8 s.mgtBootId.toNat ++
    (nonce ++ List.replicate (32 - nonce.length) 0).take 32 ++ s.boot.idfp ++ toLE 8 s.boot.serial.toNat ++
    toLE 4 s.modIdWord.toNat ++ toLE 2 s.boot.svn.toNat ++ toLE 2 s.boot.minsvn.toNat ++ s.boot.mrs.flatten ++
    toLE 8 s.mgtCtr.toNat ++ List.replicate 24 0
  (b ++ (List.range 3309).map (fun i => Config.signatureByte (s.fresh + i)), { s with fresh := s.fresh + 3309 })

/-- A quote without an identity is refused. -/
def State.attRefuse (s : State) : State := s.orReg pgBoot 0x100 0x800

/-- The nonce registers. -/
def State.attNonce (s : State) : List Byte := (List.range 8).flatMap fun i => toLE 4 (s.reg pgBoot (0x180 + 4 * i)).toNat

/-- The RW fields of a word written to ATT_CTL. -/
def State.attCtl (s : State) (w : W32) : State := s.setReg pgBoot 0x130 (w &&& 0xFFFF0070)

/-- ATT_QUOTE: a write of `w` to ATT_CTL. -/
def execAttQuote (w : W32) (s : State) : Out :=
  if s.pageBusy pgBoot then .next s
  else
    let s1 := s.attCtl w
    if w.getLsbD 0 = false then .next s1
    else if ¬ s.boot.idOk then .next s1.attRefuse
    else
      let (b, s2) := s1.attReport s1.attNonce
      .next (s2.put .unit (s2.reg64 pgBoot 0x138) (b.map some)).1

/-- ATT_EXTEND: a write of `w` to ATT_CTL by the active steward extends MR(3) to MR(7) only. -/
def execAttExtend (w : W32) (s : State) : Out :=
  if s.pageBusy pgBoot then .next s
  else
    let s1 := s.attCtl w
    let i := bits w.toNat 6 4
    if w.getLsbD 1 = false ∨ i < 3 ∨ ¬ s.stewardOn then .next s1
    else
      let a := s1.reg64 pgBoot 0x138
      .next (s1.unlessHeld fun u => match (u.load .steward a (bits w.toNat 31 16)).bind allSome with
        | some d => (u.readNote a (bits w.toNat 31 16)).extend i d
        | none => u.readNote a (bits w.toNat 31 16))

end Sys2Proof.Machine
end

