-- ==== Sys2Proof/Machine/Copy.lean ====
section
/-! DEFINITION. The copy queue (R184 to R187, R320 to R326) and the COPY arc's engines (R324). -/
namespace Sys2Proof.Machine

/-- Bytes of a local operand (R173): a tile-store offset, or a module address. -/
def State.cpyRead (s : State) (t : Nat) (space : Bool) (a n : Nat) : Option (List (PVal Byte)) :=
  if space then (if a < 2 ^ 48 then s.load .tile a n else none)
  else if inTst a n then some (s.mem.rd (tst t a) n) else none

/-- A range of a local operand that may be written; behind the remote-window aperture it is one aperture access (R312). -/
def State.cpyRange (s : State) (space : Bool) (a n : Nat) : Bool :=
  if space then (if inAperture a then (s.apTarget a n).isSome else decide (a < 2 ^ 48) && s.accessOk .tile a n) else inTst a n

/-- Write a local operand; a refused or held write says so. -/
def State.cpyWrite (s : State) (t : Nat) (space : Bool) (a : Nat) (bs : List (PVal Byte)) : WrRes :=
  if space then s.store .tile a bs else .ok { s with mem := s.mem.wr (tst t a) bs }

/-- The entry is in flight with `n` parts to come. -/
def State.inFlight (s : State) (t : Nat) (e : QEntry) (n : Nat) : State :=
  s.setEntry t 3 e.id fun y => { y with st := .running, need := n, since := s.clk }

/-! ### CPY -/

/-- The errors that reading a local operand meets (R269). -/
def State.cpyNote (s : State) (space : Bool) (a n : Nat) : State := if space then s.readNote a n else s

/-- A copy of `n` bytes from a local operand that is here. -/
def State.cpyHere (s : State) (t : Nat) (e : QEntry) (dsp ssp : Bool) (d a n : Nat) : State :=
  match s.cpyRead t ssp a n with
  | none => s.failOut t 3 e a 1
  | some bs =>
    let s0 := s.cpyNote ssp a n
    if s0.cpyRange dsp d n = false then s0.failOut t 3 e d 2
    else if dsp && inAperture d then
      match (s0.inFlight t e 1).apStore d bs (.tile t e.id) with
      | (s1, true) => s1
      | (_, false) => s0.failOut t 3 e a 8
    else match s0.cpyWrite t dsp d bs with
      | .ok s1 => s1.finish t 3 e.id 0 none
      | .err s1 => s1.finish t 3 e.id 0 (errNote d 4 false)
      | .hold k => s0.held_ k

/-- R184: a copy among the tile store and module addresses; a side behind the aperture is one aperture access (R312). -/
def State.cpyStart (s : State) (t : Nat) (e : QEntry) : State :=
  let w := e.word.toNat
  let dsp := bitAt w 29
  let ssp := bitAt w 28
  match e.len 27 24 with
  | none => s.failOut t 3 e 0 3
  | some 0 => s.finish t 3 e.id 0 none
  | some n =>
    match e.fld 37 34, e.fld 33 30 with
    | some d, some a =>
      if ssp && inAperture a then
        if s.cpyRange dsp d n = false then s.failOut t 3 e d 2
        else match (s.inFlight t e (if dsp && inAperture d then 2 else 1)).apLoad a n (.tile t e.id) dsp d with
          | (s1, true) => s1
          | (_, false) => s.failOut t 3 e a 2
      else s.unlessHeld fun u => u.cpyHere t e dsp ssp d a n
    | _, _ => s.failOut t 3 e 0 3

def execCpy (t : Nat) (ph : Phase) (s : State) : Out := .next (s.engine t 3 ph (isMajor 0x20) fun e a => a.cpyStart t e)

/-! ### RGET, RPUT -/

/-- R184, R320, R325. -/
def State.rgetStart (s : State) (t : Nat) (e : QEntry) : State :=
  let w := e.word.toNat
  let dsp := bitAt w 29
  match e.len 28 25 with
  | none => s.failOut t 3 e 0 3
  | some 0 => s.finish t 3 e.id 0 none
  | some n =>
    match e.fld 37 34, (e.op (bits w 33 30)).bind remoteOf, e.fld 24 21 with
    | some d, some (win, off), some c =>
      match s.sendCtx c with
      | none => s.failOut t 3 e d 9
      | some x =>
        if ¬ s.cpyRange dsp d n then s.failOut t 3 e d 1
        else
          s.unlessHeld fun u =>
            let (s1, parts, puts, ok) :=
              (u.inFlight t e 0xFFFFFFFF).startGet (c % 2 ^ 20) x win off n (.tile t e.id) dsp d (bitAt w 20)
            let s2 := s1.setEntry t 3 e.id fun y =>
              { y with
                need := parts + (if dsp && inAperture d then puts else 0) - (0xFFFFFFFF - y.need)
                err := if ok then y.err else errNote d 5 false }
            if (match s2.entry? t 3 e.id with
              | some y => y.need == 0
              | none => false) then s2.setEntry t 3 e.id fun y => { y with st := .finished } else s2
    | _, _, _ => s.failOut t 3 e 0 3

def execRget (t : Nat) (ph : Phase) (s : State) : Out := .next (s.engine t 3 ph (isMajor 0x21) fun e a => a.rgetStart t e)

/-- R184, R321; a source behind the aperture is loaded first (R312). -/
def State.rputStart (s : State) (t : Nat) (e : QEntry) : State :=
  let w := e.word.toNat
  let ssp := bitAt w 29
  match e.len 28 25 with
  | none => s.failOut t 3 e 0 3
  | some 0 => s.finish t 3 e.id 0 none
  | some n =>
    match e.fld 33 30 with
    | none => s.failOut t 3 e 0 3
    | some a =>
      if ssp && inAperture a then
        match (s.inFlight t e 1).apLoad a n (.tile t e.id) false 0 with
        | (s1, true) => s1
        | (_, false) => s.failOut t 3 e a 2
      else s.unlessHeld fun u => match u.cpyRead t ssp a n with
        | some bs => (u.cpyNote ssp a n).rputGo t e bs
        | none => u.failOut t 3 e a 1

def execRput (t : Nat) (ph : Phase) (s : State) : Out := .next (s.engine t 3 ph (isMajor 0x22) fun e a => a.rputStart t e)

/-! ### RATOM (R185, R327) -/

def State.ratomStart (s : State) (t : Nat) (e : QEntry) : State :=
  let w := e.word.toNat
  let op := bits w 25 22
  match (e.op (bits w 37 34)), e.fld 33 30, e.fld 29 26 with
  | some r, some o, some c =>
    if ¬ inTst o 64 then s.failOut t 3 e o 1
    else
      let sz := atomSize op
      let cas : Bool := decide (5 ≤ op) && decide (op ≤ 7)
      match remoteOf r, s.sendCtx c, allSome (s.mem.rd (tst t o) sz ++ s.mem.rd (tst t (o + 16)) (if cas then sz else 0)) with
      | some _, some x, some b =>
        let pad := fun (l : List Byte) => l ++ List.replicate (16 - l.length) (0 : Byte)
        let data := pad (b.take sz) ++ pad (b.drop sz)
        let k := ctxPacket c x 2 5 op 0 0 r data
        (s.inFlight t e 1).addReq (c % 2 ^ 20) k (.tile t e.id) false o 0 true false
      | none, _, _ => s.failOut t 3 e o 3
      | _, none, _ => s.failOut t 3 e o 9
      | _, _, none => s.failOut t 3 e o 8
  | _, _, _ => s.failOut t 3 e 0 3

def execRatom (t : Nat) (ph : Phase) (s : State) : Out := .next (s.engine t 3 ph (isMajor 0x23) fun e a => a.ratomStart t e)

/-! ### RINV, CWAIT -/

/-- R326: the lines of the range go from both caches, and a fill of this nanosecond in the range is discarded. -/
def State.rinvStart (s : State) (t : Nat) (e : QEntry) : State :=
  match e.len 33 30 with
  | none => s.failOut t 3 e 0 3
  | some 0 => s.finish t 3 e.id 0 none
  | some n =>
    match (e.op (bits e.word.toNat 37 34)).bind remoteOf with
    | none => s.failOut t 3 e 0 3
    | some (w, off) =>
      ({ s with
        rlc := s.rlc.filter fun l => !(l.win == w && overlaps l.off 64 off n)
        rinvs := s.rinvs ++ [(w, off, n)] }).finish t 3 e.id 0 none

def execRinv (t : Nat) (ph : Phase) (s : State) : Out := .next (s.engine t 3 ph (isMajor 0x24) fun e a => a.rinvStart t e)

/-- R323; a threshold of 0 reads no context (Table 7.12). -/
def State.cwaitStart (s : State) (t : Nat) (e : QEntry) : State :=
  match e.fld 33 30, e.fld 37 34 with
  | some th, c? =>
    if th % 2 ^ 48 = 0 then s.finish t 3 e.id 0 none
    else match c? with
      | none => s.failOut t 3 e 0 3
      | some c =>
        let x := s.ctx (c % 2 ^ 20)
        let s0 := s.touchCtx (c % 2 ^ 20)
        if ¬ x.valid then s0.failOut t 3 e c 9
        else if th % 2 ^ 48 ≤ x.arrived.toNat then s0.finish t 3 e.id 0 none
        else s0.inFlight t e 0
  | none, _ => s.failOut t 3 e 0 3

def execCwait (t : Nat) (ph : Phase) (s : State) : Out := .next (s.engine t 3 ph (isMajor 0x25) fun e a => a.cwaitStart t e)

/-! ### CSCAT (R186) -/

/-- The target words, or none when a test fails; whether a slice address was out of range (R85). -/
def State.cscatTargets (s : State) (base : W64) (xs : List Nat) : Option (List Nat) × Bool :=
  let ts := xs.map fun x => s.xlate (plus base (8 * x)) 8
  if ts.any (·.isNone) then (none, base.getLsbD 63)
  else
    let l := ts.filterMap id
    (if l.all (fun a => a % 8 == 0 && inNear a 8) then some l else none, false)

/-- One update; whether it was applied. -/
def State.cscatOne (s : State) (a : Nat) (v : PVal Nat) : State × Bool :=
  let u := s.readNote a 8
  match s.load .tile a 8, (s.badWords 2 a 8).isEmpty with
  | some old, true =>
    let r := match pNat old, v with
      | some x, some y => some (f64.add 0 x y).1
      | _, _ => none
    u.put .tile a (pBytes 8 r)
  | _, _ => (u, false)

def State.cscatStart (s : State) (t : Nat) (e : QEntry) : State :=
  let w := e.word.toNat
  let n := bits w 11 0
  if n = 0 then s.finish t 3 e.id 0 none 1
  else match e.op (bits w 37 34), e.fld 33 30, e.fld 29 26 with
    | some base, some vs, some xs =>
      if ¬ (vs % 8 = 0 ∧ inTst vs (8 * n) = true ∧ xs % 4 = 0 ∧ inTst xs (4 * n) = true) then s.failOut t 3 e vs 1
      else match allSome ((List.range n).map fun j => s.mem.num (tst t (xs + 4 * j)) 4) with
        | none => s.failOut t 3 e xs 8
        | some idx =>
          match s.cscatTargets base idx with
          | (none, adr) => (if adr then s.tileStat t 1 else s).failOut t 3 e base.toNat 2
          | (some ts, _) =>
            s.unlessHeld fun u =>
              let (s1, ok, any) := ((List.range n).zip ts).foldl (fun (a : State × Bool × Bool) ja =>
                let (b, k) := a.1.cscatOne ja.2 (s.mem.num (tst t (vs + 8 * ja.1)) 8)
                (b, a.2.1 && k, a.2.2 || k)) (u, true, false)
              s1.finish t 3 e.id 0 (if ok then none else errNote base.toNat 4 false) (if ok || any then 1 else 0)
    | _, _, _ => s.failOut t 3 e 0 3

def execCscat (t : Nat) (ph : Phase) (s : State) : Out := .next (s.engine t 3 ph (isMajor 0x26) fun e a => a.cscatStart t e)

/-! ### COPY arcs (R324) -/

/-- Change engine `u`'s first descriptor. -/
def State.headJob (s : State) (u : Nat) (f : CopyJob → CopyJob) : State :=
  match mget [] s.copies u with
  | [] => s
  | c :: r => { s with copies := mput [] s.copies u (f c :: r) }

/-- A refused descriptor, or one whose copy failed. -/
def CopyJob.fail (c : CopyJob) : CopyJob := { c with started := true, finished := true, failed := true }

/-- The whole descriptor is done, with or without an error. -/
def CopyJob.done (c : CopyJob) : CopyJob := { c with started := true, finished := true }

/-- A descriptor's packets: 64 go at once, and the others as those leave (R324). -/
def State.putStart (s : State) (u : Nat) (c : CopyJob) (flow : Nat) (ks : List Packet) : State :=
  (s.headJob u fun j => { j with started := true, need := ks.length, held := ks.drop 64 }).sendAll flow (ks.take 64) (.arc u c.entry)

/-- A local copy (KIND 0). -/
def State.runLocal (s : State) (u : Nat) (c : CopyJob) (src dst : W64) (len : Nat) : State :=
  let o : Owner := .arc u c.entry
  if inAperture src.toNat then
    if inAperture dst.toNat ∧ (s.apTarget dst.toNat len).isNone = true then s.headJob u CopyJob.fail
    else match (s.headJob u fun j => { j with started := true, need := if inAperture dst.toNat then 2 else 1 }).apLoad src.toNat len
        o true dst.toNat with
      | (s1, true) => s1
      | (_, false) => s.headJob u CopyJob.fail
  else match s.loadX .unit src len with
    | none => s.headJob u CopyJob.fail
    | some bs =>
      let s0 := s.readNoteX src len
      if inAperture dst.toNat then
        match (s0.headJob u fun j => { j with started := true, need := 1 }).apStore dst.toNat bs o with
        | (s1, true) => s1
        | (_, false) => s0.headJob u CopyJob.fail
      else match s0.storeX .unit dst bs with
        | .ok s1 => s1.headJob u CopyJob.done
        | .err s1 => s1.headJob u CopyJob.fail
        | .hold k => s0.held_ k

/-- A put (KIND 1); a source behind the aperture is loaded first. -/
def State.runPut (s : State) (u : Nat) (c : CopyJob) (flow : Nat) (x : Ctx) (src dst : W64) (len : Nat) : State :=
  match remoteOf dst with
  | none => s.headJob u CopyJob.fail
  | some (w, off) =>
    if inAperture src.toNat then
      let ks := putPackets flow x w off (List.replicate len 0) true
      match (s.headJob u fun j => { j with started := true, need := ks.length + 1, held := ks }).apLoad src.toNat len
          (.arc u c.entry) false 0 with
      | (s1, true) => s1
      | (_, false) => s.headJob u CopyJob.fail
    else match (s.loadX .unit src len).bind allSome with
      | some bs => (s.readNoteX src len).putStart u c flow (putPackets flow x w off bs true)
      | none => (s.readNoteX src len).headJob u CopyJob.fail

/-- A get (KIND 2). -/
def State.runGet (s : State) (u : Nat) (c : CopyJob) (flow : Nat) (x : Ctx) (src dst : W64) (len : Nat) (cache : Bool) : State :=
  match remoteOf src with
  | none => s.headJob u CopyJob.fail
  | some (w, off) =>
    if inAperture dst.toNat ∧ (s.apTarget dst.toNat len).isNone = true then s.headJob u CopyJob.fail
    else
      let (s1, parts, puts, ok) := (s.headJob u fun j => { j with started := true, need := 0xFFFFFFFF }).startGet flow x w off len
        (.arc u c.entry) true dst.toNat cache
      s1.headJob u fun j =>
        let n := parts + (if inAperture dst.toNat then puts else 0) - (0xFFFFFFFF - j.need)
        { j with need := n, finished := n == 0, failed := j.failed || !ok }

/-- Run the descriptor `b` of engine `u`'s head. -/
def State.runCopy (s : State) (u : Nat) (c : CopyJob) (b : List Byte) : State :=
  let kind := field b 0 1
  let fl := field b 1 1
  let len := field b 24 8
  let flow := field b 32 3
  let src := w64At b 8
  let dst := w64At b 16
  let bad := 2 < kind ∨ 2 ≤ fl ∨ (fl = 1 ∧ kind ≠ 2) ∨ ¬ allZero (slice_ b 2 6) ∨ 2 ^ 48 ≤ len ∨ 2 ^ 20 ≤ flow ∨
    ¬ allZero (b.drop 35)
  if bad then s.headJob u CopyJob.fail
  else if kind ≠ 0 ∧ (s.sendCtx flow).isNone then s.headJob u CopyJob.fail
  else if len = 0 then s.headJob u CopyJob.done
  else s.unlessHeld fun a =>
    if kind = 0 then a.runLocal u c src dst len
    else match a.sendCtx flow with
      | none => a.headJob u CopyJob.fail
      | some x => if kind = 1 then a.runPut u c flow x src dst len else a.runGet u c flow x src dst len (fl == 1)

/-- Start engine `u`'s head, when it has not begun. -/
def State.startCopy (s : State) (u : Nat) : State :=
  match mget [] s.copies u with
  | c :: _ =>
    if c.started then s
    else s.unlessHeld fun a =>
      let d := a.readNoteX c.addr 64
      match (a.loadX .unit c.addr 64).bind allSome with
      | some b => if c.addr.toNat % 64 = 0 then d.runCopy u c b else d.headJob u CopyJob.fail
      | none => d.headJob u CopyJob.fail
  | [] => s

/-- ARC_COPY: the descriptor is posted; an idle engine takes it. -/
def execArcCopy (u e : Nat) (s : State) : Out :=
  .next (s.fire u e 2 fun x a =>
    let j : CopyJob := ⟨e, x.w3, false, 0, false, false, []⟩
    ({ a with copies := mput [] a.copies u (mget [] a.copies u ++ [j]) }).startCopy u)

end Sys2Proof.Machine
end

