-- ==== Sys2Proof/Machine/Complete.lean ====
section
/-!
DEFINITION. The completion report of a fired arc (ARC_COMPLETE), over the engines that report: copy engines, audits and
the collective unit.
-/
namespace Sys2Proof.Machine

/-- Unit `u`'s copy engine reports its finished descriptor and takes the next one (R60). -/
def State.copyReport (s : State) (u e : Nat) : State :=
  match mget [] s.copies u with
  | c :: r =>
    if c.entry = e ∧ c.finished = true then
      let s1 := { s with copies := mput [] s.copies u r }
      (if c.failed then s1.failArc u e 1 else s1.completeArc u e false).startCopy u
    else s
  | [] => s

/-- ARC_COMPLETE (R60): the copy engine of table `u` reports its finished descriptor's arc and takes the next one, the
audit of the arc goes on (R401), or a collective that has done all it must completes (R347). -/
def execArcComplete (u e : Nat) (s : State) : Out :=
  let s0 := if u < 16 then s.auditStep u e else if u = 16 then s.collTry e else s
  .next ((s0.startCopy u).copyReport u e)

end Sys2Proof.Machine
end

