-- ==== Sys2Proof/Machine/Vault.lean ====
section
/-! DEFINITION. The shard vault (R383 to R385) and the vault root port (R467 to R469). -/
namespace Sys2Proof.Machine

/-! ### Slots -/

/-- Namespace and first block of slot `i`: 0 the frozen slot, 1 and 2 the epoch slots. -/
def State.slotKey (s : State) (i : Nat) : Nat × Nat := ((s.reg pgVault 0x100).toNat, s.reg64 pgVault (0x108 + 8 * i))

def State.slotImage (s : State) (i : Nat) : Image :=
  ((s.vault.images.find? fun x => x.1 == s.slotKey i).map (·.2)).getD Image.none_

def State.setSlot (s : State) (i : Nat) (m : Image) : State :=
  { s with vault := { s.vault with images := (s.vault.images.filter fun x => x.1 != s.slotKey i) ++ [(s.slotKey i, m)] } }

/-- The epoch slot that does not hold the newest complete image (R384). -/
def State.drainSlot (s : State) : Nat :=
  let a := s.slotImage 1
  let b := s.slotImage 2
  if a.valid && (!b.valid || decide (b.epoch.toNat ≤ a.epoch.toNat)) then 2 else 1

/-- The bytes of an image header (Table 16.6). -/
def imageHeader (m : Image) : List Byte :=
  let reg := fun (off : Nat) (r : MapEnt × List Byte × W64) =>
    toLE 3 r.1.rank ++ toLE 1 r.1.part ++ toLE 1 r.1.fent ++ toLE 1 r.1.slf ++ toLE 1 r.1.sln ++ toLE 1 0 ++
      toLE 4 r.1.retoff ++ toLE 4 0 ++ toLE 4 off ++ toLE 4 r.2.1.length ++ toLE 8 r.2.2.toNat
  let offs := (List.range m.regs.length).map fun i =>
    ((m.regs.take i).map fun r => (r.2.1.length + 4095) / 4096 * 4096).foldl (· + ·) 4096
  let b := toLE 4 0x44564C54 ++ toLE 4 m.epoch.toNat ++ toLE 4 m.step.toNat ++ toLE 2 m.tag.toNat ++ toLE 1 m.gen.toNat ++
    toLE 1 0 ++ toLE 4 m.regs.length ++ toLE 4 0 ++ toLE 8 m.digest.toNat ++ List.replicate 32 0 ++
    (List.zipWith reg offs m.regs).flatten
  let c := (b ++ List.replicate (4088 - b.length) 0).take 4088
  c ++ toLE 8 (crc64 c).toNat

/-! ### Drains (R384, R468) -/

/-- VLT_STAT.ERR, and VAULT_ERR. -/
def State.vltErr (s : State) : State := (s.orReg pgVault 0x124 0x100).raise pgVault 1

/-- The running drain is abandoned: its slot stays invalid and its holds end. -/
def State.abandonDrain (s : State) : State :=
  { s with
    vault := { s.vault with drain := none }
    cs := { s.cs with held := if s.cs.held = some 3 then none else s.cs.held } }

/-- A running restore fails with VLT_STAT.ERR. -/
def State.abandonRestore (s : State) : State :=
  if s.vault.restoring then { s with vault := { s.vault with restoring := false, lists := [] } }.orReg pgVault 0x124 0x100 else s

/-- Ranges of `n` bytes from byte `o` of a region whose slices each have `len` bytes at `off`. -/
def regionPieces (p l off len : Nat) : Nat → Nat → Nat → List (Nat × Nat × Nat × Nat)
  | 0, _, _ => []
  | f + 1, o, n =>
    if n = 0 ∨ len = 0 then []
    else
      let k := min n (len - o % len)
      (p, l + o / len, off + o % len, k) :: regionPieces p l off len f (o + k) (n - k)

/-- A region of the coding map, as drained for epoch `ep`: its entry, its total bytes, and its pieces. -/
def State.drainRegion (s : State) (g : Group) (ep : Nat) (m : MapEnt) : Option (Nat × Nat → List (Nat × Nat × Nat × Nat)) :=
  (s.mapField m).map fun e =>
    let x : Seg := ⟨0, m, e, e.first + m.slf, 0⟩
    fun r => regionPieces m.part x.l (x.at_ g ep) e.len 80 r.1 r.2

def State.regionSize (s : State) (m : MapEnt) : Nat := ((s.mapField m).map fun e => m.sln * e.len).getD 0

/-- The last block of a region is filled up with zeros (R468). -/
def padBlock (b : List Byte) : List Byte := b ++ List.replicate ((4096 - b.length % 4096) % 4096) 0

/-- Bytes of pieces. -/
def State.piecesLoad (s : State) (ps : List (Nat × Nat × Nat × Nat)) : Option (List Byte) :=
  (allSome (ps.map fun (p, l, off, n) =>
    (s.loadSlice .exempt p l off n).bind allSome)).map List.flatten

/-- What reading them does beside (R269). -/
def State.piecesNote (s : State) (ps : List (Nat × Nat × Nat × Nat)) : State :=
  ps.foldl (fun t x => ((t.sliceParts x.1 x.2.1 x.2.2.1 x.2.2.2).getD []).foldl (fun u y => u.readNote y.1 y.2) t) s

/-- Regions of the coding map of kind `kind` (1 PAIR, 2 FROZEN). -/
def State.drainMap (s : State) (g : Group) (kind : Nat) : List MapEnt :=
  g.map.filter fun m => ((s.mapField m).map (·.kind)) == some kind && m.sln != 0

/-- The pieces of each write command of a region, 128 KiB a command (R468). -/
def State.drainCmds (s : State) (g : Group) (ep : Nat) (m : MapEnt) : List (List (Nat × Nat × Nat × Nat)) :=
  (cuts 131072 0 (s.regionSize m)).map fun c => ((s.drainRegion g ep m).map fun f => f c).getD []

/-- Start a drain of epoch `ep` from the regions of kind `kind` into slot `i`. -/
def State.drainStart (s : State) (g : Group) (ep kind i : Nat) (frozen : Bool) : State :=
  let ms := s.drainMap g kind
  let img : Image :=
    { valid := false, epoch := if frozen then ones32 else BitVec.ofNat 32 ep, step := BitVec.ofNat 32 (g.stepOf ep)
      tag := g.tag, gen := g.gen, digest := g.digest, regs := [] }
  let s1 := s.setSlot i Image.none_
  match allSome (ms.map fun m => (s.piecesLoad (s.drainCmds g ep m).flatten).map fun b => (m, b, crc64 b)) with
  | none => s1.vltErr
  | some regs =>
    { s1 with vault := { s1.vault with
        drain := some ⟨i, frozen, { img with regs := regs }, (ms.map (s.drainCmds g ep)).flatten, false, s.clk⟩ } }

/-- ARC_DRAIN. -/
def execArcDrain (u e : Nat) (s : State) : Out :=
  .next (s.fire u e 11 fun x t =>
    let a := t.readNoteX x.w3 64
    match (a.loadX .unit x.w3 64).bind allSome with
    | none => a.failArc u e 2
    | some b =>
      if x.arg % 64 ≠ 0 ∨ 2 ≤ field b 0 1 ∨ field b 1 3 ≠ 0 ∨ allZero (b.drop 8) = false then a.failArc u e 1
      else if ¬ a.vault.ready then (a.orReg pgVault 0x124 0x100).completeArc u e false
      else match a.cs.group with
        | none => a.completeArc u e false
        | some g => match a.epochOf g with
          | none => a.completeArc u e false
          | some ep =>
            let vint := field b 4 4
            let frozen := field b 0 1 == 1
            let f := a.slotImage 0
            let done : Bool := f.valid && f.tag == g.tag && f.digest == g.digest
            (if vint = 0 ∨ ep % vint ≠ 0 ∨ (frozen && done) then a
             else if frozen then a.drainStart g ep 2 0 true
             else a.drainStart g ep 1 a.drainSlot false).completeArc u e false)

/-- A drive error (R384, R468); a timeout has no status. -/
def State.driveError (s : State) (status : Option (BitVec 16)) : State :=
  let s1 := match status with
    | some v => s.setReg pgVport 0x104 (v.zeroExtend 32)
    | none => s
  ((s1.orReg pgVport 0x100 0x200).raise pgVport 1).abandonDrain.abandonRestore.vltErr

/-- Add `n` blocks to a 64-bit block counter of the port page. -/
def State.blocks (s : State) (o n : Nat) : State := s.setReg64 pgVport o ((s.reg64 pgVport o + n) % 2 ^ 64)

/-- VAULT_CMD_DONE: a data write or Flush completes, or the drive reports an error. -/
def execVaultCmdDone (status : BitVec 16) (s : State) : Out :=
  if s.vault.drain.isNone ∧ ¬ s.vault.restoring then .next s
  else if status ≠ 0 then .next (s.driveError (some status))
  else match s.vault.drain with
    | none => .next s
    | some d =>
      let set := fun (t : State) (y : Drain) => { t with vault := { t.vault with drain := some { y with cmdAt := s.clk } } }
      match d.cmds with
      | c :: r =>
        let n := (c.map fun x => x.2.2.2).foldl (· + ·) 0
        let s1 := ((set (s.piecesNote c) { d with cmds := r }).blocks 0x108 ((n + 4095) / 4096)).send
          (.drive d.slot (padBlock ((s.piecesLoad c).getD [])))
        .next { s1 with cs := { s1.cs with held := if s.cs.held = some 3 then none else s.cs.held } }
      | [] => .next (if d.flushed then s else set s { d with flushed := true })

/-- DRAIN_DONE: the header write completes. -/
def execDrainDone (s : State) : Out :=
  match s.vault.drain with
  | none => .next s
  | some d =>
    if d.cmds.isEmpty && d.flushed then
      let img := { d.image with valid := true }
      let s1 := (s.setSlot d.slot img).abandonDrain.blocks 0x108 1
      .next ((s1.send (.drive d.slot (imageHeader img))).raise pgVault 3)
    else .next s

/-- When the latest drive command was issued: a drain's, or a restore's reads. -/
def Vault.issuedAt (v : Vault) : Option Nat :=
  match v.drain with
  | some d => some d.cmdAt
  | none => if v.restoring then some v.restAt else none

/-- VAULT_CMD_TIMEOUT: 30 s. -/
def execVaultCmdTimeout (s : State) : Out :=
  match s.vault.issuedAt with
  | some t => if t + 30000000000 ≤ s.clk then .next (s.driveError none) else .next s
  | none => .next s

/-! ### The port (R467, R469) -/

def execVaultLinkDown (s : State) : Out :=
  if ¬ s.vault.linkup then .next s
  else
    let s1 := { s with vault := { s.vault with linkup := false, ready := false } }
    .next ((s1.orReg pgVport 0x100 0x100).raise pgVport 0).abandonDrain.abandonRestore

/-- The link comes up; `fit`: the controller has what R467 relies on. -/
def execVaultLinkUp (fit : Bool) (s : State) : Out :=
  .next { s with vault := { s.vault with linkup := true, ready := fit } }

/-! ### Restore (R385) -/

/-- This module's complete epoch images: epoch, step, and the ranks it covers. -/
def State.epochImages (s : State) : List (W32 × W32 × List Nat) :=
  ([s.slotImage 1, s.slotImage 2].filter (·.valid)).map fun m => (m.epoch, m.step, (m.regs.map fun r => r.1.rank).eraseDups)

/-- VLT_RESTORE: a write of `w` to VLT_CMD. -/
def execVltRestore (w : W32) (s : State) : Out :=
  if bits w.toNat 1 0 ≠ 1 ∨ s.pageBusy pgVault then .next s
  else if ¬ s.vault.ready then .next s.vltErr
  else .next ({ s with vault := { s.vault with restoring := true, restAt := s.clk, lists := [] } }.send (.restoreList s.epochImages))

/-- Epochs that every rank has, from the modules' lists. -/
def commonEpochs (ls : List EpochList) (r : Nat) : List W32 :=
  let all := (ls.flatMap fun l => l.images.map (·.1)).eraseDups
  all.filter fun e => (List.range r).all fun k =>
    ls.any fun l => l.images.any fun x => x.1 == e && x.2.2.contains k

/-- A restore fails with MIXED_EPOCH. -/
def State.mixed (s : State) : State :=
  ({ s with vault := { s.vault with restoring := false, lists := [] } }.orReg pgVault 0x124 0x200).raise pgVault 2

/-- RESTORE_EPOCH_LIST: with a list from every module, the leader chooses the newest common epoch. -/
def execRestoreEpochList (l : EpochList) (s : State) : Out :=
  if ¬ s.vault.restoring then .next s
  else
    let ls := (s.vault.lists.filter fun x => x.src != l.src) ++ [l]
    let s1 := { s with vault := { s.vault with lists := ls } }
    if ls.length < l.members then .next s1
    else match commonEpochs ls l.ranks with
      | [] => .next s1.mixed
      | e :: r =>
        let best := r.foldl (fun (a : W32) b => if a.toNat < b.toNat then b else a) e
        .next ({ s1 with vault := { s1.vault with lists := [] } }.send (.restoreChoice best))

/-- Write one region into the target that its coding-map entry names: the half that its step wrote, or a FROZEN entry. -/
def State.restoreRegion (s : State) (step : Nat) (r : MapEnt × List Byte × W64) : State :=
  match s.mapField r.1 with
  | none => s
  | some e =>
    let off := e.off + (if e.kind = 1 then (1 - step % 2) * e.len else 0)
    (regionPieces r.1.part (e.first + r.1.slf) off e.len 80 0 r.2.1.length).foldl (fun (a : State × List Byte) x =>
      (a.1.segStore x.1 x.2.1 x.2.2.1 ((a.2.take x.2.2.2).map some), a.2.drop x.2.2.2)) (s, r.2.1) |>.1

/-- RESTORE_CHOICE: the regions of the chosen epoch and the frozen image, each checked before anything is written. -/
def execRestoreChoice (epoch : W32) (s : State) : Out :=
  if ¬ s.vault.restoring then .next s
  else
    let ep := [s.slotImage 1, s.slotImage 2].find? fun m => m.valid && m.epoch == epoch
    let fr := [s.slotImage 0].filter (·.valid)
    let regs := (ep.toList ++ fr).flatMap (·.regs)
    if regs.any fun r => crc64 r.2.1 != r.2.2 then .next s.mixed
    else
      let blocks := (regs.map fun r => (r.2.1.length + 4095) / 4096).foldl (· + ·) (ep.toList ++ fr).length
      let s1 := { s with vault := { s.vault with restoring := false } }.blocks 0x110 blocks
      .next (match ep with
        | some m =>
          let s2 := (m.regs ++ fr.flatMap (·.regs)).foldl (fun a r => a.restoreRegion m.step.toNat r) s1
          (s2.setReg pgVault 0x128 epoch).setReg pgVault 0x12C m.step
        | none => fr.flatMap (·.regs) |>.foldl (fun a r => a.restoreRegion 0 r) s1)

end Sys2Proof.Machine
end

