-- ==== Sys2Proof/Machine/Job.lean ====
section
/-! DEFINITION. The job table and what its commands do (R31, R32, R95, R315, R333, R375, R376, R378): admission, teardown,
freeze, a new generation and recovery. The commands that bring them stand in Machine/Mgmt.lean. -/
namespace Sys2Proof.Machine

/-! ### Work that is abandoned -/

/-- Stored bricks of a matrix (Table 8.1). -/
def MatHdr.stored (h : MatHdr) : Nat :=
  if h.sparse then h.nblk else if h.sym then h.nb * (h.nb + 1) / 2 else h.nb * h.nb

/-- The destination of an abandoned program is undefined (R215, R216). -/
def State.asmUndef (s : State) (p : Nat) : State :=
  match s.asmNow p with
  | some (_, _, h) => s.undef .unit h.bricks (512 * h.stored)
  | none => s

/-- X of an abandoned request is undefined, and its factor while it is being made (R215, R233). -/
def State.solveUndef (s : State) (p : Nat) : State :=
  match s.solveNow p with
  | none => s
  | some (r, g, h) =>
    let s1 := match s.vecHdr g.x with
      | some v => s.undef .unit v.data (8 * v.n)
      | none => s
    if r.phase ≠ .factor then s1
    else match s1.matHdr g.fhdr with
      | some f => s1.undef .unit f.bricks (512 * h.stored)
      | none => s1

/-- The stepping job's work in partition `p` is discarded: its work lists with no DONE_IDX applied (R95), assembly and solve
requests, and audits. -/
def State.dropPart (s : State) (p : Nat) : State :=
  let s1 := (s.asmUndef p).solveUndef p
  let x := s1.part p
  s1.setPart p { x with
    cut := false, wl := List.replicate 4 WlSlot.free, asm := ⟨[], none⟩, slv := { x.slv with ready := [], queue := [], run := none }, audit := [] }

/-- A tile's queued work is discarded; its registers stay. -/
def Tile.dropWork (x : Tile) : Tile :=
  { x with
    seq := if x.seq = .off then .off else .idle
    fetchStop := false, item := none, itemErr := false, ended := none, q0 := [], q1 := [], q2 := [], q3 := [], loading := none }

/-- The work of the stepping job, its arc tables, collectives and drains are discarded, and report nothing (R31, R32). -/
def State.dropStep (s : State) (tag : BitVec 16) (gen : BitVec 8) : State :=
  let s1 := (List.range 16).foldl State.dropPart s
  let s2 := { s1 with
    tiles := s1.tiles.map fun (e : Nat × Tile) => (e.1, e.2.dropWork)
    copies := []
    arcs := s1.arcs.map fun (e : Nat × ArcUnit) =>
      (e.1, { e.2 with active := [], shadow := [], ready := false, loading := none })
    cores := s1.cores.map fun (e : Nat × Core_) => (e.1, { e.2 with posts := [], heldPost := none }) }
  let s3 := (s2.dropColls tag gen).abandonDrain
  { s3 with cs := { s3.cs with held := none } }

/-- Outstanding loads and atomics of a job are abandoned and report nothing (R333, R375). -/
def State.dropOutst (s : State) (tag : BitVec 16) (gen : BitVec 8) : State :=
  { s with
    outst := s.outst.filter fun o => !(o.pkt.tag == tag && o.pkt.gen == gen)
    ctxs := s.ctxs.map fun (e : Nat × Ctx) => (e.1, if e.2.tag = tag ∧ e.2.gen = gen then { e.2 with outn := 0 } else e.2) }

/-- The F-dies send no packet of a retired job (R333): what has not begun to leave is given up. -/
def State.dropTx (s : State) (tag : BitVec 16) (gen : BitVec 8) : State :=
  let keep := fun (y : TxPkt) => y.begun || y.fwd || !(y.tag == tag && y.gen == gen)
  let cut := s.ports.flatMap fun e => e.2.tx.flatMap fun q => q.2.filter fun y => !keep y
  let s1 := { s with ports := s.ports.map fun (e : Nat × Port) =>
      (e.1, { e.2 with tx := (e.2.tx.map fun (q : Nat × List TxPkt) => (q.1, q.2.filter keep)).filter fun q => !q.2.isEmpty }) }
  cut.foldl (fun a y => a.pktSent y.owner) s1

/-! ### The job table (R315) -/

/-- The (tag, generation) is the stepping job (R42). -/
def State.stepping (s : State) (tag : BitVec 16) (gen : BitVec 8) : Bool := s.mjob == some (tag, gen)

/-- Tags that are LIVE. -/
def State.liveTags (s : State) : Nat := (s.jobs.filter fun e => e.2.st == .live).length

/-- An admission is refused (R315, R482). -/
def State.admitRefused (s : State) (tag : BitVec 16) (gen : BitVec 8) (step : Bool) : Bool :=
  let j := s.job tag
  j.st != .free || j.lastGen == some gen || decide (8 ≤ s.liveTags) || (step && s.mjob.isSome) || s.power.standby

/-- ADMIT: what it does, and whether it was carried out. -/
def State.admitTag (s : State) (tag : BitVec 16) (gen : BitVec 8) (step : Bool) : State × Bool :=
  if s.admitRefused tag gen step then
    ((List.range 2).foldl (fun a f => (a.orReg (pgFlow f) 0x104 0x1000).raise (pgFlow f) 4) s, false)
  else
    let s1 := s.setJob tag { s.job tag with st := .live, gen := gen, cseq := 0 }
    (if step then { s1 with mjob := some (tag, gen), tb.firstRel := true } else s1, true)

/-- RETIRE, the first step of a teardown. -/
def State.retireJob (s : State) (tag : BitVec 16) (gen : BitVec 8) : State :=
  s.setJob tag { s.job tag with st := .retired, lastGen := some gen, retiredAt := s.tb.time.toNat }

/-- The contexts, windows and aperture entries of a job go, and its cached lines (R31 step 4, R333); a replay slot is free once
its context has gone. -/
def State.releaseFabric (s : State) (tag : BitVec 16) (gen : BitVec 8) : State :=
  let own := s.ctxs.filter fun e => e.2.tag == tag && e.2.gen == gen
  { s with
    ctxs := s.ctxs.filter fun e => !(e.2.tag == tag && e.2.gen == gen)
    wins := s.wins.filter fun e => !(e.2.tag == tag && e.2.gen == gen)
    apts := s.apts.filter fun e => !own.any fun c => c.1 == e.2.flow.toNat
    rlc := s.rlc.filter fun l => !(l.tag == tag && l.gen == gen) }

/-- The field tables of the stepping job go with it. -/
def State.dropTables (s : State) : State :=
  { s with parts := s.parts.map fun (e : Nat × Part) => (e.1, { e.2 with fpl := { e.2.fpl with active := none, ready := none, loading := none } }) }

/-- TEARDOWN (R31); a job that is not LIVE is refused. The stepping job's clears MOD_JOB.VALID (R32). DESIGN CHOICE (log 92): the TAG
and GEN fields of MOD_JOB read 0 while VALID is 0. -/
def State.teardown (s : State) (tag : BitVec 16) (gen : BitVec 8) : State × Bool :=
  if s.live tag gen = false then (s, false)
  else
    let s1 := (s.retireJob tag gen).dropOutst tag gen |>.dropTx tag gen
    let s2 := if s.stepping tag gen then ((s1.dropStep tag gen).codeTeardown tag gen).dropTables else s1
    let s3 := s2.releaseFabric tag gen
    (if s.stepping tag gen then { s3 with mjob := none } else s3, true)

/-- TAG_QUARANTINE_END: 250 ms of pod time after its retirement. -/
def execTagQuarantineEnd (tag : BitVec 16) (s : State) : Out :=
  let j := s.job tag
  if j.st = .retired ∧ j.retiredAt + 250000000 ≤ s.tb.time.toNat then .next (s.setJob tag { j with st := .free })
  else .next s

/-- FREEZE (R375). -/
def State.freeze (s : State) (tag : BitVec 16) (gen : BitVec 8) : State × Bool :=
  if s.live tag gen = false then (s, false)
  else
    let s1 := s.dropOutst tag gen
    (if s.stepping tag gen then (s1.dropStep tag gen).codeFreeze else s1, true)

/-- REGEN (R376): generation `g` of a tag becomes `g2` everywhere; the group of the job follows. -/
def State.regen (s : State) (tag : BitVec 16) (g g2 : BitVec 8) : State × Bool :=
  if s.live tag g = false ∨ g = g2 then (s, false)
  else
    let s1 := s.setJob tag { s.job tag with gen := g2, lastGen := some g }
    ({ s1 with
      sets := s1.sets.map fun (e : Nat × RouteSet) => (e.1, if e.2.tag = tag ∧ e.2.gen = g then { e.2 with gen := g2 } else e.2)
      ctxs := s1.ctxs.map fun (e : Nat × Ctx) => (e.1, if e.2.tag = tag then { e.2 with gen := g2 } else e.2)
      wins := s1.wins.map fun (e : Nat × Win) => (e.1, if e.2.tag = tag then { e.2 with gen := g2 } else e.2)
      mjob := if s.stepping tag g then some (tag, g2) else s1.mjob
      cs := { s1.cs with group := s1.cs.group.map fun x => if x.tag = tag ∧ x.gen = g then { x with gen := g2 } else x } }, true)

/-- RECOVER (R342, R378): the next CSEQ, and the group of the job. -/
def State.recover (s : State) (r : RecoverArgs) : State × Bool :=
  if s.live r.tag r.gen = false then (s, false)
  else
    let s1 := s.setCseq r.tag r.cseq0
    match s.cs.group with
    | none => (s1, true)
    | some g =>
      if g.tag ≠ r.tag ∨ g.gen ≠ r.gen then (s1, true)
      else
        let s2 := s1.codeRecover r
        (s2, s.cs.st == .halted && s2.cs.st != .halted)

end Sys2Proof.Machine
end

