-- ==== Sys2Proof/Machine/Reset.lean ====
section
/-! DEFINITION. Resets (R409 to R418), the release order (R412 to R415), block soft resets of every page (R416), the
watchdog and the steward's restart (R419, R420). What a reset leaves stands in Machine/ResetState.lean. -/
namespace Sys2Proof.Machine

/-- The module has power and no cold reset holds it. -/
def State.powered (s : State) : Bool := s.pins.pwrOk && !s.pins.sysRst && !s.power.tripped

/-! ### Sources of a cold or warm reset (Table 18.1) -/

/-- PWR_OK_RISE: power-on. -/
def execPwrOkRise (s : State) : Out :=
  if s.pins.pwrOk then .next s else .next { s with pins := { s.pins with pwrOk := true, underVolt := false, seated := true } }.powerOn

/-- PWR_OK_FALL: the bypass closes and the module powers down (R504). -/
def execPwrOkFall (s : State) : Out :=
  if s.pins.pwrOk = false then .next s else .next { s with pins.pwrOk := false }.powerDown

/-- SYS_RST_N asserted; a thermal trip goes on (R482). -/
def execSysRstN (s : State) : Out :=
  if s.pins.sysRst then .next s
  else
    let s1 := { s with pins.sysRst := true }
    .next (if s.pins.pwrOk = true ∧ s.power.tripped = false then s1.cold.cause 1 else s1)

/-- SYS_RST_N deasserted: with PWR_OK high, this is reference cycle 0. -/
def execSysRstNRelease (s : State) : Out :=
  if s.pins.sysRst = false then .next s
  else
    let s1 := { s with pins.sysRst := false }
    .next (if s1.powered then { s1 with rst := { s1.rst with running := true, phase := 0, at_ := 0, cycle0 := s1.clk } } else s1)

/-- A warm reset from source `i` of RST_CAUSE. -/
def State.warmBy (s : State) (i : Nat) : State := if s.powered then s.warmReset.cause i else s

/-- PERST#. -/
def execPerst (s : State) : Out := .next (s.warmBy 2)

/-- A keyed write of RST_CTL that counts (R410). -/
def State.rstKey (s : State) (w : W32) (by_ : Writer) : Bool := decide (bits w.toNat 15 8 = 0xA5) && by_ != .core && !s.pageBusy pgReset

/-- RST_CTL.WARM. -/
def execRstCtlWarm (w : W32) (by_ : Writer) (s : State) : Out :=
  .next (if s.rstKey w by_ && w.getLsbD 0 then s.warmBy 3 else s)

/-! ### Partition reset (R417, R418) -/

/-- The pages of a partition, its tiles' among them (R14). -/
def partPages (p : Nat) : List Nat :=
  [pgArc p, pgPart p, pgAsm p, pgSlv p, pgFpl p, pgNear p, pgFar p] ++ (List.range 72).map fun t => pgTile (p * 72 + t)

/-- Stored words that report the present state of hardware (Table 18.7), or that a chapter keeps (R408, R456). -/
def keptWord (pg o : Nat) : Bool :=
  let c := pageClass pg
  (c == 0x25 && o == 0x190) || (c == 0x36 && (o == 0x130 || o == 0x134)) ||
    (c == 0x38 && (o == 0x108 || o == 0x10C))

/-- Who asked for a solve has an error response. -/
def State.askerFail (s : State) (p : Nat) (a : Asker) : State :=
  match a with
  | .arc e => s.failArc p e 1 true
  | .tile t id => s.finish t 2 id 0 (errNote 0 1 false)

/-- The Assembly Stage's programs are abandoned (R216). -/
def State.asmAbandon (s : State) (p : Nat) : State :=
  let s1 := s.asmUndef p
  let x := s1.part p
  let es := (x.asm.run.map (·.entry)).toList ++ x.asm.queue.map (·.entry)
  es.foldl (fun a e => a.failArc p e 1 true) (s1.setPart p { x with asm := ⟨[], none⟩ })

/-- The solver sequencer's requests are abandoned, and its queues emptied (R233). -/
def State.slvAbandon (s : State) (p : Nat) : State :=
  let s1 := s.solveUndef p
  let x := s1.part p
  let rs := (x.slv.run.map (·.req)).toList ++ x.slv.queue
  rs.foldl (fun a r => a.askerFail p r.asker) (s1.setPart p { x.noOwn with slv := { x.slv with ready := [], queue := [], run := none } })

/-- What a tile holds but its stores is gone (R97, R146, Table 18.4). -/
def State.tileCleared (s : State) (t : Nat) : State :=
  s.setTile t { Tile.reset with seq := if s.tileOn t then .idle else .off }

/-- The field plane has no table (R247). -/
def State.fplCleared (s : State) (p : Nat) : State :=
  let x := s.part p
  s.setPart p { x with fpl := { x.fpl with active := none, ready := none, loading := none } }

/-- Every FIRED arc of a unit completes with an error response (R28), and its engines drop their work; requests that are outstanding
stay outstanding (R337). -/
def State.arcAbandon (s : State) (u : Nat) : State :=
  let es := (List.range (s.arcu u).active.length).filter fun e => ((s.arcu u).active[e]?).map (·.st) == some .fired
  let s1 := { s with
    copies := mdel s.copies u
    outst := s.outst.map fun (o : Outst) => o.orphan fun w => match w with
      | .arc v _ => v == u
      | _ => false }
  let s2 := if u < 16 then s1.setPart u { s1.part u with audit := [] } else s1
  es.foldl (fun a e => a.failArc u e 1 true) s2

/-- The arbiter starts afresh; the channel map, refresh mode and temperature stay (R286). -/
def State.farCleared (s : State) (p : Nat) : State :=
  let f := (s.part p).far
  s.setPart p { s.part p with far := { f with credit := s.arbRefill p, boexp := [], back := [], run := [], holder := none, wdNext := none } }

/-- The next training of a stack after a fence makes a compact map with FT_CTL.DEGRADE (R276). -/
def State.remap (s : State) (p : Nat) (degrade : Bool) : State :=
  let f := (s.part p).far
  if degrade && f.live != ones32 && (!f.degraded || f.cmap != f.live) then
    let s1 := s.setPart p { s.part p with far := { f with degraded := true, cmap := f.live } }
    s1.openBytes (p * 0x1000000000) 0x1000000000
  else s

/-- Channels that did not train have a record of class TIMEOUT each (R412). -/
def State.trained (s : State) (p : Nat) (untrained : List Nat) : State :=
  let cs := (List.range 32).filter fun c => untrained.contains (1152 + p * 32 + c)
  let dead : W32 := cs.foldl (fun m c => m ||| ((1 : W32) <<< c)) 0
  let s1 := s.setPart p { s.part p with far := { (s.part p).far with dead := dead } }
  cs.foldl (fun a c => a.report (pgFar p) ⟨1152 + p * 32 + c, 4, 0, 0, 0, 0, 0⟩ none) s1

/-- A drain that reads partition `p` is abandoned (R389). -/
def State.drainPartReset (s : State) (p : Nat) : State :=
  match s.vault.drain with
  | some d => if d.image.regs.any fun r => r.1.part == p then s.abandonDrain else s
  | none => s

/-- Partition reset of `p`: steps 1 to 4. One that comes while it is in reset restarts the hold (R418). -/
def State.partReset (s : State) (p : Nat) : State :=
  let s0 := s.orReg pgReset 0x104 (1 <<< p)
  if (s.part p).inReset then s0.setPart p { s0.part p with rstAt := s0.refCycle }
  else
    let s1 := ((((s0.asmAbandon p).slvAbandon p).codePartReset p).drainPartReset p).collPartReset p
    let s2 := (List.range 72).foldl (fun (a : State) t => (a.dropPostings (p * 72 + t)).isolate (p * 72 + t)) (s1.arcAbandon p)
    let s3 := { s2 with arcs := mdel s2.arcs p }
    let s4 := (List.range 72).foldl (fun a t => a.tileCleared (p * 72 + t)) s3
    let s5 := ((s4.fplCleared p).remap p (s4.bit (pgFar p) 0x100 0)).farCleared p
    let keep := fun (pg o : Nat) => keptWord pg o || (pg == pgFar p && decide (0x140 ≤ o) && decide (o < 0x180))
    let s6 := (partPages p).foldl (fun (a : State) pg => { a.resetPage pg (keep pg) with srst := mdel a.srst pg }) s5
    s6.setPart p { s6.part p with cut := false, wl := List.replicate 4 WlSlot.free, audit := [], inReset := true, rstAt := s6.refCycle }

/-- RST_CTL.PARTRST; a write with WARM too is a warm reset alone (R410). -/
def execRstCtlPartrst (w : W32) (by_ : Writer) (s : State) : Out :=
  .next (if s.rstKey w by_ && w.getLsbD 1 && !w.getLsbD 0 && s.powered then s.partReset (bits w.toNat 7 4) else s)

/-- PART_RESET_RELEASE: 4096 reference cycles, then eleven domains 256 apart; `untrained` are the channels that fail to train. -/
def execPartResetRelease (p : Nat) (untrained : List Nat) (s : State) : Out :=
  if 16 ≤ p ∨ (s.part p).inReset = false ∨ s.refCycle < (s.part p).rstAt + 4096 + 10 * 256 then .next s
  else
    let s1 := (s.setPart p { s.part p with inReset := false }).trained p untrained
    .next ((s1.raise pgReset 3).send (.partReport p))

/-! ### Release order (R412, R413) -/

/-- Gap before the next phase, and whether what goes before it has ended. -/
def State.phaseGap (s : State) : Option Nat :=
  let r := s.rst
  if r.phase = 0 then some 1024
  else if r.phase = 2 then (if r.loaded then some 256 else none)
  else if r.phase = 6 then some (256 + (if r.cold then 81920 else 0))
  else if r.phase = 7 then some 65536
  else some 256

/-- Ports whose role is enabled begin training (R290, R412). -/
def State.trainPorts (s : State) : State :=
  (List.range 72).foldl (fun a i =>
    if a.bit (pgPort i) 0x100 0 && a.portPowered i && (a.port i).st == .down then
      (a.setPort i { a.port i with st := .training, attempts := 0 }).count (pgPort i) 0x120
    else a) s

/-- RESET_PHASE: the next phase begins; F-die 0's PLL locks from phase 1 (R43, R503); `untrained` are the channels that did not
train in phase 5. -/
def execResetPhase (untrained : List Nat) (s : State) : Out :=
  match s.rst.running, s.phaseGap with
  | true, some g =>
    let now := s.refCycle
    if now < s.rst.at_ + g ∨ 8 ≤ s.rst.phase then .next s
    else
      let ph := s.rst.phase + 1
      let s1 := { s with rst := { s.rst with
        phase := ph, at_ := now, running := decide (ph ≠ 8), mtimeFrom := if ph = 3 then s.clk else s.rst.mtimeFrom } }
      .next (
        if ph = 1 then { s1 with tb.reflock := s1.pins.refClk }
        else if ph = 4 then { s1 with pins.lasers := 0xFF }.trainPorts
        else if ph = 6 then (List.range 16).foldl (fun a p => a.trained p untrained) s1
        else if ph = 8 then s1.setReg pgReset 0x120 (BitVec.ofNat 32 now)
        else s1)
  | _, _ => .next s

/-! ### Block soft reset (R416) -/

/-- Step 1: the isolation wrapper completes the block's work (R97, R216, R233, R360, R456, R67). -/
def State.wrapper (s : State) (pg : Nat) : State :=
  let c := pageClass pg
  let i := pageInst pg
  if c = 0x10 then s.arcAbandon i
  else if 0x20 ≤ c ∧ c ≤ 0x24 then (s.dropPostings (pg - 0x2000)).isolate (pg - 0x2000)
  else if c = 0x25 then s.setPart i { s.part i with wl := List.replicate 4 WlSlot.free }
  else if c = 0x26 then s.asmAbandon i
  else if c = 0x27 then s.slvAbandon i
  else if c = 0x35 then s.collAbandon
  else if c = 0x38 then
    if i < 64 then s.coreDrop i fun _ => Core_.reset
    else if (i == 65) == s.rst.active1 then { s with boot := { s.boot with stewardUp := false } } else s
  else s

/-- PGCTL_SRST: a write of 1 to PGCTL.SRST. -/
def execPgctlSrst (page : Nat) (s : State) : Out :=
  let down : Bool := match pagePart page with
    | some p => !s.partUp p
    | none => false
  if !pagePresent page || s.softReset page || down then .next s
  else
    let s1 := s.wrapper page
    .next { s1 with srst := mput 0 s1.srst page 1 }

/-- What step 2 does to the block beside its stored words. -/
def State.blockCleared (s : State) (pg : Nat) : State :=
  let c := pageClass pg
  let i := pageInst pg
  if c = 0x10 then { s with arcs := mdel s.arcs i }
  else if 0x20 ≤ c ∧ c ≤ 0x24 then s.tileCleared (pg - 0x2000)
  else if c = 0x28 then s.fplCleared i
  else if c = 0x2A then s.farCleared i
  else if c = 0x30 then
    if s.portPowered i = false then s
    else (s.setPort i { s.port i with st := .training, attempts := 0, resend := (s.port i).replay }).updateLost
  else if c = 0x34 then { s with rlc := s.rlc.filter fun l => l.die != i }
  else s

/-- The stored words of a page at step 2; the boot page keeps all but its counts and RW1C bits (R441). -/
def State.wordsCleared (s : State) (pg : Nat) : State :=
  if pg = pgBoot then
    let s1 := s.resetPage pg fun o => decide (0x100 ≤ o) && o != 0x114 && o != 0x128
    s1.setReg pgBoot 0x100 (s1.reg pgBoot 0x100 &&& 0xFFFFF0FF)
  else s.resetPage pg (keptWord pg)

/-- SRST_COMPLETE: step 2; the reset ends 64 cycles later. -/
def execSrstComplete (page : Nat) (s : State) : Out :=
  if mget 0 s.srst page ≠ 1 then .next s
  else
    let s1 := (s.wordsCleared page).blockCleared page
    .next { s1 with srst := mput 0 s1.srst page (s1.clk + 2) }

/-! ### The watchdog (R419 to R421) -/

/-- RST_HBEAT: a write by the active steward. -/
def execRstHbeat (_w : W32) (by_ : Writer) (s : State) : Out :=
  if by_ ≠ .steward ∨ s.stewardOn = false ∨ s.pageBusy pgReset then .next s
  else .next { s with rst := { s.rst with armed := true, lastBeat := s.clk } }

/-- Nanoseconds without a beat before a bite. -/
def State.biteLimit (s : State) : Nat :=
  let per := s.fld pgReset 0x118 15 0
  let miss := s.fld pgReset 0x118 19 16
  1000 * (if per = 0 then 1000 else per) * (if miss = 0 then 3 else miss)

/-- A first bite: cause, count, event and record, and the core stops unless a takeover is under way (R423). -/
def State.firstBite (s : State) : State :=
  let s1 := (s.cause 5).countFld pgReset 0x11C 7 0
  let s2 := s1.report pgReset ⟨if s.rst.active1 then 1801 else 1800, 4, 0, 0, 0, 0, 0⟩ (some 0)
  { s2 with rst := { s2.rst with
    stopped := s2.rst.stopped || !s.rst.takeover, biteAt := s.clk, lastBeat := s.clk, lastBite := some s.clk } }

/-- A second bite within 1 s: the module asks for a warm reset. -/
def State.secondBite (s : State) : State :=
  let s1 := (s.cause 6).countFld pgReset 0x11C 7 0
  { s1 with rst := { s1.rst with stopped := true, warmReq := true, lastBite := some s.clk } }.raise pgReset 1

/-- WATCHDOG_BITE. -/
def execWatchdogBite (s : State) : Out :=
  if s.rst.armed = false ∨ s.rst.stopped = true ∨ s.rst.warmReq = true ∨ s.clk < s.rst.lastBeat + s.biteLimit then .next s
  else match s.rst.lastBite with
    | some t => .next (if s.clk < t + 1000000000 ∧ s.rst.takeover = false then s.secondBite else s.firstBite)
    | none => .next s.firstBite

/-- 1024 core cycles at 2.4 GHz, or at a quarter of it while the die is throttled, in nanoseconds. -/
def State.restartNs (s : State) : Nat :=
  if s.power.throttled.contains (if s.rst.active1 then 17 else 16) then 1707 else 427

/-- STEWARD_RESTART. -/
def execStewardRestart (s : State) : Out :=
  if s.rst.stopped = true ∧ s.rst.warmReq = false ∧ s.rst.noSteward = false ∧ s.rst.biteAt + s.restartNs ≤ s.clk then
    .next { s with rst := { s.rst with stopped := false }, boot := { s.boot with stewardUp := true } }
  else .next s

end Sys2Proof.Machine
end

