-- ==== Sys2Proof/Machine/Pages.lean ====
section
/-! DEFINITION. Reading and writing register pages (R8 to R11, R484 to R488, R509): what every word reads as, the fields that
reflect hardware state (Table 18.7) among them; the writes that have no command of their own; event enables and deliveries
(R489 to R492). -/
namespace Sys2Proof.Machine

/-- `b` at bit `i`. -/
def flag (b : Bool) (i : Nat) : Nat := if b then 2 ^ i else 0

/-- `v` in bits [hi:lo]. -/
def put_ (v hi lo : Nat) : Nat := v % 2 ^ (hi + 1 - lo) * 2 ^ lo

/-- The word of a 64-bit value at `o`, which starts at `base`. -/
def half64 (v base o : Nat) : Nat := if o = base then v % 2 ^ 32 else v / 2 ^ 32 % 2 ^ 32

def sumNat (l : List Nat) : Nat := l.foldl (· + ·) 0

/-! ### Codes of the states -/

def UState.code : UState → Nat
  | .off => 0
  | .active => 1
  | .spare => 2
  | .audit => 3
  | .fenced => 4

def Seq.code : Seq → Nat
  | .off => 0
  | .idle => 1
  | .run => 2
  | .wait => 3
  | .stopped => 4

def PortSt.code : PortSt → Nat
  | .down => 0
  | .training => 1
  | .up => 2
  | .degraded => 3
  | .failed => 4

def CsSt.code : CsSt → Nat
  | .off => 0
  | .coding => 1
  | .halted => 2
  | .rebuild => 3
  | .reform => 4

/-! ### Module identity, timebase, arcs (Tables 1.12 to 1.14, 2.8 to 2.15) -/

/-- Sum of the logical tile counts; tiles in state SPARE (R40). -/
def State.ltiles (s : State) : Nat := sumNat ((List.range 16).map fun p => (s.part p).n)
def State.spareTiles (s : State) : Nat := (s.ust.filter fun e => decide (e.1 < 1152) && e.2.st == .spare).length

def State.identWord (s : State) (o : Nat) : Nat :=
  if o = 0x100 then s.modIdWord.toNat
  else if o = 0x104 then put_ s.ltiles 10 0 + put_ s.spareTiles 26 16
  else if o = 0x108 then match s.mjob with
    | some (t, g) => t.toNat + g.toNat * 2 ^ 16 + 2 ^ 24
    | none => 0
  else 0

def State.timeWord (s : State) (o : Nat) : Nat :=
  let t := s.tb
  if o = 0x100 ∨ o = 0x104 then half64 t.time.toNat 0x100 o
  else if o = 0x108 then flag t.reflock 0 + flag t.caldone 1 + flag t.timevalid 2 + flag t.instep 3 + flag t.held.isSome 4
  else if o = 0x10C then t.ringDelay.toNat
  else if o = 0x110 then t.stepIdx.toNat
  else if o = 0x118 ∨ o = 0x11C then half64 t.start.toNat 0x118 o
  else if o = 0x128 then s.angle + flag t.overtime 16
  else if o = 0x12C then
    s.pins.slot.toNat + flag t.admitted 8 + t.lastSlot.toNat * 2 ^ 16 + flag t.lastValid 22 + flag t.lastSelf 23
  else 0

def State.arcWord (s : State) (u o : Nat) : Nat :=
  let a := s.arcu u
  if o = 0x110 then flag a.ready 0 + flag a.loading.isSome 1 + flag (a.active.all fun x => x.st == .idle) 2
  else if o = 0x114 then s.angle + flag s.tb.overtime 16
  else if o = 0x118 then put_ (a.active.filter fun x => x.st == .done).length 8 0 + put_ (if a.active.all fun x => x.st == .idle then 0 else a.active.length) 24 16
  else if 0x200 ≤ o ∧ o < 0x300 then (mget 0 a.toks ((o - 0x200) / 4)).toNat
  else 0

/-! ### Tiles and partitions (Tables 3.7 to 3.10, 5.8, 6.7, 6.8) -/

def Tile.running (x : Tile) (q : Nat) : Bool := (x.queue q).any fun e => e.st != .queued

/-- Words of a tile's page. DESIGN CHOICE: VEC_CNTn reads 0 while its count register holds poison (log 100). -/
def State.tileWord (s : State) (t o : Nat) : Nat :=
  let x := s.tile t
  let free := fun q => queueDepth q - (x.queue q).length
  if o = 0x100 then t + (match (s.unit t).lt with
    | some k => put_ (t / 72 * 64 + k) 25 16 + 2 ^ 31
    | none => 0)
  else if o = 0x108 then (if s.tileOn t then x.seq.code else 0) + flag x.item.isSome 3 + flag x.loading.isSome 4
  else if o = 0x10C then put_ x.pc 12 0
  else if o = 0x124 then put_ (free 0) 5 0 + put_ (free 1) 13 8 + put_ (free 2) 20 16 + put_ (free 3) 29 24
  else if o = 0x1A4 then flag (x.running 0) 0 + flag x.acc0.isSome 1 + flag x.acc1.isSome 2 + flag x.digPois 4
  else if o = 0x1D4 then flag (x.running 1) 0
  else if 0x1D8 ≤ o ∧ o < 0x1E8 then
    let k := (o - 0x1D8) / 4
    (mget 0 x.vcnt (2 * k)).toNat + (mget 0 x.vcnt (2 * k + 1)).toNat * 2 ^ 16
  else 0

/-- Four bytes of a map. -/
def bytes4 (f : Nat → Nat) (j : Nat) : Nat := f j + f (j + 1) * 2 ^ 8 + f (j + 2) * 2 ^ 16 + f (j + 3) * 2 ^ 24

def State.partWord (s : State) (p o : Nat) : Nat :=
  let x := s.part p
  if 0x100 ≤ o ∧ o < 0x180 then
    match x.wl[(o - 0x100) / 0x20]? with
    | none => 0
    | some w =>
      let r := (o - 0x100) % 0x20
      let waiting := w.active && decide ((mget 0 (s.arcu p).toks w.waitIdx).toNat < w.waitCount)
      if r = 0xC then flag w.active 0 + flag waiting 1 else if r = 0x10 then w.done % 2 ^ 32 else 0
  else if o = 0x180 then put_ x.n 6 0 + put_ x.grade 14 8
  else if o = 0x190 then flag (!x.swap.isEmpty) 0
  else if 0x200 ≤ o ∧ o < 0x240 then
    bytes4 (fun j => if j < x.n then (x.tmap.getD j 0) % 128 + 128 else 0) (o - 0x200)
  else if 0x240 ≤ o ∧ o < 0x288 then bytes4 (fun j => s.slice p j % 128) (o - 0x240)
  else 0

def State.asmWord (s : State) (p o : Nat) : Nat :=
  let x := s.part p
  let hold : Bool := x.asm.run.isNone && (match x.asm.queue with
    | q :: _ => (match s.asmProg (BitVec.ofNat 64 q.addr) with
      | some g => s.matHeld p g.matrix
      | none => false)
    | [] => false)
  if o = 0x100 then flag x.asm.run.isSome 0 + flag hold 1 + flag (decide (8 ≤ x.slv.ready.length)) 2 else 0

def State.slvWord (s : State) (p o : Nat) : Nat :=
  let x := s.part p
  let waits : Bool := x.slv.run.isNone && (match x.slv.queue with
    | q :: _ => (match s.solveBytes (BitVec.ofNat 64 q.addr) with
      | some b => s.assembling p (solveProgOf b).matrix
      | none => false)
    | [] => false)
  if o = 0x1A0 then flag x.slv.run.isSome 0 + flag waits 1
  else if o = 0x1A4 then put_ x.slv.ready.length 3 0 + put_ x.slv.queue.length 10 8
  else 0

def State.fplWord (s : State) (p o : Nat) : Nat :=
  let f := (s.part p).fpl
  if o = 0x110 then flag f.active.isSome 0 + flag f.ready.isSome 1 + flag f.loading.isSome 2
  else if o = 0x114 then s.readHalf
  else 0

/-! ### Memory tiers (Tables 12.8 to 12.10) -/

/-- A patrol pass runs while SCRUB_EN is set, once the near tier is ready (R270, Table 18.2). -/
def State.nearWord (s : State) (p o : Nat) : Nat :=
  let x := s.part p
  if o = 0x104 then flag (s.bit (pgNear p) 0x100 0 && s.partUp p && decide (6 < s.rst.phase)) 0
  else if o = 0x118 then put_ x.spares0 8 0 + put_ x.spares1 24 16
  else 0

def State.farWord (s : State) (p o : Nat) : Nat :=
  let f := (s.part p).far
  if o = 0x104 then put_ f.refmode 1 0 + flag f.degraded 2
  else if o = 0x108 then f.temp.toNat
  else if o = 0x10C then f.live.toNat
  else if 0x1C0 ≤ o ∧ o < 0x200 then
    let n := (o - 0x1C0) / 4
    put_ (mget 0 f.boexp n) 19 16 + flag (decide (mget 0 f.back n ≠ 0)) 20
  else 0

/-! ### Fabric (Tables 13.8 to 13.10, 14.9, 15.6, 16.8, 16.9) -/

def State.portWord (s : State) (i o : Nat) : Nat :=
  let x := s.port i
  if o = 0x104 then x.st.code + put_ x.lanes.toNat 7 4
  else if o = 0x108 then
    (portRole i).1 + put_ (if i = 71 then (portRole x.standIn).2 else (portRole i).2) 13 8 + put_ x.peerSlot.toNat 21 16 +
      flag x.taken 31
  else if o = 0x10C then x.rtt.toNat
  else if 0x160 ≤ o ∧ o < 0x180 then
    put_ (sumNat ((mget [] x.tx ((o - 0x160) / 4)).map fun k => (k.rest.length + 243) / 244)) 15 0
  else if o = 0x184 then put_ (s.inq i) 12 0
  else 0

/-- Module ID with its VALID bit. -/
def idWord : Option (BitVec 14) → Nat
  | some m => m.toNat + 2 ^ 15
  | none => 0

def State.failedPorts (s : State) : Nat := (s.ports.filter fun e => decide (e.1 < 72) && e.2.st == .failed).length

def State.fabWord (s : State) (o : Nat) : Nat :=
  if o = 0x10C then idWord s.modId
  else if o = 0x110 then put_ s.lost 6 0 + put_ s.failedPorts 14 8
  else if 0x180 ≤ o ∧ o < 0x1A0 then idWord ((s.mgmtList[(o - 0x180) / 4]?).getD none)
  else 0

def State.ringWord (s : State) (o : Nat) : Nat :=
  if o = 0x104 then flag s.inRing 0 + flag s.cwLock 1 + flag s.ccwLock 2 else 0

def State.setWord (s : State) (k o : Nat) : Nat :=
  let r := s.rset k
  if o = 0x100 then r.tag.toNat + r.gen.toNat * 2 ^ 16 + flag r.valid 24 + flag r.spread 25
  else if 0x400 ≤ o ∧ o < 0x800 then (mget 0 r.pods ((o - 0x400) / 4)).toNat % 2 ^ 16
  else 0

def State.flowWord (s : State) (o : Nat) : Nat :=
  if o = 0x128 ∨ o = 0x12C then half64 s.ctxBase 0x128 o
  else if o = 0x130 ∨ o = 0x134 then half64 s.rplBase 0x130 o
  else 0

def State.csWord (s : State) (o : Nat) : Nat :=
  if o = 0x104 then s.cs.st.code
  else if o = 0x118 then ((s.cs.epoch).getD 0).toNat
  else if o = 0x11C then ((s.cs.hcomplete).getD 0).toNat
  else 0

/-! ### Fault, reset, boot, ports, power, cores (Tables 17.7, 18.6, 19.8, 20.7, 21.5, 22.6) -/

def State.ustWord (s : State) : Nat :=
  let u := s.fld pgFault 0x11C 10 0
  if 1801 < u then 0
  else
    let e := s.unit u
    let h := s.histOf u
    e.st.code + put_ h.st 4 3 + (match e.lt with
      | some k => put_ (u / 72 * 64 + k) 15 6
      | none => 0) + put_ h.total 23 16

def State.faultWord (s : State) (o : Nat) : Nat :=
  if o = 0x100 then flag s.pins.replaceReq 0 + flag s.rst.active1 6
  else if o = 0x110 then put_ s.tb.barSeen 15 0 + put_ s.tb.barLast 31 16
  else if o = 0x118 then s.fltClock
  else if o = 0x120 then s.ustWord
  else if o = 0x12C then s.logHead.toNat
  else if o = 0x130 ∨ o = 0x134 then half64 s.logBase 0x130 o
  else 0

def State.resetWordNow (s : State) (o : Nat) : Nat :=
  if o = 0x10C then
    put_ s.rst.phase 3 0 + flag s.rst.warmReq 8 + flag s.rst.noSteward 9 +
      sumNat ((List.range 16).map fun p => flag (s.part p).inReset (16 + p))
  else if o = 0x118 then flag s.rst.armed 24
  else 0

/-- The boot page, with ATT_MR(i) at 0x200 + 64 i and ATT_IDFP at 0x400 (R436, R441). -/
def State.bootWord (s : State) (o : Nat) : Nat :=
  let b := s.boot
  if o = 0x100 then
    flag s.waitImg 0 + flag b.image.isSome 1 + flag b.signer 2 + flag b.idOk 3 + flag s.opt.pend 4 + flag (!s.opt.sfdpOk) 5
  else if o = 0x104 then put_ b.defaulted.toNat 15 0
  else if o = 0x110 then b.svn.toNat + b.minsvn.toNat * 2 ^ 16
  else if o = 0x118 ∨ o = 0x11C then half64 s.mgtCtr.toNat 0x118 o
  else if o = 0x120 ∨ o = 0x124 then half64 s.mgtBootId.toNat 0x120 o
  else if 0x200 ≤ o ∧ o < 0x400 then field (b.mrs.getD ((o - 0x200) / 64) []) ((o - 0x200) % 64) 4
  else if 0x400 ≤ o ∧ o < 0x420 then field b.idfp (o - 0x400) 4
  else 0

def State.hostWord (s : State) (o : Nat) : Nat :=
  if o = 0x100 then flag s.hostp.up 0 + put_ s.hostp.speed 3 1 + put_ s.hostp.width 8 4 else 0

def State.vportWord (s : State) (o : Nat) : Nat :=
  if o = 0x100 then flag s.vault.linkup 0 + flag s.vault.ready 1 else 0

/-- Domain `d` of Table 22.1 is powered: released (Table 18.2), and not down in Partition Sleep or Standby. -/
def State.domainOn (s : State) (d : Nat) : Bool :=
  let ph := s.rst.phase
  if s.powered = false ∨ 211 < d then false
  else if d < 192 then
    let p := d / 12
    let g := d % 12
    if g = 9 then decide (6 ≤ ph) && (!s.power.standby || s.bit pgPower 0x100 1)
    else if (s.part p).sleep = .asleep then false
    else if g = 10 then decide (5 ≤ ph)
    else decide (8 ≤ ph) || (ph == 7 && decide (s.rst.at_ + 4096 * p + 256 * (if g = 11 then 0 else g + 1) ≤ s.refCycle))
  else if d < 202 then
    let i := (d - 192) / 5
    let k := (d - 192) % 5
    decide ((if i = 0 ∧ k = 4 then 1 else 3) ≤ ph) && (k == 4 || !s.power.standby)
  else
    let i := (d - 202) / 5
    let k := (d - 202) % 5
    decide ((if i = 0 ∧ k = 4 then 1 else 4) ≤ ph) && (k == 4 || !s.power.standby)

def State.powerWord (s : State) (o : Nat) : Nat :=
  if o = 0x104 then flag s.power.standby 0
  else if o = 0x110 then put_ s.power.sample.watts 12 0 + put_ s.power.sample.vin 31 16
  else if 0x180 ≤ o ∧ o < 0x1C0 then
    let x := s.part ((o - 0x180) / 4)
    put_ (if x.sleep = .asleep then 2 else 0) 9 8 + put_ x.clkF 22 16
  else if 0x200 ≤ o ∧ o < 0x21C then
    sumNat ((List.range 32).map fun j => flag (s.domainOn (32 * ((o - 0x200) / 4) + j)) j)
  else if 0x220 ≤ o ∧ o < 0x270 then (s.power.sample.temps.getD ((o - 0x220) / 4) 0 % 65536).toNat
  else 0

def State.coreWord (s : State) (c o : Nat) : Nat :=
  let running := if c < 64 then (s.core_ c).running else (c == 65) == s.rst.active1 && s.boot.stewardUp && !s.rst.stopped
  if o = 0x104 then flag running 0 + flag (s.core_ c).psvOn 1
  else if o = 0x118 ∧ c < 64 then 16 - (s.core_ c).posts.length
  else 0

/-! ### The page header (Table 23.1) -/

/-- The block holds accepted work not yet completed. -/
def State.pageWork (s : State) (pg : Nat) : Bool :=
  let c := pageClass pg
  let i := pageInst pg
  if c = 0x10 then (s.arcu i).loading.isSome || (s.arcu i).active.any fun x => x.st == .fired
  else if 0x20 ≤ c ∧ c ≤ 0x24 then !(s.tile (pg - 0x2000)).queues.isEmpty || (s.tile (pg - 0x2000)).loading.isSome
  else if c = 0x25 then (s.part i).wl.any (·.active) || !(s.part i).swap.isEmpty
  else if c = 0x26 then (s.part i).asm.run.isSome || !(s.part i).asm.queue.isEmpty
  else if c = 0x27 then (s.part i).slv.run.isSome || !(s.part i).slv.queue.isEmpty
  else if c = 0x28 then (s.part i).fpl.loading.isSome
  else if c = 0x29 then !(s.part i).sparing.isEmpty
  else if c = 0x2A then (s.part i).far.holder.isSome
  else if c = 0x30 then (s.port i).tx.any (fun e => !e.2.isEmpty) || !(s.port i).pkts.isEmpty || !(s.port i).lineq.isEmpty
  else if c = 0x32 then !s.ringCw.isEmpty || !s.ringCcw.isEmpty
  else if c = 0x34 then s.outst.any fun o => o.ctx % 2 == i
  else if c = 0x35 then !s.colls.isEmpty
  else if c = 0x36 then s.cs.codes.any fun x => x.waits || !x.owed.isEmpty
  else if c = 0x37 then s.vault.drain.isSome || s.vault.restoring
  else if c = 0x38 then !(s.core_ i).posts.isEmpty
  else if c = 0x06 then s.boot.verifying.isSome
  else if c = 0x0A then !s.router.host.isEmpty || !s.router.stew.isEmpty || !s.router.mgmt.isEmpty
  else false

/-- A block soft reset or a partition reset of the page runs. -/
def State.rstActive (s : State) (pg : Nat) : Bool :=
  s.softReset pg || (match pagePart pg with
    | some p => (s.part p).inReset
    | none => false)

def State.headWord (s : State) (pg o : Nat) : Nat :=
  let c := pageClass pg
  if o = 0x000 then pageInst pg + c * 2 ^ 8 + 2 ^ 16
  else if o = 0x004 then put_ (evBits c) 13 8 + (match pageUnit pg with
    | some u => 1 + put_ u 26 16
    | none => 0)
  else if o = 0x008 then flag (s.softReset pg) 0
  else if o = 0x00C then
    flag (s.rstActive pg) 0 + flag (match pageUnit pg with
      | some u => (s.unit u).st == .fenced
      | none => false) 1 + flag (s.pageWork pg) 2 + flag (s.errSet.contains pg) 3
  else if o = 0x020 then field (s.recAt pg) 0 4
  else if 0x024 ≤ o ∧ o < 0x060 then field (mget [] s.errBuf pg) (o - 0x020) 4
  else 0

/-! ### Reading (R485, R486, R488) -/

/-- The fields of a word that reflect hardware state. -/
def State.liveWord (s : State) (pg o : Nat) : Nat :=
  let c := pageClass pg
  let i := pageInst pg
  if o < 0x100 then s.headWord pg o
  else if c = 0x01 then s.identWord o
  else if c = 0x02 then s.timeWord o
  else if c = 0x04 then s.faultWord o
  else if c = 0x05 then s.resetWordNow o
  else if c = 0x06 then s.bootWord o
  else if c = 0x07 then s.hostWord o
  else if c = 0x08 then s.vportWord o
  else if c = 0x09 then s.powerWord o
  else if c = 0x10 then s.arcWord i o
  else if 0x20 ≤ c ∧ c ≤ 0x24 then s.tileWord (pg - 0x2000) o
  else if c = 0x25 then s.partWord i o
  else if c = 0x26 then s.asmWord i o
  else if c = 0x27 then s.slvWord i o
  else if c = 0x28 then s.fplWord i o
  else if c = 0x29 then s.nearWord i o
  else if c = 0x2A then s.farWord i o
  else if c = 0x30 then s.portWord i o
  else if c = 0x31 then s.fabWord o
  else if c = 0x32 then s.ringWord o
  else if c = 0x33 then s.setWord i o
  else if c = 0x34 then s.flowWord o
  else if c = 0x35 then (if o = 0x104 then put_ s.colls.length 2 0 else 0)
  else if c = 0x36 then s.csWord o
  else if c = 0x37 then (if o = 0x124 then flag s.vault.drain.isSome 0 else 0)
  else if c = 0x38 then s.coreWord i o
  else 0

/-- The stored part of a word: the clock of the fault page is all live; a weight above 4096 reads as 4096. -/
def State.storedWord (s : State) (pg o : Nat) : W32 :=
  if pg = pgFault ∧ o = 0x118 then 0
  else if pageClass pg = 0x2A ∧ 0x140 ≤ o ∧ o < 0x180 then
    if 4096 < (s.reg pg o).toNat then 4096 else s.reg pg o
  else s.reg pg o

/-- What a word reads as now. While a soft reset waits for its step 2 the page reads as it will then (R416). -/
def State.word (s : State) (pg o : Nat) : W32 :=
  if pagePresent pg = false then 0
  else
    let a := if mget 0 s.srst pg = 1 then (s.wordsCleared pg).blockCleared pg else s
    a.storedWord pg o ||| BitVec.ofNat 32 (a.liveWord pg o)

/-- The low word of a 64-bit register (R486). -/
def isLow64 (pg o : Nat) : Bool :=
  match rowAt (pageClass pg) o with
  | some r => r.lo64
  | none => (pageClass pg == 0x02 && (o == 0x100 || o == 0x118)) || (pageClass pg == 0x34 && (o == 0x128 || o == 0x130))

/-- One 32-bit read: a low word latches its high word, and offset 0x020 the whole record (R486, R488). -/
def State.read32 (s : State) (pg o : Nat) : W32 × State :=
  let a := pg * 0x1000 + o
  if isLow64 pg o then (s.word pg o, { s with hiLatch := mhold s.hiLatch (a + 4) (s.word pg (o + 4)) })
  else if o = 0x020 then (s.word pg o, { s with errBuf := mput [] s.errBuf pg (s.recAt pg) })
  else if 4 ≤ o && isLow64 pg (o - 4) then ((mheld s.hiLatch a).getD (s.word pg o), s)
  else (s.word pg o, s)

/-- A read of 4 or 8 aligned bytes at BAR0 offset `off`; none for any other access (R486). -/
def State.regRead (s : State) (off size : Nat) : Option (Nat × State) :=
  if ¬ (size = 4 ∨ size = 8) ∨ off % size ≠ 0 ∨ 0x4000000 ≤ off then none
  else
    let (lo, s1) := s.read32 (off / 0x1000) (off % 0x1000)
    if size = 4 then some (lo.toNat, s1)
    else
      let (hi, s2) := s1.read32 (off / 0x1000) (off % 0x1000 + 4)
      some (lo.toNat + 2 ^ 32 * hi.toNat, s2)

/-- ERRREC_READ (R488): a read of offset 0x020 latches the whole record into the page's read buffer, the old one in the nanosecond in
which a new one is written (R497). -/
def execErrrecRead (page : Nat) (s : State) : Out :=
  .next (if pagePresent page then { s with errBuf := mput [] s.errBuf page (s.recAt page) } else s)

/-! ### Writing (R9, R10, R486) -/

/-- Fields of a word that a command of their own writes: PRT_CTL.ENABLE, RING_CTL.INSERT, PWR_MCTL.STANDBY, PWR_PCTL.SLEEP. -/
def ownField (c o : Nat) : W32 :=
  if (c = 0x30 ∧ o = 0x100) ∨ (c = 0x32 ∧ o = 0x100) ∨ (c = 0x09 ∧ (o = 0x100 ∨ (0x180 ≤ o ∧ o < 0x1C0))) then 1 else 0

/-- Bits that a write of `w` sets and clears in a stored word; a bit that hardware set in this nanosecond stays set (R11). -/
def State.writeBits (s : State) (pg o : Nat) (rw w1c w : W32) : State :=
  s.setReg pg o (((s.reg pg o &&& ~~~ rw) ||| (w &&& rw)) &&& ~~~ (w &&& w1c &&& ~~~ s.setNow pg o))

/-- A token counter or a variance counter takes up the increments of the nanosecond in which it was written (R80, R261). -/
def State.addNow (s : State) (pg o : Nat) : State :=
  let c := pageClass pg
  if 0x20 ≤ c ∧ c ≤ 0x24 ∧ 0x200 ≤ o ∧ o < 0x300 then s.setReg pg o (s.reg pg o + BitVec.ofNat 32 (s.cntNow pg o))
  else if pg = pgRep ∧ 0x118 ≤ o ∧ o < 0x12C then
    s.setReg pg o (BitVec.ofNat 32 (min (2 ^ 32 - 1) ((s.reg pg o).toNat + s.cntNow pg o)))
  else if pg = pgRep ∧ o = 0x10C then s.setReg64 pg 0x108 (min (2 ^ 64 - 1) (s.reg64 pg 0x108 + s.cntNow pg 0x108))
  else s

/-- RW bits of a word: DR4_2 is the uplinks' alone (Table 13.8), EVROUTE.MGMT of a flow page is read-only (R491), and a
steward's page has no posting registers (R454). -/
def rwBits (pg o : Nat) (r : RegRow) : W32 :=
  let c := pageClass pg
  if c = 0x30 ∧ o = 0x100 then (if (portRole (pageInst pg)).1 = 1 then 2 else 0)
  else if c = 0x38 ∧ 64 ≤ pageInst pg ∧ 0x110 ≤ o then 0
  else r.rw &&& ~~~ (ownField c o)

/-- EVRAW bits cleared, but for those that were set in this nanosecond (R11); all zeros clear EVFIRST (R490). -/
def State.clearRaw (s : State) (pg : Nat) (w : W32) : State :=
  let v := s.reg pg 0x010 &&& ~~~ (w &&& ~~~ s.setNow pg 0x010)
  let s1 := ((s.noteWas pg 0x010).noteWas pg 0x01C).setReg pg 0x010 v
  if v = 0 then s1.setReg pg 0x01C 0 else s1

/-- EVEN takes a value; a bit that rises over a set EVRAW bit is delivered (R489). -/
def State.setEven (s : State) (pg : Nat) (v : W32) : State :=
  let m : W32 := BitVec.ofNat 32 (2 ^ evBits (pageClass pg) - 1)
  let old := s.reg pg 0x014
  let s1 := s.setReg pg 0x014 (v &&& m)
  let up := (List.range 32).filter fun i => (v &&& m).getLsbD i && !old.getLsbD i && (s.reg pg 0x010).getLsbD i
  up.foldl (fun a i =>
    let (b, ok, _) := a.deliver pg i none
    if ok then b else b.raiseOvf) s1

/-- One 32-bit write to a page: the header's RW and RW1C fields, or a stored word. -/
def State.write32 (s : State) (pg o : Nat) (w : W32) : State :=
  let c := pageClass pg
  let m : W32 := BitVec.ofNat 32 (2 ^ evBits c - 1)
  let a := pg * 0x1000 + o
  if pagePresent pg = false ∨ s.pageBusy pg then s
  else if o = 0x010 then s.clearRaw pg (w &&& m)
  else if o = 0x014 then s.setEven pg w
  else if o = 0x018 then (s.noteWas pg o).writeBits pg o (if c = 0x34 then 0x307FF else 0x707FF) 0 w
  else if o < 0x100 then s
  else match rowAt c o with
    | none => s
    | some r =>
      if r.lo64 then { s with loHold := mhold s.loHold a w }
      else
        let s1 :=
          if 4 ≤ o ∧ isLow64 pg (o - 4) = true then
            match mheld s.loHold (a - 4), rowAt c (o - 4) with
            | some lo, some q =>
              { s with loHold := mdel s.loHold (a - 4) }.writeBits pg (o - 4) (rwBits pg (o - 4) q) q.w1c lo
            | _, _ => s
          else s
        let s2 := (s1.writeBits pg o (rwBits pg o r) r.w1c w).addNow pg o
        if pg = pgFault ∧ o = 0x118 then { s2 with fltNs := s2.clk }
        else if pg = pgFault ∧ o = 0x104 then s2.replHeld
        else s2

/-- A write to ring `r`'s part of BAR4, beside the rings' own commands: entries, HRING_CQ and HRING_STAT (Table 21.3). -/
def State.ringPageWrite (s : State) (r o : Nat) (bytes : List Byte) : State :=
  let h := s.hring r
  let w := leNat bytes
  if 0x1000 ≤ o then s.setHring r { h with mem := h.mem.wr (o - 0x1000) (bytes.map some) }
  else if o = 0x010 ∧ bytes.length = 8 then s.setHring r { h with cq := BitVec.ofNat 64 (w / 16 * 16) }
  else if o = 0x010 then s.setHring r { h with cq := BitVec.ofNat 64 (h.cq.toNat / 2 ^ 32 * 2 ^ 32 + w / 16 * 16) }
  else if o = 0x014 then s.setHring r { h with cq := BitVec.ofNat 64 (h.cq.toNat % 2 ^ 32 + w * 2 ^ 32) }
  else if o = 0x018 then s.setHring r { h with err := h.err && !bitAt w 0 }
  else s

/-- A write to the MSI-X table; setting a vector's mask bit masks it, and clearing it is MSIX_UNMASK (R465). -/
def State.msixWrite (s : State) (o : Nat) (bytes : List Byte) : State :=
  let p := s.hostp
  let v := o / 16
  let ctl := if o % 16 = 12 then some (leNat bytes) else if o % 16 = 8 ∧ bytes.length = 8 then some (leNat bytes / 2 ^ 32) else none
  let body := if o % 16 = 12 then [] else if o % 16 = 8 then bytes.take 4 else bytes
  let mask : Bool := match ctl with
    | some c => bitAt c 0 && !p.masked.contains v
    | none => false
  { s with hostp := { p with table := p.table.wr o (body.map some), masked := if mask then v :: p.masked else p.masked } }

/-- A write to BAR4 (Table 21.1). -/
def State.bar4Write (s : State) (o : Nat) (bytes : List Byte) : State :=
  if o < 0x1000000 then s.ringPageWrite (o / 0x10000) (o % 0x10000) bytes
  else if o < 0x1008000 then s.msixWrite (o - 0x1000000) bytes
  else s

/-- Who writes can reach the pages: the host while its link is up, the steward while it runs. -/
def State.writerOn (s : State) (w : Writer) : Bool :=
  match w with
  | .host => s.hostp.up
  | .steward => s.stewardOn
  | .core => true

/-- REG_WRITE: `data` at BAR0 offset `off`, or at BAR4 offset `off - 64 MiB`; 4 or 8 bytes, aligned (R486). -/
def execRegWrite (off : Nat) (data : W64) (size : Nat) (by_ : Writer) (s : State) : Out :=
  if ¬ (size = 4 ∨ size = 8) ∨ off % size ≠ 0 ∨ s.writerOn by_ = false then .next s
  else if 0x4000000 ≤ off then
    .next (if by_ = .host then s.bar4Write (off - 0x4000000) (toLE size data.toNat) else s)
  else
    let s1 := s.write32 (off / 0x1000) (off % 0x1000) (BitVec.ofNat 32 data.toNat)
    .next (if size = 8 then s1.write32 (off / 0x1000) (off % 0x1000 + 4) (BitVec.ofNat 32 (data.toNat / 2 ^ 32)) else s1)

/-- EVEN_WRITE (R489). -/
def execEvenWrite (page : Nat) (v : W32) (s : State) : Out :=
  .next (if pagePresent page = false ∨ s.pageBusy page then s else s.setEven page v)

/-! ### Deliveries (R491, R492) -/

/-- Vector `v` is signalled, or pends in the PBA while it is masked (R465). -/
def State.signalVec (s : State) (v : Nat) : State :=
  if s.hostp.masked.contains v then
    { s with hostp := { s.hostp with pba := if s.hostp.pba.contains v then s.hostp.pba else v :: s.hostp.pba } }
  else s.send (.msix v)

/-- MGMT_EVENT after the routing header (Table 23.2). -/
def mgmtEvent (x : Delivery) : List Byte :=
  toLE 2 x.page ++ toLE 1 (x.bit.getD 0) ++ toLE 1 (if x.rec_.isSome then 1 else 0) ++ toLE 4 x.evraw.toNat ++
    toLE 8 x.time.toNat ++ x.rec_.getD []

/-- One delivery to the host. While the link is down it goes to the steward, merged with the steward's own (R491). -/
def State.deliverHost (s : State) (x : Delivery) : State :=
  if s.hostp.up then (s.signalVec x.vec).count pgEvr 0x104 else s.redirect x

/-- One delivery to the active steward; the record that came with it waits to be logged (R393). -/
def State.deliverStew (s : State) (x : Delivery) : State :=
  let s1 := match x.rec_ with
    | some b => { s with router.inbox := s.router.inbox ++ [b] }
    | none => s
  if x.bit.isSome then s1.count pgEvr 0x108 else s1

/-- One delivery to management: a packet to every VALID entry, or a drop. -/
def State.deliverMgmt (s : State) (x : Delivery) : State :=
  let tgt := s.mgmtList.filterMap id
  if tgt.isEmpty then s.drop 8
  else tgt.foldl (fun a m =>
    (a.sendPacket ⟨m, 0, 0, 0, 0, 0, 0, 0x43, mgmtEvent x⟩ .unit).1.count pgEvr 0x10C) s

/-- EVENT_DELIVERY: the oldest delivery of a destination's queue. -/
def execEventDelivery (d : Dest) (s : State) : Out :=
  match d with
  | .host => match s.router.host with
    | [] => .next s
    | x :: r => if s.hostp.up = false ∧ s.rst.warmReq = true then .next s
      else .next ({ s with router.host := r }.deliverHost x)
  | .steward => match s.router.stew with
    | [] => .next s
    | x :: r => if s.stewardOn then .next ({ s with router.stew := r }.deliverStew x) else .next s
  | .mgmt => match s.router.mgmt with
    | [] => .next s
    | x :: r => .next ({ s with router.mgmt := r }.deliverMgmt x)

end Sys2Proof.Machine
end

