-- ==== Sys2Proof/Machine/Cores.lean ====
section
/-! DEFINITION. The service cores (R442 to R456): starting, postings into tiles, and the packed short-vector extension. -/
namespace Sys2Proof.Machine

/-- SVC_RUN: the steward writes 1 to SVC_CTL.RUN. The core starts at SVC_RVEC in M-mode, and mstatus.FS comes up on. -/
def execSvcRun (c : Nat) (s : State) : Out :=
  let x := s.core_ c
  if 64 ≤ c ∨ s.stewardOn = false ∨ (s.unit (1736 + c)).st ≠ .active ∨ s.softReset (pgCore c) = true ∨ x.running = true then .next s
  else .next (s.setCore c { x with running := true, pc := BitVec.ofNat 64 (s.reg64 (pgCore c) 0x108), mode := .m, fsOff := false })

/-! ### Postings (R447 to R449) -/

/-- SVC_POST: one of 16 entries, or held in the core until a credit returns. One from a core that the table holds as FENCED or OFF is a
disagreement (R27, R405). -/
def execSvcPost (c : Nat) (addr : W64) (s : State) : Out :=
  let x := s.core_ c
  let a := addr &&& 0xFFFFFFFFFFC0
  let u := (s.unit (1736 + c)).st
  if c < 64 ∧ (u = .fenced ∨ u = .off) then .next (s.report (pgCore c) ⟨1736 + c, 5, 0, 0, 0, a.toNat, 0⟩ none)
  else if s.coreUp c = false ∨ x.heldPost.isSome = true then .next s
  else if x.posts.length < 16 then .next (s.setCore c { x with posts := x.posts ++ [a] })
  else .next (s.setCore c { x with heldPost := some a })

/-- A refused posting (R449). -/
def State.postRefuse (s : State) (c : Nat) (addr : W64) : State :=
  let s1 := s.postDone c
  let s2 := if s1.bit (pgCore c) 0x104 8 then s1 else s1.setReg64 (pgCore c) 0x120 addr.toNat
  (s2.orReg (pgCore c) 0x104 0x100).report (pgCore c) ⟨1736 + c, 3, 0, 0, 0, addr.toNat, 0⟩ (some 0)

/-- The program of tile `t` has an instruction ready for engine queue `q`, if that holds a credit (R74). -/
def State.progReady (s : State) (t q : Nat) : Bool :=
  s.issuing t && (match s.fetch t with
    | .words w e1 e2 _ => wordOk w e1 e2 && queueOf (wMajor w) == some q && s.tokHeld t w
    | .error _ => false)

/-- The posting at `addr` at the head of core `c`'s queue, as the port finds it: refused, waiting, or issued. -/
def State.postIssue (s : State) (c : Nat) (addr : W64) : State :=
  match s.posting addr with
  | none => s.postRefuse c addr
  | some k => match s.ptile (k.ltile / 64) (k.ltile % 64) with
    | none => s.postRefuse c addr
    | some t =>
      let q := (queueOf (wMajor k.word)).getD 0
      if s.tileOn t = false then s.postRefuse c addr
      else if s.rstActive (pgTile t) then s.postDone c
      else if s.pageBusy (pgTile t) = true ∨ s.takesWork (t / 72) = false ∨ s.tokHeld t k.word = false ∨
          (s.tile t).hasCredit q = false ∨ ((s.tile t).lastPosted = true ∧ s.progReady t q = true) then s
      else
        let b := s.enqueue t q k.word k.ext1 k.ext2 0 k.ops true false
        (b.setTile t { b.tile t with lastPosted := true }).postDone c

/-- POST_ISSUE: the port takes the oldest posting to its tile once its wait holds and the tile's queue has a credit, and gives way in turn
to the tile's program (R74). A partition below 48 logical tiles takes none (R18). -/
def execPostIssue (c : Nat) (s : State) : Out :=
  match s.coreUp c, (s.core_ c).posts with
  | true, addr :: _ => .next (s.unlessHeld fun a => (a.readNote addr.toNat 128).postIssue c addr)
  | _, _ => .next s

/-! ### The packed short-vector extension (R450 to R453) -/

/-- Fields of a PSV word (R451). -/
structure Psv where
  wide : Bool
  rd : Nat
  ty : Nat
  rs1 : Nat
  rs2 : Nat
  deriving DecidableEq, Repr

def psvOf (w : W32) : Psv :=
  let v := w.toNat
  ⟨bits v 6 0 == 0x2B, bits v 11 7, bits v 14 12, bits v 19 15, bits v 24 20⟩

/-- The word is operation `op` of one of the two opcodes. -/
def psvIs (w : W32) (op : Nat) : Bool :=
  let v := w.toNat
  (bits v 6 0 == 0x0B || bits v 6 0 == 0x2B) && bits v 31 25 == op

/-- Bits of an element type (Table 20.4). -/
def psvBits (ty : Nat) : Nat := if ty = 0 then 8 else if ty = 1 then 16 else if ty = 4 then 64 else 32

def psvFp (ty : Nat) : Bool := decide (3 ≤ ty)
def psvFmt (ty : Nat) : FFmt := if ty = 3 then f32 else f64

/-- Elements of a form. -/
def Psv.count (i : Psv) : Nat := (if i.wide then 128 else 64) / psvBits i.ty

/-- The element type exists in this form, and the pairs that the 128-bit form names are even (R450); `fregs` are the FP
registers that the operation names. -/
def Psv.legal (i : Psv) (fregs : List Nat) : Bool :=
  (decide (i.ty < 4) || (i.ty == 4 && i.wide)) && (!i.wide || fregs.all fun r => r % 2 == 0)

/-- Value of a register or pair. -/
def Core_.fval (x : Core_) (wide : Bool) (r : Nat) : Nat :=
  (x.f.getD r 0).toNat + (if wide then (x.f.getD (r + 1) 0).toNat * 2 ^ 64 else 0)

def Core_.setFval (x : Core_) (wide : Bool) (r v : Nat) : Core_ :=
  let f1 := x.f.set r (BitVec.ofNat 64 v)
  { x with f := if wide then f1.set (r + 1) (BitVec.ofNat 64 (v / 2 ^ 64)) else f1 }

/-- Element `k` of a value. -/
def elemAt (b v k : Nat) : Nat := v / 2 ^ (b * k) % 2 ^ b

def setElem (b v k e : Nat) : Nat := v - elemAt b v k * 2 ^ (b * k) + e % 2 ^ b * 2 ^ (b * k)

/-- Rounding mode of frm; RISC-V numbers 2 down and 3 up. -/
def psvRm (frm : BitVec 3) : Nat := if frm = 2 then 3 else if frm = 3 then 2 else frm.toNat

/-- Flags in fflags' order: NX, UF, OF, DZ, NV from bit 0. -/
def psvFlags (fl : Nat) : BitVec 5 :=
  BitVec.ofNat 5 ((if fl.testBit 4 then 1 else 0) + (if fl.testBit 3 then 2 else 0) + (if fl.testBit 2 then 4 else 0) +
    (if fl.testBit 1 then 8 else 0) + (if fl.testBit 0 then 16 else 0))

/-- The core takes a trap of cause `n`. -/
def State.coreTrap (s : State) (c n : Nat) : State := s.setCore c { s.core_ c with trap := some n }

/-- A PSV instruction of operation `op`: an illegal one traps, as every one does on a steward core; the first after a
power-down waits for the unit to wake; else `f` runs. -/
def State.psv (s : State) (c : Nat) (w : W32) (op : Nat) (rounds : Bool) (fregs : List Nat) (f : Psv → State → State) : Out :=
  let x := s.core_ c
  let i := psvOf w
  if psvIs w op = false then .next s
  else if c = 64 ∨ c = 65 then .next (s.coreTrap c 2)
  else if s.coreUp c = false ∨ x.waking = true then .next s
  else if i.legal fregs = false ∨ x.fsOff = true ∨ (rounds = true ∧ psvFp i.ty = true ∧ 4 < x.frm.toNat) then .next (s.coreTrap c 2)
  else if x.psvOn = false then .next (s.setCore c { x with waking := true })
  else .next (f i s)

/-- The instruction completes: psvidx is 0, FS is Dirty, flags are ORed in, and the unit's idle time starts. -/
def State.psvEnd (s : State) (c : Nat) (fl : Nat) : State :=
  let x := s.core_ c
  s.setCore c { x with psvidx := 0, fsDirty := true, fflags := x.fflags ||| psvFlags fl, psvIdleAt := s.clk }

/-- An element-by-element operation from psvidx on: `g` gives an element's result and flags. -/
def State.psvMap (s : State) (c : Nat) (i : Psv) (g : Nat → Nat → Nat → Nat × Nat) : State :=
  let x := s.core_ c
  let b := psvBits i.ty
  let v1 := x.fval i.wide i.rs1
  let v2 := x.fval i.wide i.rs2
  let vd := x.fval i.wide i.rd
  let ks := (List.range i.count).filter fun k => decide (x.psvidx.toNat ≤ k)
  let rs := ks.map fun k => (k, g (elemAt b v1 k) (elemAt b v2 k) (elemAt b vd k))
  let v := rs.foldl (fun (v : Nat) (r : Nat × Nat × Nat) => setElem b v r.1 r.2.1) vd
  let fl := rs.foldl (fun (m : Nat) (r : Nat × Nat × Nat) => m ||| r.2.2) 0
  (s.setCore c (x.setFval i.wide i.rd v)).psvEnd c fl

/-- FP registers of a three-register operation. -/
def psvRegs (w : W32) : List Nat := [(psvOf w).rd, (psvOf w).rs1, (psvOf w).rs2]

def execPsvAdd (c : Nat) (w : W32) (s : State) : Out :=
  s.psv c w 0x00 true (psvRegs w) fun i t => t.psvMap c i fun a b _ =>
    if psvFp i.ty then (psvFmt i.ty).add (psvRm (t.core_ c).frm) a b else (a + b, 0)

def execPsvSub (c : Nat) (w : W32) (s : State) : Out :=
  s.psv c w 0x01 true (psvRegs w) fun i t => t.psvMap c i fun a b _ =>
    if psvFp i.ty then (psvFmt i.ty).sub (psvRm (t.core_ c).frm) a b else (a + (2 ^ psvBits i.ty - b), 0)

def execPsvMul (c : Nat) (w : W32) (s : State) : Out :=
  s.psv c w 0x02 true (psvRegs w) fun i t => t.psvMap c i fun a b _ =>
    if psvFp i.ty then (psvFmt i.ty).mul (psvRm (t.core_ c).frm) a b else (a * b, 0)

/-- rd := rs1 × rs2 + rd. -/
def execPsvMac (c : Nat) (w : W32) (s : State) : Out :=
  s.psv c w 0x03 true (psvRegs w) fun i t => t.psvMap c i fun a b d =>
    if psvFp i.ty then (psvFmt i.ty).fma (psvRm (t.core_ c).frm) false a b d else (d + a * b, 0)

/-- Signed minimum or maximum. -/
def psvMinMax (ty : Nat) (mx : Bool) (a b : Nat) : Nat × Nat :=
  if psvFp ty then (psvFmt ty).minmax mx a b
  else (if decide (sint (psvBits ty) a < sint (psvBits ty) b) != mx then a else b, 0)

def execPsvMin (c : Nat) (w : W32) (s : State) : Out :=
  s.psv c w 0x04 false (psvRegs w) fun i t => t.psvMap c i fun a b _ => psvMinMax i.ty false a b

def execPsvMax (c : Nat) (w : W32) (s : State) : Out :=
  s.psv c w 0x05 false (psvRegs w) fun i t => t.psvMap c i fun a b _ => psvMinMax i.ty true a b

/-- RSUM: the canonical fold of the elements of rs1 goes to element 0 of rd. -/
def execPsvRsum (c : Nat) (w : W32) (s : State) : Out :=
  s.psv c w 0x10 true [(psvOf w).rd, (psvOf w).rs1] fun i t =>
    let x := t.core_ c
    let b := psvBits i.ty
    let l := (List.range i.count).map fun k => some (elemAt b (x.fval i.wide i.rs1) k)
    let r := pfold (fun p q => if psvFp i.ty then (psvFmt i.ty).add (psvRm x.frm) p q else ((p + q) % 2 ^ b, 0)) l
    (t.setCore c (x.setFval i.wide i.rd (setElem b (x.fval i.wide i.rd) 0 (r.1.getD 0)))).psvEnd c r.2

/-! ### Element loads and stores -/

/-- Address of element `k`. -/
def psvAddr (x1 x2 : W64) (k : Nat) : Nat := (x1 + BitVec.ofNat 64 k * x2).toNat

/-- The tiers are cacheable, no other region is (Table 20.1). -/
def cacheable (a : Nat) : Bool :=
  match regionOf a with
  | .far _ => true
  | .near _ => true
  | _ => false

/-- cbo.inval of a block: its line goes, dirty or not (R445). -/
def State.cboInval (s : State) (line : Nat) : State := { s with dcache := s.dcache.filter fun l => l.line != line }

/-- cbo.flush of a block: its line goes, and is written to memory when a core wrote it (R445). A write-back that the field plane refuses is
lost. -/
def State.cboFlush (s : State) (line : Nat) : State :=
  match s.dcache.find? fun l => l.line == line with
  | some l => if l.dirty then ((s.cboInval line).put .unit (64 * line) l.data).1 else s.cboInval line
  | none => s

/-- Lines that the caches give up of themselves before an access: which, the spec leaves open (log 95). -/
def State.evict (s : State) : State :=
  s.dcache.foldl (fun t l =>
    let u := { t with fresh := t.fresh + 1 }
    if Config.freeBit t.fresh then u.cboFlush l.line else u) s

/-- The line of a cacheable address, from the caches or else from memory (R445); none for an error response. -/
def State.coreLine (s : State) (a : Nat) : Option (CLine × State) :=
  let s1 := s.evict
  match s1.dcache.find? fun l => l.line == a / 64 with
  | some l => some (l, s1)
  | none => (s1.load .unit (a / 64 * 64) 64).map fun bs =>
    let l : CLine := ⟨a / 64, bs, false⟩
    (l, { s1.readNote (a / 64 * 64) 64 with dcache := s1.dcache ++ [l] })

/-- What a core's load answers: a value, an access fault, or not yet. -/
inductive CoreRd where
  | ok (v : Nat) (s : State)
  | fault
  | wait (s : State)

/-- A load through the remote-window aperture (R312, R444): sent once, and answered when its response has come; poison is an error. -/
def State.coreWindow (s : State) (c a n : Nat) : CoreRd :=
  let x := s.core_ c
  let ask :=
    let (s1, ok) := s.apLoad a n (.core c) false a
    if ok then CoreRd.wait (s1.setCore c { s1.core_ c with ap := some (a, none) }) else .fault
  match x.ap with
  | some (_, none) => .wait s
  | some (d, some bs) =>
    if d ≠ a then ask
    else match pNat bs with
      | some v => .ok v (s.setCore c { x with ap := none })
      | none => .fault
  | none => ask

/-- One element read by a core (R444, R445): a register page answers 4 or 8 bytes. -/
def State.coreLoad (s : State) (c a n : Nat) : CoreRd :=
  if cacheable a then
    match s.coreLine a with
    | none => .fault
    | some (l, s1) => match pNat ((l.data.drop (a % 64)).take n) with
      | some v => .ok v s1
      | none => .fault
  else match regionOf a with
    | .page => match s.regRead (a - 0x12000000000) n with
      | some (v, s1) => .ok v s1
      | none => .fault
    | .window => s.coreWindow c a n
    | _ => match (s.load .unit a n).map pNat with
      | some (some v) => .ok v s
      | _ => .fault

/-- How a run of element accesses ends: done, a fault at an element with its cause, or an element whose answer is still to come. -/
inductive PsvEnd where
  | done
  | fault (k cause : Nat)
  | wait (k : Nat)
  deriving DecidableEq, Repr

/-- Elements `k` on of a load, up to `n`: the register's value, the state, and how it ends. -/
def State.psvLoads (s : State) (c b : Nat) (x1 x2 : W64) : Nat → Nat → Nat → Nat × State × PsvEnd
  | 0, _, v => (v, s, .done)
  | n + 1, k, v =>
    let a := psvAddr x1 x2 k
    if a % (b / 8) ≠ 0 then (v, s, .fault k 4)
    else match s.coreLoad c a (b / 8) with
      | .fault => (v, s.setCore c { s.core_ c with ap := match (s.core_ c).ap with
          | some (d, none) => some (d, none)
          | _ => none }, .fault k 5)
      | .wait s1 => (v, s1, .wait k)
      | .ok e s1 => s1.psvLoads c b x1 x2 n (k + 1) (setElem b v k e)

/-- A fault at element `k` (R453): lower elements stay done and psvidx names it. -/
def State.psvFault (s : State) (c k cause : Nat) : State :=
  s.setCore c { s.core_ c with psvidx := BitVec.ofNat 4 k, fsDirty := true, trap := some cause, psvIdleAt := s.clk }

/-- The end of an element access. One whose element waits for its answer stays at that element, and goes on when the command comes
again. -/
def State.psvAccess (s : State) (c : Nat) : PsvEnd → State
  | .done => s.psvEnd c 0
  | .fault k cause => s.psvFault c k cause
  | .wait k => s.setCore c { s.core_ c with psvidx := BitVec.ofNat 4 k, fsDirty := true, psvIdleAt := s.clk }

def execPsvLds (c : Nat) (w : W32) (x1 x2 : W64) (s : State) : Out :=
  s.psv c w 0x20 false [(psvOf w).rd] fun i t => t.unlessHeld fun u =>
    let x := u.core_ c
    let k := x.psvidx.toNat
    let (v, u1, e) := u.psvLoads c (psvBits i.ty) x1 x2 (i.count - k) k (x.fval i.wide i.rd)
    (u1.setCore c ((u1.core_ c).setFval i.wide i.rd v)).psvAccess c e

/-- Words that the steward alone writes: RST_HBEAT, MOD_JOB, PRT_ROLE, FAB_ID, FAB_MGMT, RS_CTL, FLW_CTXBASE, FLW_RPLBASE and FLT_LOGBASE
(R443, R486). A write of one changes nothing. -/
def stewardWord (pg o : Nat) : Bool :=
  let c := pageClass pg
  pagePresent pg && ((c == 0x05 && o == 0x114) || (c == 0x01 && o == 0x108) || (c == 0x30 && o == 0x108) ||
    (c == 0x31 && (o == 0x10C || (decide (0x180 ≤ o) && decide (o < 0x1A0)))) || (c == 0x33 && o == 0x100) ||
    (c == 0x34 && decide (0x128 ≤ o) && decide (o < 0x138)) || (c == 0x04 && (o == 0x130 || o == 0x134)))

/-- One element written by a core; false is an access fault. A cacheable one stays in the line until it is flushed or evicted. -/
def State.coreStore (s : State) (c a n e : Nat) : State × Bool :=
  if cacheable a then
    match s.coreLine a with
    | none => (s, false)
    | some (l, s1) =>
      let bs := l.data.take (a % 64) ++ (toLE n e).map some ++ l.data.drop (a % 64 + n)
      ({ s1 with dcache := s1.dcache.map fun y => if y.line = l.line then { y with data := bs, dirty := true } else y }, true)
  else match regionOf a with
    | .page =>
      let o := a - 0x12000000000
      let s1 := s.write32 (o / 0x1000) (o % 0x1000) (BitVec.ofNat 32 e)
      let ok := !stewardWord (o / 0x1000) (o % 0x1000)
      if n = 4 then (s1, ok)
      else if n = 8 then
        (s1.write32 (o / 0x1000) (o % 0x1000 + 4) (BitVec.ofNat 32 (e / 2 ^ 32)), ok && !stewardWord (o / 0x1000) (o % 0x1000 + 4))
      else (s, false)
    | .window => s.apStore a ((toLE n e).map some) (.core c)
    | _ => s.put .unit a ((toLE n e).map some)

/-- Elements `k` on of a store. -/
def State.psvStores (s : State) (c b v : Nat) (x1 x2 : W64) : Nat → Nat → State × PsvEnd
  | 0, _ => (s, .done)
  | n + 1, k =>
    let a := psvAddr x1 x2 k
    if a % (b / 8) ≠ 0 then (s, .fault k 6)
    else match s.coreStore c a (b / 8) (elemAt b v k) with
      | (s1, false) => (s1, .fault k 7)
      | (s1, true) => s1.psvStores c b v x1 x2 n (k + 1)

def execPsvSts (c : Nat) (w : W32) (x1 x2 : W64) (s : State) : Out :=
  s.psv c w 0x21 false [(psvOf w).rd] fun i t => t.unlessHeld fun u =>
    let x := u.core_ c
    let k := x.psvidx.toNat
    let (u1, e) := u.psvStores c (psvBits i.ty) (x.fval i.wide i.rd) x1 x2 (i.count - k) k
    u1.psvAccess c e

/-! ### Power of the PSV unit (R452) -/

/-- PSV_IDLE_OFF: PSVIDLE × 256 core cycles have passed without a PSV instruction; a PSVIDLE of 0 keeps the unit powered. -/
def execPsvIdleOff (c : Nat) (s : State) : Out :=
  let x := s.core_ c
  let lim := s.fld (pgCore c) 0x100 15 8
  if 64 ≤ c ∨ x.psvOn = false ∨ lim = 0 ∨ (s.clk - x.psvIdleAt) * s.coreCycles5 c < lim * 256 * 5 then .next s
  else .next (s.setCore c { x with psvOn := false })

/-- PSV_WAKE: the unit is powered again. -/
def execPsvWake (c : Nat) (s : State) : Out :=
  let x := s.core_ c
  if s.coreUp c = false ∨ x.waking = false then .next s
  else .next ((s.setCore c { x with waking := false, psvOn := true, psvIdleAt := s.clk }).count (pgCore c) 0x128)

end Sys2Proof.Machine
end

