-- ==== Sys2Proof/Machine/FieldPlane.lean ====
section
/-! DEFINITION. Field tables: commit and validation (R237, R238), and the clear of the variance totals (R262). The checks of
every write (R239) stand with the writes, in Machine/Ops.lean. -/
namespace Sys2Proof.Machine

/-- Entry of a field table image (Table 10.1). -/
def fplEntOf (b : List Byte) : FplEnt :=
  { kind := field b 0 1, fmt := field b 1 1, ty := field b 2 1, first := field b 4 1 % 128, nsl := field b 5 1 % 128
    off := field b 8 4 % 2 ^ 26, len := field b 12 4, nval := field b 16 4 }

/-- Bytes of each slice that an entry covers. -/
def FplEnt.span (e : FplEnt) : Nat := if e.kind = 1 then 2 * e.len else e.len

/-- Two entries overlap; one that covers nothing overlaps none (R237). -/
def FplEnt.meets (x y : FplEnt) : Bool :=
  overlaps x.first x.nsl y.first y.nsl && overlaps x.off x.span y.off y.span

/-- The least LEN for NVAL values (R237). -/
def FplEnt.need (e : FplEnt) : Nat :=
  if e.fmt = 0 then 8 * e.nval else if e.fmt = 1 then 4 * e.nval
  else if e.fmt = 2 then e.nval / 32 * (mxBlock e.ty + 1) else 0

/-- ERR_CODE of an entry after those before it (Table 10.10); 0 when it passes. -/
def fplCheck (b : List Byte) (before : List FplEnt) : Nat :=
  let e := fplEntOf b
  if e.kind = 0 ∨ 3 < e.kind ∨ 3 < e.fmt ∨ (if e.fmt = 2 then 5 < e.ty else e.ty ≠ 0) then 3
  else if 72 < e.first + e.nsl ∨ sliceBytes < e.off + e.span then 4
  else if before.any e.meets then 5
  else if field b 3 1 ≠ 0 ∨ bitAt (field b 4 1) 7 ∨ bitAt (field b 5 1) 7 ∨ field b 6 2 ≠ 0 ∨ 2 ^ 26 ≤ field b 8 4 ∨
      ¬ allZero (slice_ b 20 12) then 6
  else if e.off % 64 ≠ 0 ∨ e.len % 64 ≠ 0 ∨ e.len < e.need ∨ (e.fmt = 2 ∧ e.nval % 32 ≠ 0) ∨ (e.fmt = 3 ∧ e.nval ≠ 0) then 7
  else 0

/-- The table of an image, or its first failing entry and the code; poison is code 8. -/
def fplTable (bs : List (PVal Byte)) : Nat → Nat → List FplEnt → Except (Nat × Nat) (List FplEnt)
  | _, 0, es => .ok es
  | i, n + 1, es =>
    match allSome ((bs.drop (32 * i)).take 32) with
    | none => .error (i, 8)
    | some b =>
      let c := fplCheck b es
      if c ≠ 0 then .error (i, c) else fplTable bs (i + 1) n (es ++ [fplEntOf b])

/-- R238: a write of `w` to FPL_CTL; with COMMIT the copy starts, in place of any copy or ready table before it. -/
def execFplCommit (p : Nat) (w : W32) (s : State) : Out :=
  if 16 ≤ p ∨ s.pageBusy (pgFpl p) then .next s
  else
    let s1 := s.setReg (pgFpl p) 0x100 (w &&& 0x3F00)
    let x := s1.part p
    .next (if w.getLsbD 0 then
      s1.setPart p { x with fpl := { x.fpl with
        loading := some (s1.reg64 (pgFpl p) 0x108, s1.fld (pgFpl p) 0x100 13 8), ready := none, commitNs := s.clk } }
    else s1)

/-- Record a failed commit. -/
def State.fplFail (s : State) (p i code : Nat) : State :=
  let s1 := (s.setFld (pgFpl p) 0x110 12 8 i).setFld (pgFpl p) 0x110 19 16 code
  (s1.orReg (pgFpl p) 0x110 0x10).raise (pgFpl p) 0

/-- R238: the copy ends and the image is validated. -/
def execFplLoadDone (p : Nat) (s : State) : Out :=
  let x := s.part p
  match x.fpl.loading with
  | none => .next s
  | some (a, n) =>
    let s1 := s.setPart p { x with fpl := { x.fpl with loading := none } }
    if 32 < n then .next (s1.fplFail p 0 1)
    else if n ≠ 0 ∧ ¬ (metaOf p ≤ a ∧ a + 32 * n ≤ metaOf p + 0x4000000) then .next (s1.fplFail p 0 2)
    else match s.load .unit a (32 * n) with
      | none => .next (s1.fplFail p 0 2)
      | some bs => match fplTable bs 0 n [] with
        | .error (i, c) => .next (s1.fplFail p i c)
        | .ok t => .next (s1.setPart p { x with fpl := { x.fpl with loading := none, ready := some t } })

/-- R262: a write of 1 to REP_CTL.VARCLR; the clear comes before the events of this nanosecond (R261). -/
def execRepVarclr (s : State) : Out :=
  if s.pageBusy pgRep then .next s
  else .next ((List.range 5).foldl (fun a i => a.setReg pgRep (0x118 + 4 * i) (BitVec.ofNat 32 (s.cntNow pgRep (0x118 + 4 * i))))
    (s.setReg64 pgRep 0x108 (s.cntNow pgRep 0x108)))

end Sys2Proof.Machine
end

