-- ==== Sys2Proof/Machine/Host.lean ====
section
/-! DEFINITION. The host endpoint (R457 to R466): BAR2 and its staging area, AtomicOps, the command rings of BAR4, MSI-X
masks, and the link. -/
namespace Sys2Proof.Machine

/-! ### Completions -/

/-- Completion statuses: successful, Unsupported Request, Completer Abort, and a poisoned completion (EP set). -/
def cplOk : Nat := 0
def cplUr : Nat := 1
def cplCa : Nat := 2
def cplEp : Nat := 3

def State.reply (s : State) (st : Nat) (data : List Byte) : State := s.send (.hostReply st data)

/-! ### BAR2 (R458 to R461) -/

/-- What BAR2 offset `y` maps. -/
inductive Bar2 where
  | staging
  | module_ (a : Nat)
  | none_
  deriving DecidableEq, Repr

/-- `n` bytes at offset `y`, by the mapping of this cycle (R460, R470), up to the BAR's size (R458). -/
def State.bar2 (s : State) (y n : Nat) : Bar2 :=
  if s.waitImg then (if y + n ≤ 0x800000 then .staging else .none_)
  else if y + n ≤ s.hostp.b2size then .module_ (s.reg64 pgHost 0x108 + y)
  else .none_

/-- BAR2 reaches the two tiers and the tiles' strides (R82). -/
def bar2Reaches (a : Nat) : Bool :=
  match regionOf a with
  | .far _ => true
  | .near _ => true
  | .tstore _ => true
  | .imem _ => true
  | _ => false

/-- A read of a module address; one of no bytes succeeds (R265). -/
def State.bar2Read (s : State) (a n : Nat) : State :=
  match (if n = 0 then some [] else if bar2Reaches a then s.load .host a n else none) with
  | none => s.reply cplCa []
  | some bs => s.unlessHeld fun t => match allSome bs with
    | some d => (t.readNote a n).reply cplOk d
    | none => (t.readNote a n).reply cplEp (bs.map fun b => b.getD 0)

/-- A write of a module address; one that errs is discarded. -/
def State.bar2Write (s : State) (a : Nat) (bs : List Byte) : State :=
  if bar2Reaches a then (s.put .host a (bs.map some)).1 else s

/-- BAR2_ACCESS: a host read of `len` bytes, or a write of `wr`, at BAR2 offset `y`. -/
def execBar2Access (y len : Nat) (wr : Option (List Byte)) (s : State) : Out :=
  if s.hostp.up = false then .next s
  else match wr with
    | some bs => match s.bar2 y bs.length with
      | .staging => .next { s with boot := { s.boot with staging := s.boot.staging.wr y (bs.map some) } }
      | .module_ a => .next (s.bar2Write a bs)
      | .none_ => .next s
    | none => match s.bar2 y len with
      | .staging => .next (s.reply cplOk ((s.boot.staging.rd y len).map fun b => b.getD 0))
      | .module_ a => .next (s.bar2Read a len)
      | .none_ => .next (s.reply cplUr [])

/-- Kinds of AtomicOp: 0 FetchAdd and 1 Swap of 32 and 64 bits, 2 CAS of 32, 64 and 128. -/
def hostAtomOk (op : HostAtomic) : Bool :=
  op.size == 4 || op.size == 8 || (op.kind == 2 && op.size == 16)

/-- The value that an AtomicOp leaves in place of `old`. -/
def hostAtomNew (op : HostAtomic) (old : Nat) : Nat :=
  let m := 2 ^ (8 * op.size)
  let v := op.operand.toNat % m
  if op.kind = 0 then (old + v) % m
  else if op.kind = 1 then v
  else if old = op.compare.toNat % m then v
  else old

/-- HOST_ATOMICOP (R461): whole at the owning line, or aborted. -/
def execHostAtomicop (y : Nat) (op : HostAtomic) (s : State) : Out :=
  if s.hostp.up = false then .next s
  else match s.bar2 y op.size with
    | .none_ => .next (s.reply cplUr [])
    | .staging => .next (s.reply cplCa [])
    | .module_ a =>
      let tier : Bool := match regionOf a with
        | .far _ => true
        | .near _ => true
        | _ => false
      if tier = false ∨ hostAtomOk op = false ∨ 2 < op.kind ∨ a % op.size ≠ 0 then .next (s.reply cplCa [])
      else match s.load .host a op.size with
        | none => .next (s.reply cplCa [])
        | some bs => .next (s.unlessHeld fun t => match pNat bs with
          | none => (t.readNote a op.size).reply cplEp (bs.map fun b => b.getD 0)
          | some old => match (t.readNote a op.size).store .host a ((toLE op.size (hostAtomNew op old)).map some) with
            | .ok s1 => s1.reply cplOk (toLE op.size old)
            | .err s1 => s1.reply cplCa []
            | .hold k => t.held_ k)

/-! ### Rings (R462 to R464) -/

def HRing.on (h : HRing) : Bool := h.cfg.getLsbD 0
def HRing.size (h : HRing) : Nat := bits h.cfg.toNat 10 1

/-- SIZE lies in its range and the ring is on, and no bad tail has stopped it. -/
def HRing.live (h : HRing) : Bool := h.on && h.size != 0 && decide (h.size ≤ 960) && !h.stopped

/-- An entry (Table 21.2); a reserved value is REFUSED. -/
def ringEntOf (b : List Byte) : RingEnt :=
  let op := field b 0 1
  let bad : Bool := decide (3 < op) || decide (1 < field b 1 1) || field b 2 2 != 0 || field b 30 2 != 0 ||
    !allZero (slice_ b 40 24) || (op == 3 && field b 16 8 % 8 != 0)
  ⟨op, field b 1 1 % 2 == 1, BitVec.ofNat 32 (field b 4 4), BitVec.ofNat 64 (field b 8 8), BitVec.ofNat 64 (field b 16 8),
   field b 24 6, BitVec.ofNat 64 (field b 32 8), false, if bad then some 3 else none⟩

/-- Entry `i` of a ring's memory. -/
def HRing.entry (h : HRing) (i : Nat) : RingEnt := ringEntOf ((h.mem.rd (64 * i) 64).map fun b => b.getD 0)

/-- What the doorbells of nanosecond `now` have done, with one that fetches `n` entries more. -/
def HRing.rung (h : HRing) (now n : Nat) : Bell :=
  match h.bell with
  | some b => if b.at_ = now then { b with n := b.n + n } else ⟨now, n, h.head, h.tail⟩
  | none => ⟨now, n, h.head, h.tail⟩

/-- The entries that a tail of `t` passes are fetched. -/
def HRing.fetch (h : HRing) (t now : Nat) : HRing :=
  let n := (t + h.size - h.head) % h.size
  { h with
    tail := t, head := t, bell := some (h.rung now n)
    ents := h.ents ++ (List.range n).map fun i => h.entry ((h.head + i) % h.size) }

/-- ENABLE is written 0: a tail written in the same nanosecond is discarded, with the entries it fetched that have not started (R470). -/
def HRing.disable (h : HRing) (now : Nat) : HRing :=
  match h.bell with
  | some b =>
    if b.at_ ≠ now then h
    else
      let k := h.ents.length - b.n
      { h with tail := b.tail, head := b.head, bell := none, ents := h.ents.take k ++ (h.ents.drop k).filter (·.started) }
  | none => h

/-- HRING_TAIL: the doorbell. A tail of SIZE or more stops the ring. -/
def execHringTail (r : Nat) (w : W32) (s : State) : Out :=
  let h := s.hring r
  let t := bits w.toNat 9 0
  if 256 ≤ r ∨ s.hostp.up = false ∨ h.live = false then .next s
  else if h.size ≤ t then
    .next (((s.setHring r { h with err := true, stopped := true }).orReg pgHost 0x100 0x20000).raise pgHost 1)
  else .next (s.setHring r (h.fetch t s.clk))

/-- HRING_ENABLE: a write of `w` to HRING_CFG; a rise of ENABLE starts the ring afresh, and a fall wins over a doorbell of the same
nanosecond. -/
def execHringEnable (r : Nat) (w : W32) (s : State) : Out :=
  let h := s.hring r
  let c := w &&& 0x07FF07FF
  if 256 ≤ r ∨ s.hostp.up = false then .next s
  else if h.on = false ∧ w.getLsbD 0 = true then
    .next (s.setHring r { h with cfg := c, head := 0, tail := 0, phase := true, rec_ := 0, ents := [], stopped := false, bell := none })
  else if w.getLsbD 0 = true then .next (s.setHring r { h with cfg := c })
  else .next (s.setHring r { h.disable s.clk with cfg := c })

/-- The next entry to start is of operation `op`: its place. Those before it have started, and a fence and a NOTIFY wait for
them to complete; at most 8 copies run. -/
def HRing.next? (h : HRing) (op : Nat) : Option (Nat × RingEnt) :=
  match h.ents.findIdx? fun e => e.status.isNone && !e.started with
  | none => none
  | some i => match h.ents[i]? with
    | none => none
    | some e =>
      let before := h.ents.take i
      if e.op ≠ op ∨ ((e.fence || e.op == 3) && before.any fun x => x.status.isNone) = true ∨
          8 ≤ (before.filter fun x => x.started && x.status.isNone).length then none
      else some (i, e)

/-- Entry `i` of ring `r` has completed. -/
def State.ringDone (s : State) (r i : Nat) (st : Nat) : State :=
  let h := s.hring r
  s.setHring r { h with ents := h.ents.modify i fun e => { e with started := true, status := some st } }

/-- An entry of ring `r` of operation `op` runs. -/
def State.ringRun (s : State) (r op : Nat) (f : Nat → RingEnt → State → State) : Out :=
  if 256 ≤ r ∨ s.hostp.up = false then .next s
  else match (s.hring r).next? op with
    | none => .next s
    | some (i, e) => .next (s.unlessHeld (f i e))

/-- RING_NOP. -/
def execRingNop (r : Nat) (s : State) : Out := s.ringRun r 0 fun i _ t => t.ringDone r i 0

/-- A write of a ring entry: DONE, MODULE_ERR, or held. `st` is its status when the write is done. -/
def State.ringStore (s : State) (r i st : Nat) (a : W64) (bs : List (PVal Byte)) : State :=
  match s.storeX .host a bs with
  | .ok s1 => s1.ringDone r i st
  | .err s1 => s1.ringDone r i 1
  | .hold k => s.held_ k

/-- HTOM: LEN bytes of host memory go to MADDR; `host` is what the host answered. -/
def execHtom (r : Nat) (host : HostRead) (s : State) : Out :=
  s.ringRun r 1 fun i e t =>
    if e.len = 0 then t.ringDone r i 0
    else
      let t1 := t.send (.hostRead e.haddr e.len)
      if host.failed then t1.ringDone r i 2
      else if host.poisoned then t1.ringStore r i 2 e.maddr (List.replicate e.len none)
      else if host.data.length ≠ e.len then t
      else t1.ringStore r i 0 e.maddr (host.data.map some)

/-- MTOH: LEN bytes at MADDR go to host memory. -/
def execMtoh (r : Nat) (s : State) : Out :=
  s.ringRun r 2 fun i e t =>
    if e.len = 0 then t.ringDone r i 0
    else match t.loadX .host e.maddr e.len with
      | none => t.ringDone r i 1
      | some bs =>
        ((t.readNoteX e.maddr e.len).send (.hostWrite e.haddr bs)).ringDone r i 0

/-- NOTIFY: VALUE goes to MADDR after every earlier entry. -/
def execNotify (r : Nat) (s : State) : Out :=
  s.ringRun r 3 fun i e t => t.ringStore r i 0 e.maddr ((toLE 8 e.value.toNat).map some)

/-- A completion record (R463). -/
def ringRecord (e : RingEnt) (st : Nat) (phase : Bool) : List (PVal Byte) :=
  (toLE 4 e.cid.toNat ++ toLE 1 st ++ toLE 1 (if phase then 1 else 0) ++ toLE 10 0).map some

/-- RING_ENTRY_DONE: the oldest entry, complete, has its record written and its vector signalled. -/
def execRingEntryDone (r : Nat) (s : State) : Out :=
  let h := s.hring r
  match h.ents with
  | [] => .next s
  | e :: rest => match e.status with
    | none => .next s
    | some st =>
      if 256 ≤ r ∨ s.hostp.up = false ∨ h.size = 0 then .next s
      else
        let s1 := s.send (.hostWrite (h.cq + BitVec.ofNat 64 (16 * h.rec_)) (ringRecord e st h.phase))
        let wrap : Bool := decide (h.size ≤ h.rec_ + 1)
        let s2 := s1.setHring r { h with ents := rest, rec_ := if wrap then 0 else h.rec_ + 1, phase := h.phase != wrap }
        .next (s2.signalVec (bits h.cfg.toNat 26 16))

/-! ### Vectors and the link (R457, R465, R466) -/

/-- MSIX_UNMASK: a pending vector is sent. -/
def execMsixUnmask (v : Nat) (s : State) : Out :=
  let p := s.hostp
  if p.up = false ∨ ¬ p.masked.contains v then .next s
  else
    let s1 := { s with hostp := { p with masked := p.masked.filter fun (x : Nat) => x != v, pba := p.pba.filter fun (x : Nat) => x != v } }
    .next (if p.pba.contains v then s1.send (.msix v) else s1)

/-- Deliveries that wait for the host go to the steward when its link goes down, each page's in their order (R30, R491); after a second
watchdog bite the host alone takes them, and they wait (R420). -/
def State.hostGone (s : State) : State :=
  if s.rst.warmReq then s
  else s.router.host.foldl State.redirect { s with router.host := [] }

/-- HOST_LINK_DOWN: surprise removal. Fetched entries end ABANDONED with no record, and every ring is disabled. -/
def execHostLinkDown (s : State) : Out :=
  if s.hostp.up = false then .next s
  else
    let s1 := { s with
      hostp := { s.hostp with up := false, speed := 0, width := 0 }
      hrings := s.hrings.map fun (e : Nat × HRing) => (e.1, { e.2 with ents := [], cfg := e.2.cfg &&& 0xFFFFFFFE }) }
    .next (((s1.hostGone.orReg pgHost 0x100 0x10000).count pgHost 0x110).raise pgHost 0)

/-- HOST_LINK_UP, from phase 8 on and in Flit Mode only. -/
def execHostLinkUp (speed width : Nat) (flit : Bool) (s : State) : Out :=
  if s.hostp.up = true ∨ flit = false ∨ s.rst.phase ≠ 8 ∨ s.powered = false ∨ ¬ (1 ≤ speed ∧ speed ≤ 7) ∨
      ¬ (width = 1 ∨ width = 2 ∨ width = 4 ∨ width = 8 ∨ width = 16) then .next s
  else .next { s with hostp := { s.hostp with up := true, speed := speed, width := width } }

end Sys2Proof.Machine
end

