-- ==== Sys2Proof/Machine/MemTiers.lean ====
section
/-! DEFINITION. The memory tiers' own events: patrol scrub and row sparing (R269 to R271), stack temperature and refresh
(R275), and the stack port's arbiter and watchdog (R277 to R282). -/
namespace Sys2Proof.Machine

/-! ### Near tier -/

/-- The 64-bit word at `a` holds an uncorrectable error (R269). -/
def State.markUE (s : State) (a : Nat) : State :=
  { s with mem := { s.mem with
      poison := (List.range 8).foldl (fun m i => mput 0 m (a / 8 * 8 + i) 2) s.mem.poison
      cells := (List.range 8).foldl (fun m i => mput 0 m (a / 8 * 8 + i) 0) s.mem.cells } }

/-- Offsets in partition `p` of the words of its near tier that hold an error of kind `k`. -/
def State.nearBad (s : State) (p : Nat) (k : BitVec 2) : List Nat :=
  ((s.mem.poison.filter fun e => e.2 == k && decide (nearOf p ≤ e.1) && decide (e.1 < nearOf (p + 1))).map fun e =>
    (e.1 - nearOf p) / 8 * 8).eraseDups

/-- R270: a pass ends. It found corrected errors at offsets `ce` and uncorrectable ones at offsets `ue`, and those that stand in the
words it read. The rows' counts start afresh for the next pass (R271). -/
def execNtScrubPass (p : Nat) (ce ue : List Nat) (s : State) : Out :=
  if 16 ≤ p ∨ ¬ s.bit (pgNear p) 0x100 0 then .next s
  else
    let word := fun o => o % 0x100000000 / 8 * 8
    let ces := ce.map word ++ (s.nearBad p 3).filter fun o => !(ce.map word).contains o
    let ues := ue.map word ++ (s.nearBad p 2).filter fun o => !(ue.map word).contains o
    let s1 := ces.foldl (fun (a : State) o => a.noteCE (nearOf p + o)) s
    let s2 := ues.foldl (fun (a : State) o =>
      ((a.markUE (nearOf p + o)).noteUE (nearOf p + o)).spareRow p (o / 4096)) s1
    .next ((s2.setPart p { s2.part p with rowErrs := [] }).count (pgNear p) 0x11C)

/-- R271: the copy of a row to a spare ends; its record goes to the fault log, and SPARE_OUT says that its S-die has no spare left. -/
def execRowSpareDone (p row : Nat) (s : State) : Out :=
  let x := s.part p
  if 16 ≤ p ∨ ¬ x.sparing.contains row then .next s
  else
    let d := sdieOf (row * 4096)
    let s1 := s.setPart p { x with
      sparing := x.sparing.filter fun r => r != row, spared := x.spared ++ [row]
      spares0 := if d = 0 then x.spares0 - 1 else x.spares0, spares1 := if d = 0 then x.spares1 else x.spares1 - 1 }
    let s2 := (s1.orReg (pgNear p) 0x104 0x200).report (pgNear p) ⟨0xFFFF, 1, 0, 0, 0, nearOf p + row * 4096, 0⟩ (some 1)
    .next (if (s1.part p).sparesOf d = 0 then (s2.orReg (pgNear p) 0x104 0x400).raise (pgNear p) 2 else s2)

/-! ### Stack temperature (R275) -/

/-- REFMODE at a temperature of `t` eighths of a degree, from mode `m` (Table 12.5). -/
def refMode (t m : Nat) : Nat :=
  let on := fun (k thr : Nat) => decide (thr < t) || (decide (k ≤ m) && decide (thr < t + 16))
  if on 3 840 then 3 else if on 2 760 then 2 else if on 1 680 then 1 else 0

/-- R275, R477, R480; a trip ends only once the stacks have cooled too. -/
def execFtTempSample (p : Nat) (temp : BitVec 12) (s : State) : Out :=
  let hot := fun (t : State) => t.setPart p { t.part p with far := { (t.part p).far with temp := temp } }
  if 16 ≤ p then .next s
  else if s.power.tripped then .next (hot s)
  else if 920 ≤ temp.toNat then .next (hot s.trip)
  else
    let x := s.part p
    let m := refMode temp.toNat x.far.refmode
    let s1 := s.setPart p { x with far := { x.far with temp := temp, refmode := m } }
    let s2 := s1.setFld (pgFar p) 0x108 27 16 (max temp.toNat (s.fld (pgFar p) 0x108 27 16))
    let s3 := if m = 3 ∧ x.far.refmode ≠ 3 then (s2.orReg (pgFar p) 0x104 0x400).raise (pgFar p) 2 else s2
    let cap := s.fld pgPower 0x10C 9 8
    .next (if cap < m ∧ x.far.refmode ≤ cap then s3.conflict 4 else s3)

/-! ### The stack port's arbiter (R277 to R282) -/

def State.setFar (s : State) (p : Nat) (f : FarPort) : State := s.setPart p { s.part p with far := f }

/-- R278: a window of 1024 cycles begins. -/
def execArbWindow (p : Nat) (s : State) : Out :=
  if 16 ≤ p then .next s else .next (s.setFar p { (s.part p).far with credit := s.arbRefill p })

/-- Beats of a burst (R277). -/
def burstBeats (r : BurstReq) : Nat := max 1 (min 16 ((r.bytes + 511) / 512))

/-- The winner: the fullest counter, ties to the lowest number (R279). -/
def arbWinner (credit : SMap Nat) : List BurstReq → Option BurstReq
  | [] => none
  | r :: rs => match arbWinner credit rs with
    | none => some r
    | some w =>
      let a := mget 0 credit r.n
      let b := mget 0 credit w.n
      if b < a ∨ (a = b ∧ r.n ≤ w.n) then some r else some w

/-- A requester loses a decision (R280). -/
def State.arbLose (s : State) (p n : Nat) : State :=
  let f := (s.part p).far
  let run := mget 0 f.run n + 1
  let e := mget 0 f.boexp n
  let s1 := (s.count (pgFar p) (0x180 + 4 * n)).setFar p { f with
    run := mput 0 f.run n run, back := mput 0 f.back n (s.clk + 16 * 2 ^ e), boexp := mput 0 f.boexp n (min 8 (e + 1)) }
  s1.setFld (pgFar p) (0x1C0 + 4 * n) 15 0 (max (min 65535 run) (s.fld (pgFar p) (0x1C0 + 4 * n) 15 0))

/-- R279, R280: a decision among the requests present, in the last beat of the burst in progress, whose grant ends. A request of the
requester that the watchdog cut off in this very cycle waits for the next one (Table 12.7). -/
def execArbDecision (p : Nat) (reqs : List BurstReq) (s : State) : Out :=
  let f := (s.part p).far
  let here := reqs.filter fun r => decide (r.n < 16) && decide (mget 0 f.back r.n ≤ s.clk) && f.wdNext != some (r.n, s.clk)
  if 16 ≤ p ∨ s.pageBusy (pgFar p) then .next s
  else
    let s0 := s.setFar p { f with wdNext := none, holder := none }
    match arbWinner f.credit here with
    | none => .next s0
    | some w =>
      let s1 := s0.setFar p { (s0.part p).far with
        credit := mput 0 f.credit w.n (mget 0 f.credit w.n - burstBeats w), boexp := mput 0 f.boexp w.n 0
        run := mput 0 f.run w.n 0, back := mput 0 f.back w.n 0, holder := some (w.n, s.clk) }
      let s2 := s1.count (pgFar p) 0x120 (burstBeats w)
      let s3 := if w.bytes < 2048 ∨ w.aligned = false then s2.count (pgFar p) 0x124 else s2
      .next ((here.filter fun r => r.n != w.n).foldl (fun a r => a.arbLose p r.n) s3)

/-- R280: a back-off ends and the request takes part again. -/
def execArbBackoffEnd (p n : Nat) (s : State) : Out :=
  let f := (s.part p).far
  if 16 ≤ p ∨ mget 0 f.back n = 0 ∨ s.clk < mget 0 f.back n then .next s
  else .next (s.setFar p { f with back := mput 0 f.back n 0 })

/-- R282: the port watchdog cuts off a grant held for more than 65,536 cycles. -/
def execFtPortWdog (p : Nat) (s : State) : Out :=
  let f := (s.part p).far
  match f.holder with
  | none => .next s
  | some (n, t) =>
    if 16 ≤ p ∨ s.clk ≤ t + 65536 then .next s
    else
      let s1 := s.setFar p { f with credit := s.arbRefill p, boexp := [], back := [], run := [], holder := none, wdNext := some (n, s.clk) }
      let s2 := (s1.setFld (pgFar p) 0x200 3 0 n).countFld (pgFar p) 0x200 15 8
      .next ((s2.orReg (pgFar p) 0x104 0x200).report (pgFar p) ⟨0xFFFF, 4, 0, 0, 0, 0, n⟩ (some 1))

end Sys2Proof.Machine
end

