-- ==== Sys2Proof/Machine/Mgmt.lean ====
section
/-! DEFINITION. The management channel (R437 to R439): the checks of a command and its answer, and the commands that the fabric
manager sends (Table 19.6). -/
namespace Sys2Proof.Machine

/-! ### Acceptance (R301, R439) -/

/-- No entry of FAB_MGMT is VALID. -/
def State.noMgmt (s : State) : Bool := s.mgmtList.all (·.isNone)

/-- The source has an entry of FAB_MGMT. -/
def State.mgmtKnows (s : State) (src : BitVec 14) : Bool := s.mgmtList.any fun e => e == some src

/-- The key that a command names is present: the vendor's always, the owner's with block 0x5, a management key with its place
in block 0x6. -/
def State.keyPresent (s : State) (k : Nat) : Bool :=
  if k = 0 then true
  else if k = 1 then s.ownerUsable true
  else if k ≤ 5 then ((s.block 6).map fun b => decide ((k - 1) * 5261 ≤ b.length)).getD false
  else false

/-- STATUS of checks 2 to 5; 0 when all pass. -/
def State.authStatus (s : State) (a : Auth) : Nat :=
  if a.bootId ≠ s.mgtBootId then 3
  else if a.counter.toNat ≤ s.mgtCtr.toNat then 2
  else if ¬ (s.keyPresent a.keySel ∧ (a.keySel = 0 ∨ a.keyOk = true)) then 4
  else if ¬ a.sigOk then 1
  else 0

/-- A rejected command (R439). -/
def State.mgmtReject (s : State) (a : Auth) (st : Nat) : State :=
  let s1 := if s.bit pgBoot 0x100 10 then s
    else s.setReg pgBoot 0x12C (BitVec.ofNat 32 (st + 2 ^ 16 * a.src.toNat))
  ((s1.count pgBoot 0x128).orReg pgBoot 0x100 0x400).raise pgBoot 2

/-- Where an answer on VC0 goes (R298). -/
def State.mgmtRoute (s : State) (dst : BitVec 14) : Route := s.routeOwn ⟨dst, 0, 0, 0, 0, 0, 0, 0x41, []⟩

/-- Send an answer on VC0; with no port for it, it is discarded (R298). -/
def State.sendMgmt (s : State) (dst : BitVec 14) (m : OutMsg) : State :=
  if s.mgmtRoute dst = .none_ then s.noRoute 0 else s.send m

/-- Answer a command. -/
def State.answer_ (s : State) (a : Auth) (cmd st : Nat) (data : List Byte) : State :=
  s.sendMgmt a.src (.mgmtRsp a.src cmd st a.counter data)

/-- A management command at the steward: `setMgmt` is SET_MGMT, the one command that runs while no source is listed. `f` runs
it, saying whether it was carried out and with what data. -/
def State.manage (s : State) (a : Auth) (cmd : Nat) (f : State → State × Bool × List Byte) : Out :=
  if s.stewardOn = false ∨ ¬ (if s.noMgmt then cmd = 1 else s.mgmtKnows a.src = true) then .next s
  else
    let st := s.authStatus a
    if st ≠ 0 then .next ((s.mgmtReject a st).answer_ a cmd st [])
    else
      let (s1, ok, data) := f { s with mgtCtr := a.counter }
      .next (s1.answer_ a cmd (if ok then 0 else 5) data)

/-- A command whose answer carries no data. -/
def State.manageOk (s : State) (a : Auth) (cmd : Nat) (f : State → State × Bool) : Out :=
  s.manage a cmd fun t => ((f t).1, (f t).2, [])

/-! ### Identity and sources -/

/-- FAB_ID (Table 13.9). -/
def State.fabId (s : State) : W32 :=
  match s.modId with
  | some m => BitVec.ofNat 32 (m.toNat + 0x8000)
  | none => 0

/-- MGMT_HELLO (R438). -/
def execMgmtHello (src : BitVec 14) (s : State) : Out :=
  if s.stewardOn = false ∨ ¬ (s.noMgmt = true ∨ s.mgmtKnows src = true) then .next s
  else .next (s.sendMgmt src (.mgmt src (toLE 8 s.mgtBootId.toNat ++ toLE 4 s.fabId.toNat ++ s.boot.idfp)))

/-- SET_MGMT. -/
def execSetMgmt (a : Auth) (es : List W32) (s : State) : Out :=
  s.manageOk a 0x0001 fun t =>
    if es.length ≠ 8 then (t, false)
    else ({ t with mgmtList := es.map fun e => if e.getLsbD 15 then some (BitVec.ofNat 14 e.toNat) else none }, true)

/-- SET_ID. -/
def execSetId (a : Auth) (id : BitVec 14) (s : State) : Out := s.manageOk a 0x0002 fun t => ({ t with modId := some id }, true)

/-! ### Jobs (R315, R31, R375 to R378) -/

def execAdmitJob (a : Auth) (tag : BitVec 16) (gen : BitVec 8) (step : Bool) (s : State) : Out :=
  s.manageOk a 0x0010 fun t => t.admitTag tag gen step

def execTeardown (a : Auth) (tag : BitVec 16) (gen : BitVec 8) (s : State) : Out :=
  s.manageOk a 0x0011 fun t => t.teardown tag gen

/-- FREEZE; the answer carries TB_STEP and CS_HCOMPLETE. -/
def execFreeze (a : Auth) (tag : BitVec 16) (gen : BitVec 8) (s : State) : Out :=
  s.manage a 0x0030 fun t =>
    let (u, ok) := t.freeze tag gen
    (u, ok, toLE 4 u.tb.stepIdx.toNat ++ toLE 4 ((u.cs.hcomplete.getD 0).toNat))

def execRegen (a : Auth) (tag : BitVec 16) (gen gen2 : BitVec 8) (s : State) : Out :=
  s.manageOk a 0x0031 fun t => t.regen tag gen gen2

def execRecover (a : Auth) (r : RecoverArgs) (s : State) : Out := s.manageOk a 0x0032 fun t => t.recover r

/-! ### Routes and ports (R291, R297) -/

/-- Entries of a route set from `first` on. -/
def putPods (m : SMap W32) (first : Nat) : List W32 → SMap W32
  | [] => m
  | e :: r => putPods (mput 0 m first (e &&& 0x87F7)) (first + 1) r

/-- ROUTE_LOAD: up to 128 entries of a set that is not VALID. -/
def execRouteLoad (a : Auth) (k first : Nat) (es : List W32) (s : State) : Out :=
  s.manageOk a 0x0020 fun t =>
    if 8 ≤ k ∨ (t.rset k).valid = true ∨ 128 < es.length ∨ 256 < first + es.length then (t, false)
    else (t.setRset k { t.rset k with pods := putPods (t.rset k).pods first es }, true)

/-- ROUTE_BIND. -/
def execRouteBind (a : Auth) (k : Nat) (tag : BitVec 16) (gen : BitVec 8) (spread : Bool) (s : State) : Out :=
  s.manageOk a 0x0021 fun t =>
    if 8 ≤ k ∨ (t.rset k).valid = true then (t, false)
    else (t.setRset k { t.rset k with tag := tag, gen := gen, spread := spread, valid := true }, true)

/-- ROUTE_UNBIND. -/
def execRouteUnbind (a : Auth) (k : Nat) (s : State) : Out :=
  s.manageOk a 0x0022 fun t => if 8 ≤ k then (t, false) else (t.setRset k { t.rset k with valid := false }, true)

/-- PORT_TAKE: the role of a port that is FAILED, or FENCED (Table 17.5), goes to port 71, which can take one. -/
def execPortTake (a : Auth) (i : Nat) (s : State) : Out :=
  s.manageOk a 0x0023 fun t =>
    if 71 ≤ i ∨ t.portGone i = false ∨ (List.range 71).any (fun j => (t.port j).taken) = true then (t, false)
    else (t.standIn_ i, true)

/-! ### Resets -/

/-- WARM_RESET. -/
def execWarmReset (a : Auth) (s : State) : Out := s.manageOk a 0x0041 fun t => (t.warmBy 4, true)

/-- PART_RESET. -/
def execPartReset (a : Auth) (p : Nat) (s : State) : Out :=
  s.manageOk a 0x0040 fun t => if 16 ≤ p then (t, false) else (t.partReset p, true)

/-! ### Configuration and attestation (R430, R437) -/

/-- Signers that Table 19.2 allows; a history update is the vendor's or the owner's. -/
def signerAllowed (n : Nat) (vendor : Bool) : Bool :=
  if n = 15 then true
  else if 1 ≤ n ∧ n ≤ 10 then vendor || n == 2 || n == 3 || n == 4 || n == 6 || n == 7
  else false

/-- Unit indices of a history update, two bytes each. -/
def histUnits (b : List Byte) : List Nat := (List.range (b.length / 2)).map fun i => field b (2 * i) 2

/-- A history update makes entries CLEAN with no events; they are written as any changed entry is. -/
def State.histUpdate (s : State) (b : List Byte) : State :=
  (histUnits b).foldl (fun (a : State) u =>
    if 1802 ≤ u then a
    else { a with
      hist := mdel a.hist u
      opt.histDue := if a.opt.histDue.contains u then a.opt.histDue else a.opt.histDue ++ [u] }) s

/-- CONFIG_UPDATE: the blob goes into the other slot, in force from the next cold or warm reset. -/
def State.configUpdate (s : State) (a : Auth) (b : Blob) : State × Bool :=
  if 2 ≤ a.keySel ∨ ¬ signerAllowed b.target b.vendor ∨ ¬ b.sigOk ∨ (b.vendor = false ∧ s.ownerUsable true = false) ∨
      65516 < b.payload.length then (s, false)
  else if b.target = 15 then (s.histUpdate b.payload, true)
  else if ¬ s.opt.sfdpOk then (s, false)
  else ({ s with opt := s.opt.update b.target b.payload }.raise pgBoot 3, true)

def execConfigUpdate (a : Auth) (b : Blob) (s : State) : Out := s.manageOk a 0x0050 fun t => t.configUpdate a b

/-- ATTEST: the report is in the answer; without an identity it is refused. -/
def execAttest (a : Auth) (nonce : List Byte) (s : State) : Out :=
  s.manage a 0x0051 fun t =>
    if ¬ t.boot.idOk then (t.attRefuse, false, [])
    else
      let (b, u) := t.attReport nonce
      (u, true, b)

end Sys2Proof.Machine
end

