-- ==== Sys2Proof/Machine/Power.lean ====
section
/-! DEFINITION. Power states (R474 to R476), the hardware loops and the policy governor (R477 to R482), the reference clock
(R503) and the bypass's own power (R504). -/
namespace Sys2Proof.Machine

/-! ### Partition Sleep (R474, R475) -/

/-- SLEEP or STANDBY refused. -/
def State.sleepRefuse (s : State) : State := (s.orReg pgPower 0x104 0x200).raise pgPower 2

/-- What keeps a partition awake. -/
def State.sleepBars (s : State) (p : Nat) : Bool :=
  let x := s.part p
  !(s.arcu p).active.isEmpty || x.fpl.active.isSome || x.fpl.ready.isSome || x.wl.any (·.active) || x.asm.run.isSome ||
    !x.asm.queue.isEmpty || x.slv.run.isSome || !x.slv.queue.isEmpty || x.inReset

/-- An isolated tile's domains go down: it is OFF with nothing left, its stores and token counters included. -/
def State.tileDown (s : State) (t : Nat) : State :=
  let s1 := ((s.digClear t).setTile t Tile.reset).clearToks t
  { s1 with mem := s1.mem.clear (tstoreOf t) 0x190000 }

/-- Tiles and channels of a partition. -/
def partUnits (p : Nat) : List Nat :=
  ((List.range 72).map fun t => p * 72 + t) ++ (List.range 32).map fun c => 1152 + p * 32 + c

/-- Entry into Sleep: the isolation wrappers complete what the tiles had accepted (R28, R417) before any domain goes down. -/
def State.sleepEnter (s : State) (p : Nat) : State :=
  let s1 := (s.codePartReset p).drainPartReset p
  let s0 := (List.range 72).foldl (fun a t => a.isolate (p * 72 + t)) s1
  let s2 := (List.range 72).foldl (fun a t => a.tileDown (p * 72 + t)) s0
  let s3 := { s2 with
    arcs := mdel s2.arcs p, copies := mdel s2.copies p
    outst := s2.outst.map fun (o : Outst) => o.orphan fun w => match w with
      | .arc u _ => u == p
      | _ => false }
  let us := partUnits p
  let held := us.filterMap fun u => if (s3.unit u).st = .fenced then none else some (u, (s3.unit u).st)
  let s4 := held.foldl (fun (a : State) (e : Nat × UState) => a.setUnit e.1 ⟨.off, none⟩) s3
  let s5 := (s4.fplCleared p).farCleared p
  let x := s5.part p
  (s5.setPart p { x with
    wl := List.replicate 4 WlSlot.free, asm := ⟨[], none⟩, slv := { x.slv with ready := [], queue := [], run := none }
    images := [], sleep := .asleep, atSleep := held, stretch := none }).setFld pgPower (0x180 + 4 * p) 0 0 1

/-- PARTITION_SLEEP: a write of 1 to PWR_PCTL(p).SLEEP. -/
def execPartitionSleep (p : Nat) (s : State) : Out :=
  if 16 ≤ p ∨ s.softReset pgPower = true ∨ (s.part p).sleep = .asleep then .next s
  else if s.sleepBars p then .next s.sleepRefuse
  else .next (s.sleepEnter p)

/-- A unit gets back the state that it had; one FENCED meanwhile stays so. -/
def State.unitBack (s : State) (p u : Nat) (st : UState) : State :=
  let tm := (s.part p).tmap
  if (s.unit u).st = .fenced then s
  else if u < 1152 then
    let lt := if st = .active ∧ tm.contains (u % 72) = true then some (tm.idxOf (u % 72)) else none
    (s.setUnit u ⟨st, lt⟩).setTile u { s.tile u with seq := if st = .active ∨ st = .audit then .idle else .off }
  else s.setUnit u ⟨st, none⟩

/-- PARTITION_WAKE: a write of 0 to PWR_PCTL(p).SLEEP; `untrained` are the channels that fail to train. -/
def execPartitionWake (p : Nat) (untrained : List Nat) (s : State) : Out :=
  let x := s.part p
  if 16 ≤ p ∨ s.softReset pgPower = true ∨ x.sleep = .awake ∨ s.power.standby = true then .next s
  else
    let s1 := s.setPart p { x with sleep := .awake, atSleep := [] }
    let s2 := x.atSleep.foldl (fun (a : State) (e : Nat × UState) => a.unitBack p e.1 e.2) s1
    .next (((s2.trained p untrained).setFld pgPower (0x180 + 4 * p) 0 0 0).raise pgPower 3)

/-! ### Module Standby (R476) -/

/-- The port groups and core clusters go down: ports, then service cores. -/
def standbyUnits : List Nat := (List.range 136).map (· + 1664)

def State.portDown (s : State) (i : Nat) : State :=
  let x := s.port i
  s.setPort i { Port.reset with peerSlot := x.peerSlot, rtt := x.rtt, taken := x.taken, standIn := x.standIn }

/-- STANDBY_ENTER: a write of 1 to PWR_MCTL.STANDBY. The service cores' caches go with their clusters (log 95). -/
def execStandbyEnter (s : State) : Out :=
  if s.softReset pgPower = true ∨ s.power.standby = true then .next s
  else if (List.range 16).any (fun p => (s.part p).sleep == .awake) = true ∨ s.jobs.any (fun e => e.2.st == .live) = true then
    .next s.sleepRefuse
  else
    let s1 := (List.range 72).foldl State.portDown s
    let s2 := standbyUnits.foldl (fun (a : State) u => if (a.unit u).st = .fenced then a else a.setUnit u UEntry.off) s1
    let near : Store := if s2.bit pgPower 0x100 1 then s2.mem else s2.mem.clear nearBase 0x1000000000
    let s3 := { s2 with
      cores := [], rlc := [], dcache := [], mem := near, pins.lasers := 0, power.standby := true
      outst := s2.outst.map fun (o : Outst) => o.orphan fun w => match w with
        | .core _ => true
        | _ => false }
    .next ((s3.setFld pgPower 0x100 0 0 1).updateLost)

/-- STANDBY_EXIT: a write of 0 to PWR_MCTL.STANDBY. A unit whose history is PERMANENT does not come back. -/
def execStandbyExit (s : State) : Out :=
  if s.softReset pgPower = true ∨ s.power.standby = false then .next s
  else
    let s1 := standbyUnits.foldl (fun (a : State) u =>
      if (a.unit u).st = .fenced ∨ (a.histOf u).st = 2 then a else a.setUnit u ⟨.active, none⟩) s
    let s2 := { s1 with pins.lasers := 0xFF, power.standby := false }
    .next ((s2.setFld pgPower 0x100 0 0 0).trainPorts.updateLost)

/-! ### Hardware loops (R477, R480) -/

/-- FMIN of PWR_POL1. -/
def State.fmin (s : State) : Nat := s.fld pgPower 0x10C 6 0

/-- A loop holds F of partition `p`. -/
def State.loopHolds (s : State) (p : Nat) : Bool := s.power.limit || s.power.throttled.contains p

/-- A loop takes F of partition `p` to `f`; `was`: one held it before. DEDUCED: a loop that comes to hold F below FMIN is one conflict,
until no loop holds it there (log 78). -/
def State.forceF (s : State) (p f : Nat) (was : Bool) : State :=
  let x := s.part p
  let s1 := s.setPart p { x with clkF := f }
  if f < s.fmin ∧ (was = false ∨ s.fmin ≤ x.clkF) then s1.conflict 1 else s1

/-- Junction throttle of die `d` engages: THROT with its event and record, and a conflict. -/
def State.throttle (s : State) (d : Nat) : State :=
  let s1 := { s with power := { s.power with throttled := d :: s.power.throttled } }
  let s2 := (s1.orReg pgPower 0x104 0x100).report pgPower ⟨0xFFFF, 7, 0, 0, 0, 0, d⟩ (some 1)
  (if d < 16 then s2.forceF d 16 (s.loopHolds d) else s2).conflict 2

/-- The junction loop at a sample: 105 °C engages it, 103 °C releases it. -/
def State.junction (s : State) (d : Nat) : State :=
  let t := s.power.sample.temps.getD d 0
  if s.power.throttled.contains d then
    (if t ≤ 824 then { s with power := { s.power with throttled := s.power.throttled.filter fun (x : Nat) => x != d } }
      else if d < 16 then s.forceF d 16 true else s)
  else if 840 ≤ t then s.throttle d
  else s

/-- The inlet power limit at a sample: 4000 W engages it, below 3900 W releases it; while it lasts F falls by 4. -/
def State.inletLimit (s : State) : State :=
  let w := s.power.sample.watts
  let on : Bool := decide (4000 ≤ w) || (s.power.limit && decide (3900 ≤ w))
  let s1 := { s with power := { s.power with limit := on } }
  let s2 := if on ∧ s.power.limit = false then s1.conflict 3 else s1
  if on then (List.range 16).foldl (fun a p => a.forceF p (max 16 ((a.part p).clkF - 4)) (s.loopHolds p)) s2 else s2

/-- Every stack is at or below 95 °C. -/
def State.stacksCool (s : State) : Bool := (List.range 16).all fun p => decide ((s.part p).far.temp.toNat ≤ 760)

/-- SENSOR_SAMPLE (R481): the trip, the junction throttle and the inlet limit; at the trip's end a cold reset. -/
def execSensorSample (m : Sample) (s : State) : Out :=
  let s1 := { s with power := { s.power with sample := m } }
  if s.pins.pwrOk = false then .next s
  else if s.power.tripped then .next (if (m.temps.all fun t => decide (t ≤ 760)) ∧ s1.stacksCool = true then s1.tripEnd else s1)
  else if m.temps.any fun t => decide (920 ≤ t) then .next s1.trip
  else .next ((List.range 20).foldl State.junction s1).inletLimit

/-- GOVERNOR_UPDATE (R479): the governor's value for partition `p`. -/
def State.governor (s : State) (p : Nat) : Nat :=
  let g := (s.part p).gov
  let t := s.power.sample.temps.getD p 0
  let w := s.power.sample.watts
  let ttgt : Int := (s.fld pgPower 0x108 22 16 : Nat)
  let pcap := min 4000 (s.fld pgPower 0x108 11 0)
  if 8 * ttgt < t ∨ pcap < w then max (g - 1) s.fmin
  else if t ≤ 8 * (ttgt - 2) ∧ w + 50 ≤ pcap then min (g + 1) 64
  else g

/-- F follows the governor's value, rising by 1 at a time; not while a loop holds it (R477, R482). -/
def State.governPart (s : State) (p : Nat) : State :=
  let x := s.part p
  let g := s.governor p
  let held := s.loopHolds p
  s.setPart p { x with gov := g, clkF := if held then x.clkF else min (x.clkF + 1) g }

def execGovernorUpdate (s : State) : Out :=
  if s.powered then .next ((List.range 16).foldl State.governPart s) else .next s

/-- DROOP: the arithmetic cycles of partition `p` last 1.5 ns from here. -/
def execDroop (p : Nat) (s : State) : Out :=
  if 16 ≤ p ∨ s.powered = false ∨ (s.part p).sleep = .asleep ∨ (s.part p).stretch.isSome = true then .next s
  else .next (s.setPart p { s.part p with stretch := some s.clk })

/-- DROOP_RELEASE: PWR_DROOPCYC(p) has counted the cycles that were stretched (R478). -/
def execDroopRelease (p : Nat) (s : State) : Out :=
  match (s.part p).stretch with
  | none => .next s
  | some t =>
    if 16 ≤ p then .next s
    else .next ((s.setPart p { s.part p with stretch := none }).count pgPower (0x1C0 + 4 * p) ((s.clk - t) * 2 / 3))

/-! ### Reference clock and bypass (R503, R504) -/

/-- REF_CLK_LOSS: REFLOCK clears and the PLL holds over; pod time goes on. -/
def execRefClkLoss (s : State) : Out := .next { s with pins.refClk := false, tb.reflock := false }

/-- REF_CLK_RELOCK: the PLL of F-die 0 locks again once that die is out of reset. -/
def execRefClkRelock (s : State) : Out :=
  .next { s with pins.refClk := true, tb.reflock := s.powered && decide (1 ≤ s.rst.phase) }

/-- INPUT_UNDERVOLT: the input has fallen below 44 V, and the bypass closes. -/
def execInputUndervolt (s : State) : Out := .next ({ s with pins.underVolt := true }.setBypass false)

/-- MODULE_WITHDRAWAL: PRSNT_N breaks, and the bypass closes. -/
def execModuleWithdrawal (s : State) : Out := .next ({ s with pins.seated := false }.setBypass false)

end Sys2Proof.Machine
end

