-- ==== Sys2Proof/Machine/Dispatch.lean ====
section
/-! DEFINITION. The meaning of every command, on everything but the queue. -/
namespace Sys2Proof.Machine

def exec (i : Instr) (s : State) : Host.Outcome State Fault Refusal :=
  match i with
  | .time v => Sys2Proof.Machine.execTime v s
  | .timeSlew => Sys2Proof.Machine.execTimeSlew s
  | .calCw t => Sys2Proof.Machine.execCalCw t s
  | .calCcw t => Sys2Proof.Machine.execCalCcw t s
  | .calLoop d => Sys2Proof.Machine.execCalLoop d s
  | .admitToken slot on => Sys2Proof.Machine.execAdmitToken slot on s
  | .mark m => Sys2Proof.Machine.execMark m s
  | .stepRelease => Sys2Proof.Machine.execStepRelease s
  | .arrive => Sys2Proof.Machine.execArrive s
  | .overtime => Sys2Proof.Machine.execOvertime s
  | .arcLate u => Sys2Proof.Machine.execArcLate u s
  | .arcCommit u w => Sys2Proof.Machine.execArcCommit u w s
  | .arcLoadDone u => Sys2Proof.Machine.execArcLoadDone u s
  | .arcNop u e => Sys2Proof.Machine.execArcNop u e s
  | .arcToken u e => Sys2Proof.Machine.execArcToken u e s
  | .arcCopy u e => Sys2Proof.Machine.execArcCopy u e s
  | .arcCode u e => Sys2Proof.Machine.execArcCode u e s
  | .arcCollective u e => Sys2Proof.Machine.execArcCollective u e s
  | .arcDigestMark u e => Sys2Proof.Machine.execArcDigestMark u e s
  | .arcAudit u e => Sys2Proof.Machine.execArcAudit u e s
  | .arcAssemble u e => Sys2Proof.Machine.execArcAssemble u e s
  | .arcSolve u e => Sys2Proof.Machine.execArcSolve u e s
  | .arcSignalModule u e => Sys2Proof.Machine.execArcSignalModule u e s
  | .arcSignalPart u e => Sys2Proof.Machine.execArcSignalPart u e s
  | .arcDrain u e => Sys2Proof.Machine.execArcDrain u e s
  | .arcComplete u e => Sys2Proof.Machine.execArcComplete u e s
  | .tileImgload t => Sys2Proof.Machine.execTileImgload t s
  | .tileImgloadDone t => Sys2Proof.Machine.execTileImgloadDone t s
  | .tileRun t => Sys2Proof.Machine.execTileRun t s
  | .tileStop t => Sys2Proof.Machine.execTileStop t s
  | .tileTokclr t => Sys2Proof.Machine.execTileTokclr t s
  | .instrRetire t q x => Sys2Proof.Machine.execInstrRetire t q x s
  | .wlGo p k => Sys2Proof.Machine.execWlGo p k s
  | .wlDispatch p => Sys2Proof.Machine.execWlDispatch p s
  | .sliceSwapDone p => Sys2Proof.Machine.execSliceSwapDone p s
  | .nop t => Sys2Proof.Machine.execNop t s
  | .endI t => Sys2Proof.Machine.execEndI t s
  | .waittok t => Sys2Proof.Machine.execWaittok t s
  | .qwait t => Sys2Proof.Machine.execQwait t s
  | .jmp t => Sys2Proof.Machine.execJmp t s
  | .loop t => Sys2Proof.Machine.execLoop t s
  | .brz t => Sys2Proof.Machine.execBrz t s
  | .brnz t => Sys2Proof.Machine.execBrnz t s
  | .bset t => Sys2Proof.Machine.execBset t s
  | .baddi t => Sys2Proof.Machine.execBaddi t s
  | .bmuli t => Sys2Proof.Machine.execBmuli t s
  | .balu t => Sys2Proof.Machine.execBalu t s
  | .bld t => Sys2Proof.Machine.execBld t s
  | .bst t => Sys2Proof.Machine.execBst t s
  | .bgetc t => Sys2Proof.Machine.execBgetc t s
  | .mmad t ph => Sys2Proof.Machine.execMmad t ph s
  | .mmas t ph => Sys2Proof.Machine.execMmas t ph s
  | .mmax t ph => Sys2Proof.Machine.execMmax t ph s
  | .castm t ph => Sys2Proof.Machine.execCastm t ph s
  | .castf t ph => Sys2Proof.Machine.execCastf t ph s
  | .dmark t ph => Sys2Proof.Machine.execDmark t ph s
  | .dru t ph => Sys2Proof.Machine.execDru t ph s
  | .pivot t ph => Sys2Proof.Machine.execPivot t ph s
  | .solve t ph => Sys2Proof.Machine.execSolve t ph s
  | .solveb t ph => Sys2Proof.Machine.execSolveb t ph s
  | .cpy t ph => Sys2Proof.Machine.execCpy t ph s
  | .rget t ph => Sys2Proof.Machine.execRget t ph s
  | .rput t ph => Sys2Proof.Machine.execRput t ph s
  | .ratom t ph => Sys2Proof.Machine.execRatom t ph s
  | .rinv t ph => Sys2Proof.Machine.execRinv t ph s
  | .cwait t ph => Sys2Proof.Machine.execCwait t ph s
  | .cscat t ph => Sys2Proof.Machine.execCscat t ph s
  | .vadd t ph => Sys2Proof.Machine.execVadd t ph s
  | .vsub t ph => Sys2Proof.Machine.execVsub t ph s
  | .vmul t ph => Sys2Proof.Machine.execVmul t ph s
  | .vfma t ph => Sys2Proof.Machine.execVfma t ph s
  | .vfnma t ph => Sys2Proof.Machine.execVfnma t ph s
  | .vmin t ph => Sys2Proof.Machine.execVmin t ph s
  | .vmax t ph => Sys2Proof.Machine.execVmax t ph s
  | .vclamp t ph => Sys2Proof.Machine.execVclamp t ph s
  | .vabs t ph => Sys2Proof.Machine.execVabs t ph s
  | .vneg t ph => Sys2Proof.Machine.execVneg t ph s
  | .vand t ph => Sys2Proof.Machine.execVand t ph s
  | .vor t ph => Sys2Proof.Machine.execVor t ph s
  | .vxor t ph => Sys2Proof.Machine.execVxor t ph s
  | .vshl t ph => Sys2Proof.Machine.execVshl t ph s
  | .vshrl t ph => Sys2Proof.Machine.execVshrl t ph s
  | .vshra t ph => Sys2Proof.Machine.execVshra t ph s
  | .vcvt t ph => Sys2Proof.Machine.execVcvt t ph s
  | .vcmp t ph => Sys2Proof.Machine.execVcmp t ph s
  | .vsel t ph => Sys2Proof.Machine.execVsel t ph s
  | .vld t ph => Sys2Proof.Machine.execVld t ph s
  | .vst t ph => Sys2Proof.Machine.execVst t ph s
  | .vsplat t ph => Sys2Proof.Machine.execVsplat t ph s
  | .vrsum t ph => Sys2Proof.Machine.execVrsum t ph s
  | .vrmax t ph => Sys2Proof.Machine.execVrmax t ph s
  | .vrmin t ph => Sys2Proof.Machine.execVrmin t ph s
  | .vdot t ph => Sys2Proof.Machine.execVdot t ph s
  | .vcompress t ph => Sys2Proof.Machine.execVcompress t ph s
  | .vexpand t ph => Sys2Proof.Machine.execVexpand t ph s
  | .vsetc t ph => Sys2Proof.Machine.execVsetc t ph s
  | .vecRegclr t => Sys2Proof.Machine.execVecRegclr t s
  | .arrDigclr t => Sys2Proof.Machine.execArrDigclr t s
  | .asmProgramStart p => Sys2Proof.Machine.execAsmProgramStart p s
  | .asmPassStart p => Sys2Proof.Machine.execAsmPassStart p s
  | .asmRecord p => Sys2Proof.Machine.execAsmRecord p s
  | .asmProgramDone p => Sys2Proof.Machine.execAsmProgramDone p s
  | .asmLate p => Sys2Proof.Machine.execAsmLate p s
  | .solveRequestStart p => Sys2Proof.Machine.execSolveRequestStart p s
  | .factorWorkListDone p => Sys2Proof.Machine.execFactorWorkListDone p s
  | .solveCommitPoint p => Sys2Proof.Machine.execSolveCommitPoint p s
  | .solveGuardLate p => Sys2Proof.Machine.execSolveGuardLate p s
  | .fplCommit p w => Sys2Proof.Machine.execFplCommit p w s
  | .fplLoadDone p => Sys2Proof.Machine.execFplLoadDone p s
  | .repVarclr => Sys2Proof.Machine.execRepVarclr s
  | .ntScrubPass p ce ue => Sys2Proof.Machine.execNtScrubPass p ce ue s
  | .rowSpareDone p row => Sys2Proof.Machine.execRowSpareDone p row s
  | .ftTempSample p temp => Sys2Proof.Machine.execFtTempSample p temp s
  | .arbWindow p => Sys2Proof.Machine.execArbWindow p s
  | .arbDecision p reqs => Sys2Proof.Machine.execArbDecision p reqs s
  | .arbBackoffEnd p n => Sys2Proof.Machine.execArbBackoffEnd p n s
  | .ftPortWdog p => Sys2Proof.Machine.execFtPortWdog p s
  | .portEnable x w => Sys2Proof.Machine.execPortEnable x w s
  | .portTrainDone x r => Sys2Proof.Machine.execPortTrainDone x r s
  | .laneFail x lane => Sys2Proof.Machine.execLaneFail x lane s
  | .flitRx x f => Sys2Proof.Machine.execFlitRx x f s
  | .flitTx x => Sys2Proof.Machine.execFlitTx x s
  | .packetRx x => Sys2Proof.Machine.execPacketRx x s
  | .portTake a x => Sys2Proof.Machine.execPortTake a x s
  | .ringFrameRx cw frame => Sys2Proof.Machine.execRingFrameRx cw frame s
  | .ringFrameTx cw => Sys2Proof.Machine.execRingFrameTx cw s
  | .ringInsert w => Sys2Proof.Machine.execRingInsert w s
  | .routeLoad a k first es => Sys2Proof.Machine.execRouteLoad a k first es s
  | .routeBind a k tag gen spread => Sys2Proof.Machine.execRouteBind a k tag gen spread s
  | .routeUnbind a k => Sys2Proof.Machine.execRouteUnbind a k s
  | .flwCreate f => Sys2Proof.Machine.execFlwCreate f s
  | .flwDestroy f => Sys2Proof.Machine.execFlwDestroy f s
  | .flwRead f => Sys2Proof.Machine.execFlwRead f s
  | .flwSetarr f => Sys2Proof.Machine.execFlwSetarr f s
  | .flwWindow f => Sys2Proof.Machine.execFlwWindow f s
  | .flwUnwindow f => Sys2Proof.Machine.execFlwUnwindow f s
  | .flwAperture f => Sys2Proof.Machine.execFlwAperture f s
  | .flwInvall f => Sys2Proof.Machine.execFlwInvall f s
  | .apertureAccess addr len wr => Sys2Proof.Machine.execApertureAccess addr len wr s
  | .loadReq => Sys2Proof.Machine.execLoadReq s
  | .loadRsp => Sys2Proof.Machine.execLoadRsp s
  | .store => Sys2Proof.Machine.execStore s
  | .put => Sys2Proof.Machine.execPut s
  | .atomReq => Sys2Proof.Machine.execAtomReq s
  | .atomRsp => Sys2Proof.Machine.execAtomRsp s
  | .nak => Sys2Proof.Machine.execNak s
  | .lineApply x => Sys2Proof.Machine.execLineApply x s
  | .atomResend rid => Sys2Proof.Machine.execAtomResend rid s
  | .flowTimeout rid => Sys2Proof.Machine.execFlowTimeout rid s
  | .cwaitTimeout t x => Sys2Proof.Machine.execCwaitTimeout t x s
  | .admitJob a tag gen step => Sys2Proof.Machine.execAdmitJob a tag gen step s
  | .teardown a tag gen => Sys2Proof.Machine.execTeardown a tag gen s
  | .tagQuarantineEnd tag => Sys2Proof.Machine.execTagQuarantineEnd tag s
  | .collContrib => Sys2Proof.Machine.execCollContrib s
  | .collResult => Sys2Proof.Machine.execCollResult s
  | .collBlock => Sys2Proof.Machine.execCollBlock s
  | .collBarrier => Sys2Proof.Machine.execCollBarrier s
  | .collFold k c => Sys2Proof.Machine.execCollFold k c s
  | .collTimeout k => Sys2Proof.Machine.execCollTimeout k s
  | .rcCollect tok => Sys2Proof.Machine.execRcCollect tok s
  | .rcResult tok => Sys2Proof.Machine.execRcResult tok s
  | .rcResend k => Sys2Proof.Machine.execRcResend k s
  | .rcHoldExpire k => Sys2Proof.Machine.execRcHoldExpire k s
  | .csLoad w => Sys2Proof.Machine.execCsLoad w s
  | .codeDelta => Sys2Proof.Machine.execCodeDelta s
  | .codeAck => Sys2Proof.Machine.execCodeAck s
  | .codeEnd => Sys2Proof.Machine.execCodeEnd s
  | .codeReady => Sys2Proof.Machine.execCodeReady s
  | .rebReq => Sys2Proof.Machine.execRebReq s
  | .rebRsp => Sys2Proof.Machine.execRebRsp s
  | .rebuildDone => Sys2Proof.Machine.execRebuildDone s
  | .holdLate kind => Sys2Proof.Machine.execHoldLate kind s
  | .freeze a tag gen => Sys2Proof.Machine.execFreeze a tag gen s
  | .regen a tag gen gen2 => Sys2Proof.Machine.execRegen a tag gen gen2 s
  | .recover a r => Sys2Proof.Machine.execRecover a r s
  | .drainDone => Sys2Proof.Machine.execDrainDone s
  | .vltRestore w => Sys2Proof.Machine.execVltRestore w s
  | .restoreEpochList l => Sys2Proof.Machine.execRestoreEpochList l s
  | .restoreChoice epoch => Sys2Proof.Machine.execRestoreChoice epoch s
  | .errorRecord => Sys2Proof.Machine.execErrorRecord s
  | .stewardTakeover => Sys2Proof.Machine.execStewardTakeover s
  | .auditSuiteDone t pass => Sys2Proof.Machine.execAuditSuiteDone t pass s
  | .pgctlFence page => Sys2Proof.Machine.execPgctlFence page s
  | .pgctlSrst page => Sys2Proof.Machine.execPgctlSrst page s
  | .srstComplete page => Sys2Proof.Machine.execSrstComplete page s
  | .pgctlErrack page => Sys2Proof.Machine.execPgctlErrack page s
  | .pwrOkRise => Sys2Proof.Machine.execPwrOkRise s
  | .pwrOkFall => Sys2Proof.Machine.execPwrOkFall s
  | .sysRstN => Sys2Proof.Machine.execSysRstN s
  | .perst => Sys2Proof.Machine.execPerst s
  | .rstCtlWarm w by_ => Sys2Proof.Machine.execRstCtlWarm w by_ s
  | .rstCtlPartrst w by_ => Sys2Proof.Machine.execRstCtlPartrst w by_ s
  | .warmReset a => Sys2Proof.Machine.execWarmReset a s
  | .partReset a p => Sys2Proof.Machine.execPartReset a p s
  | .resetPhase untrained => Sys2Proof.Machine.execResetPhase untrained s
  | .optionLoadDone o => Sys2Proof.Machine.execOptionLoadDone o s
  | .partResetRelease p untrained => Sys2Proof.Machine.execPartResetRelease p untrained s
  | .rstHbeat w by_ => Sys2Proof.Machine.execRstHbeat w by_ s
  | .watchdogBite => Sys2Proof.Machine.execWatchdogBite s
  | .stewardRestart => Sys2Proof.Machine.execStewardRestart s
  | .configUpdate a b => Sys2Proof.Machine.execConfigUpdate a b s
  | .bootGo w => Sys2Proof.Machine.execBootGo w s
  | .imgVerifyDone v => Sys2Proof.Machine.execImgVerifyDone v s
  | .attQuote w => Sys2Proof.Machine.execAttQuote w s
  | .attExtend w => Sys2Proof.Machine.execAttExtend w s
  | .attest a nonce => Sys2Proof.Machine.execAttest a nonce s
  | .mgmtHello src => Sys2Proof.Machine.execMgmtHello src s
  | .setMgmt a es => Sys2Proof.Machine.execSetMgmt a es s
  | .setId a id => Sys2Proof.Machine.execSetId a id s
  | .svcRun c => Sys2Proof.Machine.execSvcRun c s
  | .svcPost c addr => Sys2Proof.Machine.execSvcPost c addr s
  | .postIssue c => Sys2Proof.Machine.execPostIssue c s
  | .psvAdd c w => Sys2Proof.Machine.execPsvAdd c w s
  | .psvSub c w => Sys2Proof.Machine.execPsvSub c w s
  | .psvMul c w => Sys2Proof.Machine.execPsvMul c w s
  | .psvMac c w => Sys2Proof.Machine.execPsvMac c w s
  | .psvMin c w => Sys2Proof.Machine.execPsvMin c w s
  | .psvMax c w => Sys2Proof.Machine.execPsvMax c w s
  | .psvRsum c w => Sys2Proof.Machine.execPsvRsum c w s
  | .psvLds c w x1 x2 => Sys2Proof.Machine.execPsvLds c w x1 x2 s
  | .psvSts c w x1 x2 => Sys2Proof.Machine.execPsvSts c w x1 x2 s
  | .psvIdleOff c => Sys2Proof.Machine.execPsvIdleOff c s
  | .psvWake c => Sys2Proof.Machine.execPsvWake c s
  | .hringTail r w => Sys2Proof.Machine.execHringTail r w s
  | .hringEnable r w => Sys2Proof.Machine.execHringEnable r w s
  | .ringNop r => Sys2Proof.Machine.execRingNop r s
  | .htom r host => Sys2Proof.Machine.execHtom r host s
  | .mtoh r => Sys2Proof.Machine.execMtoh r s
  | .notify r => Sys2Proof.Machine.execNotify r s
  | .ringEntryDone r => Sys2Proof.Machine.execRingEntryDone r s
  | .bar2Access y len wr => Sys2Proof.Machine.execBar2Access y len wr s
  | .hostAtomicop y op => Sys2Proof.Machine.execHostAtomicop y op s
  | .msixUnmask v => Sys2Proof.Machine.execMsixUnmask v s
  | .hostLinkDown => Sys2Proof.Machine.execHostLinkDown s
  | .hostLinkUp speed width flit => Sys2Proof.Machine.execHostLinkUp speed width flit s
  | .vaultCmdDone status => Sys2Proof.Machine.execVaultCmdDone status s
  | .vaultCmdTimeout => Sys2Proof.Machine.execVaultCmdTimeout s
  | .vaultLinkDown => Sys2Proof.Machine.execVaultLinkDown s
  | .vaultLinkUp fit => Sys2Proof.Machine.execVaultLinkUp fit s
  | .partitionSleep p => Sys2Proof.Machine.execPartitionSleep p s
  | .partitionWake p untrained => Sys2Proof.Machine.execPartitionWake p untrained s
  | .standbyEnter => Sys2Proof.Machine.execStandbyEnter s
  | .standbyExit => Sys2Proof.Machine.execStandbyExit s
  | .sensorSample m => Sys2Proof.Machine.execSensorSample m s
  | .governorUpdate => Sys2Proof.Machine.execGovernorUpdate s
  | .droop p => Sys2Proof.Machine.execDroop p s
  | .droopRelease p => Sys2Proof.Machine.execDroopRelease p s
  | .refClkLoss => Sys2Proof.Machine.execRefClkLoss s
  | .inputUndervolt => Sys2Proof.Machine.execInputUndervolt s
  | .evenWrite page v => Sys2Proof.Machine.execEvenWrite page v s
  | .eventDelivery d => Sys2Proof.Machine.execEventDelivery d s
  | .errrecRead page => Sys2Proof.Machine.execErrrecRead page s
  | .regWrite off data size by_ => Sys2Proof.Machine.execRegWrite off data size by_ s
  | .refClkRelock => Sys2Proof.Machine.execRefClkRelock s
  | .sysRstNRelease => Sys2Proof.Machine.execSysRstNRelease s
  | .moduleWithdrawal => Sys2Proof.Machine.execModuleWithdrawal s
  | .historyWriteDone ok => Sys2Proof.Machine.execHistoryWriteDone ok s

end Sys2Proof.Machine
end

