-- ==== Sys2Proof/Safety.lean ====
section
/-! DEFINITION. What claims call good, and what they say of a step in common: stores in canonical form, the register words
that a step leaves alone, and when an arc can fire. -/
namespace Sys2Proof

open Machine

/-- The canonical form of the module's memory, of the staging area and of each accumulator and vector register file. -/
def Stores.wf (s : State) : Bool :=
  Memory.wf s && s.boot.staging.wf && s.tiles.all fun x => x.2.acc.wf && x.2.vr.wf

/-- `t` with the stored words of `s`, and what the nanosecond did to those (R11). -/
def wordsOf (s t : State) : State := { t with regs := s.regs, bitsNow := s.bitsNow, cntsNow := s.cntsNow, wasNow := s.wasNow }

/-- The stored words of `s` and `t` agree outside the words that `may` names by page and offset. -/
def WordsKept (s t : State) (may : Nat → Nat → Bool) : Prop :=
  ∀ pg o, o < 0x1000 → may pg o = false → t.reg pg o = s.reg pg o

/-- `t` with the stored words and the context cache of `s` (R313). -/
def lookedUp (s t : State) : State := { wordsOf s t with ctxCache := s.ctxCache }

/-- FLW_CHIT and FLW_CMISS of the two F-dies, which count the lookups of contexts (R313). -/
def lookupWord (pg o : Nat) : Bool := (pg == pgFlow 0 || pg == pgFlow 1) && (o == 0x140 || o == 0x144)

/-- Nothing goes on by itself in the nanosecond to come: no swap of slices (R87), no solver waiting for a slot (R244), no throttled stack
(Table 12.9), no CODE that waits (R372), and no write held in the very nanosecond of a commit (R386). -/
structure Quiet (s : State) : Prop where
  swap : ∀ p, (s.part p).swap = []
  slot : ∀ p r, (s.part p).slv.run = some r → r.phase = .factor → r.slot ≠ none
  stack : ∀ p, (s.part p).far.refmode ≠ 3
  code : ∀ c ∈ s.cs.codes, c.waits = false
  hold : s.cs.held = some 1 → s.cs.lastCoded ≠ none ∧ s.cs.lastCoded ≠ s.cs.epoch

/-- One nanosecond of pod time has passed (R43): it rises by 1, or, when the free-running count reaches 1023 with a difference left, by
0 or 2, which works the difference off by one (R44); nothing else of the timebase moves. -/
structure Ticked (s t : State) : Prop where
  clk : t.clk = s.clk + 1
  count : t.tb.slewCnt = (s.tb.slewCnt + 1) % 1024
  even : t.tb.slewCnt ≠ 1023 ∨ s.tb.diff = 0 → t.tb.time = s.tb.time + 1 ∧ t.tb.diff = s.tb.diff
  fast : t.tb.slewCnt = 1023 → 0 < s.tb.diff → t.tb.time = s.tb.time + 2 ∧ t.tb.diff = s.tb.diff - 1
  slow : t.tb.slewCnt = 1023 → s.tb.diff < 0 → t.tb.time = s.tb.time ∧ t.tb.diff = s.tb.diff + 1
  rest : { t.tb with time := s.tb.time, slewCnt := s.tb.slewCnt, diff := s.tb.diff, prevAng := s.tb.prevAng } = s.tb
  angle : t.tb.prevAng = s.angle

/-- Reads meet no memory error (R269, R273), and none is held for a segment still to be rebuilt (R379). -/
def NoErrors (s : State) : Prop := s.cs.st ≠ .rebuild ∧ ∀ e ∈ s.mem.poison, e.2 = 1

/-- Words of the event router's page that a delivery may change: EVRAW, EVFIRST, EVR_STAT, EVR_REDIR and EVR_DROP (R491,
R492). -/
def evrWord (pg o : Nat) : Bool := pg == pgEvr && [0x010, 0x01C, 0x100, 0x110, 0x114].contains o

/-- Words that an event of page `p` may change: its EVRAW and EVFIRST, and the event router's (R489 to R492). -/
def eventWord (p pg o : Nat) : Bool := pg == p && [0x010, 0x01C].contains o || evrWord pg o

/-- Arc `e` of unit `u` is eligible (R59), its action can be posted (R60), no arc below it is in that position, the unit has fired no
arc in this nanosecond (R59), and its partition takes work (R18). -/
structure ArcCanFire (s : State) (u e act : Nat) (x : ArcEnt) : Prop where
  unit : u ≤ 16
  entry : (s.arcu u).active[e]? = some x
  action : x.action = act
  armed : x.st = .armed
  angle : s.tb.period = 0 ∨ x.start ≤ s.angle
  condA : bits x.w1.toNat 47 32 ≤ (s.arcTokSeen u (bits x.w1.toNat 5 0)).toNat
  condB : bits x.w1.toNat 63 48 ≤ (s.arcTokSeen u (bits x.w1.toNat 13 8)).toNat
  credit : s.arcCredit u act = true
  page : s.pageBusy (pgArc u) = false
  first : (s.arcu u).firedAt ≠ s.clk + 1
  work : u = 16 ∨ s.takesWork u = true
  lowest : ∀ i y, i < e → (s.arcu u).active[i]? = some y → s.arcReady u y = false

/-- Token counter `i` of arc unit `u` (ARC_TOK, R58). -/
def arcTokOf (s : State) (u i : Nat) : W32 := mget 0 (s.arcu u).toks i

/-- Token counter `i` of tile `t` (TILE_TOK, R78). -/
def tileTokOf (s : State) (t i : Nat) : W32 := s.reg (pgTile t) (0x200 + 4 * i)

/-- Whether arc `x`'s completion raises counter `i` of its own table (R58, R60). -/
def arcSignals (x : ArcEnt) (i : Nat) : Bool := x.w1.getLsbD 22 && bits x.w1.toNat 21 16 == i

/-- Entry `x` moved to state `st` in `s`; a DONE one holds the angle of the nanosecond before, which its guard is held against (R61). -/
def arcMoved (s : State) (st : ArcSt) (x : ArcEnt) : ArcEnt :=
  { x with st := st, doneAng := if st = .done then s.tb.prevAng else x.doneAng }

/-- Table of arc unit `u` in `t`: as in `s`, but entry `e` is in state `st`. -/
def ArcMoved (s t : State) (u e : Nat) (st : ArcSt) : Prop :=
  (t.arcu u).active = (s.arcu u).active.modify e (arcMoved s st) ∧ ∀ v, v ≠ u → (t.arcu v).active = (s.arcu v).active

/-- The instruction of word `w` (R170) has raised the counters that it signals in `t`, once each, and no other tile or arc
token counter differs from `s`; only tile `k`, arc counters, and words of tile `k`'s page and of the event router differ. -/
structure Signalled (s t : State) (k w : Nat) : Prop where
  tok : ∀ i, i < 64 → tileTokOf t k i = tileTokOf s k i + (if wSsel w = 1 ∧ i = wSidx w then 1 else 0)
  arc : ∀ v i, arcTokOf t v i = arcTokOf s v i + (if wSsel w = 2 ∧ v = k / 72 ∧ i = wSidx w then 1 else 0)
  tables : ∀ v, (t.arcu v).active = (s.arcu v).active
  others : ∀ j, j ≠ k → t.tile j = s.tile j
  words : WordsKept s t fun pg o => pg == pgTile k && (wSsel w == 1 && o == 0x200 + 4 * wSidx w || o == 0x108) ||
    eventWord (pgTile k) pg o

/-- The sequencer of tile `k` is about to issue the well-formed word `w`, with extension words `e1` and `e2`, `n` of them in
its program, and the word's wait condition holds (R70, R73, R79, R169, R171). -/
structure Issues (s : State) (k w e1 e2 n : Nat) : Prop where
  tile : k < 1152
  on : s.tileOn k = true
  seq : (s.tile k).seq = .run ∨ (s.tile k).seq = .wait
  going : (s.tile k).ended = none
  page : s.pageBusy (pgTile k) = false
  word : s.fetch k = .words w e1 e2 n
  ok : wordOk w e1 e2 = true
  wait : wWcnt w ≤ s.tokSeen k (wWidx w)

/-- Tile `x` with its program counter past the base word and `n` extension words just issued (R70). -/
def tilePast (x : Tile) (n : Nat) : Tile := { x with pc := x.pc + 1 + n, lastPc := x.pc, seq := .run }

/-- A sequencer instruction of word `w` has run on tile `k`: the tile is `x`, its signal is applied, and the rest of the
machine is as it was. -/
structure SeqRan (s t : State) (k w : Nat) (x : Tile) : Prop where
  tile : t.tile k = x
  signal : Signalled s t k w
  rest : { wordsOf s t with tiles := s.tiles, arcs := s.arcs, router := s.router } = s

/-- The command of an engine instruction (Table 7.3): by MAJOR and, where Table 7.3 says so, by VAR or RM. -/
def engineRow (w : Nat) : Option (Nat → Phase → Instr) :=
  let m := wMajor w
  let by_ (v : Bool) (a b : Nat → Phase → Instr) : Option (Nat → Phase → Instr) := some (if v then b else a)
  if m = 0x10 then some .mmad else if m = 0x11 then some .mmas else if m = 0x12 then some .mmax
  else if m = 0x13 then some .castm else if m = 0x14 then some .castf else if m = 0x15 then some .dmark
  else if m = 0x18 then some .dru else if m = 0x19 then some .pivot else if m = 0x1A then some .solve
  else if m = 0x1B then some .solveb
  else if m = 0x20 then some .cpy else if m = 0x21 then some .rget else if m = 0x22 then some .rput
  else if m = 0x23 then some .ratom else if m = 0x24 then some .rinv else if m = 0x25 then some .cwait
  else if m = 0x26 then some .cscat
  else if m = 0x28 then by_ (vVar w) .vadd .vsub else if m = 0x29 then some .vmul
  else if m = 0x2A then by_ (vVar w) .vfma .vfnma else if m = 0x2B then by_ (vRm w % 2 == 1) .vmin .vmax
  else if m = 0x2C then some .vclamp else if m = 0x2D then by_ (vVar w) .vabs .vneg
  else if m = 0x2E then (if vRm w = 0 then some .vand else if vRm w = 1 then some .vor else some .vxor)
  else if m = 0x2F then (if vRm w = 0 then some .vshl else if vRm w = 1 then some .vshrl else some .vshra)
  else if m = 0x30 then some .vcvt else if m = 0x31 then some .vcmp else if m = 0x32 then some .vsel
  else if m = 0x33 then by_ (vVar w) .vld .vst else if m = 0x34 then some .vsplat
  else if m = 0x35 then some .vrsum else if m = 0x36 then by_ (vVar w) .vrmax .vrmin else if m = 0x37 then some .vdot
  else if m = 0x38 then some .vcompress else if m = 0x39 then some .vexpand else if m = 0x3A then some .vsetc
  else none

/-- The engine of queue `q` of tile `k` is about to take entry `e` (R75). -/
structure Starts (s : State) (k q : Nat) (e : QEntry) : Prop where
  tile : k < 1152
  on : s.tileOn k = true
  page : s.pageBusy (pgTile k) = false
  next : (s.tile k).nextEntry q = some e

/-- Entry `e` of queue `q` of tile `k` has been carried out in `t`: it holds what retiring it will apply (R76, R77, R187); the
other queues, the address registers, the program counter and every other tile are as in `s`. -/
structure Finished (s t : State) (k q : Nat) (e : QEntry) (flags : Nat) (err : Option ErrNote) (var : Nat) : Prop where
  entry : (t.tile k).queue q = ((s.tile k).queue q).map fun y =>
    if y.id = e.id then { y with st := .finished, flags := BitVec.ofNat 32 flags, err := err, var := var } else y
  queues : ∀ r, r < 4 → r ≠ q → (t.tile k).queue r = (s.tile k).queue r
  ars : (t.tile k).ars = (s.tile k).ars
  pc : (t.tile k).pc = (s.tile k).pc
  seq : (t.tile k).seq = (s.tile k).seq
  others : ∀ j, j ≠ k → t.tile j = s.tile j

/-- Product `e` of tile `k` has written its M × N output at `c` and finished (R128); when DIG is set, it is the program's, and the
digest is on, what retiring it will feed to the digest is kept with it (R139). -/
def Multiplied (s t : State) (k : Nat) (e : QEntry) (mode c m n : Nat) (dig : Bool) (fl : Nat) : Prop :=
  if dig && !e.posted && s.bit (pgTile k) 0x1A0 1 then
    ∃ y ∈ (t.tile k).queue 0, y.id = e.id ∧ y.st = .finished ∧ y.flags = BitVec.ofNat 32 fl ∧ y.err = none ∧
      y.feed = some (digBytes mode ((positions m n).map fun z => (z, t.mem.num (tst k (c + elemOff mode z.1 z.2)) (elemSize mode))))
  else Finished s t k 0 e fl none 0

/-- Bytes of tile `k`'s store at offsets that `may` does not name, and all other memory, are the same in `s` and `t`. -/
def StoreKept (s t : State) (k : Nat) (may : Nat → Prop) : Prop :=
  ∀ x, (∀ o, x = tst k o → ¬ may o) → t.mem.at_ x = s.mem.at_ x

/-- Vector, mask and count registers of tile `k` are the same in `s` and `t`. -/
def VectorsKept (s t : State) (k : Nat) : Prop :=
  (t.tile k).vr = (s.tile k).vr ∧ (t.tile k).msk = (s.tile k).msk ∧ (t.tile k).mskPois = (s.tile k).mskPois ∧
    (t.tile k).vcnt = (s.tile k).vcnt ∧ (t.tile k).vcntPois = (s.tile k).vcntPois

/-- A packet as this module sends it (R298): from itself, with no hops yet. -/
def ownPacket (s : State) (k : Packet) : Packet := { k with src := s.modId.getD 0, hops := 0 }

/-- Packet `k`, whose job is LIVE, has been sent from `s` (R298, R333): into the inbox when it is for this module, behind the
queue of its port's channel when a port serves it, and nowhere when it has no route. -/
def Sent (s t : State) (k : Packet) : Prop :=
  match s.routeOwn (ownPacket s k) with
  | .here => t.inbox = s.inbox ++ [(72, ownPacket s k)] ∧ t.ports = s.ports
  | .port i => ∃ x, (t.port i).txq k.vc.toNat = (s.port i).txq k.vc.toNat ++ [x] ∧ x.rest = pktBytes (ownPacket s k) ∧
      x.begun = false ∧ t.inbox = s.inbox ∧ ∀ j, j ≠ i → t.port j = s.port j
  | .none_ => t.inbox = s.inbox ∧ t.ports = s.ports

/-- Packets through context `x` go somewhere: its job is LIVE and its destination has a route. -/
def Routed (s : State) (x : Ctx) : Prop :=
  s.live x.tag x.gen = true ∧
    ∀ k : Packet, k.dst = x.dst → k.tag = x.tag → k.gen = x.gen → k.vc ≠ 0 → s.routeOwn k ≠ .none_

/-- What an outstanding request is for: its owner, where its answer goes, its context, and whether it is an atomic. -/
def outKey (o : Outst) : Owner × Bool × Nat × Nat × Nat × Bool := (o.owner, o.space, o.dst, o.len, o.ctx, o.atom)

/-- Every outstanding request has been sent, and serial numbers rise (R320). -/
def AllSent (s : State) : Prop := ∀ o ∈ s.outst, o.sent = true ∧ o.rid < s.nextRid

/-- Entry `e` of the copy queue of tile `k` is in flight in `t`, with `n` parts to come (Table 3.2, Table 7.10). -/
def InFlight (s t : State) (k : Nat) (e : QEntry) (n : Nat) : Prop :=
  (t.tile k).q3 = ((s.tile k).q3.map fun y =>
    if y.id = e.id then { y with st := .running, need := n, since := s.clk } else y)

/-- No write waits: no coding, rebuild or drain hold is in force (R372, R379, R384). -/
def NoHolds (s : State) : Prop := ∀ p l o n, s.holdAt p l o n = none

/-- Each aligned 8-byte word of `[a, a + n)` takes a unit's writes (R239, R265, R269). -/
def Writable (s : State) (a n : Nat) : Prop :=
  ∀ x, a ≤ x → x + 8 ≤ a + n → x % 8 = 0 → ∀ bs : List (PVal Byte), bs.length = 8 → ∃ u, s.store .unit x bs = .ok u

/-- Arc `e` of unit `u`, `x`, FIRED in `s`, is DONE in `t` and has raised its own counter when its DONE_EN says so (R60). -/
def ArcDone (s t : State) (u e : Nat) (x : ArcEnt) : Prop :=
  ArcMoved s t u e .done ∧ ∀ v i, arcTokOf t v i = arcTokOf s v i + (if v = u ∧ arcSignals x i = true then 1 else 0)

/-- Arc `e` of unit `u` is FIRED in `t`: its action has been posted and is not complete (R60). -/
def ArcPosted (s t : State) (u e : Nat) : Prop := ArcMoved s t u e .fired ∧ ∀ v i, arcTokOf t v i = arcTokOf s v i

/-- Address of element (i, j) of a dense general matrix whose bricks lie at module address `a`, `nb` to a row (R191, R192). -/
def denseAddr (a nb i j : Nat) : Nat := a + 512 * (i / 8 * nb + j / 8) + 8 * (8 * (i % 8) + j % 8)

/-- Counter `o` of page `pg` is one higher in `t`, holding at its largest value (R11). -/
def Counted (s t : State) (pg o : Nat) : Prop := (t.reg pg o).toNat = min (2 ^ 32 - 1) ((s.reg pg o).toNat + 1)

/-- Status bit `b` of word `o` of page `pg`, and event `e` of that page, are set. -/
def Flagged (t : State) (pg o b e : Nat) : Prop := t.bit pg o b = true ∧ t.bit pg 0x010 e = true

/-- The latest record of page `pg` in `t` is `r`, as `s` stamps it, and PGSTAT.ERR is set (R390). -/
def Reported (s t : State) (pg : Nat) (r : Rec) : Prop := mget [] t.err pg = s.recBytes pg r ∧ pg ∈ t.errSet

/-- The element-by-element PSV operations (R450, Table 20.5): core, word, operation code, whether FP forms round, and an element's
result and flags from the type, the rounding mode and the elements of rs1, rs2 and rd. -/
def psvRow : Instr → Option (Nat × W32 × Nat × Bool × (Nat → Nat → Nat → Nat → Nat → Nat × Nat))
  | .psvAdd c w => some (c, w, 0x00, true, fun ty rm a b _ => if psvFp ty then (psvFmt ty).add rm a b else (a + b, 0))
  | .psvSub c w => some (c, w, 0x01, true, fun ty rm a b _ => if psvFp ty then (psvFmt ty).sub rm a b else (a + (2 ^ psvBits ty - b), 0))
  | .psvMul c w => some (c, w, 0x02, true, fun ty rm a b _ => if psvFp ty then (psvFmt ty).mul rm a b else (a * b, 0))
  | .psvMac c w => some (c, w, 0x03, true, fun ty rm a b d => if psvFp ty then (psvFmt ty).fma rm false a b d else (d + a * b, 0))
  | .psvMin c w => some (c, w, 0x04, false, fun ty _ a b _ => psvMinMax ty false a b)
  | .psvMax c w => some (c, w, 0x05, false, fun ty _ a b _ => psvMinMax ty true a b)
  | _ => none

/-- Core `c` is ready to run the PSV word `w` of operation `op`: it is up, its unit is powered and the word is legal (R450 to R452);
`rounds`: its FP forms use frm. -/
structure PsvReady (s : State) (c : Nat) (w : W32) (op : Nat) (rounds : Bool) (fregs : List Nat) : Prop where
  core : c < 64
  up : s.coreUp c = true
  op_ : psvIs w op = true
  legal : (psvOf w).legal fregs = true
  fs : (s.core_ c).fsOff = false
  frm : rounds = false ∨ psvFp (psvOf w).ty = false ∨ (s.core_ c).frm.toNat ≤ 4
  unit : (s.core_ c).psvOn = true ∧ (s.core_ c).waking = false
  regs : (s.core_ c).f.length = 32

/-- A PSV instruction has completed on core `c` (R453): `v` is what rd holds, no other FP register and no other core differs, psvidx is 0,
and the flags are `fl`. -/
structure PsvDone (s t : State) (c : Nat) (i : Psv) (v : Nat) (fl : BitVec 5) : Prop where
  value : (t.core_ c).fval i.wide i.rd = v
  others : ∀ r, r ≠ i.rd → ¬ (i.wide = true ∧ r = i.rd + 1) → (t.core_ c).f[r]? = (s.core_ c).f[r]?
  state : { t.core_ c with f := (s.core_ c).f } =
    { s.core_ c with psvidx := 0, fsDirty := true, fflags := fl, psvIdleAt := s.clk }
  cores : ∀ d, d ≠ c → t.core_ d = s.core_ d

/-- The data caches hold no line that a core has written, and none that differs from memory (R445). -/
def CachesClean (s : State) : Prop := ∀ l ∈ s.dcache, l.dirty = false ∧ l.data = s.mem.rd (64 * l.line) 64

/-- A core reads `v` in `n` bytes at `a` of memory: through its whole line where that is cacheable (R444, R445). -/
def CoreReads (s : State) (a n v : Nat) : Prop :=
  if cacheable a then ∃ bs, s.load .unit (a / 64 * 64) 64 = some bs ∧ pNat ((bs.drop (a % 64)).take n) = some v
  else regionOf a ≠ .page ∧ regionOf a ≠ .window ∧ (s.load .unit a n).bind pNat = some v

/-- A core's read of `n` bytes at `a` of memory faults: it cannot be read, or is poison (R444). -/
def CoreFaults (s : State) (a n : Nat) : Prop :=
  if cacheable a then (s.load .unit (a / 64 * 64) 64).bind (fun bs => pNat ((bs.drop (a % 64)).take n)) = none
  else regionOf a ≠ .page ∧ regionOf a ≠ .window ∧ (s.load .unit a n).bind pNat = none

/-- Entry `i` of host ring `r`, `e`, of operation `op`, starts now: those before it have started, a fence or a NOTIFY waits for them to
complete, and fewer than 8 copies run (R464). -/
structure RingTurn (s : State) (r op i : Nat) (e : RingEnt) : Prop where
  ring : r < 256
  up : s.hostp.up = true
  entry : (s.hring r).ents[i]? = some e
  op_ : e.op = op
  waiting : e.started = false ∧ e.status = none
  before : ∀ j y, j < i → (s.hring r).ents[j]? = some y → y.started = true ∨ y.status ≠ none
  order : e.fence = true ∨ op = 3 → ∀ j y, j < i → (s.hring r).ents[j]? = some y → y.status ≠ none
  room : (((s.hring r).ents.take i).filter fun y => y.started && y.status.isNone).length < 8

/-- Entry `i` of ring `r` has completed in `t` with status `st`; the rest of that ring, and every other ring, is as in `s` (R463). -/
def RingEnded (s t : State) (r i st : Nat) (e : RingEnt) : Prop :=
  (t.hring r).ents[i]? = some { e with started := true, status := some st } ∧
    (∀ j, j ≠ i → (t.hring r).ents[j]? = (s.hring r).ents[j]?) ∧
    { t.hring r with ents := [] } = { s.hring r with ents := [] } ∧ ∀ q, q ≠ r → t.hring q = s.hring q

/-- A part of the remote request of entry `id` of the copy queue of tile `k` has ended in `t` (Table 7.10): one fewer is to
come, the last ends the entry, and the first error is kept. -/
def PartDone (s t : State) (k id : Nat) (err : Option ErrNote) (var : Nat → Nat) : Prop :=
  (t.tile k).q3 = ((s.tile k).q3.map fun y => if y.id = id then
    { y with err := if y.err.isSome then y.err else err, need := y.need - 1, var := var y.var
             st := if y.need ≤ 1 then .finished else y.st } else y) ∧ ∀ j, j ≠ k → t.tile j = s.tile j

/-- Command that takes a request of operation `op` from the inbox (Table 14.4). -/
def requestRow (op : Nat) : Instr := if op = 1 then .loadReq else if op = 3 then .store else if op = 4 then .put else .atomReq

/-- The next request of operation `op` (R330): STOREs and atomics are taken in the order of their arrival at their F-die. -/
def nextRequest (s : State) (op : Nat) : Option (Nat × Packet) := if op = 3 ∨ op = 5 then s.nextWrite op else s.nextPkt [op]

/-- `s` without the request `x`, of operation `op`, in its inbox. -/
def tookRequest (s : State) (op : Nat) (x : Nat × Packet) : State := if op = 3 ∨ op = 5 then s.takenPkt x else s.taken [op]

/-- The fabric manager's commands (Table 19.6): their authentication and their code. -/
def mgmtRow : Instr → Option (Auth × Nat)
  | .setMgmt a _ => some (a, 0x01)
  | .setId a _ => some (a, 0x02)
  | .admitJob a _ _ _ => some (a, 0x10)
  | .teardown a _ _ => some (a, 0x11)
  | .routeLoad a _ _ _ => some (a, 0x20)
  | .routeBind a _ _ _ _ => some (a, 0x21)
  | .routeUnbind a _ => some (a, 0x22)
  | .portTake a _ => some (a, 0x23)
  | .freeze a _ _ => some (a, 0x30)
  | .regen a _ _ _ => some (a, 0x31)
  | .recover a _ => some (a, 0x32)
  | .partReset a _ => some (a, 0x40)
  | .warmReset a => some (a, 0x41)
  | .configUpdate a _ => some (a, 0x50)
  | .attest a _ => some (a, 0x51)
  | _ => none

/-- The steward runs, and the source of command `cmd` is listed, or none is and it is SET_MGMT (R301, R438, R439). -/
def Heard (s : State) (a : Auth) (cmd : Nat) : Prop :=
  s.stewardOn = true ∧ if s.noMgmt then cmd = 1 else s.mgmtKnows a.src = true

/-- A management command that reaches the steward and passes the checks of R439. -/
def Accepted (s : State) (a : Auth) (cmd : Nat) : Prop := Heard s a cmd ∧ s.authStatus a = 0

/-- One that is accepted and whose source has a route for the answer (R298). -/
def Verified (s : State) (a : Auth) (cmd : Nat) : Prop := Accepted s a cmd ∧ s.mgmtRoute a.src ≠ .none_

/-- The command has been answered with `st` and `data`, and its counter is the last one accepted (R439). -/
def Answered (s t : State) (a : Auth) (cmd st : Nat) (data : List Byte) : Prop :=
  t.mgtCtr = a.counter ∧ t.out = s.out ++ [.mgmtRsp a.src cmd st a.counter data]

/-- No load or atomic of (tag, gen) is outstanding (R333). -/
def NothingOut (t : State) (tag : BitVec 16) (gen : BitVec 8) : Prop := ∀ o ∈ t.outst, ¬ (o.pkt.tag = tag ∧ o.pkt.gen = gen)

/-- The stepping job's work is gone: every arc table is empty and every engine queue too (R31). -/
def NoWork (t : State) : Prop :=
  (∀ u, (t.arcu u).active = [] ∧ (t.arcu u).shadow = []) ∧ (∀ k, (t.tile k).queues = [] ∧ (t.tile k).item = none) ∧
    t.copies = [] ∧ t.vault.drain = none

/-- `c` runs, and its arc entry, FIRED, is no other collective's (R340, R341). -/
structure RunsColl (s : State) (c : Coll) (x : ArcEnt) : Prop where
  mem : c ∈ s.colls
  alone : ∀ y ∈ s.colls, y.entry = c.entry → y = c
  entry : (s.arcu 16).active[c.entry]? = some x
  fired : x.st = .fired

/-- Collective `c` is complete in `t`: it is gone, counted, and its arc is DONE (R347). -/
def CollDone (s t : State) (c : Coll) (x : ArcEnt) : Prop :=
  t.colls = (s.colls.filter fun y => y.entry != c.entry) ∧ Counted s t pgColl 0x108 ∧ ArcDone s t 16 c.entry x

/-- Collective `c` has ended with an error response of cause `cause` in `t`, its arc DONE, COL_FIRST naming the first (R340, R353). -/
def CollFailed (s t : State) (c : Coll) (x : ArcEnt) (cause : Nat) : Prop :=
  t.colls = (s.colls.filter fun y => y.entry != c.entry) ∧ ArcDone s t 16 c.entry x ∧
    (s.fld pgColl 0x120 19 16 = 0 → t.fld pgColl 0x120 15 0 = c.cseq.toNat ∧ t.fld pgColl 0x120 19 16 = cause ∧
      t.fld pgColl 0x124 15 0 = c.tag.toNat)

/-- Collective `c` goes on in `t` as `d`. -/
def CollNow (s t : State) (c d : Coll) : Prop :=
  t.colls = s.colls.map (fun y => if y.entry = c.entry then d else y) ∧ t.arcs = s.arcs

/-- A collective packet to the member of rank-map entry `r` (R338, R348). -/
def collPacket (s : State) (r : RankEnt) (op : Nat) (body : List Byte) : Packet :=
  { dst := r.modid, hops := 0, src := 0, vc := 1, gen := (s.ctx r.flow.toNat).gen, tag := (s.ctx r.flow.toNat).tag
    flow := r.flow, op := BitVec.ofNat 8 op, body := body }

/-- A packet of collective `c`'s operation `op` from a member waits at the head of a port (R341). -/
structure CollArrives (s : State) (op i : Nat) (k : Packet) (c : Coll) : Prop where
  head : s.headVc1 op = some (i, k)
  live : s.live k.tag k.gen = true
  coll : (s.colls.find? fun c => c.ring.isNone && c.tag == k.tag && c.gen == k.gen &&
    c.cseq == BitVec.ofNat 16 (field k.body 0 2)) = some c
  hdr : cHdrOk c k = true

/-- Collective `c` has become `d` in `t`, or is complete when that was the last that it awaited (R347). -/
def CollStep (s t : State) (c d : Coll) (x : ArcEnt) : Prop :=
  if d.finished s.me then CollDone s t c x else CollNow s t c d

/-- A coding packet to member `r` of the group (Table 16.4). -/
def codePacket (s : State) (g : Group) (r op : Nat) (hdr data : List Byte) : Packet :=
  { dst := (g.member r).modid, hops := 0, src := 0, vc := 5, gen := (s.ctx (g.member r).flow.toNat).gen
    tag := (s.ctx (g.member r).flow.toNat).tag, flow := (g.member r).flow, op := BitVec.ofNat 8 op
    body := (hdr ++ List.replicate (16 - hdr.length) 0) ++ data }

/-- That packet waits in `t` at the port of its route, where it has one (R371). -/
def CodeQueued (s t : State) (g : Group) (r op : Nat) (hdr data : List Byte) : Prop :=
  ∀ p, s.live (codePacket s g r op hdr data).tag (codePacket s g r op hdr data).gen = true →
    s.routeOwn (ownPacket s (codePacket s g r op hdr data)) = .port p →
    ∃ y ∈ (t.port p).txq 5, y.rest = pktBytes (ownPacket s (codePacket s g r op hdr data))

/-- The next packet of operation `op` on VC5 is from member `r` of the loaded group, and is the group's (Table 16.4). -/
structure CodeArrives (s : State) (op i : Nat) (k : Packet) (g : Group) (r : Nat) : Prop where
  head : (s.inbox.find? fun e => e.2.vc == 5 && e.2.op.toNat == op) = some (i, k)
  live : s.live k.tag k.gen = true
  group : s.cs.group = some g
  member : ((List.range g.n).find? fun q => (g.member q).modid == k.src) = some r
  other : r ≠ g.self
  tag : g.tag = k.tag
  gen : g.gen = k.gen
  len : 16 ≤ k.body.length

/-- Every rank has an image of epoch `e` in the lists (R385). -/
def CommonEpoch (ls : List EpochList) (ranks : Nat) (e : W32) : Prop :=
  (∃ l ∈ ls, ∃ x ∈ l.images, x.1 = e) ∧ ∀ k, k < ranks → ∃ l ∈ ls, ∃ x ∈ l.images, x.1 = e ∧ k ∈ x.2.2

end Sys2Proof
end

