-- ==== Sys2Proof/Certificates/Slice0/Obligations.lean ====
section
/-! DEFINITION. The statements for the provers. Each docstring names the rules of spec/ that it rests on; where a clause is
the model's own choice the docstring names the log entry. -/

open Sys2Proof Sys2Proof.Machine

/-- A step takes the command at the front of the queue and is its effect on the state with the queue's rest. -/
def Obligations.StepRunsFrontCommand : Prop :=
  ∀ (c : Instr) (q : List Instr) (s : State), s.pending = c :: q → step s = exec c { s with pending := q }

/-- No command stops the module: every command answers a next state from every state (the spec names no command that ends in a
stop). The command queue and the nanosecond count (R1 to R11; the queue is the model's, log 2): no command changes the commands
that wait behind it, and none but TIME_SLEW, which is one nanosecond, moves the clock. The model's own choices in it: log 2 and 13. -/
def Obligations.EveryCommandCompletesAndLeavesTheQueue : Prop :=
  (∀ (c : Instr) (s : State), ∃ t, exec c s = .next t) ∧
  (∀ (c : Instr) (s t : State), exec c s = .next t → t.pending = s.pending ∧ (c ≠ .timeSlew → t.clk = s.clk))

/-- On an empty queue one nanosecond passes (log 2). Pod time advances by exactly 1 (R43); in the nanosecond in which the free-
running count reaches 1023 a difference that is left is worked off by one, pod time advancing by 0 or 2 (R44). Where nothing goes on by
itself, no more happens than that the counters of held packets, writes and postings may move: CS_HOLDCYC counts a nanosecond in which
a write is held (R372), and SVC_PSTALL the core cycles in which a core holds a posting for a credit (R448, R477). TIME_SLEW (R44): the
nanosecond in which the count reaches 1023. The model's own choices in it: log 2, 3 and 23. -/
def Obligations.NanosecondsAdvancePodTime : Prop :=
  (∀ s : State, s.pending = [] → ∃ t, step s = .next t ∧ Ticked s t ∧
     (Quiet s → { wordsOf s t with clk := s.clk, tb := s.tb, arrNow := s.arrNow, rinvs := s.rinvs, recWas := s.recWas } = s ∧
       t.arrNow = [] ∧ t.rinvs = [] ∧ t.recWas = [] ∧
       WordsKept s t (fun pg o => pg == pgCs && o == 0x128 || pg == pgColl && o == 0x130 ||
         decide (0x3800 ≤ pg) && decide (pg < 0x3840) && o == 0x11C) ∧
       (∀ c, c < 64 →
         let k := if 16 + c / 32 ∈ s.power.throttled then 3 else 12
         (t.reg (pgCore c) 0x11C).toNat = if (s.core_ c).heldPost = none then (s.reg (pgCore c) 0x11C).toNat
           else min (2 ^ 32 - 1) ((s.reg (pgCore c) 0x11C).toNat + (t.clk * k / 5 - s.clk * k / 5))) ∧
       (s.cs.held.isSome = true → Counted s t pgCs 0x128) ∧ (s.cs.held = none → t.reg pgCs 0x128 = s.reg pgCs 0x128))) ∧
  (∀ s : State, s.tb.timevalid = true → s.tb.slewCnt = 1022 → ∃ t, exec .timeSlew s = .next t ∧ Ticked s t ∧ t.tb.slewCnt = 1023 ∧
     (Quiet s → { wordsOf s t with clk := s.clk, tb := s.tb, arrNow := s.arrNow, rinvs := s.rinvs, recWas := s.recWas } = s)) ∧
  (∀ s : State, s.tb.timevalid = false ∨ s.tb.slewCnt ≠ 1022 → exec .timeSlew s = .next s)

/-- TIME after calibration (R44): the first token loads pod time as its value plus RING_DELAY to the nearest nanosecond and sets
TIMEVALID; a later one only measures the difference, TIME_ERR telling of one above 2 ns. A mark that was held for TIMEVALID and
whose time has passed is late (Table 2.2). A token before calibration changes nothing (log 22). CAL_CW, CAL_CCW and CAL_LOOP
(R45): with both arrivals recorded, at `a` and `b` units of 125 ps, the loop delay sets RING_DELAY to (a − b + D) / 2 toward
zero, held within 0 and 0xFF_FFFF, and CALDONE; without both it changes neither; the latest arrivals count, and every CAL_LOOP
discards them. The model's own choices in it: log 1 and 22. -/
def Obligations.TimeAndCalibrationTokens : Prop :=
  (∀ (v : W64) (s : State),
     (s.tb.caldone = false → exec (.time v) s = .next s) ∧
     (s.tb.caldone = true → ∃ (d : Nat) (t : State), exec (.time v) s = .next t ∧
       1000 * d ≤ s.tb.ringDelay.toNat + 500 ∧ s.tb.ringDelay.toNat ≤ 1000 * d + 500 ∧
       (s.tb.timevalid = false →
         t.tb.time = v + BitVec.ofNat 64 d ∧ t.tb.timevalid = true ∧ t.tb.slewCnt = 0 ∧ t.tb.diff = 0 ∧
         (t.bit pgTime 0x108 8 = true ↔ s.bit pgTime 0x108 8 = true ∨
           ∃ h, s.tb.held = some h ∧ h.mark.release.toNat ≤ t.tb.time.toNat)) ∧
       (s.tb.timevalid = true →
         t.tb = { s.tb with diff := ((v + BitVec.ofNat 64 d).toNat : Int) - s.tb.time.toNat } ∧
         (t.bit pgTime 0x108 12 = true ↔ s.bit pgTime 0x108 12 = true ∨ 2 < t.tb.diff.natAbs)) ∧
       { wordsOf s t with tb := s.tb, fresh := s.fresh, router := s.router } = s ∧
       WordsKept s t (fun pg o => pg == pgTime && o == 0x108 || eventWord pgTime pg o))) ∧
  (∀ (a b : Nat) (d : W64) (s : State), ∃ t1 t2 t3 t4, exec (.calCw a) s = .next t1 ∧ exec (.calCcw b) t1 = .next t2 ∧
     exec (.calLoop d) t2 = .next t3 ∧ exec (.calLoop d) t3 = .next t4 ∧
     (let twice : Int := 125 * a - 125 * b + d.toNat
      t3.tb.caldone = true ∧ t3.tb.calCw = none ∧ t3.tb.calCcw = none ∧
      (twice ≤ 0 → t3.tb.ringDelay = 0) ∧ (2 * 0xFFFFFF ≤ twice → t3.tb.ringDelay = 0xFFFFFF) ∧
      (0 ≤ twice → twice < 2 * 0xFFFFFF → 2 * (t3.tb.ringDelay.toNat : Int) ≤ twice ∧ twice < 2 * t3.tb.ringDelay.toNat + 2)) ∧
     { t3 with tb := { t3.tb with ringDelay := s.tb.ringDelay, caldone := s.tb.caldone, calCw := s.tb.calCw, calCcw := s.tb.calCcw } } = s ∧
     t4 = t3)

/-- MARK (R51, Table 2.2): with none held it is held, EARLY_MARK in a step and MARK_LATE when its time has passed (MARK in a
step says EARLY_MARK alone: log 18); with one held it is lost and the held one stands. ADMIT_TOKEN (R48): one for another slot
changes nothing; ADMIT = 1 sets ADMITTED; ADMIT = 0 clears it, writes RING_CTL.INSERT to 0 and closes the bypass, without an event.
The model's own choices in it: log 1, 18 and 97. -/
def Obligations.MarkAndAdmitTokens : Prop :=
  (∀ (m : MarkToken) (s : State), ∃ t, exec (.mark m) s = .next t ∧
     (s.tb.held.isSome = true → t.tb = s.tb ∧ t.bit pgTime 0x108 10 = true ∧ t.bit pgTime 0x010 2 = true) ∧
     (s.tb.held = none → ∃ h, t.tb = { s.tb with held := some h } ∧ h.mark = m ∧ h.arrival = s.clk ∧
       (t.bit pgTime 0x108 9 = true ↔ s.bit pgTime 0x108 9 = true ∨ s.tb.instep = true) ∧
       (t.bit pgTime 0x108 8 = true ↔ s.bit pgTime 0x108 8 = true ∨
         s.tb.timevalid = true ∧ s.tb.instep = false ∧ m.release.toNat ≤ s.tb.time.toNat)) ∧
     { wordsOf s t with tb := s.tb, router := s.router } = s ∧
     WordsKept s t (fun pg o => pg == pgTime && o == 0x108 || eventWord pgTime pg o)) ∧
  (∀ (slot : BitVec 6) (on : Bool) (s : State), ∃ t, exec (.admitToken slot on) s = .next t ∧
     (slot ≠ s.pins.slot → t = s) ∧
     (slot = s.pins.slot → t.tb = { s.tb with admitted := on } ∧
       (on = true → { t with tb := s.tb } = s) ∧
       (on = false → t.inRing = false ∧ t.pins = { s.pins with bypassOpen := false } ∧ t.bit pgRing 0x100 0 = false ∧
         { wordsOf s t with tb := s.tb, inRing := s.inRing, pins := s.pins } = s ∧
         WordsKept s t (fun pg o => pg == pgRing && o == 0x100))))

/-- STEP_RELEASE (R50, R51) with pod time valid, outside a step, at or after the held mark's RELEASE_TIME and later than its
receipt (and than the arrival, if it came early): index, start and period are latched, INSTEP set, the last arriver noted,
every arc counter cleared but for the increments of this nanosecond (R64), and for a stepping job every arc of the tables, a
ready shadow table put in first (R29), is ARMED. Tiles, memory and ports stay as they are. STEP_RELEASE while no mark is held,
or before its time, does nothing (R50, R51). ARRIVE (R49): once every arc of the active tables has completed, after the release
nanosecond, the module leaves the step; in the ring it queues one ARRIVE token with its slot and step index. While an arc of a
table is ARMED or FIRED, or a program that was no work item has been cut off by a fence (R89), it does not arrive.
The model's own choices in it: log 1, 17 and 19. -/
def Obligations.StepsAreReleasedAndArrive : Prop :=
  (∀ (h : Held) (s : State), s.tb.held = some h → s.tb.timevalid = true → s.tb.instep = false →
     h.mark.release.toNat ≤ s.tb.time.toNat → h.arrival < s.clk → (h.early = true → s.tb.arrivedNs < s.clk) →
     ∃ t, exec .stepRelease s = .next t ∧
       t.tb.stepIdx = h.mark.stepIndex ∧ t.tb.start = s.tb.time ∧ t.tb.period = s.reg64 pgTime 0x120 ∧ t.tb.instep = true ∧
       t.tb.held = none ∧ t.tb.time = s.tb.time ∧ t.tb.overtime = false ∧ t.tb.lastSlot = h.mark.lastSlot ∧
       t.tb.lastValid = h.mark.lastValid ∧
       (t.tb.lastSelf = true ↔ h.mark.lastValid = true ∧ h.mark.lastSlot = s.pins.slot) ∧
       (t.bit pgTime 0x108 11 = true ↔
         s.bit pgTime 0x108 11 = true ∨ s.tb.firstRel = false ∧ h.mark.stepIndex ≠ s.tb.stepIdx + 1) ∧
       (∀ u i, u ≤ 16 → arcTokOf t u i = mget 0 ((s.arcu u).incsNow s.clk) i) ∧
       (∀ u, u ≤ 16 → (t.arcu u).active =
         (if (s.arcu u).ready = true ∧ (s.arcu u).commitNs ≠ s.clk then (s.arcu u).shadow else (s.arcu u).active).map
           fun x => { x with st := if s.mjob.isSome then .armed else .idle, doneAng := 0, late := false }) ∧
       t.mem = s.mem ∧ t.tiles = s.tiles ∧ t.ports = s.ports ∧ t.mjob = s.mjob ∧ t.out = s.out ∧ t.pending = s.pending) ∧
  (∀ s : State, (∀ h, s.tb.held = some h → s.tb.time.toNat < h.mark.release.toNat ∨ s.tb.timevalid = false ∨ s.tb.instep = true) →
     exec .stepRelease s = .next s) ∧
  (∀ s : State, s.tb.instep = true → s.tb.relNs < s.clk → (s.inRing = true → s.ringCw.length < 8 ∧ s.ringWait = []) →
     (s.anyCut = false → (∀ u x, u ≤ 16 → x ∈ (s.arcu u).active → x.st = .done ∨ x.st = .idle) →
       exec .arrive s = .next { s with
         tb := { s.tb with instep := false, arrivedNs := s.clk }
         ringCw := s.ringCw ++ (if s.inRing then
           [[6, BitVec.ofNat 8 s.pins.slot.toNat, 0, 0] ++ toLE 4 s.tb.stepIdx.toNat] else []) }) ∧
     ((∃ u x, u ≤ 16 ∧ x ∈ (s.arcu u).active ∧ (x.st = .armed ∨ x.st = .fired)) ∨ s.anyCut = true → exec .arrive s = .next s))

/-- The step angle (R52, R54): exact floor of (t − S) × 65536 / P, held at 65,535; 0 when the period is 0. OVERTIME (R53): when
the angle first holds at 65,535, the bit is set and OVERTIME raised on each of the 17 arc pages; and with the latched period 0
it never is (R54). ARC_LATE (R61): the arcs that are not DONE at an angle that has reached their guard are late, each counted
once: an arc that is not done when the nanosecond that reaches its guard is over. The first late arc of a step in a table sets LATE and
STEP_LATE and LATE_IDX, the lowest when several become late together; nothing of the arcs' work changes (R62).
The model's own choices in it: log 1, 3 and 99. -/
def Obligations.AngleOvertimeAndLateArcs : Prop :=
  (∀ s : State, s.angle ≤ 65535 ∧ (s.tb.period = 0 → s.angle = 0) ∧
     (0 < s.tb.period →
       s.angle * s.tb.period ≤ (s.tb.time.toNat - s.tb.start.toNat) * 65536 ∧
       (s.angle < 65535 → (s.tb.time.toNat - s.tb.start.toNat) * 65536 < (s.angle + 1) * s.tb.period))) ∧
  (∀ s : State,
     (s.tb.period ≠ 0 → s.angle = 65535 → s.tb.overtime = false → ∃ t, exec .overtime s = .next t ∧
       t.tb = { s.tb with overtime := true } ∧ (∀ u, u ≤ 16 → t.bit (pgArc u) 0x010 1 = true) ∧
       { wordsOf s t with tb := s.tb, router := s.router } = s ∧
       WordsKept s t (fun pg o => decide (pgArc 0 ≤ pg) && decide (pg ≤ pgArc 16) && [0x010, 0x01C].contains o || evrWord pg o)) ∧
     (s.tb.period = 0 → exec .overtime s = .next s)) ∧
  (∀ (x : ArcEnt) (s : State), x.guard_ ≠ 0 → s.tb.period ≠ 0 → x.late = false → x.st = .armed ∨ x.st = .fired →
     (s.arcLateNow x = true ↔ x.guard_ ≤ s.tb.prevAng)) ∧
  (∀ (u i : Nat) (x : ArcEnt) (s : State), (s.arcu u).active[i]? = some x → i < 256 → s.arcLateNow x = true →
     (∀ j y, j < i → (s.arcu u).active[j]? = some y → s.arcLateNow y = false) →
     ∃ t, exec (.arcLate u) s = .next t ∧
       (t.reg (pgArc u) 0x11C).toNat =
         min (2 ^ 32 - 1) ((s.reg (pgArc u) 0x11C).toNat + ((s.arcu u).active.filter s.arcLateNow).length) ∧
       ((s.arcu u).lateSeen = false → t.fld (pgArc u) 0x110 31 24 = i ∧ t.bit (pgArc u) 0x110 5 = true ∧
         t.bit (pgArc u) 0x010 0 = true) ∧
       ((s.arcu u).lateSeen = true → t.reg (pgArc u) 0x110 = s.reg (pgArc u) 0x110) ∧
       (t.arcu u).lateSeen = true ∧
       (t.arcu u).active = (s.arcu u).active.map (fun y => { y with late := y.late || s.arcLateNow y }) ∧
       (∀ y ∈ (t.arcu u).active, t.arcLateNow y = false) ∧
       (∀ v, v ≠ u → t.arcu v = s.arcu v) ∧ { wordsOf s t with arcs := s.arcs, router := s.router } = s ∧
       WordsKept s t (fun pg o => pg == pgArc u && (o == 0x110 || o == 0x11C) || pg == pgCs && o == 0x104 ||
         eventWord (pgArc u) pg o || eventWord pgCs pg o))

/-- ARC_COMMIT (R57): COMMIT = 1 starts copying COUNT entries from ARC_SRC in place of any copy before it and clears READY; the
active table stays. ARC_LOAD_DONE (R57): an image in the near tier of at most 256 entries (64 in the module's table), none of
which fails its checks, becomes the shadow table, READY; the active table stays and so does every other unit's. ARC_LOAD_DONE
(R57): the first entry that fails its checks, or an image that is too long (ERR_CODE 1) or not in the near tier (2), leaves
READY clear, is named in ERR_IDX and ERR_CODE, and sets COMMIT_ERR; the active table stays.
The model's own choices in it: log 1, 20 and 21. -/
def Obligations.ArcTablesCommit : Prop :=
  (∀ (u : Nat) (w : W32) (s : State), u ≤ 16 → s.pageBusy (pgArc u) = false → ∃ t, exec (.arcCommit u w) s = .next t ∧
     t.reg (pgArc u) 0x100 = w &&& 0x01FF0000 ∧
     (w.getLsbD 0 = true → (t.arcu u).loading = some (s.reg64 (pgArc u) 0x108, bits w.toNat 24 16) ∧ (t.arcu u).ready = false) ∧
     (w.getLsbD 0 = false → t.arcs = s.arcs) ∧
     (t.arcu u).active = (s.arcu u).active ∧ (t.arcu u).toks = (s.arcu u).toks ∧ (∀ v, v ≠ u → t.arcu v = s.arcu v) ∧
     { wordsOf s t with arcs := s.arcs } = s ∧ WordsKept s t (fun pg o => pg == pgArc u && o == 0x100)) ∧
  (∀ (u a n : Nat) (bs : List (PVal Byte)) (xs : List ArcEnt) (s : State), (s.arcu u).loading = some (a, n) →
     n ≤ (if u = 16 then 64 else 256) → (n = 0 ∨ inNear a (32 * n) = true) → s.load .unit a (32 * n) = some bs →
     xs.length = n → (∀ i, i < n → arcEntOf ((bs.drop (32 * i)).take 32) = xs[i]?) → (∀ x ∈ xs, x.check u = 0) →
     ∃ t, exec (.arcLoadDone u) s = .next t ∧
       t.arcu u = { s.arcu u with loading := none, shadow := xs, ready := true } ∧ (∀ v, v ≠ u → t.arcu v = s.arcu v) ∧
       { t with arcs := s.arcs } = s) ∧
  (∀ (u a n i code : Nat) (s : State), (s.arcu u).loading = some (a, n) →
     ((if u = 16 then 64 else 256) < n ∧ i = 0 ∧ code = 1 ∨
       n ≤ (if u = 16 then 64 else 256) ∧ n ≠ 0 ∧ inNear a (32 * n) = false ∧ i = 0 ∧ code = 2 ∨
       n ≤ (if u = 16 then 64 else 256) ∧ inNear a (32 * n) = true ∧ i < n ∧ (∃ bs, s.load .unit a (32 * n) = some bs ∧
         (∀ j, j < i → ∃ x, arcEntOf ((bs.drop (32 * j)).take 32) = some x ∧ x.check u = 0) ∧
         (arcEntOf ((bs.drop (32 * i)).take 32) = none ∧ code = 7 ∨
           ∃ x, arcEntOf ((bs.drop (32 * i)).take 32) = some x ∧ x.check u = code ∧ code ≠ 0))) →
     ∃ t, exec (.arcLoadDone u) s = .next t ∧ (t.arcu u).ready = false ∧ (t.arcu u).loading = none ∧
       (t.arcu u).active = (s.arcu u).active ∧ t.fld (pgArc u) 0x110 15 8 = i ∧ t.fld (pgArc u) 0x110 19 16 = code ∧
       t.bit (pgArc u) 0x110 4 = true ∧ t.bit (pgArc u) 0x010 2 = true ∧ (∀ v, v ≠ u → t.arcu v = s.arcu v) ∧
       { wordsOf s t with arcs := s.arcs, router := s.router } = s ∧
       WordsKept s t (fun pg o => pg == pgArc u && o == 0x110 || eventWord (pgArc u) pg o))

/-- ARC_NOP (R56, R60): complete in the firing nanosecond; its DONE_IDX rises when DONE_EN says so, and nothing else moves.
ARC_SIGNAL_MODULE and ARC_SIGNAL_PART (R56, R58): the counter that ARG names rises by 1 in the module table, or in the table of
every partition whose TARGET bit is set, and the arc is DONE. ARC_TOKEN (R56, R78): counter ARG[5:0] of every targeted logical
tile below the partition's count rises by 1 modulo 2^32, no other token counter moves, and the arc is DONE.
The model's own choices in it: log 1 and 19. -/
def Obligations.NopSignalAndTokenArcs : Prop :=
  (∀ (u e : Nat) (x : ArcEnt) (s : State), ArcCanFire s u e 0 x → ∃ t, exec (.arcNop u e) s = .next t ∧
     ArcMoved s t u e .done ∧ { t with arcs := s.arcs } = s ∧
     ∀ v i, arcTokOf t v i = arcTokOf s v i + (if v = u ∧ arcSignals x i = true then 1 else 0)) ∧
  (∀ (u e : Nat) (x : ArcEnt) (s : State),
     (ArcCanFire s u e 9 x → ∃ t, exec (.arcSignalModule u e) s = .next t ∧ ArcMoved s t u e .done ∧
       { t with arcs := s.arcs } = s ∧
       ∀ v i, arcTokOf t v i = arcTokOf s v i + (if v = 16 ∧ i = bits x.arg 5 0 then 1 else 0) +
         (if v = u ∧ arcSignals x i = true then 1 else 0)) ∧
     (ArcCanFire s u e 10 x → ∃ t, exec (.arcSignalPart u e) s = .next t ∧ ArcMoved s t u e .done ∧
       { t with arcs := s.arcs } = s ∧
       ∀ v i, arcTokOf t v i = arcTokOf s v i +
         (if v < 16 ∧ x.target.testBit v = true ∧ i = bits x.arg 5 0 then 1 else 0) +
         (if v = u ∧ arcSignals x i = true then 1 else 0))) ∧
  (∀ (u e : Nat) (x : ArcEnt) (s : State), ArcCanFire s u e 1 x → ∃ t, exec (.arcToken u e) s = .next t ∧
     ArcMoved s t u e .done ∧ { wordsOf s t with arcs := s.arcs, router := s.router } = s ∧
     (∀ v i, arcTokOf t v i = arcTokOf s v i + (if v = u ∧ arcSignals x i = true then 1 else 0)) ∧
     (∀ k i, i < 64 → tileTokOf t k i = tileTokOf s k i +
       (if i = bits x.arg 5 0 then BitVec.ofNat 32 ((s.targets u x.target).count k) else 0)) ∧
     WordsKept s t (fun pg o => (s.targets u x.target).any (fun k => pg == pgTile k) &&
       (o == 0x200 + 4 * bits x.arg 5 0 || [0x010, 0x01C, 0x108].contains o) || evrWord pg o))

/-- ARC_COPY and the completions that its engine, an audit or a collective reports (R60, R324, R347, R401): a COPY arc is posted
at its engine; an idle engine takes it: a local copy moves the bytes at once, a remote one starts its packets or requests, a bad
descriptor fails; ARC_COMPLETE then makes the arc DONE, with a record when it failed.
The model's own choices in it: log 1, 45, 88 and 95. -/
def Obligations.CopyArcsAreCarriedOutAndReported : Prop :=
  ∀ (u e : Nat) (x : ArcEnt) (s : State),
    (ArcCanFire s u e 2 x →
      let waiting := mget [] s.copies u
      let queued : CopyJob := ⟨e, x.w3, false, 0, false, false, []⟩
      (∀ c r, waiting = c :: r → c.started = true → ∃ t, exec (.arcCopy u e) s = .next t ∧ ArcPosted s t u e ∧
        mget [] t.copies u = waiting ++ [queued] ∧ { t with arcs := s.arcs, copies := s.copies } = s) ∧
      (∀ b, waiting = [] → NoErrors s → x.w3.toNat % 64 = 0 → (s.loadX .unit x.w3 64).bind allSome = some b →
        let kind := field b 0 1
        let fl := field b 1 1
        let n := field b 24 8
        let shape := kind ≤ 2 ∧ (fl = 0 ∨ fl = 1 ∧ kind = 2) ∧ allZero (slice_ b 2 6) = true ∧ n < 2 ^ 48 ∧ field b 32 3 < 2 ^ 20 ∧
          allZero (b.drop 35) = true
        (¬ shape → ∃ t, exec (.arcCopy u e) s = .next t ∧ ArcPosted s t u e ∧ t.mem = s.mem ∧
          mget [] t.copies u = [{ queued with started := true, finished := true, failed := true }]) ∧
        (shape → kind = 0 → n = 0 → ∃ t, exec (.arcCopy u e) s = .next t ∧ ArcPosted s t u e ∧
          mget [] t.copies u = [{ queued with started := true, finished := true }] ∧ { t with arcs := s.arcs, copies := s.copies } = s) ∧
        (∀ bs d, shape → kind = 0 → n ≠ 0 → s.loadX .unit (w64At b 8) n = some bs →
          s.xlateParts (w64At b 16) n = some [(d, n)] →
          (∃ v, s.store .unit d bs = .ok v) → ∃ t, exec (.arcCopy u e) s = .next t ∧ ArcPosted s t u e ∧
            (none ∉ bs → t.mem.rd d n = bs ∧ ∀ y, y < d ∨ d + n ≤ y → t.mem.at_ y = s.mem.at_ y) ∧
            mget [] t.copies u = [{ queued with started := true, finished := true }] ∧
            { t with arcs := s.arcs, copies := s.copies, mem := s.mem, cs := s.cs } = s) ∧
        (∀ c, shape → kind = 1 ∨ kind = 2 ∧ fl = 0 → n ≠ 0 → s.sendCtx (field b 32 3) = some c → Routed s c → AllSent s →
          (∃ w o, remoteOf (w64At b (if kind = 1 then 16 else 8)) = some (w, o)) →
          (kind = 1 → ∃ bs, (s.loadX .unit (w64At b 8) n).bind allSome = some bs) →
          (kind = 2 → inAperture (w64At b 16).toNat = false) → ∃ t j, exec (.arcCopy u e) s = .next t ∧ ArcPosted s t u e ∧
            t.mem = s.mem ∧ mget [] t.copies u = [j] ∧ j.entry = e ∧
            j.started = true ∧ j.failed = false))) ∧
    ((s.arcu u).active[e]? = some x → x.st = .fired →
      (∀ c r, mget [] s.copies u = c :: r → c.entry = e → c.started = true → (∀ y ∈ r, y.started = true) → (u < 16 → (s.part u).audit = []) →
        (u = 16 → ∀ y ∈ s.colls, y.entry ≠ e) →
        (c.finished = false → exec (.arcComplete u e) s = .next s) ∧
        (c.finished = true → ∃ t, exec (.arcComplete u e) s = .next t ∧ ArcDone s t u e x ∧ mget [] t.copies u = r ∧ t.mem = s.mem ∧
          (c.failed = true → Reported s t (pgArc u) ⟨0xFFFF, 3, 0, 1, 0, 0, 1⟩) ∧
          (c.failed = false → { t with arcs := s.arcs, copies := s.copies } = s))) ∧
      (∀ k c f m, u < 16 → mget [] s.copies u = [] → (s.part u).audit = [⟨e, k, c, m⟩] → s.ptile u k = some f → f < 1152 → c < 72 →
        f / 72 = u → (s.unit f).st = .active → (s.unit (u * 72 + c)).st = .spare → Memory.wf s = true →
        let g := u * 72 + c
        let idle := (s.tile f).seq = .idle ∧ (s.tile f).queues = [] ∧ (s.tile f).loading = none
        let due := if bits x.w0.toNat 31 16 = 0 then s.tb.overtime = true else s.guardReached (bits x.w0.toNat 31 16) = true
        (idle → m = false → ∃ t, exec (.arcComplete u e) s = .next t ∧ (t.part u).audit = [⟨e, k, c, true⟩] ∧
          { t with parts := s.parts } = s) ∧
        (idle → m = true → ∃ t, exec (.arcComplete u e) s = .next t ∧ ArcDone s t u e x ∧ (t.part u).audit = [] ∧
          (∀ o, o < 0x180000 → t.mem.at_ (tstoreOf g + o) = s.mem.at_ (tstoreOf f + o)) ∧
          (∀ i, i < 64 → tileTokOf t g i = tileTokOf s f i) ∧ t.unit g = ⟨.active, some k⟩ ∧ t.unit f = ⟨.audit, none⟩ ∧
          (t.part u).tmap = (s.part u).tmap.set k c) ∧
        (¬ idle → due → ∃ t, exec (.arcComplete u e) s = .next t ∧ ArcDone s t u e x ∧ (t.part u).audit = [] ∧
          t.bit pgFault 0x100 4 = true ∧ t.ust = s.ust ∧ t.mem = s.mem) ∧
        (¬ idle → ¬ due → exec (.arcComplete u e) s = .next s))) ∧
    (∀ c, c.entry = e → RunsColl s c x → c.finished s.me = true → mget [] s.copies 16 = [] →
      ∃ t, exec (.arcComplete 16 e) s = .next t ∧ CollDone s t c x)

/-- TILE_RUN (R72, R70, R71, R88, R96): from IDLE the program starts at TILE_ENTRY; from STOPPED it resumes at its program counter;
during an image load, after a fetch error, while the tile is withheld, in a partition that takes no work (R18), and after a dispatch of
the same nanosecond it is refused, RUN_REFUSED saying so; else in RUN and WAIT it changes nothing; an image load begun in its own
nanosecond gives way to it, with IMEM_ERR. TILE_STOP and TILE_TOKCLR (R72, R80, R190): RUN or WAIT becomes STOPPED and STOPPED is raised,
any other state stays, and a word rejected in the same nanosecond is the one it stops at, its error applied; all 64 token counters hold
what rose in this nanosecond. What has been issued stays in the queues. VEC_REGCLR and ARR_DIGCLR (R149, R140, R145): the vector, mask
and count registers read zero without poison; the running digest, its count and its poison mark read zero, or hold the one output fed
in this nanosecond. Nothing else changes. The model's own choices in it: log 1, 13, 37 and 96. -/
def Obligations.TilesRunStopAndClear : Prop :=
  (∀ (k : Nat) (s : State), k < 1152 → s.pageBusy (pgTile k) = false → ∃ t, exec (.tileRun k) s = .next t ∧
     ((s.tile k).loading.isSome = true ∧ (s.tile k).loadAt ≠ s.clk + 1 ∨ (s.tile k).loading = none ∧
         ((s.tile k).seq = .stopped ∧ (s.tile k).fetchStop = true ∨
          (s.tile k).seq = .idle ∧ (s.withheld k = true ∨ s.takesWork (k / 72) = false) ∨
          (s.tile k).seq = .run ∧ (s.tile k).dispAt = s.clk + 1) →
       t.bit (pgTile k) 0x108 12 = true ∧ wordsOf s t = s ∧
         WordsKept s t (fun pg o => pg == pgTile k && o == 0x108)) ∧
     ((s.tile k).seq = .idle → s.withheld k = false → s.takesWork (k / 72) = true → s.tileOn k = true →
       ((s.tile k).loading = none → (t.tile k).seq = .run ∧ (t.tile k).pc = bits (s.reg (pgTile k) 0x110).toNat 12 0 ∧
         (t.tile k).item = none ∧ (t.tile k).ars = (s.tile k).ars ∧ (∀ j, j ≠ k → t.tile j = s.tile j) ∧
         { t with tiles := s.tiles } = s) ∧
       ((s.tile k).loading.isSome = true → (s.tile k).loadAt = s.clk + 1 → (t.tile k).seq = .run ∧ (t.tile k).loading = none ∧
         t.bit (pgTile k) 0x108 10 = true ∧ t.bit (pgTile k) 0x010 2 = true ∧
         { wordsOf s t with tiles := s.tiles, router := s.router } = s)) ∧
     ((s.tile k).loading = none → (s.tile k).seq = .stopped → (s.tile k).fetchStop = false → (s.tile k).ended = none →
       t.tile k = { s.tile k with seq := .run } ∧ (∀ j, j ≠ k → t.tile j = s.tile j) ∧ { t with tiles := s.tiles } = s) ∧
     ((s.tile k).loading = none → (s.tile k).seq = .run ∧ (s.tile k).dispAt ≠ s.clk + 1 ∨ (s.tile k).seq = .wait → t = s)) ∧
  (∀ (k : Nat) (s : State), k < 1152 → s.pageBusy (pgTile k) = false →
     (∃ t, exec (.tileStop k) s = .next t ∧
       ((s.tile k).rejAt ≠ s.clk + 1 → s.headRejected k = none →
         ((s.tile k).seq = .run ∨ (s.tile k).seq = .wait →
           t.tile k = { s.tile k with seq := .stopped } ∧ t.bit (pgTile k) 0x010 4 = true ∧ (∀ j, j ≠ k → t.tile j = s.tile j) ∧
           { wordsOf s t with tiles := s.tiles, router := s.router } = s ∧ WordsKept s t (eventWord (pgTile k))) ∧
         ((s.tile k).seq ≠ .run → (s.tile k).seq ≠ .wait → t = s)) ∧
       ((s.tile k).rejAt ≠ s.clk + 1 → ∀ w n, s.headRejected k = some (w, n) →
         (t.tile k).seq = .stopped ∧ (t.tile k).pc = (s.tile k).pc ∧ t.bit (pgTile k) 0x108 8 = true)) ∧
     (∃ t, exec (.tileTokclr k) s = .next t ∧
       (∀ i, i < 64 → tileTokOf t k i = BitVec.ofNat 32 (s.cntNow (pgTile k) (0x200 + 4 * i))) ∧ { t with regs := s.regs } = s ∧
       WordsKept s t (fun pg o => pg == pgTile k && decide (0x200 ≤ o) && decide (o < 0x300)))) ∧
  (∀ (k : Nat) (s : State), k < 1152 → s.pageBusy (pgTile k) = false →
     (∃ t, exec (.vecRegclr k) s = .next t ∧
       t.tile k = { s.tile k with vr := Store.empty, msk := [], mskPois := [], vcnt := [], vcntPois := [] } ∧
       (∀ j, j ≠ k → t.tile j = s.tile j) ∧ { t with tiles := s.tiles } = s) ∧
     (∃ t, exec (.arrDigclr k) s = .next t ∧
       ((s.tile k).fed.1 ≠ s.clk + 1 → t.tile k = { s.tile k with digPois := false } ∧
         t.reg64 (pgTile k) 0x1B0 = 0 ∧ t.reg (pgTile k) 0x1B8 = 0) ∧
       ((s.tile k).fed.1 = s.clk + 1 → t.tile k = { s.tile k with digPois := (s.tile k).fed.2.2 } ∧
         t.reg64 (pgTile k) 0x1B0 = (s.tile k).fed.2.1 % 2 ^ 64 ∧ t.reg (pgTile k) 0x1B8 = 1) ∧
       (∀ j, j ≠ k → t.tile j = s.tile j) ∧ { t with tiles := s.tiles, regs := s.regs } = s ∧
       WordsKept s t (fun pg o => pg == pgTile k && [0x1B0, 0x1B4, 0x1B8].contains o)))

/-- TILE_IMGLOAD (R71): a load of 1 to 8192 words that lie in the metadata region of the tile's own partition starts in IDLE or
STOPPED, and one of no words changes nothing; in RUN or WAIT, of more words, from elsewhere, or during an earlier load, it is
refused with IMEM_ERR and the earlier load goes on. TILE_IMGLOAD_DONE (R71): word `i` of instruction memory, for `i` below the
image's length, holds word `i` of the image, as poison when a byte of it is, and then IMEM_ERR is set; every byte of memory
outside those words stays. The model's own choices in it: log 1 and 36. -/
def Obligations.TileImagesLoad : Prop :=
  (∀ (k a n : Nat) (s : State), k < 1152 → s.pageBusy (pgTile k) = false → s.tileOn k = true →
     a = s.reg64 (pgTile k) 0x118 → n = bits (s.reg (pgTile k) 0x120).toNat 13 0 → ∃ t, exec (.tileImgload k) s = .next t ∧
     (((s.tile k).seq = .idle ∨ (s.tile k).seq = .stopped) → n ≤ 8192 → metaOf (k / 72) ≤ a →
         a + 8 * n ≤ metaOf (k / 72) + 0x4000000 → (s.tile k).loading = none →
       (n ≠ 0 → t.tile k = { s.tile k with loading := some (a, n), loadAt := s.clk + 1 } ∧ (∀ j, j ≠ k → t.tile j = s.tile j) ∧
         { t with tiles := s.tiles } = s) ∧ (n = 0 → t = s)) ∧
     ((s.tile k).seq = .run ∨ (s.tile k).seq = .wait ∨ 8192 < n ∨
         n ≠ 0 ∧ (a < metaOf (k / 72) ∨ metaOf (k / 72) + 0x4000000 < a + 8 * n) ∨ (s.tile k).loading.isSome = true →
       t.bit (pgTile k) 0x108 10 = true ∧ t.bit (pgTile k) 0x010 2 = true ∧
         { wordsOf s t with router := s.router } = s ∧
         WordsKept s t (fun pg o => pg == pgTile k && o == 0x108 || eventWord (pgTile k) pg o))) ∧
  (∀ (k a n : Nat) (s : State), (s.tile k).loading = some (a, n) → s.accessOk .unit a (8 * n) = true →
     ∃ t, exec (.tileImgloadDone k) s = .next t ∧ (t.tile k).loading = none ∧
       (∀ i j, i < n → j < 8 → t.mem.at_ (imemOf k + 8 * i + j) =
         if (∃ b, b < 8 ∧ s.mem.at_ (a + 8 * i + b) = none) then none else s.mem.at_ (a + 8 * i + j)) ∧
       (∀ x, x < imemOf k ∨ imemOf k + 8 * n ≤ x → t.mem.at_ x = s.mem.at_ x) ∧
       ((∃ i, i < 8 * n ∧ s.mem.at_ (a + i) = none) → t.bit (pgTile k) 0x108 10 = true ∧ t.bit (pgTile k) 0x010 2 = true) ∧
       ((∀ i, i < 8 * n → s.mem.at_ (a + i) ≠ none) → t.regs = s.regs) ∧
       (∀ j, j ≠ k → t.tile j = s.tile j))

/-- NOP, JMP and WAITTOK (R175) on a tile about to issue one: NOP and a WAITTOK whose counter has reached COUNT go on to the
next instruction, JMP goes to TARGET, and the signal is applied; a WAITTOK below COUNT waits and changes nothing else. QWAIT and
END (R175, R170, R72): QWAIT goes on once no earlier program-issued instruction is left in the queues of MASK; END of a program
with all of its instructions retired leaves the tile IDLE and applies its signal; with one not retired, issue only stops. LOOP,
BRZ and BRNZ (R175, R176) with a register that holds no poison: LOOP with AR[R] at most 1 sets it to 0 and falls through, else
it takes 1 off and goes to TARGET; BRZ and BRNZ go to TARGET when AR[R] is zero, or is not, and else fall through. LOOP, BRZ and
BRNZ on a poisoned register (R172): an error completion; the register stays and the branch is not taken.
The model's own choices in it: log 1 and 6. -/
def Obligations.SequencerInstructionsRun : Prop :=
  (∀ (k w e1 e2 n : Nat) (s : State), Issues s k w e1 e2 n →
     (wMajor w = 0x00 → ∃ t, exec (.nop k) s = .next t ∧ SeqRan s t k w (tilePast (s.tile k) 0)) ∧
     (wMajor w = 0x04 → ∃ t, exec (.jmp k) s = .next t ∧
       SeqRan s t k w { tilePast (s.tile k) 0 with pc := bits w 12 0 }) ∧
     (wMajor w = 0x02 → bits w 31 0 ≤ s.tokSeen k (bits w 37 32) → ∃ t, exec (.waittok k) s = .next t ∧
       SeqRan s t k w (tilePast (s.tile k) 0)) ∧
     (wMajor w = 0x02 → s.tokSeen k (bits w 37 32) < bits w 31 0 →
       exec (.waittok k) s = .next (s.setTile k { s.tile k with seq := .wait }))) ∧
  (∀ (k w e1 e2 n : Nat) (s : State), Issues s k w e1 e2 n →
     (wMajor w = 0x03 → (s.tile k).busy (bits w 3 0) = false → ∃ t, exec (.qwait k) s = .next t ∧
       SeqRan s t k w (tilePast (s.tile k) 0)) ∧
     (wMajor w = 0x03 → (s.tile k).busy (bits w 3 0) = true →
       exec (.qwait k) s = .next (s.setTile k { s.tile k with seq := .wait })) ∧
     (wMajor w = 0x01 → (s.tile k).busy 15 = false → (s.tile k).item = none → w < 2 ^ 64 → ∃ t, exec (.endI k) s = .next t ∧
       SeqRan s t k w { tilePast (s.tile k) 0 with seq := .idle, ended := none, itemErr := false }) ∧
     (wMajor w = 0x01 → (s.tile k).busy 15 = true → ∃ t, exec (.endI k) s = .next t ∧
       t = s.setTile k { tilePast (s.tile k) 0 with ended := some (BitVec.ofNat 64 w) })) ∧
  (∀ (k w e1 e2 n : Nat) (v : W64) (s : State), Issues s k w e1 e2 n → (s.tile k).ar (bits w 37 34) = some v →
     (wMajor w = 0x05 → v.toNat ≤ 1 → ∃ t, exec (.loop k) s = .next t ∧
       SeqRan s t k w ((tilePast (s.tile k) 0).setAr (bits w 37 34) (some 0))) ∧
     (wMajor w = 0x05 → 1 < v.toNat → ∃ t, exec (.loop k) s = .next t ∧
       SeqRan s t k w { (tilePast (s.tile k) 0).setAr (bits w 37 34) (some (v - 1)) with pc := bits w 12 0 }) ∧
     (wMajor w = 0x06 → ∃ t, exec (.brz k) s = .next t ∧
       SeqRan s t k w (if v = 0 then { tilePast (s.tile k) 0 with pc := bits w 12 0 } else tilePast (s.tile k) 0)) ∧
     (wMajor w = 0x07 → ∃ t, exec (.brnz k) s = .next t ∧
       SeqRan s t k w (if v ≠ 0 then { tilePast (s.tile k) 0 with pc := bits w 12 0 } else tilePast (s.tile k) 0))) ∧
  (∀ (k w e1 e2 n : Nat) (c : Instr) (s : State), Issues s k w e1 e2 n → (s.tile k).ar (bits w 37 34) = none →
     (wMajor w = 0x05 ∧ c = .loop k ∨ wMajor w = 0x06 ∧ c = .brz k ∨ wMajor w = 0x07 ∧ c = .brnz k) →
     ∃ t, exec c s = .next t ∧ t.bit (pgTile k) 0x108 8 = true ∧ t.bit (pgTile k) 0x010 0 = true ∧
       (t.tile k).pc = (s.tile k).pc + 1 ∧ (t.tile k).ars = (s.tile k).ars ∧ t.mem = s.mem ∧
       Signalled { s with tiles := t.tiles } t k w)

/-- BSET, BADDI, BMULI and BALU (R175): AR[D] is the extension word, or the sum, product or function of Table 7.4 modulo 2^64,
poison when a source is (R172); every other register keeps its value. BLD, BST and BGETC (R177) once the queues that they wait
for are empty of the program's instructions: AR[D] takes the 8 bytes at an 8-byte aligned offset below 0x18_0000, the 8 bytes
take AR[S], poison as poison, and AR[D] takes VCNTc; no other byte of memory changes. The model's own choices in it: log 1 and 38. -/
def Obligations.AddressRegisterInstructionsRun : Prop :=
  (∀ (k w e1 e2 n : Nat) (s : State), Issues s k w e1 e2 n →
     (wMajor w = 0x08 → ∃ t, exec (.bset k) s = .next t ∧
       SeqRan s t k w ((tilePast (s.tile k) n).setAr (bits w 37 34) (some (BitVec.ofNat 64 e1)))) ∧
     (wMajor w = 0x09 → ∃ t, exec (.baddi k) s = .next t ∧
       SeqRan s t k w ((tilePast (s.tile k) 0).setAr (bits w 37 34)
         (((s.tile k).ar (bits w 33 30)).map fun v => v + (BitVec.ofNat 30 w).signExtend 64))) ∧
     (wMajor w = 0x0A → ∃ t, exec (.bmuli k) s = .next t ∧
       SeqRan s t k w ((tilePast (s.tile k) 0).setAr (bits w 37 34)
         (((s.tile k).ar (bits w 33 30)).map fun v => v * (BitVec.ofNat 30 w).signExtend 64))) ∧
     (wMajor w = 0x0B → ∀ u v, (s.tile k).ar (bits w 33 30) = some u → (s.tile k).ar (bits w 29 26) = some v →
       ∃ r t, exec (.balu k) s = .next t ∧
         SeqRan s t k w ((tilePast (s.tile k) 0).setAr (bits w 37 34) (some r)) ∧
         (bits w 25 23 = 0 → r = u + v) ∧ (bits w 25 23 = 1 → r = u - v) ∧ (bits w 25 23 = 2 → r = u * v) ∧
         (bits w 25 23 = 3 → r = u <<< (v.toNat % 64)) ∧ (bits w 25 23 = 4 → r = u >>> (v.toNat % 64)) ∧
         (bits w 25 23 = 5 → r = u &&& v) ∧ (bits w 25 23 = 6 → r.toNat = min u.toNat v.toNat))) ∧
  (∀ (k w e1 e2 n : Nat) (s : State), Issues s k w e1 e2 n →
     (wMajor w = 0x0C → (s.tile k).busy 15 = false → ∀ o : W64, (s.tile k).ar (bits w 33 30) = some o → o.toNat % 8 = 0 →
       o.toNat < 0x180000 → ∃ t, exec (.bld k) s = .next t ∧
       SeqRan s t k w ((tilePast (s.tile k) 0).setAr (bits w 37 34)
         ((s.mem.num (tstoreOf k + o.toNat) 8).map (BitVec.ofNat 64)))) ∧
     (wMajor w = 0x0D → (s.tile k).busy 15 = false → ∀ o : W64, (s.tile k).ar (bits w 33 30) = some o → o.toNat % 8 = 0 →
       o.toNat < 0x180000 → ∃ t, exec (.bst k) s = .next t ∧
       SeqRan { s with mem := t.mem } t k w (tilePast (s.tile k) 0) ∧
       (∀ i, i < 8 → t.mem.at_ (tstoreOf k + o.toNat + i) =
         ((s.tile k).ar (bits w 37 34)).map fun v => BitVec.ofNat 8 (v.toNat / 256 ^ i)) ∧
       (∀ x, x < tstoreOf k + o.toNat ∨ tstoreOf k + o.toNat + 8 ≤ x → t.mem.at_ x = s.mem.at_ x)) ∧
     (wMajor w = 0x0E → (s.tile k).busy 2 = false → ∃ t, exec (.bgetc k) s = .next t ∧
       SeqRan s t k w ((tilePast (s.tile k) 0).setAr (bits w 37 34)
         (((s.tile k).cnt (bits w 2 0)).map (BitVec.ofNat 64)))))

/-- The issue of every engine instruction (R73, R75, R172), for each row of Table 7.3 that names an engine queue: with a credit
left it enters its queue behind the others with the address registers read now, and issue goes on past its words; with none it
waits; a posting that is ready for the queue goes first when the program issued last (R74). No result is written, no signal
applied. A malformed word (R171) at the program counter of a running tile: NOP's command, as that of its own row, completes it
with an error response; it enters no engine queue and writes no register, its signal is applied, and the error record names
class PROTOCOL, its address and its MAJOR.
The model's own choices in it: log 1, 30 and 31. -/
def Obligations.EngineInstructionsEnterTheirQueues : Prop :=
  (∀ (k w e1 e2 n q : Nat) (c : Nat → Phase → Instr) (s : State), Issues s k w e1 e2 n → engineRow w = some c →
     queueOf (wMajor w) = some q →
     (((s.tile k).queue q).length < queueDepth q → s.yields k q = false → ∃ t e, exec (c k .issue) s = .next t ∧
       (t.tile k).queue q = (s.tile k).queue q ++ [e] ∧ e.word = BitVec.ofNat 64 w ∧ e.ext1 = BitVec.ofNat 64 e1 ∧
       e.ext2 = BitVec.ofNat 64 e2 ∧ e.ops = (s.tile k).ars ∧ e.posted = false ∧ e.st = .queued ∧ e.err = none ∧
       e.pc = (s.tile k).pc ∧ e.inItem = (s.tile k).item.isSome ∧
       (∀ r, r < 4 → r ≠ q → (t.tile k).queue r = (s.tile k).queue r) ∧ (t.tile k).ars = (s.tile k).ars ∧
       (t.tile k).pc = (s.tile k).pc + 1 + n ∧ (t.tile k).seq = .run ∧ (∀ j, j ≠ k → t.tile j = s.tile j) ∧
       { t with tiles := s.tiles } = s) ∧
     (((s.tile k).queue q).length < queueDepth q → s.yields k q = true → exec (c k .issue) s = .next s) ∧
     (queueDepth q ≤ ((s.tile k).queue q).length →
       exec (c k .issue) s = .next (s.setTile k { s.tile k with seq := .wait }))) ∧
  (∀ (k w e1 e2 n : Nat) (s : State), k < 1152 → s.tileOn k = true → ((s.tile k).seq = .run ∨ (s.tile k).seq = .wait) →
     (s.tile k).ended = none → s.pageBusy (pgTile k) = false → s.fetch k = .words w e1 e2 n → wordOk w e1 e2 = false →
     wWcnt w ≤ s.tokSeen k (wWidx w) → s.bit (pgTile k) 0x104 4 = false → ∃ t b, exec (.nop k) s = .next t ∧
       t.bit (pgTile k) 0x108 8 = true ∧ t.bit (pgTile k) 0x010 0 = true ∧
       mget [] t.err (pgTile k) = b ∧ field b 4 1 = 3 ∧ field b 6 2 = wMajor w ∧ field b 14 2 = (s.tile k).pc % 65536 ∧
       (∀ q, q < 4 → (t.tile k).queue q = (s.tile k).queue q) ∧ (t.tile k).ars = (s.tile k).ars ∧
       (t.tile k).pc = (s.tile k).pc + 1 + n ∧ t.mem = s.mem ∧ Signalled { s with tiles := t.tiles } t k w)

/-- INSTR_RETIRE (R76, R77, R78, R139) of a finished entry of a program or item that has not ended, not of a counted source of
variance: the entry leaves its queue, which returns its credit, and its signal is applied; without an error its flags join
TILE_FPFLAGS, and an output that DIG asks for is fed to the digest (R139); with one, ERR is set with a record. The matrix,
vector and solver queues retire their oldest entry, the copy queue any. INSTR_RETIRE of the last program-issued instruction
after END (R72, R170): the program is over and the tile IDLE; END's signal is applied with the instruction's own.
The model's own choices in it: log 1. -/
def Obligations.InstructionsRetire : Prop :=
  (∀ (k q i : Nat) (e : QEntry) (s : State), k < 1152 → q < 4 → s.pageBusy (pgTile k) = false →
     ((s.tile k).queue q)[i]? = some e → e.st = .finished → (q = 3 ∨ i = 0) → (s.tile k).ended = none → e.var = 0 →
     ∃ t, exec (.instrRetire k q i) s = .next t ∧ t.mem = s.mem ∧
       (t.tile k).queue q = ((s.tile k).queue q).filter (fun y => y.id != e.id) ∧
       (∀ r, r < 4 → r ≠ q → (t.tile k).queue r = (s.tile k).queue r) ∧
       (e.feed = none → e.err = none → SeqRan (s.orReg (pgTile k) 0x180 e.flags) t k e.word.toNat
         ((s.tile k).setQueue q (((s.tile k).queue q).filter fun y => y.id != e.id))) ∧
       (∀ f, e.feed = some f → e.err = none → (t.tile k).digPois = ((s.tile k).digPois || f.2) ∧
         t.reg64 (pgTile k) 0x1B0 = (crc64From (BitVec.ofNat 64 (s.reg64 (pgTile k) 0x1B0)) f.1).toNat ∧
         Counted s t (pgTile k) 0x1B8) ∧
       (e.feed = none → e.err.isSome = true → t.bit (pgTile k) 0x108 8 = true ∧ t.bit (pgTile k) 0x010 0 = true ∧
         Signalled { s with tiles := t.tiles } t k e.word.toNat ∧
         (s.bit (pgTile k) 0x104 4 = true → (t.tile k).seq ≠ .run ∧ (t.tile k).seq ≠ .wait))) ∧
  (∀ (k q i : Nat) (e : QEntry) (w : W64) (s : State), k < 1152 → q < 4 → s.pageBusy (pgTile k) = false →
     ((s.tile k).queue q)[i]? = some e → e.st = .finished → (q = 3 ∨ i = 0) → (s.tile k).ended = some w →
     ((s.tile k).seq = .run ∨ (s.tile k).seq = .wait) → (s.tile k).item = none → e.err = none → e.var = 0 →
     (∀ r y, r < 4 → y ∈ (s.tile k).queue r → y.posted = false → r = q ∧ y.id = e.id) →
     ∃ t, exec (.instrRetire k q i) s = .next t ∧ (t.tile k).seq = .idle ∧ (t.tile k).ended = none ∧ t.mem = s.mem ∧
       ∀ j, j < 64 → tileTokOf t k j = tileTokOf s k j +
         (if wSsel e.word.toNat = 1 ∧ j = wSidx e.word.toNat then 1 else 0) +
         (if wSsel w.toNat = 1 ∧ j = wSidx w.toNat then 1 else 0))

/-- WL_GO (R91): a descriptor whose reserved fields are 0 and whose item array lies in a tier starts in a free slot with its
fields (Table 3.4); a slot that is active, a descriptor with a reserved bit set, or a partition that takes no work (R18)
refuses it: REFUSED, its event, and every slot as before. WL_DISPATCH (R92, R172): the lowest undispatched item `idx` of the
lowest slot that has one and whose gate is open goes to the lowest logical tile `j` that is IDLE and free: the tile runs at
ENTRY with ARG, the index and zeros in its address registers and the index in TILE_ITEM, and the slot counts the item as
running. SLICE_SWAP_DONE (R86, R87): the running swap of physical slices `a` and `b` is over, however many segment pairs it had
done. Every logical slice keeps its contents, byte for byte, under the new slice map; a slice that was at `a` is at `b` and the
other way round; memory outside the two slices stays; SWAP_DONE is raised.
The model's own choices in it: log 1, 34 and 35. -/
def Obligations.WorkListsAndSliceSwaps : Prop :=
  (∀ (p k : Nat) (old : WlSlot) (b : List Byte) (s : State), p < 16 → k < 4 → s.pageBusy (pgPart p) = false →
     (s.part p).wl[k]? = some old → s.load .unit (s.reg64 (pgPart p) (0x100 + 0x20 * k)) 64 = some (b.map some) → NoErrors s →
     ∃ t, exec (.wlGo p k) s = .next t ∧
     (old.active = false → s.takesWork p = true → field b 4 4 = 0 → field b 16 1 < 64 → field b 17 1 = 0 → field b 20 1 < 64 → field b 21 1 < 2 →
         allZero (b.drop 22) = true → field b 8 8 % 64 = 0 → inTier (field b 8 8) (16 * field b 0 4) = true → field b 0 4 ≠ 0 →
       t = s.setPart p { s.part p with wl := (s.part p).wl.set k (⟨true, field b 0 4, field b 8 8, field b 16 1, field b 18 2,
         field b 20 1, field b 21 1 == 1, 0, [], [], 0, none, false⟩ : WlSlot) }) ∧
     (old.active = true ∨ s.takesWork p = false ∨ field b 4 4 ≠ 0 ∨ 64 ≤ field b 16 1 ∨ field b 17 1 ≠ 0 ∨ 64 ≤ field b 20 1 ∨ 2 ≤ field b 21 1 ∨
         allZero (b.drop 22) = false →
       t.bit (pgPart p) (0x10C + 0x20 * k) 3 = true ∧ t.bit (pgPart p) 0x010 1 = true ∧
         { wordsOf s t with router := s.router } = s ∧
         WordsKept s t (fun pg o => pg == pgPart p && o == 0x10C + 0x20 * k || eventWord (pgPart p) pg o))) ∧
  (∀ (p k idx j u : Nat) (w : WlSlot) (b : List Byte) (s : State), p < 16 → s.pageBusy (pgPart p) = false → s.partUp p = true →
     48 ≤ (s.part p).n → k < 4 → (s.part p).wl[k]? = some w → w.active = true → w.waitCount ≤ (arcTokOf s p w.waitIdx).toNat →
     w.own = false → w.head = some idx → (s.part p).wlAt ≠ s.clk + 1 → NoErrors s →
     (∀ i v, i < 4 → (s.part p).wl[i]? = some v → v.active = true → v.waitCount ≤ (arcTokOf s p v.waitIdx).toNat →
       v.count ≠ 0 ∧ (i < k → v.head = none)) →
     j < (s.part p).n → s.ptile p j = some u → s.tileFree u = true →
     (∀ i v, i < j → s.ptile p i = some v → s.tileFree v = false) →
     s.load .unit (w.items + 16 * idx) 16 = some (b.map some) → field b 0 2 < 8192 → allZero (slice_ b 2 6) = true →
     ∃ t, exec (.wlDispatch p) s = .next t ∧ (t.tile u).seq = .run ∧ (t.tile u).pc = field b 0 2 ∧
       (t.tile u).item = some (k, idx) ∧
       (t.tile u).ars = [some (BitVec.ofNat 64 (field b 8 8)), some (BitVec.ofNat 64 idx)] ++ List.replicate 14 (some 0) ∧
       t.reg (pgTile u) 0x138 = BitVec.ofNat 32 idx ∧ (s.tile u).q0 = (t.tile u).q0 ∧
       (t.part p).wl = (s.part p).wl.set k w.take ∧ (∀ v, v ≠ p → t.part v = s.part v) ∧
       (∀ v, v ≠ u → t.tile v = s.tile v) ∧
       { wordsOf s t with tiles := s.tiles, parts := s.parts } = s ∧
       WordsKept s t (fun pg o => pg == pgTile u && [0x138, 0x1B0, 0x1B4, 0x1B8].contains o)) ∧
  (∀ (p : Nat) (sw : Swap) (rest : List Swap) (s : State), Memory.wf s = true → (s.part p).swap = sw :: rest →
     ∃ t, exec (.sliceSwapDone p) s = .next t ∧ (rest = [] → (t.part p).swap = []) ∧
       (∀ v vs, rest = v :: vs → (t.part p).swap = { v with since := s.clk } :: vs) ∧ t.bit (pgPart p) 0x010 2 = true ∧
       (∀ l o, l < 72 → o < sliceBytes →
         t.mem.at_ (nearOf p + t.slice p l * sliceBytes + o) = s.mem.at_ (s.slicePhys p l o)) ∧
       (∀ l, l < 72 → t.slice p l = if s.slice p l = sw.a then sw.b else if s.slice p l = sw.b then sw.a else s.slice p l) ∧
       (∀ x, (x < nearOf p + sw.a * sliceBytes ∨ nearOf p + (sw.a + 1) * sliceBytes ≤ x) →
         (x < nearOf p + sw.b * sliceBytes ∨ nearOf p + (sw.b + 1) * sliceBytes ≤ x) → t.mem.at_ x = s.mem.at_ x) ∧
       (∀ v, v ≠ p → t.part v = s.part v) ∧ t.tiles = s.tiles ∧ t.ust = s.ust)

/-- MMAD and MMAS with ACCOUT = WRITE (R120 to R123, R128, R131, R178, R179), operands readable and in range: each element of
the 8 × 8 FP64 or 16 × 16 FP32 output is its initial value, +0, loaded or resident, to which the products of its row and column
are added one after the other along K, each by one fused multiply-add; no other byte of memory changes; the set is free again; with
DIG the bytes of the output wait to be fed to the digest when the instruction retires (R139).
MMAX (R124, R125, R128, R133, R178, R179) with ACCOUT = WRITE, operands readable and in range: element (i, j) of the M × N
output is its initial value to which the block pairs of row i and column j are added in ascending K; no other byte changes. With
M or N 0 nothing is written (R134). The model's own choices in it: log 1, 32 and 33. -/
def Obligations.MatrixProductsWriteOutputs : Prop :=
  (∀ (k mode a b c : Nat) (e : QEntry) (s : State), Starts s k 0 e →
     (wMajor e.word.toNat = 0x10 ∧ mode = 0 ∨ wMajor e.word.toNat = 0x11 ∧ mode = 1) →
     let w := e.word.toNat
     let dim := if mode = 0 then 8 else 16
     let sel := if bitAt w 23 then 1 else 0
     let singleA : Bool := mode == 1 || bitAt w 15
     let singleB : Bool := mode == 1 || bitAt w 14
     let uA := dim * dim * (if singleA then 4 else 8)
     let uB := dim * dim * (if singleB then 4 else 8)
     let sA := if bitAt w 13 then 64 * bits e.ext1.toNat 63 32 else uA
     let sB := if bitAt w 13 then 64 * bits e.ext1.toNat 31 0 else uB
     e.opn (bits w 37 34) = some a → e.opn (bits w 33 30) = some b → e.opn (bits w 29 26) = some c →
     (∀ i, i < bits w 11 0 → arrRange (a + sA * i) uA = true ∧ arrRange (b + sB * i) uB = true) →
     arrRange c (outBytes mode dim dim) = true → (bits w 22 21 = 2 → (s.tile k).keepOk sel mode dim dim = true) →
     bitAt w 20 = false →
     ∃ t fl, exec (if mode = 0 then .mmad k .start else .mmas k .start) s = .next t ∧
       (∀ i j, i < dim → j < dim → t.mem.num (tst k (c + elemOff mode i j)) (elemSize mode) =
         (((List.range (bits w 11 0 * dim)).foldl (fun acc kk => fmaStep (modeFmt mode) (bits w 25 24) (bitAt w 17) acc
             (s.fpElem k (a + sA * (kk / dim)) dim singleA (bitAt w 19) mode i (kk % dim))
             (s.fpElem k (b + sB * (kk / dim)) dim singleB (bitAt w 18) mode (kk % dim) j))
           (s.accInit k mode sel (bits w 22 21) c i j, 0)).1).map (· % 2 ^ (8 * elemSize mode))) ∧
       StoreKept s t k (fun o => c ≤ o ∧ o < c + outBytes mode dim dim) ∧ (t.tile k).accRes sel = none ∧
       Multiplied s t k e mode c dim dim (bitAt w 16) fl ∧ VectorsKept s t k ∧
       { wordsOf s t with tiles := s.tiles, mem := s.mem } = s ∧
       WordsKept s t (fun pg o => pg == pgTile k && [0x1A8, 0x1AC].contains o)) ∧
  (∀ (k a b z c : Nat) (e : QEntry) (s : State), Starts s k 0 e → wMajor e.word.toNat = 0x12 →
     let w := e.word.toNat
     let x1 := e.ext1.toNat
     let ta := bits w 21 19
     let tb := bits w 18 16
     let mode := if ta = 4 ∧ tb = 4 then 3 else 2
     let sel := if bitAt w 15 then 1 else 0
     let m := bits x1 6 0
     let n := bits x1 14 8
     e.opn (bits w 37 34) = some a → e.opn (bits w 33 30) = some b → e.opn (bits w 25 22) = some z →
     e.opn (bits w 29 26) = some c →
     ((m = 0 ∨ n = 0) → ∃ t, exec (.mmax k .start) s = .next t ∧ t.mem = s.mem ∧ Finished s t k 0 e 0 none 0) ∧
     (m ≠ 0 → n ≠ 0 → m ≤ 64 → n ≤ 64 → bitAt w 12 = false →
       (∀ i, i < bits w 11 0 → arrRange (a + 64 * mxBlock ta * i) (mxBlock ta * m) = true ∧
         arrRange (b + 64 * mxBlock tb * i) (mxBlock tb * n) = true ∧ arrRange (z + 128 * i) m = true ∧
         arrRange (z + 128 * i + 64) n = true) →
       arrRange c (outBytes mode m n) = true → (bits w 14 13 = 2 → (s.tile k).keepOk sel mode m n = true) →
       ∃ t fl, exec (.mmax k .start) s = .next t ∧
         (∀ i j, i < m → j < n → t.mem.num (tst k (c + 4 * (64 * i + j))) 4 =
           (((List.range (bits w 11 0)).foldl (fun acc kk => mxPair ta tb acc
               (s.mem.num (tst k (a + 64 * mxBlock ta * kk + mxBlock ta * i)) (mxBlock ta))
               (s.mem.num (tst k (b + 64 * mxBlock tb * kk + mxBlock tb * j)) (mxBlock tb))
               (s.mem.num (tst k (z + 128 * kk + i)) 1) (s.mem.num (tst k (z + 128 * kk + 64 + j)) 1))
             (s.accInit k mode sel (bits w 14 13) c i j, 0, 0)).1).map (· % 2 ^ 32)) ∧
         StoreKept s t k (fun o => ∃ i j, i < m ∧ j < n ∧ c + 4 * (64 * i + j) ≤ o ∧ o < c + 4 * (64 * i + j) + 4) ∧
         (t.tile k).accRes sel = none ∧ Multiplied s t k e mode c m n (bitAt x1 16) fl ∧ VectorsKept s t k ∧
         { wordsOf s t with tiles := s.tiles, mem := s.mem } = s ∧
         WordsKept s t (fun pg o => pg == pgTile k && [0x188, 0x1A8, 0x1AC].contains o)))

/-- CASTM and CASTF (R114 to R116, R180) over NB blocks whose ranges are aligned, in the tile store and apart: block j of 32
source values becomes its scale byte and packed element codes, and element i of block j becomes the value of its code and
scale; every other byte of memory stays. DMARK (R141, R180): the 32-byte record of the running digest (Table 5.4) goes to an
aligned address in a tier that takes the write, with PARTIAL for a posted mark, and the digest, its count and its poison mark
are cleared; a misaligned address is an error, whose destination holds poison where it may be written (R77). ARC_DIGEST_MARK
(R56, R141): every targeted logical tile below the count has its digest, count and poison mark cleared by the mark, and the arc
is DONE.
The model's own choices in it: log 1. -/
def Obligations.CastsAndDigests : Prop :=
  (∀ (k a d x : Nat) (e : QEntry) (s : State), Starts s k 0 e →
     let w := e.word.toNat
     let ty := bits w 25 23
     let f := if bitAt w 22 then f32 else f64
     let nb := bits w 11 0
     let bb := mxBlock ty
     (wMajor w = 0x13 → e.opn (bits w 37 34) = some a → e.opn (bits w 33 30) = some d → e.opn (bits w 29 26) = some x →
       arrRange a (32 * f.bytes * nb) = true → arrRange d (bb * nb) = true → arrRange x nb = true →
       overlaps d (bb * nb) x nb = false →
       ∃ t fl, exec (.castm k .start) s = .next t ∧ Finished s t k 0 e fl none 0 ∧
         (∀ j vs, j < nb → allSome ((List.range 32).map fun i => s.mem.num (tst k (a + (32 * j + i) * f.bytes)) f.bytes) = some vs →
           t.mem.num (tst k (d + bb * j)) bb = some (packCodes (mxWidth ty) (castTo f ty vs).2.1 % 2 ^ (8 * bb)) ∧
           t.mem.num (tst k (x + j)) 1 = some ((castTo f ty vs).1 % 256)) ∧
         StoreKept s t k (fun o => d ≤ o ∧ o < d + bb * nb ∨ x ≤ o ∧ o < x + nb) ∧
         { wordsOf s t with tiles := s.tiles, mem := s.mem } = s ∧
         WordsKept s t (fun pg o => pg == pgTile k && o == 0x184)) ∧
     (wMajor w = 0x14 → e.opn (bits w 37 34) = some a → e.opn (bits w 33 30) = some x → e.opn (bits w 29 26) = some d →
       arrRange a (bb * nb) = true → arrRange x nb = true → arrRange d (32 * f.bytes * nb) = true →
       overlaps d (32 * f.bytes * nb) a (bb * nb) = false → overlaps d (32 * f.bytes * nb) x nb = false →
       ∃ t fl, exec (.castf k .start) s = .next t ∧ Finished s t k 0 e fl none 0 ∧
         (∀ j i blk sc, j < nb → i < 32 → s.mem.num (tst k (a + bb * j)) bb = some blk → s.mem.num (tst k (x + j)) 1 = some sc →
           t.mem.num (tst k (d + (32 * j + i) * f.bytes)) f.bytes =
             some ((castFrom f (if bitAt w 22 then bits w 21 20 else 0) ty sc (mxElem ty blk i)).1 % 2 ^ (8 * f.bytes))) ∧
         StoreKept s t k (fun o => d ≤ o ∧ o < d + 32 * f.bytes * nb) ∧ { t with tiles := s.tiles, mem := s.mem } = s)) ∧
  (∀ (k a : Nat) (e : QEntry) (s : State), Starts s k 0 e → wMajor e.word.toNat = 0x15 →
     e.opn (bits e.word.toNat 37 34) = some a →
     (a % 32 = 0 → inTier a 32 = true →
       ∀ u, s.store .unit a ((s.digRecord k 0 e.posted (e.inItem && !e.posted)).map some) = .ok u →
       ∃ t, exec (.dmark k .start) s = .next t ∧ t.mem = u.mem ∧ Finished s t k 0 e 0 none 0 ∧
         (t.tile k).digPois = false ∧ t.reg64 (pgTile k) 0x1B0 = 0 ∧ t.reg (pgTile k) 0x1B8 = 0) ∧
     (a % 32 ≠ 0 → ∃ t n, exec (.dmark k .start) s = .next t ∧ Finished s t k 0 e 0 (some n) 0 ∧
       (0x13000000000 ≤ a ∨ s.accessOk .tile a 32 = false → t.mem = s.mem ∧ t.regs = s.regs))) ∧
  (∀ (u e : Nat) (x : ArcEnt) (s : State), ArcCanFire s u e 5 x → ∃ t, exec (.arcDigestMark u e) s = .next t ∧
     ArcMoved s t u e .done ∧
     (∀ j k, x.target.testBit j = true → s.ptile u j = some k → (t.tile k).digPois = false ∧
       t.reg64 (pgTile k) 0x1B0 = 0 ∧ t.reg (pgTile k) 0x1B8 = 0) ∧
     (∀ v i, arcTokOf t v i = arcTokOf s v i + (if v = u ∧ arcSignals x i = true then 1 else 0)) ∧
     (∀ k, k ∉ s.targets u x.target → t.tile k = s.tile k))

/-- The element-wise vector instructions VADD to VCVT in register form (R150, R151, R157): element i below VL with its mask bit
set is the operation's result on element i of the sources, or on the immediate, and poison when one of them is; an element
masked off, or at or above VL, keeps its value, as do the other registers and memory. VL = 0 does nothing (R162). What the
element-wise operations compute (Table 6.2): integers wrap at the element's width, signed or unsigned as RM says, shift counts
are taken modulo the width; the FP operations are those of the FP64 and FP32 formats, rounded by RM. VL_ERR (R151, R166): in
register form an element count above the register's capacity is an error, whose record retiring writes; the elements of the
destination register below VL hold poison, no other register and no byte of memory changes.
The model's own choices in it: log 1, 33 and 100. -/
def Obligations.ElementwiseVectorInstructions : Prop :=
  (∀ (k n : Nat) (e : QEntry) (c : Nat → Phase → Instr) (s : State), Starts s k 1 e → engineRow e.word.toNat = some c →
     0x28 ≤ wMajor e.word.toNat → wMajor e.word.toNat ≤ 0x30 → vForm e.word.toNat = false →
     (s.tile k).vlen e.word.toNat = some n →
     let w := e.word.toNat
     let szD := (vecSizes w).1
     let szA := (vecSizes w).2
     n ≤ regElems (max szD szA) → ∃ t fl, exec (c k .start) s = .next t ∧ Finished s t k 1 e fl none 0 ∧
       (∀ i, i < n → (s.tile k).mbit (vMk w) i = some true →
         (t.tile k).vr.num (256 * vD w + szD * i) szD =
           match s.vget k szA (.reg (vA w)) i,
               (if vecUsesB w && !vIb w then s.vget k szD (.reg (vB w)) i else some (if vIb w then e.ext1.toNat else 0)),
               (if wMajor w = 0x2A then s.vget k szD (.reg (vD w)) i else some 0) with
           | some x, some y, some z => some ((vecElem w e.ext1.toNat e.ext2.toNat x y z).1 % 2 ^ (8 * szD))
           | _, _, _ => none) ∧
       (∀ i, i < n → (s.tile k).mbit (vMk w) i = some false →
         (t.tile k).vr.num (256 * vD w + szD * i) szD = (s.tile k).vr.num (256 * vD w + szD * i) szD) ∧
       (∀ x, x < 256 * vD w ∨ 256 * vD w + szD * n ≤ x → (t.tile k).vr.at_ x = (s.tile k).vr.at_ x) ∧
       { t with tiles := s.tiles } = s) ∧
  (∀ (w e1 e2 a b c : Nat), let wd := 8 * tyBytes (vTy w)
     let f := tyFmt (vTy w)
     let r := vecElem w e1 e2 a b c
     a < 2 ^ wd → b < 2 ^ wd →
     (2 ≤ vTy w →
       (wMajor w = 0x28 → vVar w = false → r = ((a + b) % 2 ^ wd, 0)) ∧
       (wMajor w = 0x28 → vVar w = true → r = ((a + (2 ^ wd - b)) % 2 ^ wd, 0)) ∧
       (wMajor w = 0x29 → r = (a * b % 2 ^ wd, 0)) ∧
       (wMajor w = 0x2B → (r.1 = a ∨ r.1 = b) ∧
         (vRm w = 0 → sint wd r.1 = min (sint wd a) (sint wd b)) ∧ (vRm w = 1 → sint wd r.1 = max (sint wd a) (sint wd b)) ∧
         (vRm w = 2 → r.1 = min a b) ∧ (vRm w = 3 → r.1 = max a b)) ∧
       (wMajor w = 0x2C → sint wd e1 ≤ sint wd e2 → sint wd r.1 = max (sint wd e1) (min (sint wd e2) (sint wd a))) ∧
       (wMajor w = 0x2D → r.1 = if vVar w = true ∨ 2 ^ (wd - 1) ≤ a then (2 ^ wd - a) % 2 ^ wd else a) ∧
       (wMajor w = 0x2F → (vRm w = 0 → r.1 = a * 2 ^ (b % wd) % 2 ^ wd) ∧ (vRm w = 1 → r.1 = a / 2 ^ (b % wd)) ∧
         (vRm w = 2 → sint wd r.1 = sint wd a / 2 ^ (b % wd)))) ∧
     (wMajor w = 0x2E → (vRm w = 0 → r.1 = a &&& b) ∧ (vRm w = 1 → r.1 = a ||| b) ∧ (vRm w = 2 → r.1 = a ^^^ b)) ∧
     (vTy w < 2 →
       (wMajor w = 0x28 → r = if vVar w then f.sub (vRm w) a b else f.add (vRm w) a b) ∧
       (wMajor w = 0x29 → r = f.mul (vRm w) a b) ∧ (wMajor w = 0x2A → r = f.fma (vRm w) (vVar w) a b c) ∧
       (wMajor w = 0x2D → r = (if vVar w then a ^^^ 2 ^ (wd - 1) else a % 2 ^ (wd - 1), 0)))) ∧
  (∀ (k n : Nat) (e : QEntry) (c : Nat → Phase → Instr) (s : State), Starts s k 1 e → engineRow e.word.toNat = some c →
     (0x28 ≤ wMajor e.word.toNat ∧ wMajor e.word.toNat ≤ 0x30 ∨ wMajor e.word.toNat = 0x32 ∨ wMajor e.word.toNat = 0x34) →
     vForm e.word.toNat = false → (s.tile k).vlen e.word.toNat = some n →
     regElems (max (vecSizes e.word.toNat).1 (vecSizes e.word.toNat).2) < n →
     ∃ t m, exec (c k .start) s = .next t ∧ Finished s t k 1 e 0 (some m) 0 ∧ t.bit (pgTile k) 0x1D4 9 = true ∧
       (∀ x, (t.tile k).vr.at_ x =
         if 256 * vD e.word.toNat ≤ x ∧
             x < 256 * vD e.word.toNat + (vecSizes e.word.toNat).1 * min n (regElems (vecSizes e.word.toNat).1) then none
         else (s.tile k).vr.at_ x) ∧
       t.mem = s.mem ∧ (t.tile k).msk = (s.tile k).msk)

/-- The same instructions in stream form (R152, R153) with every operand aligned and in the tile store and the destination apart
from, or equal to, a source of its element size: element i below VL of the destination is the operation's result on element i of
the sources; no other byte changes. An operand that is misaligned or outside is an error with RANGE_ERR.
The model's own choices in it: log 1 and 39. -/
def Obligations.ElementwiseStreamForm : Prop :=
  ∀ (k n d a : Nat) (b : Option Nat) (e : QEntry) (c : Nat → Phase → Instr) (s : State), Starts s k 1 e →
    engineRow e.word.toNat = some c → 0x28 ≤ wMajor e.word.toNat → wMajor e.word.toNat ≤ 0x30 →
    vForm e.word.toNat = true → (s.tile k).vlen e.word.toNat = some n → n ≠ 0 →
    let w := e.word.toNat
    let szD := (vecSizes w).1
    let szA := (vecSizes w).2
    e.opn (vD w) = some d → e.opn (vA w) = some a →
    (if vecUsesB w && !vIb w then ∃ o, e.opn (vB w) = some o ∧ b = some o else b = none) →
    (streamOk d szD n = true → streamOk a szA n = true → (∀ o, b = some o → streamOk o szD n = true) →
      (overlaps d (szD * n) a (szA * n) = false ∨ d = a ∧ szD = szA) →
      (∀ o, b = some o → overlaps d (szD * n) o (szD * n) = false ∨ d = o) →
      ∃ t fl, exec (c k .start) s = .next t ∧ Finished s t k 1 e fl none 0 ∧ VectorsKept s t k ∧
        (∀ i, i < n → t.mem.num (tst k (d + szD * i)) szD =
          match s.vget k szA (.mem a) i,
              (match b with
                | some o => s.vget k szD (.mem o) i
                | none => some (if vIb w then e.ext1.toNat else 0)),
              (if wMajor w = 0x2A then s.vget k szD (.mem d) i else some 0) with
          | some x, some y, some z => some ((vecElem w e.ext1.toNat e.ext2.toNat x y z).1 % 2 ^ (8 * szD))
          | _, _, _ => none) ∧
        StoreKept s t k (fun o => d ≤ o ∧ o < d + szD * n) ∧ { t with tiles := s.tiles, mem := s.mem } = s) ∧
    ((streamOk d szD n = false ∨ streamOk a szA n = false ∨ ∃ o, b = some o ∧ streamOk o szD n = false) →
      ∃ t m, exec (c k .start) s = .next t ∧ Finished s t k 1 e 0 (some m) 0 ∧ t.bit (pgTile k) 0x1D4 10 = true ∧
        VectorsKept s t k ∧ StoreKept s t k (fun o => d ≤ o ∧ o < d + szD * n))

/-- VCMP, VSEL and VSPLAT (R148, R157) within the register's capacity: mask bit i of MKd is the comparison of element i where
the mask governs it, and MK0 takes no write; VSEL picks element i of a or b by MKm; VSPLAT writes the immediate. Elements at or
above VL, other registers and memory stay. VLD, VST and VSETC (R157, R181): VL unmasked elements move between a register and
aligned places in the tile store, and nothing else changes; VSETC takes counts up to 4095 into VCNTd, and with more sets it to 0
with VL_ERR and an error. The model's own choices in it: log 1 and 33. -/
def Obligations.CompareSelectLoadStoreAndCount : Prop :=
  (∀ (k n : Nat) (e : QEntry) (s : State), Starts s k 1 e → (s.tile k).vlen e.word.toNat = some n →
     let w := e.word.toNat
     let sz := tyBytes (vTy w)
     n ≤ regElems sz →
     (wMajor w = 0x31 → vD w < 8 → ∃ t fl, exec (.vcmp k .start) s = .next t ∧ Finished s t k 1 e fl none 0 ∧ t.mem = s.mem ∧
       (t.tile k).vr = (s.tile k).vr ∧
       (∀ i a b, i < n → vD w ≠ 0 → (s.tile k).mbit (vMk w) i = some true → s.vget k sz (.reg (vA w)) i = some a →
         (if vIb w then some e.ext1.toNat else s.vget k sz (.reg (vB w)) i) = some b →
         (t.tile k).mbit (vD w) i = some (vecCmp w a b).1) ∧
       (∀ m i, i < 64 → m ≠ vD w ∨ n ≤ i → (t.tile k).mbit m i = (s.tile k).mbit m i)) ∧
     (wMajor w = 0x32 → ∃ t, exec (.vsel k .start) s = .next t ∧ Finished s t k 1 e 0 none 0 ∧ { t with tiles := s.tiles } = s ∧
       (∀ i, i < n → (t.tile k).vr.num (256 * vD w + sz * i) sz =
         match (s.tile k).mbit (vMk w) i with
         | some true => s.vget k sz (.reg (vA w)) i
         | some false => s.vget k sz (.reg (vB w)) i
         | none => none) ∧
       (∀ x, x < 256 * vD w ∨ 256 * vD w + sz * n ≤ x → (t.tile k).vr.at_ x = (s.tile k).vr.at_ x)) ∧
     (wMajor w = 0x34 → ∃ t, exec (.vsplat k .start) s = .next t ∧ Finished s t k 1 e 0 none 0 ∧ { t with tiles := s.tiles } = s ∧
       (∀ i, i < n → (s.tile k).mbit (vMk w) i = some true →
         (t.tile k).vr.num (256 * vD w + sz * i) sz = some (e.ext1.toNat % 2 ^ (8 * sz))) ∧
       (∀ x, x < 256 * vD w ∨ 256 * vD w + sz * n ≤ x → (t.tile k).vr.at_ x = (s.tile k).vr.at_ x))) ∧
  (∀ (k n o : Nat) (e : QEntry) (s : State), Starts s k 1 e → e.opn (vA e.word.toNat) = some o →
     let w := e.word.toNat
     let sz := tyBytes (vTy w)
     ((s.tile k).vlen w = some n → n ≤ regElems sz → streamOk o sz n = true →
       (wMajor w = 0x33 → vVar w = false → ∃ t, exec (.vld k .start) s = .next t ∧ Finished s t k 1 e 0 none 0 ∧
         { t with tiles := s.tiles } = s ∧
         (∀ i, i < n → (s.tile k).mbit (vMk w) i = some true →
           (t.tile k).vr.num (256 * vD w + sz * i) sz = s.mem.num (tst k (o + sz * i)) sz) ∧
         (∀ x, x < 256 * vD w ∨ 256 * vD w + sz * n ≤ x → (t.tile k).vr.at_ x = (s.tile k).vr.at_ x)) ∧
       (wMajor w = 0x33 → vVar w = true → ∃ t, exec (.vst k .start) s = .next t ∧ Finished s t k 1 e 0 none 0 ∧
         { t with tiles := s.tiles, mem := s.mem } = s ∧ VectorsKept s t k ∧
         (∀ i, i < n → (s.tile k).mbit (vMk w) i = some true →
           t.mem.num (tst k (o + sz * i)) sz = (s.tile k).vr.num (256 * vD w + sz * i) sz) ∧
         StoreKept s t k (fun x => o ≤ x ∧ x < o + sz * n))) ∧
     (wMajor w = 0x3A → o ≤ 4095 → ∃ t, exec (.vsetc k .start) s = .next t ∧ Finished s t k 1 e 0 none 0 ∧
       { t with tiles := s.tiles } = s ∧ (t.tile k).cnt (vD w) = some o ∧
       ∀ c, c ≠ vD w → (t.tile k).cnt c = (s.tile k).cnt c) ∧
     (wMajor w = 0x3A → 4095 < o → ∃ t m, exec (.vsetc k .start) s = .next t ∧ Finished s t k 1 e 0 (some m) 0 ∧
       (t.tile k).cnt (vD w) = some 0 ∧ t.bit (pgTile k) 0x1D4 9 = true ∧ t.mem = s.mem))

/-- VRSUM, VRMAX, VRMIN and VDOT in register form (R158): element 0 of the destination is the canonical fold, over the unmasked
elements below VL in ascending index, of the elements, or for VDOT of the products rounded once; poison when one of them is.
Elements 1 and above, other registers and memory stay; with none unmasked nothing is written (R162). VCOMPRESS and VEXPAND in
register form (R159, R160) on values without poison: compressing puts the selected elements, in ascending index, into the first
places of d, their indices into x, and their number into VCNTc, and leaves the places above as they were; expanding puts element
j at index x[j], the others 0 with FILL and untouched without, and where d and a are one register each step reads what those before it
left. The model's own choices in it: log 1 and 39. -/
def Obligations.ReductionsCompressAndExpand : Prop :=
  (∀ (k n : Nat) (e : QEntry) (c : Nat → Phase → Instr) (s : State), Starts s k 1 e → engineRow e.word.toNat = some c →
     (wMajor e.word.toNat = 0x35 ∨ wMajor e.word.toNat = 0x36 ∨ wMajor e.word.toNat = 0x37) →
     vForm e.word.toNat = false → (s.tile k).vlen e.word.toNat = some n →
     let w := e.word.toNat
     let sz := tyBytes (vTy w)
     let f := tyFmt (vTy w)
     n ≤ regElems sz → (∀ i, i < n → (s.tile k).mbit (vMk w) i ≠ none) →
     let on := (List.range n).filter fun i => (s.tile k).mbit (vMk w) i == some true
     ∃ t fl, exec (c k .start) s = .next t ∧ Finished s t k 1 e fl none 0 ∧ { t with tiles := s.tiles } = s ∧
       (on = [] → (t.tile k).vr = (s.tile k).vr) ∧
       (∀ i ∈ on, s.vget k sz (.reg (vA w)) i = none → (t.tile k).vr.num (256 * vD w) sz = none) ∧
       (∀ vs, on ≠ [] → vs.length = on.length →
         (∀ (j i : Nat), on[j]? = some i → s.vget k sz (.reg (vA w)) i = vs[j]?) → wMajor w ≠ 0x37 →
         (t.tile k).vr.num (256 * vD w) sz = (cfold (fun a b =>
           (if wMajor w = 0x36 then f.minmax (!vVar w) a b else f.add (vRm w) a b).1) vs).map (· % 2 ^ (8 * sz))) ∧
       (∀ us vs, on ≠ [] → us.length = on.length → vs.length = on.length →
         (∀ (j i : Nat), on[j]? = some i → s.vget k sz (.reg (vA w)) i = us[j]? ∧ s.vget k sz (.reg (vB w)) i = vs[j]?) → wMajor w = 0x37 →
         (t.tile k).vr.num (256 * vD w) sz = (cfold (fun a b => (f.add (vRm w) a b).1)
           (List.zipWith (fun a b => (f.mul (vRm w) a b).1) us vs)).map (· % 2 ^ (8 * sz))) ∧
       (∀ x, x < 256 * vD w ∨ 256 * vD w + sz ≤ x → (t.tile k).vr.at_ x = (s.tile k).vr.at_ x)) ∧
  (∀ (k n x c : Nat) (e : QEntry) (s : State), Starts s k 1 e → vForm e.word.toNat = false →
     let w := e.word.toNat
     let sz := tyBytes (vTy w)
     n ≠ 0 → n ≤ regElems sz →
     (wMajor w = 0x38 → (s.tile k).vlen w = some n →
       let lw := listWord w e.ext1.toNat e.ext2.toNat
       e.opn (bits lw 3 0) = some x → c = bits lw 10 8 → streamOk x 2 n = true →
       (∀ i, i < n → (s.tile k).mbit (vMk w) i ≠ none) →
       ∀ us vs : List Nat, us.length = n → vs.length = n → (∀ i, i < n → s.vget k sz (.reg (vA w)) i = us[i]?) →
       (∀ i, i < n → (if vIb w then some e.ext1.toNat else s.vget k sz (.reg (vB w)) i) = vs[i]?) →
       let sel := (List.range n).filter fun i =>
         (s.tile k).mbit (vMk w) i == some true && (vecCmp w (us.getD i 0) (vs.getD i 0)).1
       ∃ t fl, exec (.vcompress k .start) s = .next t ∧ Finished s t k 1 e fl none 0 ∧
         (t.tile k).cnt c = some sel.length ∧
         (∀ (j i : Nat), sel[j]? = some i → (t.tile k).vr.num (256 * vD w + sz * j) sz = some (us.getD i 0) ∧
           t.mem.num (tst k (x + 2 * j)) 2 = some i) ∧
         (∀ y, y < 256 * vD w ∨ 256 * vD w + sz * sel.length ≤ y → (t.tile k).vr.at_ y = (s.tile k).vr.at_ y) ∧
         StoreKept s t k (fun o => x ≤ o ∧ o < x + 2 * sel.length)) ∧
     (wMajor w = 0x39 → n = vVl w → ∀ idx vals : List Nat, e.opn (bits e.ext1.toNat 3 0) = some x →
       (s.tile k).cnt (bits e.ext1.toNat 10 8) = some idx.length → vals.length = idx.length →
       streamOk x 2 idx.length = true → idx.Pairwise (· < ·) → (∀ i ∈ idx, i < n) →
       (∀ j, j < idx.length → s.mem.num (tst k (x + 2 * j)) 2 = idx[j]? ∧ s.vget k sz (.reg (vA w)) j = vals[j]?) →
       ∃ t, exec (.vexpand k .start) s = .next t ∧ Finished s t k 1 e 0 none 0 ∧ { t with tiles := s.tiles } = s ∧
         (vD w ≠ vA w → ∀ (j i : Nat), idx[j]? = some i → (t.tile k).vr.num (256 * vD w + sz * i) sz = vals[j]?) ∧
         (∀ i, i < n → i ∉ idx → (t.tile k).vr.num (256 * vD w + sz * i) sz =
           if vVar w then some 0 else (s.tile k).vr.num (256 * vD w + sz * i) sz) ∧
         (vD w = vA w → ∀ i, i < n → (t.tile k).vr.num (256 * vD w + sz * i) sz =
           ((List.range idx.length).foldl (fun (v : List (PVal Nat)) j => v.set (idx.getD j 0) (v.getD j none))
             ((List.range n).map fun i => if vVar w then some 0 else s.vget k sz (.reg (vA w)) i)).getD i none) ∧
         (∀ y, y < 256 * vD w ∨ 256 * vD w + sz * n ≤ y → (t.tile k).vr.at_ y = (s.tile k).vr.at_ y)))

/-- DRU (R183, R212, R213) with VL at least 1 and every operand aligned and in the tile store, the destination apart from, or
equal to, a source: element i is the divide, square root or reciprocal square root of element i of the sources, poison when one
of them is; no other byte changes. VL = 0 does nothing. PIVOT (R208, R209, R211, Table 8.5) on a readable 64-byte aligned brick
and record apart from each other, with fewer than 8 padding rows and a policy that is not refused: the brick holds its factor,
the record the scale, threshold, replacement, counts (poison when a poisoned pivot was tested) and row permutation; no other byte
changes. A refused policy or a padding count of 8 or more is an error and poisons the brick and the record's outputs (R77); a poisoned
scale or padding count poisons them and is no error. The model's own choices in it: log 1, 39 and 40. -/
def Obligations.DruAndPivot : Prop :=
  (∀ (k d a b : Nat) (e : QEntry) (s : State), Starts s k 2 e → wMajor e.word.toNat = 0x18 →
     let w := e.word.toNat
     let fn := bits w 37 36
     let sz := if bitAt w 35 then 4 else 8
     let f := if bitAt w 35 then f32 else f64
     let n := bits w 11 0
     fn < 3 → e.opn (bits w 32 29) = some d → e.opn (bits w 28 25) = some a → (fn = 0 → e.opn (bits w 24 21) = some b) →
     (n = 0 → ∃ t, exec (.dru k .start) s = .next t ∧ Finished s t k 2 e 0 none 0 ∧ { t with tiles := s.tiles } = s) ∧
     (n ≠ 0 → streamOk d sz n = true → streamOk a sz n = true → (fn = 0 → streamOk b sz n = true) →
       (overlaps d (sz * n) a (sz * n) = false ∨ d = a) → (fn = 0 → overlaps d (sz * n) b (sz * n) = false ∨ d = b) →
       ∃ t fl, exec (.dru k .start) s = .next t ∧ Finished s t k 2 e fl none 0 ∧ VectorsKept s t k ∧
         (∀ i, i < n → t.mem.num (tst k (d + sz * i)) sz =
           match s.mem.num (tst k (a + sz * i)) sz, (if fn = 0 then s.mem.num (tst k (b + sz * i)) sz else some 0) with
           | some x, some y => some ((if fn = 0 then f.div (bits w 34 33) x y
               else if fn = 1 then f.sqrt (bits w 34 33) x else f.rsqrt (bits w 34 33) x).1 % 2 ^ (8 * sz))
           | _, _ => none) ∧
         StoreKept s t k (fun o => d ≤ o ∧ o < d + sz * n) ∧ { t with tiles := s.tiles, mem := s.mem } = s)) ∧
  (∀ (k b r v npad : Nat) (e : QEntry) (s : State), Starts s k 2 e → wMajor e.word.toNat = 0x19 →
     let w := e.word.toNat
     let kind := bits w 29 28
     let pol := s.policy (k / 72) (bits w 27 26)
     let src := if bitAt pol.2.2.2 0 then some pol.2.2.1 else s.mem.num (tst k r) 8
     let spoiled (t : State) : Prop := (∀ o, o < 512 → t.mem.at_ (tst k (b + o)) = none) ∧
       (∀ o, o < 29 ∨ 32 ≤ o ∧ o < 40 → t.mem.at_ (tst k (r + o)) = none) ∧
       StoreKept s t k (fun o => b ≤ o ∧ o < b + 512 ∨ r ≤ o ∧ o < r + 29 ∨ r + 32 ≤ o ∧ o < r + 40) ∧
       { t with tiles := s.tiles, mem := s.mem } = s
     kind < 3 → e.opn (bits w 37 34) = some b → e.opn (bits w 33 30) = some r → arrRange b 512 = true → arrRange r 64 = true →
     overlaps b 512 r 64 = false →
     (src = none ∨ s.mem.num (tst k (r + 29)) 1 = none →
       ∃ t, exec (.pivot k .start) s = .next t ∧ Finished s t k 2 e 0 none 0 ∧ spoiled t) ∧
     (∀ par g, src = some v → s.mem.num (tst k (r + 29)) 1 = some npad → npad < 8 → pivPolicy kind pol.1 pol.2.1 (pivScale v).1 = some (par, g) →
       let el := factorBrick par npad ((List.range 64).map fun i => s.mem.num (tst k (b + 8 * i)) 8)
       ∃ t fl, exec (.pivot k .start) s = .next t ∧ Finished s t k 2 e fl none 0 ∧
         (∀ i, i < 64 → t.mem.num (tst k (b + 8 * i)) 8 = ((el.brick kind).getD i none).map (· % 2 ^ 64)) ∧
         t.mem.num (tst k r) 8 = some ((pivScale v).1 % 2 ^ 64) ∧ t.mem.num (tst k (r + 8)) 8 = some (par.thr % 2 ^ 64) ∧
         t.mem.num (tst k (r + 16)) 8 = some (par.rep % 2 ^ 64) ∧
         (el.st.pois = false → t.mem.num (tst k (r + 24)) 1 = some (el.st.rep % 256) ∧
           t.mem.num (tst k (r + 26)) 1 = some (el.st.zero % 256) ∧ t.mem.num (tst k (r + 27)) 1 = some (el.st.nf % 256)) ∧
         (el.st.pois = true → ∀ o, 24 ≤ o → o < 29 → t.mem.at_ (tst k (r + o)) = none) ∧
         (∀ i, i < 8 → t.mem.at_ (tst k (r + 32 + i)) = (el.perm.getD i none).map (BitVec.ofNat 8)) ∧
         StoreKept s t k (fun o => b ≤ o ∧ o < b + 512 ∨ r ≤ o ∧ o < r + 29 ∨ r + 32 ≤ o ∧ o < r + 40) ∧
         { t with tiles := s.tiles, mem := s.mem } = s) ∧
     (src = some v → s.mem.num (tst k (r + 29)) 1 = some npad → 8 ≤ npad ∨ pivPolicy kind pol.1 pol.2.1 (pivScale v).1 = none →
       ∃ t m, exec (.pivot k .start) s = .next t ∧ Finished s t k 2 e 0 (some m) 0 ∧ spoiled t))

/-- SOLVE and SOLVEB at the head of the solver/DRU queue (R218, R219): with a credit of the sequencer's queue the request enters
it behind the others, and the entry waits for the final status; without one nothing happens. ARC_ASSEMBLE, ARC_SOLVE (R60, R201,
R218): the posting joins its unit's queue behind the others with the arc's ARG, a SOLVE's with the arc's GUARD, and the arc is
FIRED until the unit completes it. The model's own choices in it: log 1. -/
def Obligations.SolveAndAssembleArePosted : Prop :=
  (∀ (k a : Nat) (bounded : Bool) (e : QEntry) (s : State), Starts s k 2 e →
     wMajor e.word.toNat = (if bounded then 0x1B else 0x1A) → e.opn (bits e.word.toNat 37 34) = some a →
     s.pageBusy (pgSlv (k / 72)) = false → ∃ t, exec (if bounded then .solveb k .start else .solve k .start) s = .next t ∧
     (s.arcCredit (k / 72) 8 = true →
       (t.part (k / 72)).slv = { (s.part (k / 72)).slv with
         queue := (s.part (k / 72)).slv.queue ++ [(⟨a, .tile k e.id, bounded, 0, false⟩ : SolveReq)] } ∧
       { t.part (k / 72) with slv := (s.part (k / 72)).slv } = s.part (k / 72) ∧
       (∀ p, p ≠ k / 72 → t.part p = s.part p) ∧
       (t.tile k).q2 = ((s.tile k).q2.map fun y => if y.id = e.id then { y with st := .running } else y) ∧
       (∀ j, j ≠ k → t.tile j = s.tile j) ∧ { t with tiles := s.tiles, parts := s.parts } = s) ∧
     (s.arcCredit (k / 72) 8 = false → t = s)) ∧
  (∀ (u e : Nat) (x : ArcEnt) (s : State),
     (ArcCanFire s u e 7 x → ∃ t, exec (.arcAssemble u e) s = .next t ∧ ArcPosted s t u e ∧
       (t.part u).asm.queue = (s.part u).asm.queue ++ [⟨e, x.arg, false⟩] ∧
       { t.part u with asm := ⟨(s.part u).asm.queue, (t.part u).asm.run⟩ } = s.part u ∧ (∀ v, v ≠ u → t.part v = s.part v) ∧
       { t with arcs := s.arcs, parts := s.parts } = s) ∧
     (ArcCanFire s u e 8 x → ∃ t, exec (.arcSolve u e) s = .next t ∧ ArcPosted s t u e ∧
       (t.part u).slv.queue = (s.part u).slv.queue ++ [⟨x.arg, .arc e, false, x.guard_, false⟩] ∧
       { t.part u with slv := { (t.part u).slv with queue := (s.part u).slv.queue } } = s.part u ∧
       (∀ v, v ≠ u → t.part v = s.part v) ∧ { t with arcs := s.arcs, parts := s.parts } = s))

/-- CPY between local places (R173, R184), no error or hold being met in memory: the bytes that are read, poison as poison, are
written as one write; length 0 moves nothing, a length of 2^48 or more is an error that moves nothing, and a source that does
not read poisons what it should have written (R77). CSCAT (R186, R187) on N aligned values and distinct readable indices whose
targets lie aligned in the near tier, hold no poison, and take their writes: each target word is its old value plus its own,
rounded RNE, or poison for a poisoned value; nothing else in memory changes, no flag is set, and its retire will count one
variance. With an index that is poison it is an error and changes nothing.
The model's own choices in it: log 1, 45, 88 and 95. -/
def Obligations.CopiesAndScatteredAdditions : Prop :=
  (∀ (k d a n : Nat) (e : QEntry) (s : State), Starts s k 3 e → NoErrors s → wMajor e.word.toNat = 0x20 →
     let w := e.word.toNat
     e.opn (bits w 27 24) = some n → e.opn (bits w 37 34) = some d → e.opn (bits w 33 30) = some a →
     (n = 0 → ∃ t, exec (.cpy k .start) s = .next t ∧ Finished s t k 3 e 0 none 0 ∧ { t with tiles := s.tiles } = s) ∧
     (2 ^ 48 ≤ n → ∃ t m, exec (.cpy k .start) s = .next t ∧ Finished s t k 3 e 0 (some m) 0 ∧ { t with tiles := s.tiles } = s) ∧
     (n ≠ 0 → n < 2 ^ 48 → bitAt w 29 = false → bitAt w 28 = false → inTst a n = true → inTst d n = true →
       ∃ t, exec (.cpy k .start) s = .next t ∧ Finished s t k 3 e 0 none 0 ∧
         (∀ i, i < n → t.mem.at_ (tst k (d + i)) = s.mem.at_ (tst k (a + i))) ∧
         StoreKept s t k (fun o => d ≤ o ∧ o < d + n) ∧ { t with tiles := s.tiles, mem := s.mem } = s) ∧
     (n ≠ 0 → n < 2 ^ 48 → bitAt w 29 = true → bitAt w 28 = false → inTst a n = true →
       ∀ u, d < 2 ^ 48 → inAperture d = false → s.store .tile d (s.mem.rd (tst k a) n) = .ok u →
       ∃ t, exec (.cpy k .start) s = .next t ∧ Finished s t k 3 e 0 none 0 ∧ t.mem = u.mem) ∧
     (n ≠ 0 → n < 2 ^ 48 → bitAt w 29 = false → bitAt w 28 = true → inTst d n = true →
       ∀ bs, a < 2 ^ 48 → inAperture a = false → s.load .tile a n = some bs → ∃ t, exec (.cpy k .start) s = .next t ∧ Finished s t k 3 e 0 none 0 ∧
         (∀ i, i < n → t.mem.at_ (tst k (d + i)) = s.mem.at_ (a + i)) ∧ StoreKept s t k (fun o => d ≤ o ∧ o < d + n)) ∧
     (n ≠ 0 → n < 2 ^ 48 → bitAt w 29 = false → bitAt w 28 = false → inTst a n = false → inTst d n = true →
       ∃ t m, exec (.cpy k .start) s = .next t ∧ Finished s t k 3 e 0 (some m) 0 ∧
         (∀ i, i < n → t.mem.at_ (tst k (d + i)) = none) ∧ StoreKept s t k (fun o => d ≤ o ∧ o < d + n))) ∧
  (∀ (k vs xs n : Nat) (base : W64) (ts olds : List Nat) (e : QEntry) (s : State), Starts s k 3 e → NoErrors s →
     wMajor e.word.toNat = 0x26 → n = bits e.word.toNat 11 0 → n ≠ 0 → Memory.wf s = true →
     e.op (bits e.word.toNat 37 34) = some base → e.opn (bits e.word.toNat 33 30) = some vs →
     e.opn (bits e.word.toNat 29 26) = some xs → vs % 8 = 0 → inTst vs (8 * n) = true → xs % 4 = 0 → inTst xs (4 * n) = true →
     ((∃ j, j < n ∧ s.mem.num (tst k (xs + 4 * j)) 4 = none) → ∃ t m, exec (.cscat k .start) s = .next t ∧
       Finished s t k 3 e 0 (some m) 0 ∧ { t with tiles := s.tiles } = s) ∧
     (ts.length = n → olds.length = n → ts.Pairwise (· ≠ ·) →
       (∀ j, j < n → ∃ i y, s.mem.num (tst k (xs + 4 * j)) 4 = some i ∧ ts[j]? = some y ∧
         s.xlate (base + BitVec.ofNat 64 (8 * i)) 8 = some y ∧ y % 8 = 0 ∧ inNear y 8 = true ∧ s.mem.num y 8 = olds[j]? ∧
         s.accessOk .tile y 8 = true ∧ ∀ bs : List (PVal Byte), bs.length = 8 → ∃ u, s.store .tile y bs = .ok u) →
       ∃ t, exec (.cscat k .start) s = .next t ∧ Finished s t k 3 e 0 none 1 ∧
         (∀ (j y : Nat), ts[j]? = some y → t.mem.num y 8 =
           (s.mem.num (tst k (vs + 8 * j)) 8).map fun v => (f64.add 0 (olds.getD j 0) v).1 % 2 ^ 64) ∧
         (∀ a, (∀ y ∈ ts, a < y ∨ y + 8 ≤ a) → t.mem.at_ a = s.mem.at_ a) ∧
         { t with tiles := s.tiles, mem := s.mem, cs := s.cs } = s))

/-- RGET and RATOM through a context that may send, with a route and every earlier request out (R184, R185, R320, R327): the get
asks for its bytes in parts cut at multiples of 2 KiB of the source offset, each with its place at the destination, the atomic
for its one answer; the entry is in flight with that many parts to come, and memory stays. RPUT from the tile store through a
context that may send (R184, R321): its bytes wait at the port of their route as STOREs cut at 64 B below 256 bytes, else as
PUTs cut at 2 KiB, in the order of their addresses, and the entry is in flight until the last has gone. RINV and CWAIT (R323,
R326): the lines of both caches that meet the range are gone; a CWAIT whose threshold is 0 or reached is done, on a context that
is not VALID it is an error, and else it waits. Lookups of contexts go to FLW_CHIT and FLW_CMISS. The model's own choices in it: log 1,
26, 46, 53 and 94. -/
def Obligations.RemoteInstructionsAskAndSend : Prop :=
  (∀ (k d c win off n : Nat) (r : W64) (x : Ctx) (e : QEntry) (s : State), Starts s k 3 e → s.sendCtx c = some x → Routed s x →
     AllSent s → remoteOf r = some (win, off) →
     let w := e.word.toNat
     (wMajor w = 0x21 → bitAt w 20 = false → e.opn (bits w 28 25) = some n → n ≠ 0 → n < 2 ^ 48 →
       e.opn (bits w 37 34) = some d → e.op (bits w 33 30) = some r → e.opn (bits w 24 21) = some c →
       s.cpyRange (bitAt w 29) d n = true → ∃ t, exec (.rget k .start) s = .next t ∧
         InFlight s t k e ((cuts 2048 off n).length * if bitAt w 29 && inAperture d then 2 else 1) ∧
         t.outst.map outKey = s.outst.map outKey ++
           (cuts 2048 off n).map (fun p => (.tile k e.id, bitAt w 29, d + (p.1 - off), p.2, c % 2 ^ 20, false)) ∧
         t.mem = s.mem ∧ (∀ j, j ≠ k → t.tile j = s.tile j)) ∧
     (wMajor w = 0x23 → bits w 25 22 < 10 → e.op (bits w 37 34) = some r → e.opn (bits w 33 30) = some d →
       e.opn (bits w 29 26) = some c → inTst d 64 = true →
       (∀ i, i < atomSize (bits w 25 22) → s.mem.at_ (tst k (d + i)) ≠ none ∧
         (5 ≤ bits w 25 22 → bits w 25 22 ≤ 7 → s.mem.at_ (tst k (d + 16 + i)) ≠ none)) →
       ∃ t, exec (.ratom k .start) s = .next t ∧ InFlight s t k e 1 ∧
         t.outst.map outKey = s.outst.map outKey ++ [(.tile k e.id, false, d, 0, c % 2 ^ 20, true)] ∧
         t.mem = s.mem ∧ (∀ j, j ≠ k → t.tile j = s.tile j))) ∧
  (∀ (k a c win off n i : Nat) (r : W64) (b : List Byte) (x : Ctx) (e : QEntry) (s : State), Starts s k 3 e →
     wMajor e.word.toNat = 0x22 → s.sendCtx c = some x → s.live x.tag x.gen = true → remoteOf r = some (win, off) →
     let w := e.word.toNat
     let g := if 256 ≤ n then 2048 else 64
     let pkt := fun (p : Nat × Nat) => ctxPacket (c % 2 ^ 20) x (if 256 ≤ n then 4 else 2) (if 256 ≤ n then 4 else 3) 0 0 0
       (BitVec.ofNat 64 (win * 2 ^ 40 + p.1)) (slice_ b (p.1 - off) p.2)
     e.opn (bits w 28 25) = some n → n ≠ 0 → n < 2 ^ 48 → e.op (bits w 37 34) = some r → e.opn (bits w 33 30) = some a →
     e.opn (bits w 24 21) = some c → bitAt w 29 = false → inTst a n = true → s.mem.rd (tst k a) n = b.map some →
     (∀ p, s.routeOwn (ownPacket s (pkt p)) = .port i) → ∃ t, exec (.rput k .start) s = .next t ∧
       InFlight s t k e (cuts g off n).length ∧
       ((t.port i).txq (if 256 ≤ n then 4 else 2)).map (·.rest) = ((s.port i).txq (if 256 ≤ n then 4 else 2)).map (·.rest) ++
         (cuts g off n).map (fun p => pktBytes (ownPacket s (pkt p))) ∧
       (∀ j, j ≠ i → t.port j = s.port j) ∧ (∀ j, j ≠ k → t.tile j = s.tile j) ∧
       { lookedUp s t with tiles := s.tiles, ports := s.ports } = s ∧ WordsKept s t lookupWord) ∧
  (∀ (k : Nat) (e : QEntry) (s : State), Starts s k 3 e →
     let w := e.word.toNat
     (∀ (r : W64) (win off n : Nat), wMajor w = 0x24 → e.opn (bits w 33 30) = some n → n ≠ 0 → n < 2 ^ 48 →
       e.op (bits w 37 34) = some r → remoteOf r = some (win, off) → ∃ t, exec (.rinv k .start) s = .next t ∧
         Finished s t k 3 e 0 none 0 ∧
         (∀ l, l ∈ t.rlc ↔ l ∈ s.rlc ∧ ¬ (l.win = win ∧ overlaps l.off 64 off n = true)) ∧
         { t with tiles := s.tiles, rlc := s.rlc, rinvs := s.rinvs } = s) ∧
     (∀ c th : Nat, wMajor w = 0x25 → e.opn (bits w 37 34) = some c → e.opn (bits w 33 30) = some th →
       ∃ t, exec (.cwait k .start) s = .next t ∧ { lookedUp s t with tiles := s.tiles } = s ∧ WordsKept s t lookupWord ∧
         (th % 2 ^ 48 = 0 ∨ (s.ctx (c % 2 ^ 20)).valid = true ∧ th % 2 ^ 48 ≤ (s.ctx (c % 2 ^ 20)).arrived.toNat →
           Finished s t k 3 e 0 none 0) ∧
         (th % 2 ^ 48 ≠ 0 → (s.ctx (c % 2 ^ 20)).valid = false → ∃ m, Finished s t k 3 e 0 (some m) 0) ∧
         ((s.ctx (c % 2 ^ 20)).valid = true → (s.ctx (c % 2 ^ 20)).arrived.toNat < th % 2 ^ 48 → InFlight s t k e 0)))

/-- ASM_PROGRAM_START and ASM_PASS_START (R192, R193, R201, R202): the head program starts when it is well formed, its matrix
is not held, and the partition takes work (R18); over a dense general matrix without right-hand side every stored element is
padding, +0 under CLEAR, and else what it held. A pass starts, or with COUNT 0 completes, once its counter has reached
WAIT_COUNT, and not before. ASM_RECORD (R195 to R198) of the running pass. A record that fails its checks is skipped: REC_ERR,
its event, and its position when it is the first; nothing is applied. One that passes counts as applied, and over a dense
general matrix without right-hand side every element of the applied rows takes its contributions one addition after the other,
in order, rounded RNE. ASM_PROGRAM_DONE and ASM_LATE (R199, R201, R202): after the last pass, with a credit of the solver
sequencer's input queue, the matrix-ready entry is posted, DONE raised and the arc completed, the header's SIG being written;
without a credit it waits. A program whose arc's guard is reached has LATE and STEP_LATE set and runs on. No error or hold is
met in memory.
The model's own choices in it: log 1, 6, 41 and 95. -/
def Obligations.AssemblyProgramsRun : Prop :=
  (∀ (p : Nat) (s : State), p < 16 → s.pageBusy (pgAsm p) = false →
     (∀ q rest g h, (s.part p).asm.run = none → (s.part p).asm.queue = q :: rest → s.asmProg (BitVec.ofNat 64 q.addr) = some g →
       s.takesWork p = true → s.matHeld p g.matrix = false → s.matHdr g.matrix = some h → NoHolds s →
       ∃ t, exec (.asmProgramStart p) s = .next t ∧
         (t.part p).asm = ⟨rest, some ⟨q.entry, q.addr, 0, false, 0, none, q.late⟩⟩ ∧
         t.reg64 (pgAsm p) 0x120 = q.addr / 64 * 64 % 2 ^ 48 ∧ t.tiles = s.tiles ∧ t.arcs = s.arcs ∧
         (h.sparse = false → h.sym = false → g.rhs = 0 → h.bricks.toNat + 512 * h.nb * h.nb ≤ 2 ^ 48 →
           Writable s h.bricks.toNat (512 * h.nb * h.nb) →
           (∀ i j, i < 8 * h.nb → j < 8 * h.nb →
             t.mem.num (denseAddr h.bricks.toNat h.nb i j) 8 =
               if h.n ≤ i ∨ h.n ≤ j then some (if i = j then 0x3FF0000000000000 else 0)
               else if g.clear = true then some 0 else s.mem.num (denseAddr h.bricks.toNat h.nb i j) 8) ∧
           (∀ x, x < h.bricks.toNat ∨ h.bricks.toNat + 512 * h.nb * h.nb ≤ x → t.mem.at_ x = s.mem.at_ x))) ∧
     (∀ r g h q, s.asmNow p = some (r, g, h) → g.passes[r.pass]? = some q → r.started = false →
       ∃ t, exec (.asmPassStart p) s = .next t ∧ { t with parts := s.parts } = s ∧ (∀ v, v ≠ p → t.part v = s.part v) ∧
         (t.part p).asm.queue = (s.part p).asm.queue ∧
         ((arcTokOf s p q.waitIdx).toNat < q.waitCount → t = s) ∧
         (q.waitCount ≤ (arcTokOf s p q.waitIdx).toNat →
           (t.part p).asm.run = some (if q.count = 0 then
             { r with pass := r.pass + 1, started := false, recNo := 0, lastSrc := none }
             else { r with started := true, recNo := 0, lastSrc := none })))) ∧
  (∀ (p : Nat) (r : AsmRun) (g : AsmProg) (h : MatHdr) (q : AsmPass) (s : State), p < 16 → s.pageBusy (pgAsm p) = false →
     s.asmNow p = some (r, g, h) → g.passes[r.pass]? = some q → r.started = true → NoErrors s →
     let rd := fun n => s.loadX .unit (plus q.recs (r.recNo * q.slot)) n
     let rec_ := if q.kind = 1 then elementRec rd q.slot h.n r.lastSrc else observationRec rd q.slot h.n r.lastSrc
     (rec_ = none → ∃ t, exec (.asmRecord p) s = .next t ∧ (t.part p).asm.run = some (r.nextRec q r.lastSrc) ∧
       t.bit (pgAsm p) 0x100 8 = true ∧ t.bit (pgAsm p) 0x010 1 = true ∧
       (s.bit (pgAsm p) 0x100 8 = false → t.reg (pgAsm p) 0x104 = BitVec.ofNat 32 r.recNo) ∧
       { wordsOf s t with parts := s.parts, router := s.router } = s ∧ (∀ v, v ≠ p → t.part v = s.part v) ∧
       WordsKept s t (fun pg o => pg == pgAsm p && [0x100, 0x104, 0x11C].contains o || eventWord (pgAsm p) pg o)) ∧
     (∀ c, rec_ = some c → NoHolds s → ∃ t, exec (.asmRecord p) s = .next t ∧
       (t.part p).asm.run = some (r.nextRec q (some c.src)) ∧
       (t.reg (pgAsm p) 0x110).toNat = min (2 ^ 32 - 1) ((s.reg (pgAsm p) 0x110).toNat + 1) ∧
       t.tiles = s.tiles ∧ t.arcs = s.arcs ∧ (∀ v, v ≠ p → t.part v = s.part v) ∧
       (h.sparse = false → h.sym = false → g.rhs = 0 → h.bricks.toNat + 512 * h.nb * h.nb ≤ 2 ^ 48 →
         Writable s h.bricks.toNat (512 * h.nb * h.nb) →
         (∀ i j, g.lo ≤ i / 8 → i / 8 < g.hi → i < h.n → j < h.n →
           t.mem.num (denseAddr h.bricks.toNat h.nb i j) 8 =
             (c.parts.filter fun x => x.1 == .mat i j).foldl (fun v x => ((padd v x.2.1).1).map (· % 2 ^ 64))
               (s.mem.num (denseAddr h.bricks.toNat h.nb i j) 8)) ∧
         (∀ x, x < h.bricks.toNat ∨ h.bricks.toNat + 512 * h.nb * h.nb ≤ x → t.mem.at_ x = s.mem.at_ x)))) ∧
  (∀ (p : Nat) (r : AsmRun) (g : AsmProg) (h : MatHdr) (x : ArcEnt) (s : State), p < 16 → s.asmNow p = some (r, g, h) →
     (s.arcu p).active[r.entry]? = some x → x.st = .fired →
     (s.pageBusy (pgAsm p) = false → g.passes.length ≤ r.pass → NoHolds s →
       ((s.part p).slv.ready.length < 8 → ∃ t, exec (.asmProgramDone p) s = .next t ∧ (t.part p).asm.run = none ∧
         (t.part p).asm.queue = (s.part p).asm.queue ∧ (t.part p).slv.ready = (s.part p).slv.ready ++ [g.matrix.toNat] ∧
         (t.part p).slv.queue = (s.part p).slv.queue ∧ (t.part p).slv.run = (s.part p).slv.run ∧
         t.bit (pgAsm p) 0x010 3 = true ∧ ArcDone s t p r.entry x ∧ t.tiles = s.tiles ∧
         (h.n = 0 → t.mem = s.mem) ∧
         (h.n ≠ 0 → h.sym = false → g.diag = false → ∀ u, s.storeX .unit (plus h.at_ 48) (pBytes 8 (s.signature h)) = .ok u →
           t.mem = u.mem)) ∧
       (8 ≤ (s.part p).slv.ready.length → exec (.asmProgramDone p) s = .next s)) ∧
     (r.late = false → s.guardReached x.guard_ = true → ∃ t, exec (.asmLate p) s = .next t ∧
       (t.part p).asm.run = some { r with late := true } ∧ t.bit (pgAsm p) 0x100 10 = true ∧ t.bit (pgAsm p) 0x010 0 = true ∧
       (∀ v, v ≠ p → t.part v = s.part v) ∧ { wordsOf s t with parts := s.parts, router := s.router } = s ∧
       WordsKept s t (fun pg o => pg == pgAsm p && o == 0x100 || eventWord (pgAsm p) pg o)))

/-- SOLVE_REQUEST_START (R218 to R225, R207, R232): the head request, whose program is readable and has nothing reserved set,
with no assembly of its matrix pending. N = 0 ends EMPTY; a failed check ends SOLVE_ERR with its bit of SLV_STAT and its event;
and one that passes begins in its first phase, rejecting a warm start whose SIG differs. The recomputed signature goes to
SLV_SIGLAST; a request that ran past its guard while it waited carries STEP_LATE. SOLVE_COMMIT_POINT and FACTOR_WORK_LIST_DONE
(R206, R207, R210, R227 to R232). A commit unit of an iterative method after iteration 0 that does not break down goes to
SLV_ITER and SLV_RESID; the request ends CONVERGED when its norm is at most the tolerance, else MAXITER at the limit, else
BOUNDED_STOP when BOUNDED and past its guard, else goes on; a NaN or infinite norm ends it with BREAKDOWN, and so does a
breakdown. The end of a FACTOR request's factor writes the pivot registers, when no poisoned pivot was tested. A work list
takes the lower free slot of 0 and 1 (R244), and its end advances the factor: the items' list, its commit, then the next step's
or the next column's. SOLVE_GUARD_LATE (R230): the first time the running request, or the one that waits at the head, is past
its guard, SLV_STAT.LATE is set, STEP_LATE raised and SLV_LATECNT raised by one, and the request goes on; the second time
nothing happens. No error or hold is met in memory.
The model's own choices in it: log 1, 6, 42, 43, 44, 88 and 95. -/
def Obligations.SolvesRunToTheirEnd : Prop :=
  (∀ (p : Nat) (q0 : SolveReq) (rest : List SolveReq) (b : List Byte) (h : MatHdr) (s : State), p < 16 →
     s.pageBusy (pgSlv p) = false → (s.part p).slv.run = none → (s.part p).slv.queue = q0 :: rest →
     s.solveBytes (BitVec.ofNat 64 q0.addr) = some b → solveReserved b = false → s.takesWork p = true → NoHolds s →
     let g := solveProgOf b
     let late := if q0.late then 256 else 0
     s.assembling p g.matrix = false → s.matHdr g.matrix = some h →
     ∃ t, exec (.solveRequestStart p) s = .next t ∧ (t.part p).slv.queue = rest ∧
       (∀ v, s.signature h = some v → t.reg64 (pgSlv p) 0x1C8 = v % 2 ^ 64) ∧ (∀ v, v ≠ p → t.part v = s.part v) ∧
       (h.n = 0 → (t.part p).slv.run = none ∧ (t.reg (pgSlv p) 0x1B0).toNat = 1 + late ∧ t.bit (pgSlv p) 0x010 3 = true) ∧
       (∀ bit, h.n ≠ 0 → s.solveCheck p g h = some bit → (t.part p).slv.run = none ∧
         (t.reg (pgSlv p) 0x1B0).toNat = 6 + late ∧ t.bit (pgSlv p) 0x1A0 bit = true ∧ t.bit (pgSlv p) 0x010 2 = true ∧
           t.bit (pgSlv p) 0x010 3 = true) ∧
       (h.n ≠ 0 → s.solveCheck p g h = none → ∃ r, (t.part p).slv.run = some r ∧ r.req = q0.resolve g ∧
         r.phase = g.firstPhase ∧ r.col = 0 ∧ r.iter = 0 ∧ r.late = q0.late ∧
         (g.iterative = true → g.warm = true →
           (∀ v w, s.vecHdr g.x = some v → s.signature h = some w → v.sig = some (w % 2 ^ 64) →
             r.vecs = [s.vecAtHdr g.x h.n] ∧ r.flags = q0.lateFlag) ∧
           (∀ v w, s.vecHdr g.x = some v → s.signature h = some w → v.sig ≠ some (w % 2 ^ 64) →
             r.vecs = [zeros h.n] ∧ r.flags = q0.lateFlag ||| 2 ∧ t.bit (pgSlv p) 0x1A0 13 = true ∧ t.bit (pgSlv p) 0x010 1 = true)) ∧
         (g.warm = false → r.vecs = [zeros h.n]))) ∧
  (∀ (p : Nat) (r : SolveRun) (g : SolveProg) (h : MatHdr) (s : State), p < 16 → s.pageBusy (pgSlv p) = false →
     s.solveNow p = some (r, g, h) → NoHolds s → NoErrors s →
     (r.phase = .iterate → r.list ≠ 0 → ∃ t, exec (.solveCommitPoint p) s = .next t ∧
       let u := s.nextUnit g h r false
       let tol := (pmul (some g.tol) r.bnorm).1
       let final := fun (c : Nat) => (t.part p).slv.run = none ∧ t.fld (pgSlv p) 0x1B0 7 0 = c ∧ t.bit (pgSlv p) 0x010 3 = true
       (u.broke = true → final 4) ∧
       (u.broke = false →
         (t.reg (pgSlv p) 0x1B4).toNat = u.iter % 2 ^ 32 ∧
         (∀ v, (pdiv u.rnorm r.bnorm).1 = some v → t.reg64 (pgSlv p) 0x1C0 = v % 2 ^ 64) ∧
         (pfinite u.rnorm = false → final 4) ∧
         (pfinite u.rnorm = true → ple u.rnorm tol = true → final 0) ∧
         (pfinite u.rnorm = true → ple u.rnorm tol = false → g.maxit ≤ u.iter → final 2) ∧
         (pfinite u.rnorm = true → ple u.rnorm tol = false → u.iter < g.maxit → r.req.bounded = true → s.solveGuard r = true →
           final 3 ∧ t.bit (pgSlv p) 0x1A0 14 = true ∧ t.bit (pgSlv p) 0x010 4 = true) ∧
         (pfinite u.rnorm = true → ple u.rnorm tol = false → u.iter < g.maxit →
           r.req.bounded = false ∨ s.solveGuard r = false → ∃ r1, (t.part p).slv.run = some r1 ∧ r1.iter = u.iter ∧
             r1.phase = .iterate ∧ r1.vecs = u.x :: u.vecs ∧ r1.req = r.req))) ∧
     (r.phase = .factor → h.nb ≤ r.col → g.method = 0 → ∃ t, exec (.solveCommitPoint p) s = .next t ∧
       (t.part p).slv.run = none ∧ t.fld (pgSlv p) 0x1B0 7 0 = 5 ∧ t.bit (pgSlv p) 0x010 3 = true ∧
       (r.piv.pois = false → (t.reg (pgSlv p) 0x180).toNat = r.piv.rep % 2 ^ 32 ∧
         (t.reg (pgSlv p) 0x184).toNat = r.piv.zero % 2 ^ 32 ∧ (t.reg (pgSlv p) 0x188).toNat = r.piv.nf % 2 ^ 32)) ∧
     (r.phase = .factor → r.col < h.nb → r.slot = none → (∀ j w, (s.part p).wl[j]? = some w → j < 2 → w.active = true) →
       exec (.factorWorkListDone p) s = .next s) ∧
     (∀ j w, r.phase = .factor → r.col < h.nb → r.slot = none → j < 2 → (s.part p).wl[j]? = some w → w.active = false →
       (∀ i y, i < j → (s.part p).wl[i]? = some y → y.active = true) →
       ∃ t, exec (.factorWorkListDone p) s = .next t ∧ (t.part p).slv.run = some { r with slot := some j } ∧
         (t.part p).wl = (s.part p).wl.set j { WlSlot.free with active := true, own := true } ∧
         (∀ v, v ≠ p → t.part v = s.part v) ∧ { t with parts := s.parts } = s) ∧
     (∀ f, r.phase = .factor → r.col < h.nb → r.slot ≠ none → s.matHdr g.fhdr = some f →
       let lists := 2 * (s.factorPlan g h r.col).length
       let piv := if r.list = 0 then (pivotPanel ⟨g.kind, r.on, r.thr, r.rep⟩ h r.col r.piv
         (s.matMap (factorFrom h (h.withBricks f.bricks) r.col 0))).st else r.piv
       ∃ t r1, exec (.factorWorkListDone p) s = .next t ∧ (t.part p).slv.run = some r1 ∧ t.tiles = s.tiles ∧ t.arcs = s.arcs ∧
         (r.list + 1 < lists → { r1 with slot := none } = { r with list := r.list + 1, slot := none, piv := piv }) ∧
         (lists ≤ r.list + 1 → { r1 with slot := none } = { r with col := r.col + 1, list := 0, slot := none, piv := piv }))) ∧
  (∀ (p : Nat) (r : SolveRun) (s : State), p < 16 → (s.part p).slv.run = some r → s.solveGuard r = true →
     ∃ t, exec (.solveGuardLate p) s = .next t ∧
       (r.late = false → (t.part p).slv.run = some { r with late := true, flags := r.flags ||| 1 } ∧
         t.bit (pgSlv p) 0x1A0 12 = true ∧ t.bit (pgSlv p) 0x010 0 = true ∧
         (t.reg (pgSlv p) 0x1B8).toNat = min (2 ^ 32 - 1) ((s.reg (pgSlv p) 0x1B8).toNat + 1) ∧
         { wordsOf s t with parts := s.parts, router := s.router } = s ∧ (∀ v, v ≠ p → t.part v = s.part v) ∧
         WordsKept s t (fun pg o => pg == pgSlv p && (o == 0x1A0 || o == 0x1B8) || eventWord (pgSlv p) pg o)) ∧
       (r.late = true → t = s)) ∧
  (∀ (p : Nat) (q : SolveReq) (rest : List SolveReq) (s : State), p < 16 → (s.part p).slv.run = none →
     (s.part p).slv.queue = q :: rest → q.late = false → s.guardReached (s.waitGuard q) = true →
     ∃ t, exec (.solveGuardLate p) s = .next t ∧ (t.part p).slv.queue = { q with late := true } :: rest ∧
       t.bit (pgSlv p) 0x1A0 12 = true ∧ t.bit (pgSlv p) 0x010 0 = true ∧ Counted s t (pgSlv p) 0x1B8)

/-- FPL_COMMIT and FPL_LOAD_DONE (R237, R238): COMMIT = 1 starts the copy and discards a ready table; an image of at most 32
entries in the partition's metadata, every entry passing, is ready; the first failing entry, or an image too long (1) or
elsewhere or unreadable (2), sets COMMIT_ERR with its index and code and raises it. The active table stays. REP_VARCLR clears the
variance total and its sources (R262), but for what was counted in the same nanosecond (R261). Which writes an active field table forbids
(R239): bytes of a FROZEN entry at any time, bytes of a PAIR entry's read half while a step runs and not outside one, a release that is
due in this nanosecond coming first (R245), and none of a SCRATCH entry. A write to the near tier that an active entry forbids (R239), by
anyone but the exempt: an error response, no byte of memory changed, FROZEN_WR or PAIR_WR set with its event, FPL_WRCNT one higher, and
the entry and address recorded when both bits were clear. The model's own choices in it: log 1 and 88. -/
def Obligations.FieldTablesCommitAndProtect : Prop :=
  (∀ (p : Nat) (s : State), p < 16 →
     (∀ w : W32, s.pageBusy (pgFpl p) = false → ∃ t, exec (.fplCommit p w) s = .next t ∧
       t.reg (pgFpl p) 0x100 = w &&& 0x3F00 ∧ (t.part p).fpl.active = (s.part p).fpl.active ∧
       (w.getLsbD 0 = true → (t.part p).fpl.loading = some (s.reg64 (pgFpl p) 0x108, bits w.toNat 13 8) ∧
         (t.part p).fpl.ready = none) ∧
       (w.getLsbD 0 = false → t.parts = s.parts) ∧ (∀ v, v ≠ p → t.part v = s.part v) ∧
       { wordsOf s t with parts := s.parts } = s ∧ WordsKept s t (fun pg o => pg == pgFpl p && o == 0x100)) ∧
     (∀ (a n : Nat) (bs : List (PVal Byte)), (s.part p).fpl.loading = some (a, n) → n ≤ 32 →
       (n = 0 ∨ metaOf p ≤ a ∧ a + 32 * n ≤ metaOf p + 0x4000000) → s.load .unit a (32 * n) = some bs →
       ∃ t, exec (.fplLoadDone p) s = .next t ∧ (t.part p).fpl.active = (s.part p).fpl.active ∧ (t.part p).fpl.loading = none ∧
         (∀ v, v ≠ p → t.part v = s.part v) ∧ { wordsOf s t with parts := s.parts, router := s.router } = s ∧
         (∀ xs : List FplEnt, xs.length = n →
           (∀ i x, xs[i]? = some x → ∃ b : List Byte, (bs.drop (32 * i)).take 32 = b.map some ∧ x = fplEntOf b ∧
             fplCheck b (xs.take i) = 0) →
           (t.part p).fpl.ready = some xs ∧ t.regs = s.regs) ∧
         (∀ (xs : List FplEnt) (i code : Nat), i < n → xs.length = i →
           (∀ j x, xs[j]? = some x → ∃ b : List Byte, (bs.drop (32 * j)).take 32 = b.map some ∧ x = fplEntOf b ∧
             fplCheck b (xs.take j) = 0) →
           ((∃ b : List Byte, (bs.drop (32 * i)).take 32 = b.map some ∧ fplCheck b xs = code ∧ code ≠ 0) ∨
             none ∈ (bs.drop (32 * i)).take 32 ∧ code = 8) →
           (t.part p).fpl.ready = (s.part p).fpl.ready ∧ t.bit (pgFpl p) 0x110 4 = true ∧ t.bit (pgFpl p) 0x010 0 = true ∧
             t.fld (pgFpl p) 0x110 12 8 = i ∧ t.fld (pgFpl p) 0x110 19 16 = code)) ∧
     (∀ a n : Nat, (s.part p).fpl.loading = some (a, n) →
       32 < n ∨ n ≠ 0 ∧ ¬ (metaOf p ≤ a ∧ a + 32 * n ≤ metaOf p + 0x4000000) ∨ s.load .unit a (32 * n) = none →
       ∃ t, exec (.fplLoadDone p) s = .next t ∧ (t.part p).fpl = { (s.part p).fpl with loading := none } ∧
         t.bit (pgFpl p) 0x110 4 = true ∧ t.bit (pgFpl p) 0x010 0 = true ∧ t.fld (pgFpl p) 0x110 12 8 = 0 ∧
         t.fld (pgFpl p) 0x110 19 16 = (if 32 < n then 1 else 2) ∧ (∀ v, v ≠ p → t.part v = s.part v) ∧
         { wordsOf s t with parts := s.parts, router := s.router } = s) ∧
     (s.pageBusy pgRep = false → ∃ t, exec .repVarclr s = .next t ∧ t.reg64 pgRep 0x108 = s.cntNow pgRep 0x108 % 2 ^ 64 ∧
       (∀ i, i < 5 → (t.reg pgRep (0x118 + 4 * i)).toNat = s.cntNow pgRep (0x118 + 4 * i) % 2 ^ 32) ∧ wordsOf s t = s ∧
       WordsKept s t (fun pg o => pg == pgRep && [0x108, 0x10C, 0x118, 0x11C, 0x120, 0x124, 0x128].contains o))) ∧
  (∀ (e : FplEnt) (l o n : Nat) (s : State), e.kind = 1 ∨ e.kind = 2 ∨ e.kind = 3 →
     let meets := fun (lo len : Nat) => e.first ≤ l ∧ l < e.first + e.nsl ∧ ∃ x, o ≤ x ∧ x < o + n ∧ lo ≤ x ∧ x < lo + len
     let steps : Prop := s.releaseDue.isSome = true ∨ s.tb.instep = true
     let half := match s.releaseDue with
       | some h => h.mark.stepIndex.toNat % 2
       | none => s.tb.stepIdx.toNat % 2
     (s.entForbids e l o n = some 6 ↔ e.kind = 2 ∧ meets e.off e.len) ∧
     (s.entForbids e l o n = some 5 ↔ e.kind = 1 ∧ steps ∧ meets (e.off + half * e.len) e.len) ∧
     (s.entForbids e l o n = none ↔ ¬ (e.kind = 2 ∧ meets e.off e.len) ∧ ¬ (e.kind = 1 ∧ steps ∧ meets (e.off + half * e.len) e.len))) ∧
  (∀ (w : Who) (a p i b q : Nat) (bs : List (PVal Byte)) (s : State), w ≠ .exempt → bs ≠ [] → s.accessOk w a bs.length = true →
     regionOf a = .near q → p < 16 → s.fplForbids (s.pieces 1200 a bs.length) = some (p, i, b) →
     ∃ t, s.store w a bs = .err t ∧ t.mem = s.mem ∧ (b = 5 ∨ b = 6) ∧ t.bit (pgFpl p) 0x110 b = true ∧
       t.bit (pgFpl p) 0x010 (b - 4) = true ∧
       (t.reg (pgFpl p) 0x118).toNat = min (2 ^ 32 - 1) ((s.reg (pgFpl p) 0x118).toNat + 1) ∧
       (s.bit (pgFpl p) 0x110 5 = false → s.bit (pgFpl p) 0x110 6 = false →
         t.fld (pgFpl p) 0x110 28 24 = i % 32 ∧ t.reg64 (pgFpl p) 0x120 = a % 2 ^ 64) ∧
       { wordsOf s t with router := s.router } = s)

/-- NT_SCRUB_PASS and ROW_SPARE_DONE (R269 to R271): over memory with no error standing in it, the pass counts what it
corrected and itself; each 64-bit word it found uncorrectable reads as poison afterwards, with UE, and no other byte changes. A
row that is spared takes one of its S-die's spare rows, sets SPARE_DONE, and SPARE_OUT when that was the last, and leaves
memory as it is. FT_TEMP_SAMPLE (R275, R477): below 115 °C the sample is recorded, the maximum kept, and REFMODE is the highest
mode whose threshold is passed, or was passed and is not yet 2 °C below; entering mode 3 sets THROT. At 115 °C and above the
module trips. ARB_WINDOW, ARB_DECISION, ARB_BACKOFF_END and FT_PORT_WDOG (R278 to R280, R282): a window sets every counter to
its weight; the fullest counter present wins, ties to the lowest number, and pays its beats; a loser waits 16 cycles, doubling
up to 4096; a grant above 65,536 cycles is cut off, refilling every counter and clearing every back-off.
The model's own choices in it: log 1, 12, 56, 57 and 58. -/
def Obligations.MemoryTiersScrubSpareAndArbitrate : Prop :=
  (∀ (p : Nat) (s : State), p < 16 →
     (∀ ce ue : List Nat, s.bit (pgNear p) 0x100 0 = true → NoErrors s → ∃ t, exec (.ntScrubPass p ce ue) s = .next t ∧
       (t.reg (pgNear p) 0x108).toNat = min (2 ^ 32 - 1) ((s.reg (pgNear p) 0x108).toNat + ce.length) ∧
       (t.reg (pgNear p) 0x11C).toNat = min (2 ^ 32 - 1) ((s.reg (pgNear p) 0x11C).toNat + 1) ∧
       (∀ x, t.mem.at_ x = if ∃ o ∈ ue, (nearOf p + o % 0x100000000) / 8 = x / 8 then none else s.mem.at_ x) ∧
       (ue ≠ [] → t.bit (pgNear p) 0x104 8 = true ∧ t.bit (pgNear p) 0x010 0 = true) ∧
       (∀ v, v ≠ p → t.part v = s.part v) ∧ t.tiles = s.tiles) ∧
     (∀ row, (s.part p).sparing.contains row = true → ∃ t, exec (.rowSpareDone p row) s = .next t ∧ t.mem = s.mem ∧
       t.bit (pgNear p) 0x104 9 = true ∧ t.bit (pgNear p) 0x010 1 = true ∧ (t.part p).sparing.contains row = false ∧
       row ∈ (t.part p).spared ∧
       ((t.part p).sparesOf (sdieOf (row * 4096)) = 0 → t.bit (pgNear p) 0x104 10 = true ∧ t.bit (pgNear p) 0x010 2 = true) ∧
       (t.part p).spares0 + (t.part p).spares1 =
         (if sdieOf (row * 4096) = 0 then (s.part p).spares0 - 1 + (s.part p).spares1
          else (s.part p).spares0 + ((s.part p).spares1 - 1)) ∧ (∀ v, v ≠ p → t.part v = s.part v))) ∧
  (∀ (p : Nat) (v : BitVec 12) (s : State), p < 16 → (s.part p).far.refmode < 4 →
     (s.power.tripped = true → ∃ t, exec (.ftTempSample p v) s = .next t ∧
       t.part p = { s.part p with far := { (s.part p).far with temp := v } } ∧ { t with parts := s.parts } = s) ∧
     (s.power.tripped = false → 920 ≤ v.toNat → ∃ t, exec (.ftTempSample p v) s = .next t ∧ t.power.tripped = true ∧
       t.bit pgPower 0x12C 0 = true ∧ (t.part p).far.temp = v) ∧
     (s.power.tripped = false → v.toNat < 920 → ∃ t, exec (.ftTempSample p v) s = .next t ∧ (t.part p).far.temp = v ∧
       let old := (s.part p).far.refmode
       let new := (t.part p).far.refmode
       let hot := fun (k : Nat) => 600 + 80 * k < v.toNat ∨ k ≤ old ∧ 600 + 80 * k < v.toNat + 16
       new < 4 ∧ (new ≠ 0 → hot new) ∧ (∀ k, new < k → k < 4 → ¬ hot k) ∧
       t.fld (pgFar p) 0x108 27 16 = max v.toNat (s.fld (pgFar p) 0x108 27 16) ∧
       (new = 3 → old ≠ 3 → t.bit (pgFar p) 0x104 10 = true ∧ t.bit (pgFar p) 0x010 2 = true) ∧
       t.mem = s.mem ∧ t.tiles = s.tiles ∧ (∀ q, q ≠ p → t.part q = s.part q))) ∧
  (∀ (p : Nat) (s : State), p < 16 →
     (∃ t, exec (.arbWindow p) s = .next t ∧
       (∀ n, n < 16 → mget 0 (t.part p).far.credit n = min 4096 (s.fld (pgFar p) (0x140 + 4 * n) 12 0)) ∧
       { t.part p with far := { (t.part p).far with credit := (s.part p).far.credit } } = s.part p ∧
       (∀ v, v ≠ p → t.part v = s.part v) ∧ { t with parts := s.parts } = s) ∧
     (∀ (reqs : List BurstReq) (w : BurstReq), s.pageBusy (pgFar p) = false → (reqs.map (·.n)).Nodup →
       (∀ r ∈ reqs, r.n < 16 ∧ mget 0 (s.part p).far.back r.n ≤ s.clk ∧ (s.part p).far.wdNext ≠ some (r.n, s.clk)) → w ∈ reqs →
       (∀ r ∈ reqs, mget 0 (s.part p).far.credit r.n < mget 0 (s.part p).far.credit w.n ∨
         mget 0 (s.part p).far.credit r.n = mget 0 (s.part p).far.credit w.n ∧ w.n ≤ r.n) →
       ∃ t, exec (.arbDecision p reqs) s = .next t ∧ (t.part p).far.holder = some (w.n, s.clk) ∧
         mget 0 (t.part p).far.credit w.n = mget 0 (s.part p).far.credit w.n - burstBeats w ∧
         (∀ n, n ≠ w.n → mget 0 (t.part p).far.credit n = mget 0 (s.part p).far.credit n) ∧
         mget 0 (t.part p).far.boexp w.n = 0 ∧ mget 0 (t.part p).far.back w.n = 0 ∧
         (∀ r ∈ reqs, r.n ≠ w.n →
           mget 0 (t.part p).far.back r.n = s.clk + 16 * 2 ^ mget 0 (s.part p).far.boexp r.n ∧
           mget 0 (t.part p).far.boexp r.n = min 8 (mget 0 (s.part p).far.boexp r.n + 1) ∧
           (t.reg (pgFar p) (0x180 + 4 * r.n)).toNat = min (2 ^ 32 - 1) ((s.reg (pgFar p) (0x180 + 4 * r.n)).toNat + 1)) ∧
         (t.reg (pgFar p) 0x120).toNat = min (2 ^ 32 - 1) ((s.reg (pgFar p) 0x120).toNat + burstBeats w) ∧
         t.mem = s.mem ∧ (∀ v, v ≠ p → t.part v = s.part v)) ∧
     (∀ n, mget 0 (s.part p).far.back n ≠ 0 → mget 0 (s.part p).far.back n ≤ s.clk → ∃ t, exec (.arbBackoffEnd p n) s = .next t ∧
       mget 0 (t.part p).far.back n = 0 ∧ (∀ m, m ≠ n → mget 0 (t.part p).far.back m = mget 0 (s.part p).far.back m) ∧
       (∀ v, v ≠ p → t.part v = s.part v) ∧ { t with parts := s.parts } = s) ∧
     (∀ n t0, (s.part p).far.holder = some (n, t0) → n < 16 → t0 + 65536 < s.clk → ∃ t, exec (.ftPortWdog p) s = .next t ∧
       (∀ m, m < 16 → mget 0 (t.part p).far.credit m = min 4096 (s.fld (pgFar p) (0x140 + 4 * m) 12 0) ∧
         mget 0 (t.part p).far.back m = 0) ∧
       (t.part p).far.holder = none ∧ t.bit (pgFar p) 0x104 9 = true ∧ t.bit (pgFar p) 0x010 1 = true ∧
       t.fld (pgFar p) 0x200 3 0 = n ∧ t.fld (pgFar p) 0x200 15 8 = min 255 (s.fld (pgFar p) 0x200 15 8 + 1) ∧
       t.mem = s.mem ∧ (∀ v, v ≠ p → t.part v = s.part v)))

/-- PORT_ENABLE, PORT_TRAIN_DONE and LANE_FAIL (Table 13.2, R288, R290): ENABLE = 0 makes a port DOWN, ENABLE = 1 trains a
powered DOWN one; lock on 4 lanes with the right far end makes it UP, on fewer DEGRADED, a wrong far end or the third attempt
without lock FAILED; a lane lost in service makes it train again with its queues kept and its replay buffer to be resent.
FLIT_RX (R293, R294) on a linked port whose unit works; the FEC's codewords are counted. A flit that fails its CRC is discarded and its
number due as a negative acknowledgement; one out of sequence is discarded; the next in sequence is taken, its bytes put to its channel's
packet, and a packet that ends enters its channel's receive buffer; an acknowledgement frees what it covers, and a negative one has the
rest resent. FLIT_TX (R292 to R295) on a linked port: a flit to be resent goes first, as it was but for its acknowledgement and CRC; with
no channel ready an idle flit goes that takes no sequence number; and with room in the replay buffer, the one ready channel, when VC0 or
when its turn has deficit left, sends the next 244 bytes of its packet with the next sequence number, takes a credit, and keeps the flit
for replay. The model's own choices in it: log 1, 12, 47 and 93. -/
def Obligations.PortsTrainAndFlitsPass : Prop :=
  (∀ (i : Nat) (s : State), i < 72 →
     (∀ w : W32, s.pageBusy (pgPort i) = false → ∃ t, exec (.portEnable i w) s = .next t ∧
       (w.getLsbD 0 = false → (t.port i).st = .down ∧ (t.port i).lanes = 0) ∧
       (w.getLsbD 0 = true → (s.port i).st = .down → s.portPowered i = true → (t.port i).st = .training ∧
         (t.port i).attempts = 0 ∧ (t.reg (pgPort i) 0x120).toNat = min (2 ^ 32 - 1) ((s.reg (pgPort i) 0x120).toNat + 1)) ∧
       (w.getLsbD 0 = true → (s.port i).st ≠ .down → t.port i = s.port i) ∧
       (t.port i).tx = (s.port i).tx ∧ (t.port i).replay = (s.port i).replay ∧ (∀ j, j ≠ i → t.port j = s.port j)) ∧
     (∀ r : TrainResult, (s.port i).st = .training → ∃ t, exec (.portTrainDone i r) s = .next t ∧
       (∀ j, j ≠ i → { t.port j with tx := (s.port j).tx } = s.port j) ∧
       (r.lanes = 15 → s.farOk_ i r = true → (t.port i).st = .up ∧ (t.port i).lanes = 15 ∧ (t.port i).peerSlot = r.farSlot ∧
         (t.port i).tx = (s.port i).tx) ∧
       (r.lanes ≠ 0 → r.lanes ≠ 15 → s.farOk_ i r = true → (t.port i).st = .degraded ∧ (t.port i).lanes = keepLanes r.lanes ∧
         (t.port i).tx = (s.port i).tx ∧ t.bit (pgPort i) 0x104 8 = true ∧ t.bit (pgPort i) 0x010 0 = true) ∧
       (r.lanes ≠ 0 ∧ s.farOk_ i r = false ∨ r.lanes = 0 ∧ 2 ≤ (s.port i).attempts → (t.port i).st = .failed ∧
         t.bit (pgPort i) 0x104 9 = true ∧ t.bit (pgPort i) 0x010 1 = true) ∧
       (r.lanes = 0 → (s.port i).attempts < 2 → (t.port i).st = .training ∧ (t.port i).attempts = (s.port i).attempts + 1)) ∧
     (∀ lane, (s.port i).linked = true → (s.port i).lanes.getLsbD lane = true → ∃ t, exec (.laneFail i lane) s = .next t ∧
       (t.port i).st = .training ∧ (t.port i).lanes.getLsbD lane = false ∧ (t.port i).resend = (s.port i).replay ∧
       (t.port i).replay = (s.port i).replay ∧ (t.port i).tx = (s.port i).tx ∧ (t.port i).pkts = (s.port i).pkts ∧
       (∀ j, j ≠ i → t.port j = s.port j))) ∧
  (∀ (i cw unc : Nat) (f : Flit) (s : State), i < 72 → (s.port i).linked = true → (s.unit (1664 + i)).st ≠ .fenced →
     (s.unit (1664 + i)).st ≠ .off → ∃ t, exec (.flitRx i ⟨cw, unc, f⟩) s = .next t ∧
     (∀ j, j ≠ i → t.port j = s.port j) ∧ t.mem = s.mem ∧ t.inbox = s.inbox ∧
     (t.reg (pgPort i) 0x110).toNat = min (2 ^ 32 - 1) ((s.reg (pgPort i) 0x110).toNat + cw) ∧
     (t.reg (pgPort i) 0x114).toNat = min (2 ^ 32 - 1) ((s.reg (pgPort i) 0x114).toNat + unc) ∧
     (flitOk f = false → (t.port i).expSeq = (s.port i).expSeq ∧ (t.port i).nakDue = some (s.port i).expSeq ∧
       (t.port i).pkts = (s.port i).pkts ∧ (t.port i).replay = (s.port i).replay ∧ Counted s t (pgPort i) 0x118) ∧
     (flitOk f = true → f.seq ≠ (s.port i).expSeq → (t.port i).expSeq = (s.port i).expSeq ∧
       (t.port i).pkts = (s.port i).pkts ∧ (t.port i).rx = (s.port i).rx ∧ (t.port i).replay = (s.port i).replay ∧
       ((s.port i).discarding = false → (t.port i).nakDue = some (s.port i).expSeq)) ∧
     (flitOk f = true → f.idle = true → f.seq = (s.port i).expSeq → (t.port i).expSeq = (s.port i).expSeq ∧
       (t.port i).pkts = (s.port i).pkts ∧ (t.port i).rx = (s.port i).rx) ∧
     (flitOk f = true → f.idle = false → f.seq = (s.port i).expSeq →
       (t.port i).expSeq = (s.port i).expSeq + 1 ∧ (∀ v, v ≠ f.vc.toNat → (t.port i).rxq v = (s.port i).rxq v) ∧
       (f.eop = true → (t.port i).rxq f.vc.toNat = (s.port i).rxq f.vc.toNat ++
         [packetOf ((if f.sop then [] else mget [] (s.port i).rx f.vc.toNat) ++ f.payload)]) ∧
       (f.eop = false → (t.port i).pkts = (s.port i).pkts ∧ mget [] (t.port i).rx f.vc.toNat =
         (if f.sop then [] else mget [] (s.port i).rx f.vc.toNat) ++ f.payload)) ∧
     (flitOk f = true → f.seq = (s.port i).expSeq →
       (t.port i).replay = (s.port i).replay.dropWhile (ackCovers (if f.nak then f.ack - 1 else f.ack)) ∧
       (f.nak = true → (t.port i).resend = (t.port i).replay))) ∧
  (∀ (i : Nat) (s : State), i < 72 → (s.port i).linked = true →
     ((s.port i).paid = true → 18 + i / 36 ∈ s.power.throttled → ∃ t f, exec (.flitTx i) s = .next t ∧ t.out = s.out ++ [.flit i f] ∧
       f.idle = true ∧ flitOk f = true ∧ (t.port i).paid = false ∧ (t.port i).resend = (s.port i).resend ∧
       (t.port i).nextSeq = (s.port i).nextSeq ∧ (t.port i).replay = (s.port i).replay ∧ (t.port i).tx = (s.port i).tx ∧
       (∀ j, j ≠ i → t.port j = s.port j) ∧ { t with ports := s.ports, out := s.out } = s)) ∧
  (∀ (i : Nat) (s : State), i < 72 → (s.port i).linked = true → (s.port i).paid = false ∨ 18 + i / 36 ∉ s.power.throttled →
     (∀ f r, (s.port i).resend = f :: r → ∃ t f1, exec (.flitTx i) s = .next t ∧ t.out = s.out ++ [.flit i f1] ∧ flitOk f1 = true ∧
       { f1 with ack := f.ack, nak := f.nak, crc := f.crc } = f ∧ f1.nak = (s.port i).nakDue.isSome ∧
       f1.ack = (s.port i).nakDue.getD ((s.port i).expSeq - 1) ∧
       (t.port i).resend = r ∧ (t.port i).nakDue = none ∧
       (t.port i).paid = true ∧
       { t.port i with resend := f :: r, nakDue := (s.port i).nakDue, pri := (s.port i).pri, paid := (s.port i).paid } = s.port i ∧
       (∀ j, j ≠ i → t.port j = s.port j) ∧ { t with ports := s.ports, out := s.out } = s) ∧
     ((s.port i).resend = [] → (∀ v, v < 8 → (s.port i).ready v = false) → ∃ t f, exec (.flitTx i) s = .next t ∧
       t.out = s.out ++ [.flit i f] ∧ f.idle = true ∧ f.seq = (s.port i).nextSeq ∧ flitOk f = true ∧ (t.port i).paid = false ∧
       (t.port i).nextSeq = (s.port i).nextSeq ∧ (t.port i).replay = (s.port i).replay ∧ (t.port i).tx = (s.port i).tx ∧
       (∀ j, j ≠ i → t.port j = s.port j) ∧ { t with ports := s.ports, out := s.out } = s) ∧
     (∀ v y, (s.port i).resend = [] → (s.port i).replay.length < 1024 → v < 7 → (s.port i).txq v = [y] →
       (∀ u, u < 8 → ((s.port i).ready u = true ↔ u = v)) → (v = 0 ∨ (s.port i).cur = v ∧ 0 < mget 0 (s.port i).deficit v) →
       ∃ t f, exec (.flitTx i) s = .next t ∧ t.out = s.out ++ [.flit i f] ∧ f.vc = BitVec.ofNat 3 v ∧ f.idle = false ∧
         f.sop = !y.begun ∧ (f.eop = true ↔ y.rest.length ≤ 244) ∧ f.payload = y.rest.take 244 ∧ f.seq = (s.port i).nextSeq ∧
         flitOk f = true ∧ (t.port i).paid = true ∧ (t.port i).nextSeq = (s.port i).nextSeq + 1 ∧ (t.port i).replay = (s.port i).replay ++ [f] ∧
         (t.port i).credits v + 1 = (s.port i).credits v ∧ t.mem = s.mem ∧
         ((∀ u e c, y.owner = .arc u e → c ∈ mget [] s.copies u → c.held = []) →
           (t.port i).txq v = (if y.rest.length ≤ 244 then [] else [{ y with rest := y.rest.drop 244, begun := true }]) ∧
           ∀ j, j ≠ i → t.port j = s.port j)))

/-- PACKET_RX (R298, R299, R301, R318, R330, R341): the oldest packet of a port's channel. One for this module with a LIVE job and an
operation of its channel joins the inbox, its buffer owed back, but for a collective's, which keeps it; a request waits while the port's
inbound queue is full; one without a LIVE job, or of no operation of its channel, is dropped and counted; one for another module goes to
the port of its forwarding route with HOPS one higher, and is discarded and counted where there is none; a management packet from a
source that is not listed is dropped with MGMTDROP. Routes (R298, R299): a packet of our own to this module is delivered here, one to the
own pod leaves on the peer port toward its slot, one to another pod on the uplink or relay that its job's bound set names, and one with
no set or no valid entry nowhere; what is forwarded has made fewer than two hops, and never crosses a pod that is not its destination's.
The model's own choices in it: log 1, 48, 52 and 89. -/
def Obligations.PacketsAndRoutes : Prop :=
  (∀ (i v : Nat) (k : Packet) (r : List Packet) (s : State), i < 72 → (s.port i).rxq v = k :: r →
     ∃ t, exec (.packetRx ⟨i, v⟩) s = .next t ∧ t.mem = s.mem ∧ t.tiles = s.tiles ∧
     (s.modId = some k.dst → s.live k.tag k.gen = true → opOfVc k.vc.toNat k.op.toNat = true →
       (k.vc = 3 ∨ k.vc = 4 ∨ k.vc = 5 ∨ k.vc = 2 ∧ s.inq i < 4096 →
         t.inbox = s.inbox ++ [(i, k)] ∧ (t.port i).rxq v = r ∧
           mget 0 (t.port i).owed v = mget 0 (s.port i).owed v + pktFlits k ∧
           (∀ j, j ≠ i → t.port j = s.port j) ∧ { t with ports := s.ports, inbox := s.inbox } = s) ∧
       (k.vc = 1 → t.inbox = s.inbox ++ [(i, k)] ∧ (t.port i).rxq v = r ∧ (t.port i).owed = (s.port i).owed ∧
         (∀ j, j ≠ i → t.port j = s.port j) ∧ { t with ports := s.ports, inbox := s.inbox } = s) ∧
       (k.vc = 2 → 4096 ≤ s.inq i → t = s)) ∧
     (s.modId = some k.dst → k.vc ≠ 0 → k.vc ≠ 7 → s.live k.tag k.gen = false →
       t.inbox = s.inbox ∧ (t.port i).rxq v = r ∧ (Counted s t (pgFlow (i / 36)) 0x148 ∨ Counted s t (pgFlow (i / 36)) 0x14C)) ∧
     (s.modId = some k.dst → k.vc ≠ 0 → k.vc ≠ 7 → s.live k.tag k.gen = true → opOfVc k.vc.toNat k.op.toNat = false →
       t.inbox = s.inbox ∧ (t.port i).rxq v = r ∧ Counted s t (pgFlow (i / 36)) 0x14C) ∧
     (∀ m j, s.modId = some m → m ≠ k.dst → k.vc ≠ 7 → s.routeForward i k = .port j → j ≠ i →
       ∃ x, (t.port j).txq k.vc.toNat = (s.port j).txq k.vc.toNat ++ [x] ∧ x.fwd = true ∧
         x.rest = pktBytes { k with hops := k.hops + 1 } ∧ t.inbox = s.inbox ∧ (t.port i).rxq v = r) ∧
     (∀ m, s.modId = some m → m ≠ k.dst → s.routeForward i k = .none_ →
       t.inbox = s.inbox ∧ (t.port i).rxq v = r ∧ (∀ j, j ≠ i → t.port j = s.port j) ∧ Counted s t (pgFab (i / 36)) 0x114 ∧
       t.bit (pgFab (i / 36)) 0x010 0 = true) ∧
     (s.modId = some k.dst → k.vc = 0 → t.inbox = s.inbox ∧ (t.port i).rxq v = r ∧
       (s.mgmtAccepts k = false → t.bit (pgFab (i / 36)) 0x010 1 = true ∧ Counted s t (pgFab (i / 36)) 0x118))) ∧
  (∀ (k : Packet) (m : BitVec 14) (s : State), s.modId = some m →
     (k.dst = m → s.routeOwn k = .here) ∧
     (k.dst ≠ m → podOf k.dst = podOf m → s.routeOwn k = s.peerToward (slotOf k.dst)) ∧
     (podOf k.dst ≠ podOf m → k.vc ≠ 0 → s.boundSet k.tag k.gen = none → s.routeOwn k = .none_) ∧
     (∀ r, podOf k.dst ≠ podOf m → k.vc ≠ 0 → s.boundSet k.tag k.gen = some r →
       let e := (mget 0 (s.rset r).pods (podOf k.dst)).toNat
       s.routeOwn k = if bitAt e 15 = false then .none_
         else if (s.rset r).spread = true ∧ bitAt e 10 = true ∧ k.flow.getLsbD 0 = true then s.peerToward (bits e 9 4)
         else Route.ofPort s (portOfUplink (bits e 2 0))) ∧
     (∀ i, 2 ≤ k.hops.toNat → s.routeForward i k = .none_) ∧
     (∀ i, s.isUplink i = true → podOf k.dst ≠ podOf m → s.routeForward i k = .none_) ∧
     (∀ i, s.isUplink i = false → podOf k.dst = podOf m → s.routeForward i k = .none_) ∧
     (∀ i j, s.routeForward i k = .port j → (s.port j).st ≠ .failed ∧ j < 72))

/-- The perimeter ring (R47, R48, R303 to R305). A frame that fails its check is discarded with CRCERR. In the ring, a token that is no
ring collective's goes on in its direction with HOPS one higher; a clockwise one of a ring collective keeps its hops for the command that
meets it. In the ring and out of it, a step-control token does what its command does: MARK, TIME, CAL_CW, CAL_CCW, CAL_LOOP and ADMIT;
another does nothing. An own frame leaves with HOPS 0, when the module is in the ring, and a token that waits for room takes its place.
INSERT = 0 leaves the ring, 1 enters it when the module is seated and powered, and BYPASS says that this changed. Ring collectives (R356,
R357) on a module in the ring: a member adds its value to a token once and passes it on, also when its collective has ended; a leader
answers the first that returns with its result twice, and one not posted yet holds it; a result completes the collective, or ends it with
MEMBER_MISSING; after 8 microseconds the leader sends its next attempt; a token held too long goes on unchanged.
The model's own choices in it: log 1, 10, 17, 49, 83 and 97. -/
def Obligations.RingFramesAndRingTokens : Prop :=
  (∀ (cw : Bool) (at_ : Nat) (fr : List Byte) (s : State),
     (ringToken fr = none → ∃ t, exec (.ringFrameRx cw ⟨at_, fr⟩) s = .next t ∧ t.out = s.out ∧ Flagged t pgRing 0x104 8 0 ∧
       Counted s t pgRing 0x108 ∧ (if cw then t.cwLock else t.ccwLock) = true ∧
       { wordsOf s t with cwLock := s.cwLock, ccwLock := s.ccwLock, router := s.router } = s) ∧
     (∀ h tok, ringToken fr = some (h, tok) → ∃ u t, exec (.ringFrameRx cw ⟨at_, fr⟩) s = .next t ∧
       (if cw then u.cwLock else u.ccwLock) = true ∧
       { wordsOf s u with cwLock := s.cwLock, ccwLock := s.ccwLock, out := s.out, ringHops := s.ringHops } = s ∧
       WordsKept s u (fun pg o => pg == pgRing && o == 0x10C) ∧
       (s.inRing = false → u.out = s.out ∧ u.regs = s.regs ∧ u.ringHops = s.ringHops) ∧
       (s.inRing = true → cw = true → field tok 0 1 = 0x10 ∨ field tok 0 1 = 0x11 →
         u.out = s.out ∧ u.regs = s.regs ∧ u.ringHops = h + 1) ∧
       (s.inRing = true → ¬ (cw = true ∧ (field tok 0 1 = 0x10 ∨ field tok 0 1 = 0x11)) →
         u.out = s.out ++ [.ring cw (ringFrame ((h + 1) % 256) tok)] ∧ Counted s u pgRing 0x10C ∧ u.ringHops = s.ringHops) ∧
       (field tok 0 1 = 1 → exec (.mark ⟨BitVec.ofNat 6 (field tok 1 1), bitAt (field tok 1 1) 7, BitVec.ofNat 32 (field tok 4 4),
         w64At tok 8⟩) u = .next t) ∧
       (field tok 0 1 = 2 → exec (.time (w64At tok 8)) u = .next t) ∧ (field tok 0 1 = 3 → exec (.calCw at_) u = .next t) ∧
       (field tok 0 1 = 4 → exec (.calCcw at_) u = .next t) ∧ (field tok 0 1 = 5 → exec (.calLoop (w64At tok 8)) u = .next t) ∧
       (field tok 0 1 = 7 → exec (.admitToken (BitVec.ofNat 6 (field tok 1 1)) (bitAt (field tok 1 1) 7)) u = .next t) ∧
       (([1, 2, 3, 4, 5, 7] : List Nat).contains (field tok 0 1) = false → t = u))) ∧
  (∀ (cw : Bool) (s : State),
     (∀ tok r, (if cw then s.ringCw else s.ringCcw) = tok :: r → s.inRing = true → ∃ t, exec (.ringFrameTx cw) s = .next t ∧
       t.out = s.out ++ [.ring cw (ringFrame 0 tok)] ∧
       (cw = true → t.ringCw = r ++ s.ringWait.take 1 ∧ t.ringWait = s.ringWait.drop 1 ∧ t.ringCcw = s.ringCcw) ∧
       (cw = false → t.ringCcw = r ∧ t.ringCw = s.ringCw ∧ t.ringWait = s.ringWait) ∧
       { t with out := s.out, ringCw := s.ringCw, ringCcw := s.ringCcw, ringWait := s.ringWait } = s) ∧
     (s.inRing = false → exec (.ringFrameTx cw) s = .next s) ∧
     (∀ w : W32, s.pageBusy pgRing = false → ∃ t, exec (.ringInsert w) s = .next t ∧ t.bit pgRing 0x100 0 = w.getLsbD 0 ∧
       t.inRing = (w.getLsbD 0 && s.pins.pwrOk && !s.pins.underVolt && s.pins.seated) ∧ t.pins.bypassOpen = (if t.inRing = s.inRing
         then s.pins.bypassOpen else t.inRing) ∧ (t.inRing ≠ s.inRing → t.bit pgRing 0x010 1 = true) ∧ t.mem = s.mem)) ∧
  (∀ (tok : RcToken) (s : State), s.inRing = true → NoHolds s →
     let slot := s.pins.slot.toNat
     let queued (t : State) (l : List (List Byte)) : Prop := t.ringCw ++ t.ringWait = s.ringCw ++ s.ringWait ++ l
     let passed (t : State) (result : Bool) (hops : Nat) (y : RcToken) : Prop :=
       t.out = s.out ++ [.ring true (ringFrame (hops % 256) (rcBytes result y))] ∧ Counted s t pgRing 0x10C
     let added := fun (op e : Nat) (v : List Byte) => if tok.mask.getLsbD slot then tok else
       { tok with
         count := tok.count + 1, mask := tok.mask ||| (1 <<< slot)
         data := elemBytes e (List.zipWith (collOp op) (elemsOf e (v.length / e) tok.data) (elemsOf e (v.length / e) v)) }
     (∀ c g, s.rcColl tok = some (c, g) → g.leader = false → ∃ t, exec (.rcCollect tok) s = .next t ∧
       passed t false s.ringHops (added c.op c.e g.value) ∧ { wordsOf s t with out := s.out } = s ∧
       WordsKept s t (fun pg o => pg == pgRing && o == 0x10C)) ∧
     (∀ c g x, s.rcColl tok = some (c, g) → RunsColl s c x → g.leader = true → g.returned = false →
       ∃ t b, exec (.rcCollect tok) s = .next t ∧ queued t [b, b] ∧
         (tok.count = tok.expect → b = rcBytes true { tok with status := 0 }) ∧
         (tok.count ≠ tok.expect → ∃ v, v.length = tok.data.length ∧ b = rcBytes true { tok with status := 1, data := v }) ∧
         CollNow s t c { c with ring := some { g with returned := true } } ∧ t.mem = s.mem) ∧
     (∀ c g, s.rcColl tok = some (c, g) → g.leader = true → g.returned = true → exec (.rcCollect tok) s = .next s) ∧
     (s.rcColl tok = none → s.led.contains (rcKey tok) = true → exec (.rcCollect tok) s = .next s) ∧
     (s.rcColl tok = none → s.led.contains (rcKey tok) = false → s.rcWaits tok = true →
       exec (.rcCollect tok) s = .next { s with heldToks := s.heldToks ++ [⟨tok, s.ringHops, s.clk⟩] }) ∧
     (s.rcColl tok = none → s.led.contains (rcKey tok) = false → s.rcWaits tok = false →
       ∃ t, exec (.rcCollect tok) s = .next t ∧ { wordsOf s t with out := s.out } = s ∧
         (s.rcOld tok = none → passed t false s.ringHops tok) ∧
         (∀ y, s.rcOld tok = some y → passed t false s.ringHops (added y.op y.e y.value))) ∧
     (∀ c g x, s.rcColl tok = some (c, g) → RunsColl s c x → ∃ t, exec (.rcResult tok) s = .next t ∧
       (s.led.contains (rcKey tok) = true → t.out = s.out) ∧
       (s.led.contains (rcKey tok) = false → passed t true s.ringHops tok) ∧
       (tok.status = 0 → c.kind = 0 → CollDone s t c x ∧ t.mem = s.mem) ∧
       (∀ u, tok.status = 0 → c.kind ≠ 0 → s.collPutAll c 0 (tok.data.take (c.n * c.e)) = (u, true) →
         CollDone s t c x ∧ t.mem = u.mem) ∧
       (tok.status = 1 → CollFailed s t c x 2 ∧ Flagged t pgColl 0x104 9 1 ∧ Counted s t pgColl 0x11C ∧
         t.reg64 pgColl 0x128 = tok.mask.toNat ∧ t.mem = s.mem)) ∧
     (∀ n c g x, s.colls[n]? = some c → c.ring = some g → RunsColl s c x → g.leader = true → g.returned = false → g.attempt < 3 →
       g.sentAt + 8000 ≤ s.clk → ∃ t y, exec (.rcResend n) s = .next t ∧ queued t [rcBytes false y] ∧
         y.status = BitVec.ofNat 4 (g.attempt + 1) ∧ y.count = 1 ∧ y.mask = (1 : W64) <<< slot ∧ y.data = g.value ∧
         rcKey y = c.rcKey ∧ CollNow s t c { c with ring := some { g with attempt := g.attempt + 1, sentAt := s.clk } } ∧
         { t with colls := s.colls, ringCw := s.ringCw, ringWait := s.ringWait } = s) ∧
     (∀ n h, s.heldToks[n]? = some h → h.at_ + 1000 * s.fld pgColl 0x100 23 16 < s.clk → ∃ t, exec (.rcHoldExpire n) s = .next t ∧
       t.heldToks = s.heldToks.eraseIdx n ∧ passed t false h.hops h.tok ∧
       { wordsOf s t with heldToks := s.heldToks, out := s.out } = s))

/-- Flow commands (R314, R316, Table 14.2) on an idle flow page: each loads, clears or reads the one entry it names, and leaves
every other; a refused one leaves every table unchanged, with its code in FLW_CMDERR, CMD_ERR and its event. SETARR adds what arrived in
this nanosecond (Table 14.8), and, as DESTROY does, touches no tile but those with a CWAIT in flight.
The model's own choices in it: log 1 and 50. -/
def Obligations.FlowCommandsLoadTheirTables : Prop :=
  ∀ (f : Nat) (s : State), f < 2 → s.pageBusy (pgFlow f) = false →
    let c := s.flwNum f
    let refused := fun (i : Instr) (code : Nat) => ∃ t, exec i s = .next t ∧ (t.reg (pgFlow f) 0x120).toNat = code ∧
      Flagged t (pgFlow f) 0x104 10 2 ∧ { wordsOf s t with router := s.router } = s
    (c % 2 ≠ f → refused (.flwCreate f) 1 ∧ refused (.flwDestroy f) 1 ∧ refused (.flwRead f) 1 ∧ refused (.flwSetarr f) 1) ∧
    (c % 2 = f → (s.ctx c).valid = false →
      refused (.flwDestroy f) 2 ∧ refused (.flwRead f) 2 ∧ refused (.flwSetarr f) 2 ∧
      (∀ b, s.flwImage f 64 = some b → s.live (BitVec.ofNat 16 (field b 0 2)) (BitVec.ofNat 8 (field b 2 1)) = false →
        refused (.flwCreate f) 4) ∧
      (∀ b x, s.flwImage f 64 = some b → s.live (BitVec.ofNat 16 (field b 0 2)) (BitVec.ofNat 8 (field b 2 1)) = true →
        ctxOf b = some x → (x.atom = true → ∀ e ∈ s.ctxs, e.2.valid = true → e.2.atom = true → e.2.rslot ≠ x.rslot) →
        ∃ t, exec (.flwCreate f) s = .next t ∧ t.ctx c = x ∧ x.aseq = 0 ∧ x.outn = 0 ∧ x.high = 0xFFFF ∧ x.applied = 0 ∧
          x.dst.toNat = field b 4 2 ∧ x.tctx.toNat = field b 8 3 ∧
          (∀ d, d ≠ c → t.ctx d = s.ctx d) ∧ { t with ctxs := s.ctxs } = s)) ∧
    (c % 2 = f → (s.ctx c).valid = true → refused (.flwCreate f) 3 ∧
      (∃ t, exec (.flwDestroy f) s = .next t ∧ t.ctx c = { s.ctx c with valid := false } ∧
        (∀ d, d ≠ c → t.ctx d = s.ctx d) ∧ { t with ctxs := s.ctxs, tiles := s.tiles } = s ∧
        ((∀ x ∈ s.tiles, ∀ e ∈ x.2.q3, e.cwaits c = false) → t.tiles = s.tiles)) ∧
      (∀ u, inNear (s.reg64 (pgFlow f) 0x110) 64 = true →
        s.store .unit (s.reg64 (pgFlow f) 0x110) ((ctxBytes (s.ctx c)).map some) = .ok u → ∃ t, exec (.flwRead f) s = .next t ∧
          t.mem.rd (s.reg64 (pgFlow f) 0x110) 64 = (ctxBytes (s.ctx c)).map some ∧ { t with mem := s.mem, cs := s.cs } = s) ∧
      (∃ t, exec (.flwSetarr f) s = .next t ∧
        t.ctx c = { s.ctx c with
          arrived := BitVec.ofNat 48 (s.reg64 (pgFlow f) 0x118) + BitVec.ofNat 48 (mget 0 s.arrNow c) } ∧
        (∀ d, d ≠ c → t.ctx d = s.ctx d) ∧ { t with ctxs := s.ctxs, tiles := s.tiles } = s ∧
        ((∀ x ∈ s.tiles, ∀ e ∈ x.2.q3, e.cwaits c = false) → t.tiles = s.tiles))) ∧
    (∀ b, s.flwImage f 32 = some b → s.live (winOf b).tag (winOf b).gen = true → field b 3 1 < 32 → field b 4 4 = 0 →
      field b 24 8 = 0 →
      ((winOf b).ok = false → refused (.flwWindow f) 7) ∧
      ((winOf b).ok = true → ∃ t, exec (.flwWindow f) s = .next t ∧ t.win (c % 4096) = winOf b ∧
        (∀ d, d ≠ c % 4096 → t.win d = s.win d) ∧ { t with wins := s.wins } = s)) ∧
    (∃ t, exec (.flwUnwindow f) s = .next t ∧ (t.win (c % 4096)).valid = false ∧
      (∀ d, d ≠ c % 4096 → t.win d = s.win d) ∧ { t with wins := s.wins } = s) ∧
    (4076 < c → refused (.flwAperture f) 1) ∧
    (∀ b, c ≤ 4076 → s.flwImage f 8 = some b → bits (leNat b) 62 36 = 0 → ∃ t, exec (.flwAperture f) s = .next t ∧
      mget Apt.none_ t.apts c = ⟨BitVec.ofNat 20 (leNat b), BitVec.ofNat 12 (leNat b / 2 ^ 20),
        BitVec.ofNat 4 (leNat b / 2 ^ 32), bitAt (leNat b) 63⟩ ∧
      (∀ d, d ≠ c → mget Apt.none_ t.apts d = mget Apt.none_ s.apts d) ∧ { t with apts := s.apts } = s) ∧
    (∃ t, exec (.flwInvall f) s = .next t ∧ (∀ l, l ∈ t.rlc ↔ l ∈ s.rlc ∧ l.die ≠ f) ∧ { t with rlc := s.rlc } = s)

/-- The receiver's checks (R318, Table 14.6) on the next LOAD_REQ, STORE, PUT or ATOM_REQ: a job that is not LIVE drops it,
counted; then in order the format, the window with its job, the right, the bounds and an atomic's alignment, each with its NAK,
which is sent to the requester and counted; memory and contexts stay. Requests that pass the checks (R318, R320, R322, R330): a
LOAD_REQ is answered with the bytes and their poison mask; a PUT is written at once and its length counted as arrived; a STORE
and an atomic wait for their line in the order of their arrival; a context that does not take them answers with NAK 5 or
UNKNOWN; for a partition in reset nothing is done (R332). LINE_APPLY (R322, R328, R330): the next STORE of a port is written
whole and counted; the next atomic is applied at most once: a new sequence number moves the window and is applied, one in the
window is applied only when its bit is clear, an applied one is answered with its recorded result, and one below the window with
UNKNOWN. No error is met in memory. The model's own choices in it: log 1, 51, 94 and 95. -/
def Obligations.RequestsAreCheckedAndApplied : Prop :=
  (∀ (i : Nat) (k : Packet) (s : State), k.op = 1 ∨ k.op = 3 ∨ k.op = 4 ∨ k.op = 5 →
     nextRequest s k.op.toNat = some (i, k) →
     let s1 := tookRequest s k.op.toNat (i, k)
     let w := s.win (bits (hAddr k).toNat 51 40)
     let off := (hAddr k).toNat % 2 ^ 40
     let nak := fun (r : Nat) => ∃ t, exec (requestRow k.op.toNat) s = .next t ∧ Sent s1 t (answer k 3 7 r 0 []) ∧
       Counted s t (pgFlow (dieOf i k)) 0x150 ∧ t.mem = s.mem ∧ t.ctxs = s.ctxs ∧ t.tiles = s.tiles
     let right := if k.op = 1 then 0 else if k.op = 5 then 2 else 1
     (s.live k.tag k.gen = false → ∃ t, exec (requestRow k.op.toNat) s = .next t ∧
       (Counted s t (pgFlow (dieOf i k)) 0x148 ∨ Counted s t (pgFlow (dieOf i k)) 0x14C) ∧ wordsOf s t = s1) ∧
     (s.live k.tag k.gen = true →
       (fmtOk k = false → nak 8) ∧
       (fmtOk k = true → ¬ (w.valid = true ∧ w.tag = k.tag ∧ w.gen = k.gen) → nak 1) ∧
       (fmtOk k = true → w.valid = true → w.tag = k.tag → w.gen = k.gen →
         (w.rights.getLsbD right = false → nak 2) ∧
         (w.rights.getLsbD right = true → w.size < off + reqLen k → nak 3) ∧
         (w.rights.getLsbD right = true → off + reqLen k ≤ w.size →
           (k.op = 5 → off % reqLen k ≠ 0 → nak 4) ∧
           (k.op ≠ 5 ∨ off % reqLen k = 0 → s.check k = .pass (w.addr off)))))) ∧
  (∀ (i : Nat) (k : Packet) (a : W64) (s : State), nextRequest s k.op.toNat = some (i, k) → s.check k = .pass a → NoErrors s →
     let s1 := tookRequest s k.op.toNat (i, k)
     let c := s.ctx (hTctx k)
     let held := c.valid = true ∧ c.tag = k.tag ∧ c.gen = k.gen
     let queued := fun (t : State) => (t.port i).lineq = (s.port i).lineq ++ [⟨k, a, s.nextOrd⟩] ∧ t.nextOrd = s.nextOrd + 1 ∧
       (∀ j, j ≠ i → t.port j = s.port j) ∧ t.inbox = s1.inbox ∧ t.mem = s.mem ∧ t.ctxs = s.ctxs
     (k.op = 1 → s.toReset a = false → ∃ t, exec .loadReq s = .next t ∧ t.mem = s.mem ∧ t.ctxs = s.ctxs ∧
       (∀ bs, s.loadX .fabric a (reqLen k) = some bs → Sent s1 t (answer k 3 2 0 (poisonMask bs) (bs.map (·.getD 0)))) ∧
       (s.loadX .fabric a (reqLen k) = none → Sent s1 t (answer k 3 7 7 0 []))) ∧
     (k.op = 1 ∨ k.op = 4 ∧ held → s.toReset a = true → ∃ t, exec (requestRow k.op.toNat) s = .next t ∧ lookedUp s1 t = s1 ∧
       WordsKept s1 t lookupWord) ∧
     (k.op = 4 → held → s.toReset a = false → ∀ x u, s.xlateParts a (reqLen k) = some [(x, reqLen k)] →
       s1.storeX .fabric a ((hData k).map some) = .ok u → ∃ t, exec .put s = .next t ∧ t.mem = u.mem ∧
         t.mem.rd x (reqLen k) = (hData k).map some ∧
         t.ctx (hTctx k) = { c with arrived := c.arrived + BitVec.ofNat 48 (reqLen k) } ∧
         (∀ d, d ≠ hTctx k → t.ctx d = s.ctx d) ∧ WordsKept s1 t lookupWord ∧
         { lookedUp s1 t with mem := s.mem, ctxs := s.ctxs, tiles := s.tiles, cs := s.cs, arrNow := s.arrNow } = s1) ∧
     (k.op = 3 ∨ k.op = 4 → ¬ held → ∃ t, exec (requestRow k.op.toNat) s = .next t ∧ Sent s1 t (answer k 3 7 5 0 []) ∧
       t.mem = s.mem ∧ t.ctxs = s.ctxs) ∧
     (k.op = 3 → held → ∃ t, exec .store s = .next t ∧ queued t) ∧
     (k.op = 5 → c.valid = true → c.atom = true → c.peer = k.src → c.pflow = k.flow → ∃ t, exec .atomReq s = .next t ∧ queued t) ∧
     (k.op = 5 → ¬ (c.valid = true ∧ c.atom = true ∧ c.peer = k.src ∧ c.pflow = k.flow) → ∃ t, exec .atomReq s = .next t ∧
       Sent s1 t (answer k 3 6 1 0 (List.replicate 16 0)) ∧ t.mem = s.mem ∧ t.ctxs = s.ctxs)) ∧
  (∀ (i j : Nat) (y : LineOp) (s : State), i ≤ 72 → s.nextLine i = some (j, y) → s.live y.pkt.tag y.pkt.gen = true →
     NoErrors s → (s.toReset y.addr = true → exec (.lineApply i) s = .next (s.unqueue i j)) ∧ (s.toReset y.addr = false →
     let k := y.pkt
     let c := s.ctx (hTctx k)
     let q := BitVec.ofNat 16 (hAseq k)
     let d := (q - c.high).toNat
     let b := (c.high - q).toNat
     let s1 := s.unqueue i j
     (k.op = 3 → ∀ x u, s.xlateParts y.addr (reqLen k) = some [(x, reqLen k)] → s1.storeX .fabric y.addr ((hData k).map some) = .ok u →
       ∃ t, exec (.lineApply i) s = .next t ∧ t.mem = u.mem ∧ t.mem.rd x (reqLen k) = (hData k).map some ∧
       t.ctx (hTctx k) = { c with arrived := c.arrived + BitVec.ofNat 48 (reqLen k) } ∧
       (∀ e, e ≠ hTctx k → t.ctx e = s.ctx e) ∧
       { t with mem := s.mem, ctxs := s.ctxs, tiles := s.tiles, cs := s.cs, arrNow := s.arrNow } = s1) ∧
     (k.op = 5 → c.valid = true → c.atom = true →
       (∀ old new u, 1 ≤ d ∧ d ≤ 32767 ∨ (d = 0 ∨ 65505 ≤ d) ∧ c.applied.getLsbD b = false →
         s.atomCompute k y.addr = some (old, new) → s1.storeX .fabric y.addr (new.map some) = .ok u →
         ∃ t, exec (.lineApply i) s = .next t ∧ Sent s1 t (atomDone k (BitVec.ofNat 128 old)) ∧ t.mem = u.mem ∧
           t.ctx (hTctx k) = (if 1 ≤ d ∧ d ≤ 32767 then { c with high := q, applied := (c.applied <<< d) ||| 1 }
             else { c with applied := c.applied ||| (1 <<< b) }) ∧
           mget 0 t.replay (c.rslot.toNat * 32 + q.toNat % 32) = BitVec.ofNat 128 old) ∧
       (d = 0 ∨ 65505 ≤ d → c.applied.getLsbD b = true → ∃ t, exec (.lineApply i) s = .next t ∧ t.mem = s.mem ∧
         t.ctxs = s.ctxs ∧ t.replay = s.replay ∧ Counted s t (pgFlow (dieOf i k)) 0x164 ∧
         Sent s1 t (atomDone k (mget 0 s.replay (c.rslot.toNat * 32 + q.toNat % 32)))) ∧
       (32767 < d → d < 65505 → ∃ t, exec (.lineApply i) s = .next t ∧ t.mem = s.mem ∧ t.ctxs = s.ctxs ∧
         Counted s t (pgFlow (dieOf i k)) 0x160 ∧ Sent s1 t (answer k 3 6 1 0 (List.replicate 16 0))))))

/-- Answers (R185, R319, R320, R327) of a LIVE job, well formed, with every other request out: a LOAD_RSP's bytes go to the
destination, poison where its mask says so; an ATOM_RSP's result and status go into the operand block; a NAK poisons a load's
destination, gives an atomic STATUS 3, and for a store or put, which carry RID 0, sets REMOTE_ERR; the request is gone, and its
instruction has one part fewer to come; a second NAK of a request is discarded. Overdue requests and waits, and the aperture
(R312, R323, R327, R331): after each quarter of the flow timeout a request is resent, at most three times; after all of it, it
ends with JOB_TARGET_LOST and poison; a CWAIT past its limit is an error; an aperture load becomes a request, an aperture store
a STORE, a bad access an error response, and a store of no bytes is done at once.
The model's own choices in it: log 1, 6, 27, 51 and 94. -/
def Obligations.AnswersAndTimeoutsEndRequests : Prop :=
  (∀ (i tl id : Nat) (k : Packet) (o : Outst) (s : State), s.live k.tag k.gen = true → rspOk k = true → AllSent s → NoHolds s →
     let gone := fun (t : State) => t.outst = s.outst.filter fun y => y.rid != o.rid
     (s.nextPkt [2] = some (i, k) → s.reqOf k = some o → o.atom = false → o.owner = .tile tl id → o.space = false →
       s.rputOf o = none → ∃ t, exec .loadRsp s = .next t ∧ gone t ∧ t.inbox = (s.taken [2]).inbox ∧ PartDone s t tl id none (fun v => v) ∧
         (∀ b, b < o.len → t.mem.at_ (tst tl (o.dst + b)) =
           if (hAddr k).toNat.testBit (b / 64) then none else (hData k)[b]?) ∧
         StoreKept s t tl (fun x => o.dst ≤ x ∧ x < o.dst + o.len) ∧ t.ctxs = s.ctxs) ∧
     (s.nextPkt [6] = some (i, k) → s.reqOf k = some o → o.atom = true → o.owner = .tile tl id →
       ∃ t, exec .atomRsp s = .next t ∧ gone t ∧ (t.ctx o.ctx).outn = (s.ctx o.ctx).outn - 1 ∧
         t.mem.num (tst tl (o.dst + 48)) 2 = some (hCode k) ∧
         (hCode k = 0 → PartDone s t tl id none (fun v => if hCode o.pkt = 2 then 2 else v) ∧
           (hCode o.pkt < 8 → atomSize (hCode o.pkt) ≤ (hData k).length →
             t.mem.rd (tst tl (o.dst + 32)) (atomSize (hCode o.pkt)) = ((hData k).take (atomSize (hCode o.pkt))).map some)) ∧
         (hCode k ≠ 0 → (∃ m, PartDone s t tl id (some m) (fun v => v)) ∧
           ∀ b, b < atomSize (hCode o.pkt) → t.mem.at_ (tst tl (o.dst + 32 + b)) = none) ∧
         StoreKept s t tl (fun x => o.dst + 32 ≤ x ∧ x < o.dst + 50)) ∧
     (s.nextPkt [7] = some (i, k) → s.reqOf k = some o → o.owner = .tile tl id → o.sent = true →
       ∃ t, exec .nak s = .next t ∧ gone t ∧ (∃ m, PartDone s t tl id (some m) (fun v => v)) ∧
         (o.atom = false → s.rputOf o ≠ none → t.mem = s.mem) ∧
         (o.atom = false → o.space = false → s.rputOf o = none → ∀ b, b < o.len → t.mem.at_ (tst tl (o.dst + b)) = none) ∧
         (o.atom = true → t.mem.num (tst tl (o.dst + 48)) 2 = some 3 ∧ (t.ctx o.ctx).outn = (s.ctx o.ctx).outn - 1 ∧
           ∀ b, b < atomSize (hCode o.pkt) → t.mem.at_ (tst tl (o.dst + 32 + b)) = none)) ∧
     (s.nextPkt [7] = some (i, k) → s.reqOf k = none → hRid k ≠ 0 → exec .nak s = .next (s.taken [7])) ∧
     (s.nextPkt [7] = some (i, k) → s.reqOf k = none → hRid k = 0 → ∃ t, exec .nak s = .next t ∧ t.outst = s.outst ∧ t.mem = s.mem ∧
       Counted s t (pgFlow (hTctx k % 2)) 0x154 ∧ Flagged t (pgFlow (hTctx k % 2)) 0x104 9 1 ∧
       (s.bit (pgFlow (hTctx k % 2)) 0x104 9 = false →
         (t.reg (pgFlow (hTctx k % 2)) 0x178).toNat = hTctx k % 2 ^ 20 + 2 ^ 20 * (hCode k % 16)))) ∧
  (∀ (s : State), AllSent s → NoHolds s →
     (∀ (r : Nat) (o : Outst), (s.outst.find? fun y => y.id16 == r && y.sent) = some o →
       (o.resends < 3 → o.sentAt + (o.resends + 1) * (125000 * 2 ^ (s.ctx o.ctx).tmo / 4) ≤ s.clk →
         s.live o.pkt.tag o.pkt.gen = true → s.routeOwn (ownPacket s o.pkt) ≠ .none_ →
         ∃ t, exec (.atomResend r) s = .next t ∧ Sent s t o.pkt ∧ Counted s t (pgFlow (o.ctx % 2)) 0x158 ∧ t.mem = s.mem ∧
           t.outst = s.outst.map fun (y : Outst) => if y.rid = o.rid then { y with resends := y.resends + 1 } else y) ∧
       (o.sentAt + 125000 * 2 ^ (s.ctx o.ctx).tmo < s.clk → s.answered o = false → ∃ t, exec (.flowTimeout r) s = .next t ∧
         t.outst = (s.outst.filter fun y => y.rid != o.rid) ∧ Counted s t (pgFlow (o.ctx % 2)) 0x15C ∧
         Flagged t (pgFlow (o.ctx % 2)) 0x104 8 0 ∧
         (s.bit (pgFlow (o.ctx % 2)) 0x104 8 = false →
           t.reg64 (pgFlow (o.ctx % 2)) 0x170 = (o.ctx + 2 ^ 32 * o.pkt.dst.toNat) % 2 ^ 64) ∧
         (∀ tl id, o.owner = .tile tl id → (∃ m, PartDone s t tl id (some m) (fun v => v)) ∧
           (o.atom = false → o.space = false → s.rputOf o = none → ∀ b, b < o.len → t.mem.at_ (tst tl (o.dst + b)) = none) ∧
           (o.atom = true → t.mem.num (tst tl (o.dst + 48)) 2 = some 2 ∧
             ∀ b, b < atomSize (hCode o.pkt) → t.mem.at_ (tst tl (o.dst + 32 + b)) = none)))) ∧
     (∀ (k i : Nat) (e : QEntry) (n : W64), s.entry? k 3 i = some e → e.st = .running → wMajor e.word.toNat = 0x25 →
       e.ops.getD (bits e.word.toNat 37 34) none = some n → (s.ctx (n.toNat % 2 ^ 20)).waitms ≠ 0 →
       e.since + 1000000 * (s.ctx (n.toNat % 2 ^ 20)).waitms < s.clk → ∃ t m, exec (.cwaitTimeout k i) s = .next t ∧
         Finished s t k 3 e 0 (some m) 0 ∧ Flagged t (pgFlow (n.toNat % 2 ^ 20 % 2)) 0x104 11 3 ∧
         { wordsOf s t with tiles := s.tiles, router := s.router } = s) ∧
     (∀ (a len : Nat) (x : Ctx), 0x13000000000 ≤ a → a < 2 ^ 48 →
       let p := mget Apt.none_ s.apts ((a - 0x13000000000) / 2 ^ 36)
       (p.valid = false ∨ len = 0 ∨ 64 < (a - 0x13000000000) % 64 + len →
         exec (.apertureAccess a len none) s = .next { s with out := s.out ++ [.apertureReply (List.replicate len none)] }) ∧
       (p.valid = true → s.sendCtx p.flow.toNat = some x → Routed s x → len ≠ 0 → (a - 0x13000000000) % 64 + len ≤ 64 →
         ∃ t, exec (.apertureAccess a len none) s = .next t ∧ t.mem = s.mem ∧
           t.outst.map outKey = s.outst.map outKey ++ [(.unit, false, 0, len, p.flow.toNat, false)]) ∧
       exec (.apertureAccess a len (some [])) s = .next s ∧
       (∀ b : List Byte, b ≠ [] → p.valid = false ∨ s.sendCtx p.flow.toNat = none ∨ 64 < (a - 0x13000000000) % 64 + b.length →
         exec (.apertureAccess a len (some b)) s = .next { s with out := s.out ++ [.apertureReply []] }) ∧
       (∀ b : List Byte, p.valid = true → s.sendCtx p.flow.toNat = some x → s.live x.tag x.gen = true → b ≠ [] →
         (a - 0x13000000000) % 64 + b.length ≤ 64 → ∃ t, exec (.apertureAccess a len (some b)) s = .next t ∧ t.mem = s.mem ∧
           Sent s t (ctxPacket p.flow.toNat x 2 3 0 0 0 (BitVec.ofNat 64 (p.win.toNat * 2 ^ 40 +
             (p.offhi.toNat * 2 ^ 36 + (a - 0x13000000000) % 2 ^ 36))) b))))

/-- Management commands (R301, R438, R439, Table 19.6). From a source that is not heard a command does nothing. One heard is
checked in order: boot ID, counter, key, signature; the first that fails rejects it with its status, MGT_REJ, its count and
event, the first status recorded, and changes nothing else. An answer for which there is no route is discarded, and FAB_NOROUTE
counts it (R298); the other clauses are about sources that have one. Routes, ports and sources (R291, R297, R301, Table 19.6):
ROUTE_LOAD fills entries of a set that is not VALID, ROUTE_BIND gives it its job, ROUTE_UNBIND ends it; PORT_TAKE gives the role
of a port that is FAILED or FENCED, and the packets queued there, to the spare, once; SET_MGMT and SET_ID set the sources and the
module ID; a bad one is refused and changes no table. MGMT_HELLO is answered without a signature.
The model's own choices in it: log 1, 8, 10 and 89. -/
def Obligations.ManagementCommandsAreVerifiedAndSetTables : Prop :=
  (∀ (i : Instr) (a : Auth) (cmd : Nat) (s : State), mgmtRow i = some (a, cmd) →
     let rejected := fun (st : Nat) => ∃ t, exec i s = .next t ∧
       t.out = s.out ++ (if s.mgmtRoute a.src = .none_ then [] else [.mgmtRsp a.src cmd st a.counter []]) ∧
       (s.mgmtRoute a.src = .none_ → Counted s t (pgFab 0) 0x114 ∧ t.bit (pgFab 0) 0x010 0 = true) ∧
       Counted s t pgBoot 0x128 ∧ Flagged t pgBoot 0x100 10 2 ∧
       (s.bit pgBoot 0x100 10 = false → (t.reg pgBoot 0x12C).toNat = st + 2 ^ 16 * a.src.toNat) ∧
       { wordsOf s t with out := s.out, router := s.router } = s
     (¬ Heard s a cmd → exec i s = .next s) ∧
     (Heard s a cmd →
       (a.bootId ≠ s.mgtBootId → rejected 3) ∧
       (a.bootId = s.mgtBootId → a.counter.toNat ≤ s.mgtCtr.toNat → rejected 2) ∧
       (a.bootId = s.mgtBootId → s.mgtCtr.toNat < a.counter.toNat →
         (¬ (s.keyPresent a.keySel = true ∧ (a.keySel = 0 ∨ a.keyOk = true)) → rejected 4) ∧
         (s.keyPresent a.keySel = true → a.keySel = 0 ∨ a.keyOk = true → a.sigOk = false → rejected 1)))) ∧
  (∀ (a : Auth) (k : Nat) (s : State),
     let refused := fun (i : Instr) (cmd : Nat) =>
       exec i s = .next { s with mgtCtr := a.counter, out := s.out ++ [.mgmtRsp a.src cmd 5 a.counter []] }
     (∀ (first : Nat) (es : List W32), Verified s a 0x20 →
       (8 ≤ k ∨ (s.rset k).valid = true ∨ 128 < es.length ∨ 256 < first + es.length → refused (.routeLoad a k first es) 0x20) ∧
       (k < 8 → (s.rset k).valid = false → es.length ≤ 128 → first + es.length ≤ 256 →
         ∃ t, exec (.routeLoad a k first es) s = .next t ∧ Answered s t a 0x20 0 [] ∧
           (∀ q, mget 0 (t.rset k).pods q = if first ≤ q ∧ q < first + es.length then es.getD (q - first) 0 &&& 0x87F7
             else mget 0 (s.rset k).pods q) ∧
           { t.rset k with pods := (s.rset k).pods } = s.rset k ∧ (∀ m, m ≠ k → t.rset m = s.rset m) ∧
           { t with sets := s.sets, out := s.out, mgtCtr := s.mgtCtr } = s)) ∧
     (∀ (tag : BitVec 16) (gen : BitVec 8) (spread : Bool), Verified s a 0x21 →
       (8 ≤ k ∨ (s.rset k).valid = true → refused (.routeBind a k tag gen spread) 0x21) ∧
       (k < 8 → (s.rset k).valid = false → ∃ t, exec (.routeBind a k tag gen spread) s = .next t ∧ Answered s t a 0x21 0 [] ∧
         t.rset k = ⟨tag, gen, true, spread, (s.rset k).pods⟩ ∧ (∀ m, m ≠ k → t.rset m = s.rset m) ∧
         { t with sets := s.sets, out := s.out, mgtCtr := s.mgtCtr } = s)) ∧
     (Verified s a 0x22 → 8 ≤ k → refused (.routeUnbind a k) 0x22) ∧
     (Verified s a 0x22 → k < 8 → ∃ t, exec (.routeUnbind a k) s = .next t ∧ Answered s t a 0x22 0 [] ∧
       t.rset k = { s.rset k with valid := false } ∧ (∀ m, m ≠ k → t.rset m = s.rset m) ∧
       { t with sets := s.sets, out := s.out, mgtCtr := s.mgtCtr } = s) ∧
     (Verified s a 0x23 →
       (71 ≤ k ∨ s.portGone k = false ∨ (∃ j, j < 71 ∧ (s.port j).taken = true) → refused (.portTake a k) 0x23) ∧
       (k < 71 → s.portGone k = true → (∀ j, j < 71 → (s.port j).taken = false) →
         ∃ t, exec (.portTake a k) s = .next t ∧ Answered s t a 0x23 0 [] ∧ t.port k = { s.port k with taken := true, tx := [] } ∧
           { t.port 71 with tx := [] } = { s.port 71 with standIn := k, tx := [] } ∧
           (∀ v, v < 8 → (t.port 71).txq v = (s.port 71).txq v ++ (s.port k).txq v) ∧
           (∀ j, j ≠ k → j ≠ 71 → t.port j = s.port j) ∧ t.mem = s.mem)) ∧
     (∀ es : List W32, Verified s a 0x01 →
       (es.length ≠ 8 → refused (.setMgmt a es) 0x01) ∧
       (es.length = 8 → ∃ t, exec (.setMgmt a es) s = .next t ∧ Answered s t a 0x01 0 [] ∧
         (∀ n, n < 8 → t.mgmtList[n]? = some (if (es.getD n 0).getLsbD 15 then some (BitVec.ofNat 14 (es.getD n 0).toNat) else none)) ∧
         { t with mgmtList := s.mgmtList, out := s.out, mgtCtr := s.mgtCtr } = s)) ∧
     (∀ id : BitVec 14, Accepted s a 0x02 → { s with modId := some id }.mgmtRoute a.src ≠ .none_ → ∃ t, exec (.setId a id) s = .next t ∧
       Answered s t a 0x02 0 [] ∧ t.modId = some id ∧
       { t with modId := s.modId, out := s.out, mgtCtr := s.mgtCtr } = s) ∧
     (∀ src : BitVec 14, s.stewardOn = true → s.noMgmt = true ∨ s.mgmtKnows src = true →
       (s.mgmtRoute src ≠ .none_ → exec (.mgmtHello src) s =
         .next { s with out := s.out ++ [.mgmt src (toLE 8 s.mgtBootId.toNat ++ toLE 4 s.fabId.toNat ++ s.boot.idfp)] }) ∧
       (s.mgmtRoute src = .none_ → ∃ t, exec (.mgmtHello src) s = .next t ∧ Counted s t (pgFab 0) 0x114 ∧
         t.bit (pgFab 0) 0x010 0 = true ∧ { wordsOf s t with router := s.router } = s)))

/-- Jobs (R31, R32, R315, R333, R375, R376): ADMIT makes a FREE tag LIVE, and refuses as R315 says; TEARDOWN retires a LIVE one
and leaves nothing of it outstanding, nothing that waits to leave, and nothing of the stepping job's work; the tag is FREE 250 ms
later; FREEZE keeps the job and drops its work; REGEN renames its generation; RECOVER sets its next CSEQ; of a job that is not LIVE
each is refused. The model's own choices in it: log 1, 54, 55 and 92. -/
def Obligations.JobsLiveRetireFreezeAndRegenerate : Prop :=
  ∀ (a : Auth) (tag : BitVec 16) (gen : BitVec 8) (s : State),
    let j := s.job tag
    let others := fun (t : State) => ∀ u, u ≠ tag → t.job u = s.job u
    (∀ step, Verified s a 0x10 →
      (j.st ≠ .free ∨ j.lastGen = some gen ∨ 8 ≤ s.liveTags ∨ step = true ∧ s.mjob ≠ none ∨ s.power.standby = true →
        ∃ t, exec (.admitJob a tag gen step) s = .next t ∧ Answered s t a 0x10 5 [] ∧
          (∀ f, f < 2 → Flagged t (pgFlow f) 0x104 12 4) ∧
          { wordsOf s t with router := s.router, out := s.out, mgtCtr := s.mgtCtr } = s) ∧
      (j.st = .free → j.lastGen ≠ some gen → s.liveTags < 8 → (step = true → s.mjob = none) → s.power.standby = false →
        ∃ t, exec (.admitJob a tag gen step) s = .next t ∧ Answered s t a 0x10 0 [] ∧
          t.job tag = { j with st := .live, gen := gen, cseq := 0 } ∧ others t ∧
          t.mjob = (if step then some (tag, gen) else s.mjob) ∧
          { t with jobs := s.jobs, mjob := s.mjob, tb := s.tb, out := s.out, mgtCtr := s.mgtCtr } = s)) ∧
    (Verified s a 0x11 → s.live tag gen = true → ∃ t, exec (.teardown a tag gen) s = .next t ∧ Answered s t a 0x11 0 [] ∧
      t.job tag = { j with st := .retired, lastGen := some gen, retiredAt := s.tb.time.toNat } ∧ others t ∧
      NothingOut t tag gen ∧
      (∀ i v, ∀ y ∈ (t.port i).txq v, y.begun = true ∨ y.fwd = true ∨ ¬ (y.tag = tag ∧ y.gen = gen)) ∧ (∀ e ∈ t.ctxs, ¬ (e.2.tag = tag ∧
        e.2.gen = gen)) ∧
      (∀ e ∈ t.wins, ¬ (e.2.tag = tag ∧ e.2.gen = gen)) ∧ (∀ l ∈ t.rlc, ¬ (l.tag = tag ∧ l.gen = gen)) ∧
      (s.mjob = some (tag, gen) → t.mjob = none ∧ NoWork t) ∧
      (s.mjob ≠ some (tag, gen) → t.mjob = s.mjob ∧ t.mem = s.mem ∧ t.arcs = s.arcs ∧ t.parts = s.parts ∧
        ((∀ e ∈ s.ports, ∀ q ∈ e.2.tx, ∀ y ∈ q.2, ¬ (y.tag = tag ∧ y.gen = gen)) → t.tiles = s.tiles ∧ t.copies = s.copies))) ∧
    (s.live tag gen = false →
      (Verified s a 0x11 → exec (.teardown a tag gen) s =
        .next { s with mgtCtr := a.counter, out := s.out ++ [.mgmtRsp a.src 0x11 5 a.counter []] }) ∧
      (Verified s a 0x30 → ∃ t, exec (.freeze a tag gen) s = .next t ∧
        Answered s t a 0x30 5 (toLE 4 s.tb.stepIdx.toNat ++ toLE 4 (s.cs.hcomplete.getD 0).toNat) ∧
        { t with mgtCtr := s.mgtCtr, out := s.out } = s) ∧
      (∀ g2, Verified s a 0x31 → exec (.regen a tag gen g2) s =
        .next { s with mgtCtr := a.counter, out := s.out ++ [.mgmtRsp a.src 0x31 5 a.counter []] })) ∧
    (∀ r : RecoverArgs, Verified s a 0x32 → s.live r.tag r.gen = false → exec (.recover a r) s =
      .next { s with mgtCtr := a.counter, out := s.out ++ [.mgmtRsp a.src 0x32 5 a.counter []] }) ∧
    (j.st = .retired → exec (.tagQuarantineEnd tag) s =
      .next (if j.retiredAt + 250000000 ≤ s.tb.time.toNat then s.setJob tag { j with st := .free } else s)) ∧
    (Verified s a 0x30 → s.live tag gen = true → ∃ t, exec (.freeze a tag gen) s = .next t ∧
      Answered s t a 0x30 0 (toLE 4 s.tb.stepIdx.toNat ++ toLE 4 (t.cs.hcomplete.getD 0).toNat) ∧ t.jobs = s.jobs ∧
      NothingOut t tag gen ∧ t.mjob = s.mjob ∧
      (s.mjob = some (tag, gen) → NoWork t ∧ (s.cs.group ≠ none → t.cs.st = .halted)) ∧
      (s.mjob ≠ some (tag, gen) → t.mem = s.mem ∧ t.tiles = s.tiles ∧ t.arcs = s.arcs ∧ t.cs = s.cs)) ∧
    (∀ g2, Verified s a 0x31 → s.live tag gen = true → g2 ≠ gen → ∃ t, exec (.regen a tag gen g2) s = .next t ∧
      Answered s t a 0x31 0 [] ∧ t.job tag = { j with gen := g2, lastGen := some gen } ∧ others t ∧
      t.ctxs = s.ctxs.map (fun (e : Nat × Ctx) => (e.1, if e.2.tag = tag then { e.2 with gen := g2 } else e.2)) ∧
      t.wins = s.wins.map (fun (e : Nat × Win) => (e.1, if e.2.tag = tag then { e.2 with gen := g2 } else e.2)) ∧
      (∀ e ∈ t.sets, ¬ (e.2.tag = tag ∧ e.2.gen = gen)) ∧
      (s.mjob = some (tag, gen) → t.mjob = some (tag, g2)) ∧ t.mem = s.mem ∧ t.tiles = s.tiles ∧ t.arcs = s.arcs) ∧
    (∀ r : RecoverArgs, Verified s a 0x32 → s.live r.tag r.gen = true → s.cs.group = none →
      ∃ t, exec (.recover a r) s = .next t ∧ Answered s t a 0x32 0 [] ∧
        t.job r.tag = { s.job r.tag with cseq := r.cseq0 } ∧ (∀ u, u ≠ r.tag → t.job u = s.job u) ∧
        { t with jobs := s.jobs, out := s.out, mgtCtr := s.mgtCtr } = s) ∧
    (∀ r : RecoverArgs, Verified s a 0x32 → s.live r.tag r.gen = true → ∃ t, exec (.recover a r) s = .next t ∧
      t.job r.tag = { s.job r.tag with cseq := r.cseq0 })

/-- CONFIG_UPDATE and ATTEST (R430, R437): a blob whose target its signer may change, verified, goes into the slot that is not in
use, with the next SEQ, for the next reset, with CFG_UPDATED (R428); any other is refused and changes nothing; a history update
clears the entries it names. A report is answered with its header and nonce, and refused without an identity. ATT_QUOTE and ATT_EXTEND (R436, R437): a quote
writes the report of Table 19.4 over the nonce registers at ATT_ADDR, and without an identity is refused; an extension by the
running steward changes one of MR(3) to MR(7) by what it reads at ATT_ADDR, where it meets no memory error.
The model's own choices in it: log 1, 8, 9, 10, 67, 68 and 69. -/
def Obligations.ConfigurationAndAttestation : Prop :=
  (∀ (a : Auth) (b : Blob) (s : State),
     let good := a.keySel < 2 ∧ signerAllowed b.target b.vendor = true ∧ b.sigOk = true ∧
       (b.vendor = true ∨ s.ownerUsable true = true) ∧ b.payload.length ≤ 65516
     (Verified s a 0x50 → ¬ good ∨ b.target ≠ 15 ∧ s.opt.sfdpOk = false → exec (.configUpdate a b) s =
       .next { s with mgtCtr := a.counter, out := s.out ++ [.mgmtRsp a.src 0x50 5 a.counter []] }) ∧
     (Verified s a 0x50 → good → b.target ≠ 15 → s.opt.sfdpOk = true → ∃ t, exec (.configUpdate a b) s = .next t ∧ Answered s t a 0x50 0 [] ∧
       let used := ((s.opt.newer b.target).map fun x => slotNo b.target x.1).getD (slotNo b.target 1)
       let seq := ((s.opt.newer b.target).map fun x => x.2.1 + 1).getD 1
       let other := 2 * slotNo b.target 0 + 1 - used
       (t.opt.slots.find? fun x => x.1 == other) = some (other, slotBytes b.target seq b.payload) ∧ t.opt.pend = true ∧
       (∀ k, k ≠ other → (t.opt.slots.find? fun x => x.1 == k) = s.opt.slots.find? fun x => x.1 == k) ∧
       (seq < 2 ^ 32 → t.opt.newer b.target = some (other - slotNo b.target 0, seq, b.payload)) ∧
       t.bit pgBoot 0x010 3 = true ∧ t.boot = s.boot ∧
       { wordsOf s t with opt := s.opt, router := s.router, out := s.out, mgtCtr := s.mgtCtr } = s) ∧
     (Verified s a 0x50 → good → b.target = 15 → ∃ t, exec (.configUpdate a b) s = .next t ∧ Answered s t a 0x50 0 [] ∧
       (∀ u ∈ histUnits b.payload, u < 1802 → t.histOf u = Hist.clean ∧ u ∈ t.opt.histDue) ∧
       (∀ u, u ∉ histUnits b.payload → t.histOf u = s.histOf u) ∧
       { t with hist := s.hist, opt := s.opt, out := s.out, mgtCtr := s.mgtCtr } = s) ∧
     (∀ nonce : List Byte, Verified s a 0x51 → nonce.length = 32 →
       (s.boot.idOk = true → ∃ t data, exec (.attest a nonce) s = .next t ∧ Answered s t a 0x51 0 data ∧
         field data 0 4 = 0x44584154 ∧ field data 8 8 = s.mgtBootId.toNat ∧ slice_ data 16 32 = nonce ∧ 3309 ≤ data.length ∧
         { t with fresh := s.fresh, out := s.out, mgtCtr := s.mgtCtr } = s) ∧
       (s.boot.idOk = false → ∃ t, exec (.attest a nonce) s = .next t ∧ Answered s t a 0x51 5 [] ∧
         t.bit pgBoot 0x100 11 = true ∧ { wordsOf s t with out := s.out, mgtCtr := s.mgtCtr } = s))) ∧
  (∀ (w : W32) (s : State),
     let ctl := (w &&& 0xFFFF0070)
     let a := s.reg64 pgBoot 0x138
     (s.pageBusy pgBoot = true → exec (.attQuote w) s = .next s ∧ exec (.attExtend w) s = .next s) ∧
     (s.pageBusy pgBoot = false → w.getLsbD 0 = true →
       (s.boot.idOk = false → ∃ t, exec (.attQuote w) s = .next t ∧ t.reg pgBoot 0x130 = ctl ∧ t.bit pgBoot 0x100 11 = true ∧
         wordsOf s t = s) ∧
       (s.boot.idOk = true →
         let b := (s.attReport s.attNonce).1
         (∃ u, s.store .unit a (b.map some) = .ok u) → ∃ t, exec (.attQuote w) s = .next t ∧ t.reg pgBoot 0x130 = ctl ∧
           t.mem.rd a b.length = b.map some ∧ (∀ x, x < a ∨ a + b.length ≤ x → t.mem.at_ x = s.mem.at_ x) ∧
           field b 0 4 = 0x44584154 ∧ field b 8 8 = s.mgtBootId.toNat ∧ slice_ b 16 32 = s.attNonce ∧
           (s.boot.idfp.length = 32 → slice_ b 48 32 = s.boot.idfp) ∧
           { wordsOf s t with mem := s.mem, cs := s.cs, fresh := s.fresh } = s)) ∧
     (s.pageBusy pgBoot = false → w.getLsbD 1 = true →
       let i := bits w.toNat 6 4
       (i < 3 ∨ s.stewardOn = false → ∃ t, exec (.attExtend w) s = .next t ∧ t.reg pgBoot 0x130 = ctl ∧ t.boot = s.boot) ∧
       (∀ d m, 3 ≤ i → s.stewardOn = true → NoErrors s → (s.load .steward a (bits w.toNat 31 16)).bind allSome = some d → s.boot.mrs[i]? = some m →
         ∃ t, exec (.attExtend w) s = .next t ∧ t.reg pgBoot 0x130 = ctl ∧
           t.boot.mrs[i]? = some (shake256 (m ++ shake256 d 64) 64) ∧ (∀ j, j ≠ i → t.boot.mrs[j]? = s.boot.mrs[j]?) ∧
           { wordsOf s t with boot := s.boot } = s)))

/-- ARC_COLLECTIVE (R340, R342, R344, R346, R355, R356) on a readable descriptor: a bad one is refused with DESC_ERR; one with
no rank completes at once; a barrier runs and sends its packet to every other member; a flat reduction of one local rank sends
each chunk's elements to its owner; a leader's ring collective queues its token. Its CSEQ is followed by the next. No error is met
in memory. The model's own choices in it: log 1, 81 and 95. -/
def Obligations.CollectivesArePosted : Prop :=
  ∀ (e : Nat) (x : ArcEnt) (b : List Byte) (s : State), ArcCanFire s 16 e 4 x → NoHolds s → NoErrors s →
    (s.loadX .unit x.w3 64).bind allSome = some b → x.arg % 64 = 0 → (∀ y ∈ s.colls, y.entry ≠ e) →
    let d := collDescOf b
    let tg := (s.mjob.getD (0, 0)).1
    let z := collEsize d.op
    (collDescOk b = false ∨ (s.job tg).cseq ≠ d.cseq → ∃ t, exec (.arcCollective 16 e) s = .next t ∧ ArcDone s t 16 e x ∧
      t.colls = s.colls ∧ Flagged t pgColl 0x104 10 2 ∧ t.mem = s.mem ∧
      (s.fld pgColl 0x120 19 16 = 0 → t.fld pgColl 0x120 19 16 = 3)) ∧
    (collDescOk b = true → (s.job tg).cseq = d.cseq →
      (d.r = 0 → ∃ t, exec (.arcCollective 16 e) s = .next t ∧ ArcDone s t 16 e x ∧ t.colls = s.colls ∧
        Counted s t pgColl 0x108 ∧ (t.job tg).cseq = d.cseq + 1 ∧ t.mem = s.mem ∧ t.ports = s.ports) ∧
      (∀ m l map locs, d.r ≠ 0 → s.readArray d.rankmap 8 d.r = some m → s.readArray d.local_ 32 d.nloc = some l →
        allSome (m.map rankEntOf) = some map → allSome (l.map localEntOf) = some locs →
        (s.collListsOk d map locs = false ∨ d.ring = true ∧ s.ringOk d map = false →
          ∃ t, exec (.arcCollective 16 e) s = .next t ∧ ArcDone s t 16 e x ∧ t.colls = s.colls ∧ Flagged t pgColl 0x104 10 2) ∧
        (s.collListsOk d map locs = true → locs ≠ [] →
          let me := s.me
          let owed := fun (t : State) (r : RankEnt) (op : Nat) (body : List Byte) => ∀ p, r.modid ≠ me →
            (map.find? fun y => y.modid == r.modid) = some r → s.live (s.ctx r.flow.toNat).tag (s.ctx r.flow.toNat).gen = true →
            s.routeOwn (ownPacket s (collPacket s r op body)) = .port p →
            ∃ y ∈ (t.port p).txq 1, y.rest = pktBytes (ownPacket s (collPacket s r op body))
          (d.kind = 0 ∨ d.n = 0 → d.ring = false → (∃ r ∈ map, r.modid ≠ me) →
            ∃ t c, exec (.arcCollective 16 e) s = .next t ∧ ArcPosted s t 16 e ∧ t.colls = s.colls ++ [c] ∧ c.entry = e ∧
              c.kind = 0 ∧ c.cseq = d.cseq ∧ c.map = map ∧ (t.job tg).cseq = d.cseq + 1 ∧ t.mem = s.mem ∧
              ∀ r ∈ map, owed t r 0x13 (toLE 2 d.cseq.toNat ++ List.replicate 14 0)) ∧
          (∀ lo sb, d.kind = 1 ∨ d.kind = 2 → d.n ≠ 0 → d.ring = false → d.hier = false → locs = [lo] →
            (s.loadX .unit lo.src (d.n * z)).bind allSome = some sb → ∃ t, exec (.arcCollective 16 e) s = .next t ∧
              (t.job tg).cseq = d.cseq + 1 ∧ ∀ i r, map[i]? = some r →
                let ch := (d.n + d.r - 1) / d.r
                let n := min ((i + 1) * ch) d.n - i * ch
                n ≠ 0 → owed t r 0x10 (toLE 2 d.cseq.toNat ++ toLE 1 d.kind ++ toLE 1 0 ++ toLE 3 lo.rank ++ toLE 1 0 ++
                  toLE 3 i ++ toLE 1 0 ++ toLE 4 0 ++ slice_ sb (i * ch * z) (min 2048 (n * z)))) ∧
          (∀ lo sb, d.kind = 1 → d.n ≠ 0 → d.ring = true → s.ringOk d map = true → locs = [lo] →
            (s.loadX .unit lo.src (d.n * z)).bind allSome = some sb → (∀ r ∈ map, s.pins.slot.toNat ≤ slotOf r.modid) →
            ∃ t tok, exec (.arcCollective 16 e) s = .next t ∧ ArcPosted s t 16 e ∧
              t.ringCw ++ t.ringWait = s.ringCw ++ s.ringWait ++ [rcBytes false tok] ∧ tok.status = 0 ∧ tok.count = 1 ∧
                tok.mask = (1 : W64) <<< s.pins.slot.toNat ∧ tok.data = sb))))

/-- Collective packets (R341, R344 to R348) of a running collective: a barrier packet marks its member, a contribution is kept
at the place of its chunk and node, a result or a block is written where it belongs; with the last awaited the collective is
complete. A packet of no posted collective is discarded with BADPKT. COLL_FOLD and COLL_TIMEOUT (R344, R345, R353): a chunk all
of whose leaves are here is folded once: its canonical value is written to the DST of its rank, or of every local rank and sent
on; poison ends the collective. One that has run past its limit and still lacks something ends with TIMEOUT. A buffer here is one
run of physical bytes, and no error is met in memory. The model's own choices in it: log 1, 6, 82 and 95. -/
def Obligations.CollectivePacketsAndFolds : Prop :=
  (∀ (i : Nat) (k : Packet) (c : Coll) (x : ArcEnt) (s : State), NoHolds s →
     let data := (cData k).map some
     (∀ op, s.headVc1 op = some (i, k) → op = 0x10 ∨ op = 0x11 ∨ op = 0x12 ∨ op = 0x13 → s.live k.tag k.gen = true →
       (∀ y ∈ s.colls, ¬ (y.tag = k.tag ∧ y.gen = k.gen ∧ y.cseq = BitVec.ofNat 16 (field k.body 0 2))) →
       ∃ t, exec (if op = 0x10 then .collContrib else if op = 0x11 then .collResult else if op = 0x12 then .collBlock else .collBarrier) s
         = .next t ∧ Counted s t pgColl 0x118 ∧ Flagged t pgColl 0x104 12 3 ∧ t.colls = s.colls ∧ t.mem = s.mem) ∧
     (RunsColl s c x →
       (CollArrives s 0x13 i k c → c.kind = 0 → k.src ∈ c.others s.me → k.src ∉ c.barrier → cData k = [] → cChunk k = 0 →
         cOff k = 0 → ∃ t, exec .collBarrier s = .next t ∧ CollStep s t c { c with barrier := c.barrier ++ [k.src] } x ∧
           t.mem = s.mem) ∧
       (∀ a u, CollArrives s 0x10 i k c → c.kind = 1 ∨ c.kind = 2 →
         let j := cChunk k
         let first := cFirst k
         let hi := nodeEnd c.r first (cK k)
         j ∈ c.folds s.me → j ∉ c.folded → cK k ≤ 24 → first % 2 ^ cK k = 0 → (c.span s.me j).1 ≤ first →
         hi ≤ (c.span s.me j).2 → first < hi → (∀ y ∈ c.nodes, y.chunk = j → hi ≤ y.first ∨ nodeEnd c.r y.first y.k ≤ first) →
         cNext k 0 (c.count j * c.e) = true → c.proxies s.me j = false →
         s.xlateParts (plus (c.rxAt j first) 0) data.length = some [(a, data.length)] → s.store .unit a data = .ok u →
         ∃ t, exec .collContrib s = .next t ∧ t.mem = u.mem ∧ t.mem.rd a data.length = data ∧
           CollNow s t c { c with nodes := c.nodes ++ [⟨j, first, cK k, (cData k).length, []⟩] }) ∧
       (∀ u, CollArrives s 0x11 i k c → c.kind = 1 →
         let j := cChunk k
         let got := ((c.results.find? fun y => y.1 == j).map (·.2)).getD 0
         j < c.r → c.at_ j = k.src → k.src ≠ s.me → cNext k got (c.count j * c.e) = true →
         s.collPutAll c (j * c.chb + got) (cData k) = (u, true) → ∃ t, exec .collResult s = .next t ∧ t.mem = u.mem ∧
           (∀ lo a, c.locals_ = [lo] → s.xlateParts (plus lo.dst (j * c.chb + got)) data.length = some [(a, data.length)] →
             t.mem.rd a data.length = data) ∧
           CollStep s t c { c with results := (c.results.filter fun y => y.1 != j) ++ [(j, got + (cData k).length)] } x) ∧
       (∀ u, CollArrives s 0x12 i k c → c.kind = 3 ∨ c.kind = 4 →
         let r := cFirst k
         let got := ((c.blocks.find? fun y => y.1 == r && y.2.1 == cChunk k).map (·.2.2)).getD 0
         let off := (if c.kind = 3 then r * (c.n * c.e) else 0) + got
         (r, cChunk k) ∈ c.awaited → c.at_ r = k.src → cNext k got (c.n * c.e) = true →
         s.collPutAll c off (cData k) = (u, true) → ∃ t, exec .collBlock s = .next t ∧ t.mem = u.mem ∧
           (∀ lo a, c.locals_ = [lo] → s.xlateParts (plus lo.dst off) data.length = some [(a, data.length)] → t.mem.rd a data.length = data) ∧
           CollStep s t c { c with
             blocks := (c.blocks.filter fun y => !(y.1 == r && y.2.1 == cChunk k)) ++ [(r, cChunk k, got + (cData k).length)] } x))) ∧
  (∀ (n i : Nat) (c : Coll) (x : ArcEnt) (s : State), NoHolds s → NoErrors s → s.colls[n]? = some c → RunsColl s c x →
     (c.ring = none → c.kind = 1 ∨ c.kind = 2 → i ∈ c.folds s.me → i ∉ c.folded →
       c.leaves i = (c.span s.me i).2 - (c.span s.me i).1 →
       (s.foldChunk c i = none → ∃ t, exec (.collFold n i) s = .next t ∧ CollFailed s t c x 4 ∧ t.mem = s.mem) ∧
       (∀ bs, s.foldChunk c i = some bs → c.proxies s.me i = false →
         (∀ lo a u, c.kind = 2 → (c.locals_.find? fun y => y.rank == i) = some lo → s.xlateParts lo.dst bs.length = some [(a, bs.length)] →
           s.store .unit a (bs.map some) = .ok u → ∃ t, exec (.collFold n i) s = .next t ∧ t.mem = u.mem ∧
             t.mem.rd a bs.length = bs.map some ∧ CollStep s t c { c with folded := c.folded ++ [i] } x) ∧
         (∀ u, c.kind = 1 → s.collPutAll c (i * c.chb) bs = (u, true) → ∃ t, exec (.collFold n i) s = .next t ∧ t.mem = u.mem ∧
           (c.others s.me = [] → CollStep s t c { c with folded := c.folded ++ [i] } x) ∧
           (c.others s.me ≠ [] → ∃ d, CollNow s t c d ∧ d.folded = c.folded ++ [i] ∧ d.nodes = c.nodes) ∧
           (∀ m r p, m ∈ c.others s.me → (c.map.find? fun y => y.modid == m) = some r →
             let k := collPacket s r 0x11 (collHeader c 0 0 i 0 ++ slice_ bs 0 (min 2048 bs.length))
             s.live k.tag k.gen = true → s.routeOwn (ownPacket s k) = .port p →
             ∃ y ∈ (t.port p).txq 1, y.rest = pktBytes (ownPacket s k)))) ∧
       (∀ v0 v1, c.span s.me i = (0, 2) → s.nodeVal c i 0 2 = none → s.nodeVal c i 0 1 = some (some v0) →
         s.nodeVal c i 1 2 = some (some v1) → s.foldChunk c i = some (elemBytes c.e (List.zipWith (collOp c.op) v0 v1)))) ∧
     (s.fld pgColl 0x100 15 0 ≠ 0 → c.postedAt + 1000 * s.fld pgColl 0x100 15 0 < s.clk → c.lacks s.me = true →
       ∃ t, exec (.collTimeout n) s = .next t ∧ CollFailed s t c x 1 ∧ Flagged t pgColl 0x104 8 0 ∧ Counted s t pgColl 0x114))

/-- CS_LOAD (R361, R362, R380): a good descriptor zeroes both parity buffers, and enters CODING from OFF or stays in REFORM; one
with n or k of 0 enters OFF, with UNPROTECTED after a loss; another state, or a descriptor that fails a check, is refused with
CMD_ERR. ARC_CODE and CODE_ACK (R366, R369, R370, R372). Outside an epoch step, with no group that codes, or when its partition has
coded in this step, the arc is DONE as it fires; while the epoch before is not committed it waits, FIRED; else, with k = 1 after the
first epoch and no error met in memory, the delta of each segment written that is not zero is sent to every parity member, scaled
by its coefficient, and CODE_END to every other member, and the arc is DONE when every acknowledgement has come.
The model's own choices in it: log 1, 84, 88 and 95. -/
def Obligations.GroupsLoadAndCode : Prop :=
  (∀ (w : W32) (s : State), s.pageBusy pgCs = false → bits w.toNat 2 0 = 1 →
     let a := s.reg64 pgCs 0x110
     (s.cs.st ≠ .off ∧ s.cs.st ≠ .reform ∨ inNear a 256 = false ∨ (∃ b, (s.load .unit a 256).bind allSome = some b ∧ s.groupOf b = none) →
       ∃ t, exec (.csLoad w) s = .next t ∧ Flagged t pgCs 0x104 14 5 ∧ { wordsOf s t with router := s.router } = s) ∧
     (∀ b g, s.cs.st = .off ∨ s.cs.st = .reform → inNear a 256 = true → (s.load .unit a 256).bind allSome = some b →
       s.groupOf b = some g →
       (g.n = 0 ∨ g.k = 0 → ∃ t, exec (.csLoad w) s = .next t ∧ t.cs.st = .off ∧ t.cs.group = none ∧
         (∀ x, t.mem.at_ x = if g.n ≠ 0 ∧ g.parity ≤ x ∧ x < g.parity + 2 * g.parsz then some 0 else s.mem.at_ x) ∧
         (s.cs.st = .reform → g.n = 0 → t.bit pgCs 0x104 13 = true)) ∧
       (g.n ≠ 0 → g.k ≠ 0 → ∃ t, exec (.csLoad w) s = .next t ∧ t.cs.group = some g ∧
         t.cs.st = (if s.cs.st = .off then .coding else .reform) ∧
         (∀ x, t.mem.at_ x = if g.parity ≤ x ∧ x < g.parity + 2 * g.parsz then some 0 else s.mem.at_ x) ∧
         { t with mem := s.mem, cs := s.cs } = s))) ∧
  (∀ (u e : Nat) (x : ArcEnt) (s : State),
     (ArcCanFire s u e 3 x →
       (s.cs.group = none ∨ s.codingOn = false ∨ (∃ g, s.cs.group = some g ∧ s.epochOf g = none) →
         ∃ t, exec (.arcCode u e) s = .next t ∧ ArcDone s t u e x ∧ { t with arcs := s.arcs } = s) ∧
       (∀ g ep, s.cs.group = some g → s.codingOn = true → s.epochOf g = some ep →
         (u ∈ s.cs.codedParts → ∃ t, exec (.arcCode u e) s = .next t ∧ ArcDone s t u e x ∧ { t with arcs := s.arcs } = s) ∧
         (u ∉ s.cs.codedParts → s.cs.lastCoded ≠ none → s.cs.lastCoded ≠ s.cs.epoch → ∃ t, exec (.arcCode u e) s = .next t ∧
           ArcPosted s t u e ∧ t.mem = s.mem ∧ t.ports = s.ports ∧
           t.cs = { s.cs with codedParts := u :: s.cs.codedParts, held := some 1, codes := s.cs.codes ++ [⟨u, e, true, []⟩] }) ∧
         (u ∉ s.cs.codedParts → s.cs.lastCoded ≠ none → s.cs.lastCoded = s.cs.epoch → g.k = 1 → s.cs.firstEpoch = false → NoErrors s →
           (∀ y ∈ s.segList, y.m.part = u → ∃ new old, (s.segLoad y (y.at_ g ep)).bind allSome = some new ∧
             (s.segLoad y (y.at_ g (ep + 1))).bind allSome = some old) →
           ∃ t, exec (.arcCode u e) s = .next t ∧ ArcPosted s t u e ∧ t.mem = s.mem ∧
             (∀ q ∈ g.others, ∃ n, (∃ c ∈ t.cs.codes, c.part = u ∧ c.entry = e ∧ (endMark, q) ∈ c.owed) ∧
               CodeQueued s t g q 0x22 (toLE 4 ep ++ toLE 4 n ++ toLE 8 g.digest.toNat) []) ∧
             ∀ y ∈ s.segList, ∀ new old, y.m.part = u → mget false s.cs.written y.j = true →
               (s.segLoad y (y.at_ g ep)).bind allSome = some new → (s.segLoad y (y.at_ g (ep + 1))).bind allSome = some old →
               let delta := List.zipWith (· ^^^ ·) new old
               let stripe := stripeOf g.n g.m g.self y.j
               mget false t.cs.written y.j = false ∧ (allZero delta = false → ∀ i, i < g.m →
                 (∃ c ∈ t.cs.codes, c.part = u ∧ c.entry = e ∧ (stripe, i) ∈ c.owed) ∧
                 CodeQueued s t g ((stripe + i) % g.n) 0x20 (toLE 4 ep ++ toLE 4 stripe ++ toLE 1 i ++ toLE 3 0)
                   ((gfScale (codeCoef g.m i (dataPos g.n g.m stripe g.self)) delta).take 2048))))) ∧
     (∀ i r k g c, CodeArrives s 0x21 i k g r →
       let a : Nat × Nat := if kStripe k = endMark then (endMark, r) else (kStripe k, kPidx k)
       ((∀ y ∈ s.cs.codes, a ∉ y.owed) → ∃ t, exec .codeAck s = .next t ∧ t.cs = s.cs ∧ Counted s t pgCs 0x138) ∧
       ((s.cs.codes.find? fun y => y.owed.contains a) = some c → (kStripe k = endMark ∨ (kStripe k + kPidx k) % g.n = r) →
         s.epochOf g = some (kEpoch k).toNat → (s.arcu c.part).active[c.entry]? = some x → x.st = .fired →
         ∃ t, exec .codeAck s = .next t ∧ t.mem = s.mem ∧
           (c.owed.erase a = [] → ArcDone s t c.part c.entry x ∧ ∀ y ∈ t.cs.codes, ¬ (y.part = c.part ∧ y.entry = c.entry)) ∧
           (c.owed.erase a ≠ [] → t.arcs = s.arcs ∧ { c with owed := c.owed.erase a } ∈ t.cs.codes))))

/-- CODE_DELTA, CODE_END and CODE_READY at a holder (R362, R371): a delta is added by XOR to its slot's building buffer, which
starts as the committed one; a CODE_END of another descriptor is a mismatch, and one that makes the holder complete, its own CODEs
posted, is followed by CODE_READY; the last CODE_READY commits the epoch and flips the selectors of the slots updated. A packet of
another epoch is discarded. Holds, recovery and rebuild (R373, R378 to R380): a held write past the guard is said once with its
kind; RECOVER of a halted group that lost nothing makes its epoch the committed one and codes again; a survivor answers for its
symbol, which holds no more for that adopter; the last symbol writes the lost segment; with every segment rebuilt the group
reforms. A symbol is read without a memory error, and a segment is one run of physical bytes.
The model's own choices in it: log 1, 84, 85 and 95. -/
def Obligations.HoldersBuildHoldAndRebuild : Prop :=
  (∀ (i r : Nat) (k : Packet) (g : Group) (s : State),
     (∀ op, op = 0x20 ∨ op = 0x22 ∨ op = 0x23 → CodeArrives s op i k g r → s.buildOk (kEpoch k) = false →
       ∃ t, exec (if op = 0x20 then .codeDelta else if op = 0x22 then .codeEnd else .codeReady) s = .next t ∧ t.cs = s.cs ∧
         t.mem = s.mem ∧ Counted s t pgCs 0x138) ∧
     (CodeArrives s 0x20 i k g r → Memory.wf s = true → s.cs.building = some (kEpoch k) → s.codingOn = true →
       let st := kStripe k
       let p := kPidx k
       let off := field k.body 9 3
       let n := (kData k).length
       let slot := g.m * (st / g.n) + p
       let sel := mget false s.cs.sel slot
       let base := if s.cs.built.contains slot then g.bufAt (!sel) slot else g.bufAt sel slot
       st < g.stripes → p < g.m → (st + p) % g.n = g.self → parityOf g.n g.m st r = none → off % 2048 = 0 → 1 ≤ n → n ≤ 2048 →
       off + n ≤ 65536 → field k.body 12 4 = 0 → (∀ y ∈ s.cs.opened, y.1 ≠ r) → (∃ q ∈ g.others, ∀ y ∈ s.cs.ends, y.1 ≠ q) →
       (∀ y, y < 65536 → s.mem.at_ (base + y) ≠ none) → ∃ t, exec .codeDelta s = .next t ∧ slot ∈ t.cs.built ∧
         (∀ y, y < 65536 → t.mem.at_ (g.bufAt (!sel) slot + y) = if off ≤ y ∧ y < off + n
           then (s.mem.at_ (base + y)).map (· ^^^ (kData k).getD (y - off) 0) else s.mem.at_ (base + y)) ∧
         (∀ y, y < g.bufAt (!sel) slot ∨ g.bufAt (!sel) slot + 65536 ≤ y → t.mem.at_ y = s.mem.at_ y) ∧
         (n < 2048 ∨ off + n = 65536 → countOf t.cs.deltas r = countOf s.cs.deltas r + 1 ∧
           CodeQueued s t g r 0x21 (toLE 4 (kEpoch k).toNat ++ toLE 4 st ++ toLE 1 p) [])) ∧
     (CodeArrives s 0x22 i k g r → s.buildOk (kEpoch k) = true →
       (field k.body 8 8 ≠ g.digest.toNat → ∃ t, exec .codeEnd s = .next t ∧ Flagged t pgCs 0x104 11 1 ∧ t.cs = s.cs ∧ t.mem = s.mem) ∧
       (field k.body 8 8 = g.digest.toNat → s.cs.building = some (kEpoch k) → (∀ y ∈ s.cs.opened, y.1 ≠ r) →
         s.cs.sentReady = false → ∃ t, exec .codeEnd s = .next t ∧ t.mem = s.mem ∧
         CodeQueued s t g r 0x21 (toLE 4 (kEpoch k).toNat ++ toLE 4 endMark ++ toLE 1 0xFF) [] ∧
         ((∃ q ∈ g.others, q ≠ r ∧ ∀ y ∈ s.cs.ends, y.1 ≠ q) → (r, field k.body 4 4) ∈ t.cs.ends ∧ t.cs.hcomplete = s.cs.hcomplete) ∧
         ((∀ q ∈ g.others, q ≠ r → (∃ y ∈ s.cs.ends, y.1 = q) ∧ s.cs.ended q = countOf s.cs.deltas q) →
           s.cs.ended r + field k.body 4 4 = countOf s.cs.deltas r → s.cs.lastCoded = s.cs.building → s.cs.codes = [] →
             t.cs.hcomplete = some (kEpoch k) ∧
           ∀ q ∈ g.others, CodeQueued s t g q 0x23 (toLE 4 (kEpoch k).toNat) []))) ∧
     (CodeArrives s 0x23 i k g r → s.buildOk (kEpoch k) = true → s.cs.building = some (kEpoch k) →
       ∃ t, exec .codeReady s = .next t ∧ t.mem = s.mem ∧
         ((∃ q, q < g.n ∧ q ≠ r ∧ q ∉ s.cs.readies) → r ∈ t.cs.readies ∧ t.cs.epoch = s.cs.epoch ∧ t.cs.sel = s.cs.sel) ∧
         ((∀ q, q < g.n → q = r ∨ q ∈ s.cs.readies) → t.cs.epoch = some (kEpoch k) ∧ t.cs.building = none ∧
           (s.cs.st = .reform → t.cs.st = .coding) ∧
           ∀ b, s.cs.built.count b ≤ 1 → mget false t.cs.sel b = (mget false s.cs.sel b != s.cs.built.contains b)))) ∧
  (∀ (s : State),
     (∀ kind, 1 ≤ kind → kind ≤ 3 → s.cs.held = some kind → s.cs.holdSaid = false → s.guardReached (s.fld pgCs 0x100 15 0) = true →
       ∃ t, exec (.holdLate kind) s = .next t ∧ t.bit pgCs 0x104 9 = true ∧ t.fld pgCs 0x104 5 4 = kind ∧ Counted s t pgCs 0x12C ∧
         t.bit (if kind = 3 then pgVault else pgCs) 0x010 0 = true ∧
         { wordsOf s t with cs := s.cs, router := s.router } = s) ∧
     (∀ (a : Auth) (r : RecoverArgs) (g : Group), Verified s a 0x32 → s.live r.tag r.gen = true → s.cs.group = some g →
       g.tag = r.tag → g.gen = r.gen → g.k = 1 → s.cs.st = .halted → r.adopt = [] → (∀ q, q < g.n → (g.member q).modid ∉ r.lost) →
       ∃ t, exec (.recover a r) s = .next t ∧ Answered s t a 0x32 0 [] ∧ t.cs.st = .coding ∧
         t.cs.epoch = some r.epoch ∧ t.cs.hcomplete = some r.epoch ∧ t.cs.nz = [] ∧
         (∀ y ∈ s.segList, mget false t.cs.written y.j = true) ∧ (t.job r.tag).cseq = r.cseq0 ∧ t.mem = s.mem) ∧
     (∀ i k g r bs, CodeArrives s 0x24 i k g r →
       let st := field k.body 0 4
       let sym := field k.body 4 4
       st < g.stripes → symbolOwner g st sym = g.self → sym < 0x80 ∨ sym - 0x80 < g.m → s.symbolBytes g st sym = some bs → bs ≠ [] →
       (∀ e ∈ s.mem.poison, e.2 = 1) → ∃ t, exec .rebReq s = .next t ∧ t.mem = s.mem ∧
         (some k.src ≠ s.modId → t.cs.rebuild = servedSeg st k.src s.cs.rebuild) ∧
         CodeQueued s t g r 0x25 (toLE 4 st ++ toLE 4 sym ++ toLE 4 0) (bs.take 2048)) ∧
     (∀ i k g r n y o a b, CodeArrives s 0x25 i k g r → s.rebHead = some (n, y) →
       let sym := field k.body 4 4
       let off := field k.body 8 4
       let z := { y with got := y.got.map fun v => if v.1 = sym then (sym, b ++ kData k, true) else v }
       (y.got.find? fun v => v.1 == sym && !v.2.2) = some (sym, b, false) → b.length = off → y.stripe = field k.body 0 4 →
       (kData k).length ≤ 2048 → (kData k).length < 2048 ∧ off + (kData k).length ≤ 65536 ∨ off + (kData k).length = 65536 →
       (∀ v ∈ y.got, v.1 = sym ∨ v.2.2 = true) → y.offs = [o] → y.part < 16 → symbolOwner g y.stripe sym = r →
       s.sliceParts y.part y.slice o y.len = some [(a, y.len)] → s.accessOk .exempt a y.len = true → y.len ≠ 0 →
       (∀ e ∈ s.mem.poison, e.2 = 1) → ∃ t, exec .rebRsp s = .next t ∧
         t.mem.rd a y.len = (rebBytes g z).map some ∧
         (t.cs.rebuild[n]?).map (·.done) = some true ∧ ∀ x, x < a ∨ a + y.len ≤ x → t.mem.at_ x = s.mem.at_ x) ∧
     (s.cs.st = .rebuild → (∀ y ∈ s.cs.rebuild, y.done = true) → ∃ t, exec .rebuildDone s = .next t ∧ t.cs.st = .reform ∧
       t.cs.group = s.cs.group ∧ t.bit pgCs 0x010 3 = true ∧ { wordsOf s t with cs := s.cs, router := s.router } = s) ∧
     (s.cs.st ≠ .rebuild ∨ (∃ y ∈ s.cs.rebuild, y.done = false) → exec .rebuildDone s = .next s))

/-- Drains (R384, R467, R468): a DRAIN arc is DONE at once; in an epoch step of its interval, with the drive ready, its slot, never
the newest complete image's, is made invalid, and every PAIR region of the coding map is registered with its bytes, their CRC and
the commands that write them; a region that cannot be read is VAULT_ERR. Each command that completes writes the next segments, then
Flush, and the header makes the image complete; a drive error, 30 s without completion, or the link's loss abandons it, and a restore
too. Restores
(R385): RESTORE sends this module's complete epoch images; with a list from every module the leader chooses the newest epoch
that every rank has, or fails with MIXED_EPOCH; the regions of the chosen epoch are checked by their CRCs first: one that fails
writes nothing; an image of one region, a run of physical bytes, is written where its map entry names. No error is met in memory.
The model's own choices in it: log 1, 9, 87 and 95. -/
def Obligations.VaultDrainsAndRestores : Prop :=
  (∀ (u e : Nat) (x : ArcEnt) (s : State),
     (∀ b, ArcCanFire s u e 11 x → NoErrors s → (s.loadX .unit x.w3 64).bind allSome = some b →
       (x.arg % 64 ≠ 0 ∨ 2 ≤ field b 0 1 ∨ field b 1 3 ≠ 0 ∨ allZero (b.drop 8) = false → ∃ t, exec (.arcDrain u e) s = .next t ∧
         ArcDone s t u e x ∧ t.mem = s.mem ∧ t.vault = s.vault) ∧
       (x.arg % 64 = 0 → field b 0 4 = 0 → allZero (b.drop 8) = true →
         (s.vault.ready = false ∨ s.cs.group = none ∨ field b 4 4 = 0 ∨ (∃ g, s.cs.group = some g ∧ s.epochOf g = none) ∨
           (∃ g ep, s.cs.group = some g ∧ s.epochOf g = some ep ∧ ep % field b 4 4 ≠ 0) → ∃ t, exec (.arcDrain u e) s = .next t ∧
             ArcDone s t u e x ∧ t.mem = s.mem ∧ t.vault = s.vault) ∧
         (∀ g ep, s.vault.ready = true → s.cs.group = some g → s.epochOf g = some ep → field b 4 4 ≠ 0 → ep % field b 4 4 = 0 →
           s.vault.drain = none →
           ((∃ m ∈ s.drainMap g 1, s.piecesLoad (s.drainCmds g ep m).flatten = none) → ∃ t, exec (.arcDrain u e) s = .next t ∧
             ArcDone s t u e x ∧ t.mem = s.mem ∧ t.vault.drain = none ∧ Flagged t pgVault 0x124 8 1) ∧
           ((∀ m ∈ s.drainMap g 1, s.piecesLoad (s.drainCmds g ep m).flatten ≠ none) → ∃ t d, exec (.arcDrain u e) s = .next t ∧
             ArcDone s t u e x ∧ t.mem = s.mem ∧ t.vault.drain = some d ∧ d.frozen = false ∧ d.flushed = false ∧
             d.cmds = ((s.drainMap g 1).map (s.drainCmds g ep)).flatten ∧
             d.image.epoch = BitVec.ofNat 32 ep ∧ d.image.valid = false ∧ d.image.digest = g.digest ∧
             d.image.regs.map (·.1) = s.drainMap g 1 ∧
             (∀ r ∈ d.image.regs, s.piecesLoad (s.drainCmds g ep r.1).flatten = some r.2.1 ∧ r.2.2 = crc64 r.2.1) ∧
             (t.slotImage d.slot).valid = false ∧
             ((s.slotImage 1).valid = true → (s.slotImage 2).valid = true → d.slot =
               if (s.slotImage 2).epoch.toNat ≤ (s.slotImage 1).epoch.toNat then 2 else 1))))) ∧
     (∀ d, s.vault.drain = some d →
       (∀ c r, d.cmds = c :: r → NoErrors s → ∃ t, exec (.vaultCmdDone 0) s = .next t ∧
         t.vault = { s.vault with drain := some { d with cmds := r, cmdAt := s.clk } } ∧
         t.reg64 pgVport 0x108 = (s.reg64 pgVport 0x108 + ((c.map fun y => y.2.2.2).foldl (· + ·) 0 + 4095) / 4096) % 2 ^ 64 ∧
         t.out = s.out ++ [.drive d.slot (padBlock ((s.piecesLoad c).getD []))] ∧ t.mem = s.mem) ∧
       (d.cmds = [] → d.flushed = false → exec (.vaultCmdDone 0) s =
         .next { s with vault := { s.vault with drain := some { d with flushed := true, cmdAt := s.clk } } }) ∧
       (d.cmds = [] → d.flushed = true → ∃ t, exec .drainDone s = .next t ∧ t.slotImage d.slot = { d.image with valid := true } ∧
         t.vault.drain = none ∧ t.bit pgVault 0x010 3 = true ∧ t.out = s.out ++ [.drive d.slot (imageHeader { d.image with valid := true })] ∧
         t.mem = s.mem) ∧
       (∀ st : BitVec 16, st ≠ 0 → ∃ t, exec (.vaultCmdDone st) s = .next t ∧ t.vault.drain = none ∧ t.vault.images = s.vault.images ∧
         t.vault.restoring = false ∧ (t.reg pgVport 0x104).toNat = st.toNat ∧ Flagged t pgVport 0x100 9 1 ∧
         Flagged t pgVault 0x124 8 1 ∧ t.mem = s.mem) ∧
       (d.cmdAt + 30000000000 ≤ s.clk → ∃ t, exec .vaultCmdTimeout s = .next t ∧ t.vault.drain = none ∧
         t.vault.images = s.vault.images ∧ Flagged t pgVport 0x100 9 1 ∧ Flagged t pgVault 0x124 8 1 ∧ t.mem = s.mem) ∧
       (s.vault.linkup = true → ∃ t, exec .vaultLinkDown s = .next t ∧ t.vault.drain = none ∧ t.vault.images = s.vault.images ∧
         t.vault.linkup = false ∧ t.vault.ready = false ∧ Flagged t pgVport 0x100 8 0 ∧ t.mem = s.mem)) ∧
     (s.vault.drain = none → s.vault.restoring = true → s.vault.restAt + 30000000000 ≤ s.clk → ∃ t, exec .vaultCmdTimeout s = .next t ∧
       t.vault.restoring = false ∧ Flagged t pgVport 0x100 9 1 ∧ Flagged t pgVault 0x124 8 1 ∧ t.mem = s.mem) ∧
     (∀ fit, exec (.vaultLinkUp fit) s = .next { s with vault := { s.vault with linkup := true, ready := fit } })) ∧
  (∀ (s : State),
     (∀ w : W32, bits w.toNat 1 0 = 1 → s.pageBusy pgVault = false →
       (s.vault.ready = true → exec (.vltRestore w) s = .next { s with
         vault := { s.vault with restoring := true, restAt := s.clk, lists := [] }, out := s.out ++ [.restoreList s.epochImages] }) ∧
       (s.vault.ready = false → ∃ t, exec (.vltRestore w) s = .next t ∧ Flagged t pgVault 0x124 8 1 ∧
         { wordsOf s t with router := s.router } = s)) ∧
     (∀ l : EpochList, s.vault.restoring = true →
       let ls := (s.vault.lists.filter fun y => y.src != l.src) ++ [l]
       (ls.length < l.members → exec (.restoreEpochList l) s = .next { s with vault := { s.vault with lists := ls } }) ∧
       (l.members ≤ ls.length →
         (∀ ep, CommonEpoch ls l.ranks ep → ∃ t ch, exec (.restoreEpochList l) s = .next t ∧ t.out = s.out ++ [.restoreChoice ch] ∧
           CommonEpoch ls l.ranks ch ∧ (∀ y, CommonEpoch ls l.ranks y → y.toNat ≤ ch.toNat) ∧
           { t with vault := s.vault, out := s.out } = s) ∧
         ((∀ ep, ¬ CommonEpoch ls l.ranks ep) → ∃ t, exec (.restoreEpochList l) s = .next t ∧ t.vault.restoring = false ∧
           Flagged t pgVault 0x124 9 2 ∧ { wordsOf s t with vault := s.vault, router := s.router } = s))) ∧
     (∀ (ep : W32) (m : Image), s.vault.restoring = true →
       ([s.slotImage 1, s.slotImage 2].find? fun y => y.valid && y.epoch == ep) = some m → (s.slotImage 0).valid = false →
       ((∃ r ∈ m.regs, crc64 r.2.1 ≠ r.2.2) → ∃ t, exec (.restoreChoice ep) s = .next t ∧ t.vault.restoring = false ∧
         Flagged t pgVault 0x124 9 2 ∧ t.mem = s.mem) ∧
       ((∀ r ∈ m.regs, crc64 r.2.1 = r.2.2) → ∃ t, exec (.restoreChoice ep) s = .next t ∧ t.vault.restoring = false ∧
         t.reg pgVault 0x128 = ep ∧ t.reg pgVault 0x12C = m.step ∧
         ∀ r f a, m.regs = [r] → s.mapField r.1 = some f → f.len = r.2.1.length → f.len ≠ 0 → r.1.part < 16 →
           s.sliceParts r.1.part (f.first + r.1.slf) (f.off + (if f.kind = 1 then (1 - m.step.toNat % 2) * f.len else 0)) f.len =
             some [(a, f.len)] →
           s.accessOk .exempt a f.len = true → t.mem.rd a f.len = r.2.1.map some ∧
             ∀ y, y < a ∨ a + f.len ≤ y → t.mem.at_ y = s.mem.at_ y)))

/-- ERROR_RECORD (R393, R395, R397, R405): the oldest record at the steward goes into the log at its count modulo 4096, with
class INFO when it reports a FENCED unit again; a counted one of a unit enters its history, PERMANENT when the last days hold as
many as the limit, and the unit is fenced as Table 17.5 says. With the steward not running, or no record, nothing happens.
HISTORY_WRITE_DONE, STEWARD_TAKEOVER and PGCTL_ERRACK (R394, R399, R400, R487): the oldest changed history entry reaches the
option store, or its failure is said; nothing is written with SFDP_ERR; a takeover gives P-die 1's core the steward's role;
ERRACK clears PGSTAT.ERR of its page alone, but for a record written in its nanosecond. The model's own choices in it: log 1, 59, 60 and 91. -/
def Obligations.FaultsAreLogged : Prop :=
  (∀ (b : List Byte) (r : List (List Byte)) (s : State),
     (s.stewardOn = false ∨ s.router.inbox = [] → exec .errorRecord s = .next s) ∧
     (s.stewardOn = true → s.router.inbox = b :: r → b.length = 64 →
       let u := field b 2 2
       let again := field b 4 1 = 5 ∧ u < 1802 ∧ (s.unit u).st = .fenced
       let cls := if again then 0 else field b 4 1
       let line := if again then recWithClass b 0 else b
       let a := s.logBase + 64 * (s.logCnt % 4096)
       let isCounted := (cls = 2 ∨ cls = 4 ∨ cls = 5 ∨ cls = 6) ∧ u < 1802
       let h := s.histOf u
       let now := if s.fltClock = 0 then (h.times.head?.map (· + 1)).getD 1 else s.fltClock
       let recent := ((now :: h.times).take 12).filter fun x => decide (now ≤ x + 86400 * s.fld pgFault 0x108 15 8)
       let lim := min 12 (s.fld pgFault 0x108 3 0)
       let perm := h.st = 2 ∨ 0 < lim ∧ lim ≤ recent.length
       ∃ t, exec .errorRecord s = .next t ∧ t.router.inbox = r ∧ t.logCnt = s.logCnt + 1 ∧
         t.logHead.toNat = (field b 56 4 + 1) % 2 ^ 32 ∧
         (¬ isCounted → (∃ v, s.store .steward a (line.map some) = .ok v) → t.mem.rd a 64 = line.map some ∧
           { t with mem := s.mem, cs := s.cs, router := s.router, logCnt := s.logCnt, logHead := s.logHead } = s) ∧
         (isCounted →
           t.histOf u = ⟨if perm then 2 else 1, min 255 (h.total + 1), cls, (now :: h.times).take 12⟩ ∧
           (∀ v, v ≠ u → t.histOf v = s.histOf v) ∧ u ∈ t.opt.histDue ∧
           (perm → h.st ≠ 2 → Flagged t pgFault 0x100 2 2) ∧
           (u < 1152 ∧ (s.unit u).lt = none ∨ 1152 ≤ u ∧ u < 1736 ∧ (cls = 5 ∨ perm) ∨ 1736 ≤ u ∧ u < 1800 ∨
             1800 ≤ u ∧ ¬ (cls = 4 ∧ field b 0 2 = pgReset) → (t.unit u).st = .fenced) ∧
           (1152 ≤ u ∧ u < 1736 ∧ cls ≠ 5 ∧ ¬ perm ∨ 1800 ≤ u ∧ cls = 4 ∧ field b 0 2 = pgReset ∧ ¬ perm → t.ust = s.ust)))) ∧
  (∀ (s : State),
     (s.opt.histDue = [] → ∀ ok, exec (.historyWriteDone ok) s = .next s) ∧
     (∀ u r, s.opt.histDue = u :: r →
       (s.opt.sfdpOk = false → ∀ ok, exec (.historyWriteDone ok) s = .next s) ∧
       (s.opt.sfdpOk = true → ∃ t, exec (.historyWriteDone true) s = .next t ∧ t.opt.histDue = r ∧
         mget Hist.clean t.opt.hist u = s.histOf u ∧ (∀ v, v ≠ u → mget Hist.clean t.opt.hist v = mget Hist.clean s.opt.hist v) ∧
         { t with opt.hist := s.opt.hist, opt.histDue := s.opt.histDue } = s) ∧
       (s.opt.sfdpOk = true → ∃ t, exec (.historyWriteDone false) s = .next t ∧ t.opt = { s.opt with histDue := r } ∧
         Flagged t pgFault 0x100 7 5 ∧ { wordsOf s t with opt := s.opt, router := s.router } = s)) ∧
     (s.rst.takeover = true → ∃ t, exec .stewardTakeover s = .next t ∧
       t.rst = { s.rst with takeover := false, active1 := true, stopped := false } ∧ t.bit pgFault 0x010 4 = true ∧
       Reported s t pgFault ⟨1801, 0, 0, 0, 0, 0, 0⟩ ∧ t.ust = s.ust ∧ t.mem = s.mem ∧ t.tiles = s.tiles ∧ t.parts = s.parts) ∧
     (s.rst.takeover = false → exec .stewardTakeover s = .next s) ∧
     (∀ page, ∃ t, exec (.pgctlErrack page) s = .next t ∧ (∀ q, q ∈ t.errSet ↔ q ∈ s.errSet ∧ (q ≠ page ∨ mheld s.recWas q ≠ none)) ∧
       { t with errSet := s.errSet } = s))

/-- PGCTL_FENCE (R28, R86, R397, R399): the page writes an INFO record of its unit, which those of the work that its wrapper
completes may follow; a unit in ACTIVE, SPARE or AUDIT becomes
FENCED, one in OFF or FENCED does not change. The logical tile of a fenced tile goes to the lowest spare, whose token counters
are cleared, with a slice swap; without a spare the partition has one logical tile fewer, and says so. AUDIT arcs and the known-
answer suite (R401, R402): an arc that its step filter passes over, or that names no logical tile, is DONE at once; one with no
spare is DONE with AUDIT_REF; else its move is registered. A tile that passes the suite becomes SPARE, unless its history is
PERMANENT; one that fails is FENCED, said with AUDIT_FAIL. The model's own choices in it: log 1, 12 and 61. -/
def Obligations.UnitsAreFencedAndAudited : Prop :=
  (∀ (page u : Nat) (s : State),
     (pageUnit page = none → exec (.pgctlFence page) s = .next s) ∧
     (pageUnit page = some u →
       let st := (s.unit u).st
       let p := u / 72
       ∃ t, exec (.pgctlFence page) s = .next t ∧ page ∈ t.errSet ∧
         (st = .off ∨ st = .fenced ∨ 1152 ≤ u ∧ u < 1736 ∨ 1800 ≤ u ∨ (s.core_ (u - 1736)).posts = [] ∧ 1736 ≤ u ∧
           (s.core_ (u - 1736)).heldPost = none → Reported s t page ⟨u, 0, 0, 0, 0, 0, 0⟩) ∧
         (st = .off ∨ st = .fenced → { wordsOf s t with err := s.err, recWas := s.recWas, errSet := s.errSet, errSeq := s.errSeq, router := s.router } = s) ∧
         (st ≠ .off → st ≠ .fenced →
           (1152 ≤ u ∨ (s.unit u).lt = none → (t.unit u).st = .fenced) ∧
           (1664 ≤ u → u < 1736 → (t.port (u - 1664)).st = .down) ∧
           (1736 ≤ u → u < 1800 → (t.core_ (u - 1736)).running = false ∧ (t.core_ (u - 1736)).posts = []) ∧
           (∀ k, u < 1152 → (s.unit u).lt = some k → st = .active → (s.part p).audit = [] →
             (∀ c r, s.spares p = c :: r → (t.unit u).st = .fenced ∧ t.unit (p * 72 + c) = ⟨.active, some k⟩ ∧
               (t.part p).tmap = (s.part p).tmap.set k c ∧ (t.part p).n = (s.part p).n ∧
               (t.part p).swap = (s.part p).swap ++ [⟨u % 72, c, k, c, 0, s.clk⟩] ∧ ∀ i, i < 64 → tileTokOf t (p * 72 + c) i = 0) ∧
             (s.spares p = [] → (t.part p).n = (s.part p).n - 1 ∧ t.bit (pgPart p) 0x010 3 = true ∧
               (k = (s.part p).n - 1 → (t.unit u).st = .fenced ∧ (t.part p).tmap = (s.part p).tmap) ∧
               (∀ c, k ≠ (s.part p).n - 1 → (s.part p).tmap[(s.part p).n - 1]? = some c → c ≠ u % 72 →
                 (t.unit u).st = .fenced ∧ t.unit (p * 72 + c) = ⟨.active, some k⟩ ∧ (t.part p).tmap = (s.part p).tmap.set k c)))))) ∧
  (∀ (u e : Nat) (x : ArcEnt) (s : State),
     (ArcCanFire s u e 6 x →
       let every := bits x.arg 31 16
       let i := s.tb.stepIdx.toNat
       let n := (s.part u).n
       let k := if bitAt x.arg 32 ∧ n ≠ 0 then (bits x.arg 5 0 + i / every) % n else bits x.arg 5 0
       let c := if bitAt x.arg 15 then (s.spares u).head?
         else if bits x.arg 14 8 ∈ s.spares u then some (bits x.arg 14 8) else none
       ∃ t, exec (.arcAudit u e) s = .next t ∧ t.mem = s.mem ∧
         (every = 0 ∨ i % every ≠ 0 ∨ n ≤ k → ArcDone s t u e x ∧ { t with arcs := s.arcs } = s) ∧
         (every ≠ 0 → i % every = 0 → k < n →
           (c = none → ArcDone s t u e x ∧ t.bit pgFault 0x100 5 = true ∧ t.parts = s.parts) ∧
           (∀ y, c = some y → ArcPosted s t u e ∧ (∃ m, (t.part u).audit = (s.part u).audit ++ [⟨e, k, y, m⟩]) ∧ t.regs = s.regs))) ∧
     (∀ pass, 1152 ≤ u ∨ (s.unit u).st ≠ .audit → exec (.auditSuiteDone u pass) s = .next s) ∧
     (u < 1152 → (s.unit u).st = .audit →
       ((s.histOf u).st ≠ 2 → ∃ t, exec (.auditSuiteDone u true) s = .next t ∧ t.unit u = ⟨.spare, none⟩ ∧
         (t.tile u).seq = .off ∧ Counted s t pgFault 0x124 ∧ (∀ v, v ≠ u → t.unit v = s.unit v ∧ t.tile v = s.tile v) ∧
         { wordsOf s t with ust := s.ust, tiles := s.tiles } = s) ∧
       ((s.histOf u).st = 2 → (s.unit u).lt = none → ∃ t, exec (.auditSuiteDone u true) s = .next t ∧ (t.unit u).st = .fenced) ∧
       ((s.unit u).lt = none → ∃ t, exec (.auditSuiteDone u false) s = .next t ∧ (t.unit u).st = .fenced ∧
         Counted s t pgFault 0x128 ∧ Flagged t pgFault 0x100 3 3)))

/-- PWR_OK_RISE, PWR_OK_FALL, SYS_RST_N and its release (R409, R411, R415, R504): power-on and SYS_RST_N leave every register at
its cold-reset value but RST_CAUSE, memory and every queue and table empty, and keep the option store, the written history and
the drive; the release order runs once power is good and SYS_RST_N is high. PERST, RST_CTL_WARM and WARM_RESET (R409, R410,
R413, R414): each says its cause, and with power a warm reset keeps both tiers and every sticky field, clears the tile stores,
and starts at phase 0 without the wait of a cold one; in phase 2 it restarts option loading. Keyed writes count from the host
and the steward alone. The model's own choices in it: log 1, 5, 63 and 80. -/
def Obligations.ColdAndWarmResets : Prop :=
  (∀ (s : State),
     let cold := fun (t : State) => t.mem = Store.empty ∧ t.hist = s.opt.hist ∧ t.opt.slots = s.opt.slots ∧
       t.opt.hist = s.opt.hist ∧ t.vault.images = s.vault.images ∧ t.out = s.out ∧ t.clk = s.clk ∧
       (∀ pg o, o < 0x1000 → ¬ (pg = pgReset ∧ o = 0x100) → ¬ (pg = pgPower ∧ o = 0x12C) → t.reg pg o = resetWord pg o) ∧
       { t with pending := [], fresh := 0, clk := 0, out := [], hist := [], pins := Pins.reset, opt := OptStore.reset, vault := Vault.reset
                power := Power.reset, rst := RstSeq.reset, regs := [], bitsNow := [], cntsNow := [] } = State.reset
     (s.pins.pwrOk = true → exec .pwrOkRise s = .next s) ∧
     (s.pins.pwrOk = false → exec .pwrOkFall s = .next s ∧ ∃ t, exec .pwrOkRise s = .next t ∧ cold t ∧ t.pins.pwrOk = true ∧
       t.rst.running = (!s.pins.sysRst) ∧ t.rst.phase = 0 ∧ t.reg pgReset 0x100 = 1 ∧ t.reg pgPower 0x12C = 0) ∧
     (s.pins.pwrOk = true → ∃ t, exec .pwrOkFall s = .next t ∧ cold t ∧ t.pins.pwrOk = false ∧ t.rst.running = false ∧
       t.inRing = false ∧ t.pins.bypassOpen = false) ∧
     (s.pins.sysRst = true → exec .sysRstN s = .next s) ∧
     (s.pins.sysRst = false → exec .sysRstNRelease s = .next s ∧
       (s.pins.pwrOk = true → s.power.tripped = false → ∃ t, exec .sysRstN s = .next t ∧ cold t ∧ t.pins.sysRst = true ∧
         t.rst.running = false ∧ t.reg pgReset 0x100 = s.reg pgReset 0x100 ||| 2 ∧ t.reg pgPower 0x12C = s.reg pgPower 0x12C) ∧
       (s.pins.pwrOk = false ∨ s.power.tripped = true → exec .sysRstN s = .next { s with pins.sysRst := true })) ∧
     (s.pins.sysRst = true → s.pins.pwrOk = true → s.power.tripped = false → ∃ t, exec .sysRstNRelease s = .next t ∧
       t.pins.sysRst = false ∧ t.rst.running = true ∧ t.rst.phase = 0 ∧ t.refCycle = 0 ∧
       { t with pins := s.pins, rst := s.rst } = s)) ∧
  (∀ (i : Instr) (n : Nat) (s : State),
     (i = .perst ∧ n = 2 ∨ (∃ (w : W32) (b : Writer), i = .rstCtlWarm w b ∧ n = 3 ∧ bits w.toNat 15 8 = 0xA5 ∧ w.getLsbD 0 = true ∧
       b ≠ .core ∧ s.pageBusy pgReset = false) ∨ ∃ a : Auth, i = .warmReset a ∧ n = 4 ∧ Accepted s a 0x41 ∧ (s.warmBy 4).mgmtRoute a.src ≠ .none_) →
     ∃ t, exec i s = .next t ∧
       (s.powered = true → ∀ j, j < 8 → t.bit pgReset 0x100 j = (s.bit pgReset 0x100 j || j == n)) ∧
       (s.powered = true → ¬ (s.rst.running = true ∧ s.rst.phase = 2) →
         (∀ x, x < tileBase → t.mem.at_ x = s.mem.at_ x) ∧ (∀ x, tileBase ≤ x → t.mem.at_ x = some 0) ∧
         (∀ pg o, o < 0x1000 → ¬ (pg = pgReset ∧ o = 0x100) → t.reg pg o = stickyPart pg o (s.reg pg o)) ∧
         t.tiles = [] ∧ t.arcs = [] ∧ t.jobs = [] ∧ t.mjob = none ∧ t.tb.timevalid = false ∧ t.boot = Boot.reset ∧
         t.rst.running = true ∧ t.rst.phase = 0 ∧ t.rst.cold = false ∧ t.opt.slots = s.opt.slots ∧ t.hist = s.hist ∧
         t.logHead = s.logHead ∧ t.logCnt = s.logCnt ∧ t.inRing = s.inRing) ∧
       (s.powered = true → s.rst.running = true → s.rst.phase = 2 → t.rst.phase = 1 ∧ t.rst.loaded = false ∧
         Counted s t pgReset 0x110 ∧ t.mem = s.mem) ∧
       (∀ a, i ≠ .warmReset a → s.powered = false → t = s))

/-- RST_CTL_PARTRST, PART_RESET and PART_RESET_RELEASE (R410, R417, R418): a partition reset holds partition p: its tiles, arc
unit and stages hold no work and go to their reset state; a second one restarts the hold; 4096 reference cycles and eleven
domains 256 apart later the partition is released and reported. A partition number of 16 or more is refused. RESET_PHASE (R412,
R413, R503): the next phase of the release order begins once the gap of its phase has passed since the one before, and after
option loading in phase 2; phase 1 locks the reference PLL, phase 4 powers the lasers, phase 6 has trained the memories, and
with phase 8 the order ends and RST_RELTIME holds its reference cycles.
The model's own choices in it: log 1, 63 and 64. -/
def Obligations.PartitionResetsAndReleaseOrder : Prop :=
  (∀ (i : Instr) (p : Nat) (s : State), p < 16 →
     let start := (∃ (w : W32) (b : Writer), i = .rstCtlPartrst w b ∧ bits w.toNat 15 8 = 0xA5 ∧ w.getLsbD 1 = true ∧
       w.getLsbD 0 = false ∧ bits w.toNat 7 4 = p ∧ b ≠ .core ∧ s.pageBusy pgReset = false ∧ s.powered = true) ∨
       ∃ a : Auth, i = .partReset a p ∧ Verified s a 0x40
     (start → ∃ t, exec i s = .next t ∧ t.bit pgReset 0x104 p = true ∧ (t.part p).inReset = true ∧
       (t.part p).rstAt = s.refCycle ∧
       ((s.part p).inReset = false → t.arcu p = ArcUnit.reset ∧
         (∀ k, k < 72 → t.tile (p * 72 + k) = { Tile.reset with seq := if s.tileOn (p * 72 + k) then .idle else .off }) ∧
         (t.part p).asm = ⟨[], none⟩ ∧ (t.part p).slv.run = none ∧ (t.part p).slv.queue = [] ∧ (t.part p).fpl.active = none ∧
         (t.part p).audit = [] ∧ (t.part p).smap = (s.part p).smap ∧ (t.part p).tmap = (s.part p).tmap ∧
         (∀ k i, k < 72 → i < 64 → tileTokOf t (p * 72 + k) i = 0)) ∧
       ((s.part p).inReset = true → t.mem = s.mem ∧ t.tiles = s.tiles ∧ t.arcs = s.arcs)) ∧
     (∀ a q, i = .partReset a q → 16 ≤ q → Verified s a 0x40 → exec i s =
       .next { s with mgtCtr := a.counter, out := s.out ++ [.mgmtRsp a.src 0x40 5 a.counter []] }) ∧
     (∀ l, (s.part p).inReset = true →
       (s.refCycle < (s.part p).rstAt + 6656 → exec (.partResetRelease p l) s = .next s) ∧
       ((s.part p).rstAt + 6656 ≤ s.refCycle → ∃ t, exec (.partResetRelease p l) s = .next t ∧ (t.part p).inReset = false ∧
         t.bit pgReset 0x010 3 = true ∧ t.out = s.out ++ [.partReport p] ∧
         (∀ c, c < 32 → ((t.part p).far.dead.getLsbD c = true ↔ 1152 + p * 32 + c ∈ l)) ∧ t.mem = s.mem ∧ t.tiles = s.tiles))) ∧
  (∀ (l : List Nat) (s : State),
     let ph := s.rst.phase
     let gap := if ph = 0 then 1024 else if ph = 6 then 256 + (if s.rst.cold = true then 81920 else 0) else if ph = 7 then 65536 else 256
     let ready := s.rst.running = true ∧ ph < 8 ∧ (ph = 2 → s.rst.loaded = true)
     (¬ ready ∨ s.refCycle < s.rst.at_ + gap → exec (.resetPhase l) s = .next s) ∧
     (ready → s.rst.at_ + gap ≤ s.refCycle → ∃ t, exec (.resetPhase l) s = .next t ∧ t.mem = s.mem ∧ t.tiles = s.tiles ∧
       t.rst = { s.rst with phase := ph + 1, at_ := s.refCycle, running := decide (ph ≠ 7)
                            mtimeFrom := if ph = 2 then s.clk else s.rst.mtimeFrom } ∧
       (ph = 0 → t.tb.reflock = s.pins.refClk) ∧ (ph ≠ 0 → t.tb = s.tb) ∧
       (ph = 3 → t.pins.lasers = 0xFF ∧ ∀ i, i < 72 → s.bit (pgPort i) 0x100 0 = true → (s.unit (1664 + i)).st ≠ .fenced →
         (s.port i).st = .down → (t.port i).st = .training) ∧
       (ph = 5 → ∀ p c, p < 16 → c < 32 → ((t.part p).far.dead.getLsbD c = true ↔ 1152 + p * 32 + c ∈ l)) ∧
       (ph = 7 → (t.reg pgReset 0x120).toNat = s.refCycle % 2 ^ 32)))

/-- PGCTL_SRST and SRST_COMPLETE (R416): a soft reset of a page present, in a partition that is up and in no soft reset, first
has the isolation wrapper complete the block's work, and then sets the page's words to their reset values, sticky fields aside;
the reset ends 64 cycles later. Other pages' words stay, but for what the retraining of a port changes. RST_HBEAT,
WATCHDOG_BITE and STEWARD_RESTART (R419, R420, R423): a beat of the running steward arms the watchdog; without one for its
period times its limit it bites: the first bite stops the core and says so, a second within 1 s asks for a warm reset instead;
1024 core cycles after the first the core starts again.
The model's own choices in it: log 1, 65 and 66. -/
def Obligations.SoftResetsAndWatchdog : Prop :=
  (∀ (page : Nat) (s : State),
     (pagePresent page = false ∨ s.softReset page = true ∨ (∃ p, pagePart page = some p ∧ s.partUp p = false) →
       exec (.pgctlSrst page) s = .next s) ∧
     (pagePresent page = true → s.softReset page = false → (∀ p, pagePart page = some p → s.partUp p = true) →
       ∃ t, exec (.pgctlSrst page) s = .next t ∧ t.softReset page = true ∧ mget 0 t.srst page = 1 ∧
         (∀ q, q ≠ page → mget 0 t.srst q = mget 0 s.srst q) ∧
         (∀ u, u < 17 → page = pgArc u → ∀ x ∈ (t.arcu u).active, x.st ≠ .fired) ∧
         (∀ k, k < 1152 → page = pgTile k → (t.tile k).queues = [] ∧ (t.tile k).item = none) ∧
         (∀ p, p < 16 → page = pgPart p → (t.part p).wl = List.replicate 4 WlSlot.free) ∧
         (∀ p, p < 16 → page = pgAsm p → (t.part p).asm = ⟨[], none⟩) ∧
         (∀ p, p < 16 → page = pgSlv p → (t.part p).slv.run = none ∧ (t.part p).slv.queue = []) ∧
         (∀ c, c < 64 → page = pgCore c → (t.core_ c) = Core_.reset)) ∧
     (mget 0 s.srst page ≠ 1 → exec (.srstComplete page) s = .next s) ∧
     (mget 0 s.srst page = 1 → ∃ t, exec (.srstComplete page) s = .next t ∧ mget 0 t.srst page = s.clk + 2 ∧ t.mem = s.mem ∧
       (∀ o, o < 0x1000 → page ≠ pgBoot →
         t.reg page o = if keptWord page o then s.reg page o else stickyPart page o (s.reg page o)) ∧
       (∀ q o, q ≠ page → o < 0x1000 → pageClass page ≠ 0x30 → t.reg q o = s.reg q o) ∧
       (∀ u, u < 17 → page = pgArc u → t.arcu u = ArcUnit.reset) ∧
       (∀ k, k < 1152 → page = pgTile k → t.tile k = { Tile.reset with seq := if s.tileOn k then .idle else .off }) ∧
       (∀ p, p < 16 → page = pgFpl p → (t.part p).fpl.active = none ∧ (t.part p).fpl.ready = none) ∧
       (∀ i, i < 72 → page = pgPort i → s.portPowered i = true → (t.port i).st = .training) ∧
       (page = pgBoot → t.reg pgBoot 0x114 = 0 ∧ t.reg pgBoot 0x128 = 0 ∧ t.boot = s.boot))) ∧
  (∀ (s : State),
     (∀ (w : W32) (b : Writer),
       (b = .steward → s.stewardOn = true → s.pageBusy pgReset = false → exec (.rstHbeat w b) s =
         .next { s with rst := { s.rst with armed := true, lastBeat := s.clk } }) ∧
       (b ≠ .steward ∨ s.stewardOn = false ∨ s.pageBusy pgReset = true → exec (.rstHbeat w b) s = .next s)) ∧
     (let per := if s.fld pgReset 0x118 15 0 = 0 then 1000 else s.fld pgReset 0x118 15 0
      let miss := if s.fld pgReset 0x118 19 16 = 0 then 3 else s.fld pgReset 0x118 19 16
      let due := s.rst.armed = true ∧ s.rst.stopped = false ∧ s.rst.warmReq = false ∧ s.rst.lastBeat + 1000 * per * miss ≤ s.clk
      let soon := ∃ b, s.rst.lastBite = some b ∧ s.clk < b + 1000000000 ∧ s.rst.takeover = false
      (¬ due → exec .watchdogBite s = .next s) ∧
      (due → ∃ t, exec .watchdogBite s = .next t ∧
        t.fld pgReset 0x11C 7 0 = min 255 (s.fld pgReset 0x11C 7 0 + 1) ∧ t.rst.lastBite = some s.clk ∧ t.mem = s.mem ∧
        (¬ soon → t.bit pgReset 0x100 5 = true ∧ t.bit pgReset 0x010 0 = true ∧ t.rst.stopped = (!s.rst.takeover) ∧
          t.rst.biteAt = s.clk ∧ t.rst.warmReq = false ∧
          Reported s t pgReset ⟨if s.rst.active1 then 1801 else 1800, 4, 0, 0, 0, 0, 0⟩) ∧
        (soon → t.bit pgReset 0x100 6 = true ∧ t.bit pgReset 0x010 1 = true ∧ t.rst.stopped = true ∧ t.rst.warmReq = true ∧
          t.err = s.err))) ∧
     (let wait := if (if s.rst.active1 then 17 else 16) ∈ s.power.throttled then 1707 else 427
      let due := s.rst.stopped = true ∧ s.rst.warmReq = false ∧ s.rst.noSteward = false ∧ s.rst.biteAt + wait ≤ s.clk
      (due → exec .stewardRestart s = .next { s with rst := { s.rst with stopped := false }, boot := { s.boot with stewardUp := true } }) ∧
      (¬ due → exec .stewardRestart s = .next s)))

/-- OPTION_LOAD_DONE (R40, R394, R398, R428, R429, R435): the valid blocks are in use, the others are defaulted and said; every
partition takes its logical tiles and channels afresh from its grade and the PERMANENT units of the history; the module has its
identity when its parts agree, and a boot ID. Outside phase 2, or again, nothing happens. BOOT_GO and IMG_VERIFY_DONE (R431 to
R434, R436): GO starts a verification while the module waits for an image; the first failing check of Table 19.3 is in BOOT_ERR
with its event, and the image does not run; one that passes starts the steward and is measured with its signer's key into MR(2).
The model's own choices in it: log 1, 8, 9, 62, 67 and 68. -/
def Obligations.OptionsAndImagesBoot : Prop :=
  (∀ (o : OptionLoad) (s : State),
     (s.rst.running = false ∨ s.rst.phase ≠ 2 ∨ s.rst.loaded = true → exec (.optionLoadDone o) s = .next s) ∧
     (s.rst.running = true → s.rst.phase = 2 → s.rst.loaded = false → ∃ t, exec (.optionLoadDone o) s = .next t ∧
       t.rst.loaded = true ∧ t.rst.at_ = s.refCycle ∧ t.mgtBootId = o.bootId ∧ t.opt.sfdpOk = o.sfdpOk ∧
       (∀ u, t.histOf u = if u ∈ o.histLost then Hist.clean else s.histOf u) ∧
       (∀ n, 1 ≤ n → n ≤ 10 →
         let bytes := fun (k : Nat) => if k ∈ o.lost then none
           else ((s.opt.slots.find? fun b => b.1 == k).orElse fun _ => o.slots.find? fun b => b.1 == k).map (·.2)
         let valid := fun (k : Nat) => (bytes k).bind fun b => slotOf_ n b
         let a := valid (2 * (n - 1))
         let b := valid (2 * (n - 1) + 1)
         let use := match a, b with
           | some x, some y => if x.1 < y.1 then b else a
           | some _, none => a
           | none, _ => b
         t.block n = (use.map (·.2)).filter (fun b => blockOk n b) ∧
         (t.boot.defaulted.getLsbD n = true ↔ t.block n = none) ∧
         (t.block n = none → Flagged t pgBoot 0x100 8 0)) ∧
       (∀ p, p < 16 →
         let bad := fun (u : Nat) => (t.histOf u).st = 2
         let grade := ((t.block 1).map fun b => field b 8 1).getD 56
         let good := (List.range 72).filter fun k => decide ((t.histOf (p * 72 + k)).st ≠ 2)
         (t.part p).grade = grade ∧ (t.part p).n = min grade good.length ∧ (t.part p).tmap.length = (t.part p).n ∧
         (∀ k, k < 72 → t.unit (p * 72 + k) = (if bad (p * 72 + k) then ⟨.fenced, none⟩
           else if k ∈ (t.part p).tmap then ⟨.active, some ((t.part p).tmap.idxOf k)⟩ else ⟨.spare, none⟩)) ∧
         (∀ (j k : Nat), (t.part p).tmap[j]? = some k → k ∈ good) ∧
         (∀ c, c < 32 → ((t.part p).far.live.getLsbD c = true ↔ ¬ bad (1152 + p * 32 + c)))) ∧
       (t.boot.idOk = true ↔ t.block 9 ≠ none ∧ t.block 10 ≠ none ∧ o.idOk = true))) ∧
  (∀ (s : State),
     (∀ w : W32,
       let n := s.fld pgBoot 0x10C 23 0
       let go := w.getLsbD 0 = true ∧ s.pageBusy pgBoot = false ∧ s.rst.phase = 8 ∧ s.rst.running = false ∧
         s.boot.image = none ∧ s.boot.verifying = none ∧ n ≠ 0
       (¬ go → exec (.bootGo w) s = .next s) ∧
       (go → ∃ t, exec (.bootGo w) s = .next t ∧ t.boot = { s.boot with verifying := some n } ∧ Counted s t pgBoot 0x114 ∧
         { wordsOf s t with boot := s.boot } = s)) ∧
     (∀ v : ImgVerdict, s.boot.verifying = none → exec (.imgVerifyDone v) s = .next s) ∧
     (∀ (v : ImgVerdict) (n : Nat), s.boot.verifying = some n →
       let b := (s.boot.staging.rd 0 (min n 0x800000)).map fun x => x.getD 0
       let body := field b 8 4
       let shape := 64 + 3309 ≤ n ∧ n ≤ 0x800000 ∧ n = 64 + body + 3309
       let head := field b 0 4 = 0x44584657 ∧ field b 6 1 ≤ 1 ∧ field b 7 1 = 0 ∧ allZero (slice_ b 20 44) = true ∧ field b 12 4 < body
       let owner := field b 6 1 = 1 → s.ownerUsable v.keyOk = true
       let fails := fun (c : Nat) => ∃ t, exec (.imgVerifyDone v) s = .next t ∧ t.fld pgBoot 0x100 15 12 = c ∧
         Flagged t pgBoot 0x100 9 1 ∧ t.boot = { s.boot with verifying := none } ∧
         { wordsOf s t with boot := s.boot, router := s.router } = s
       (¬ shape → fails 1) ∧ (shape → ¬ head → fails 2) ∧ (shape → head → ¬ owner → fails 3) ∧
       (shape → head → owner → v.sigOk = false → fails 4) ∧
       (shape → head → owner → v.sigOk = true → field b 4 2 < s.boot.minsvn.toNat → fails 5) ∧
       (shape → head → owner → v.sigOk = true → s.boot.minsvn.toNat ≤ field b 4 2 → ∃ t, exec (.imgVerifyDone v) s = .next t ∧
         t.boot.image = some b ∧ t.boot.stewardUp = true ∧ t.boot.verifying = none ∧ t.boot.signer = decide (field b 6 1 = 1) ∧
         t.boot.svn.toNat = field b 4 2 ∧ (∀ i, i ≠ 2 → t.boot.mrs[i]? = s.boot.mrs[i]?) ∧
         (∀ m, s.boot.mrs[2]? = some m →
           let key := if field b 6 1 = 1 then (s.ownerKey.map (·.1)).getD [] else Config.vendorKey
           let m1 := shake256 (m ++ shake256 (b.take (n - 3309)) 64) 64
           t.boot.mrs[2]? = some (shake256 (m1 ++ shake256 key 64) 64)) ∧
         { t with boot := s.boot } = s)))

/-- SVC_RUN, SVC_POST and POST_ISSUE (R27, R74, R442, R447 to R449): the steward starts a core whose unit is ACTIVE, at SVC_RVEC in
M-mode; a posting takes one of 16 places or waits in the core, and one from a core that is FENCED or OFF is a DISAGREE record; the
oldest goes to its logical tile's queue, as a program's instruction would, once its wait condition holds and the queue has room,
and gives way to a ready one of the program after each; one whose fields, tile or state are wrong is refused and said. PSV.ADD,
SUB, MUL, MAC, MIN and MAX (R450, R451, R453): elements from psvidx on of rd are the operation of the elements of rs1, rs2 and rd,
lower ones keep their values; the flags of FP forms are ORed into fflags, and psvidx is 0. PSV.RSUM, LDS and STS (R445, R450,
R453): the canonical fold of the elements of rs1 goes to element 0 of rd; each element from psvidx on is read from x1 + k x2, or
written there: into a tile store at once, into the far tier through a line of the caches. A misaligned or faulting element traps
with that element in psvidx, the lower ones done. These two are said of caches that are clean and agree with memory, of memory
that meets no error, and of elements outside register pages and the aperture. Traps and power of the PSV unit (R450, R452, R454,
R477): a word with no form, or FP state off, or a steward core, traps as illegal and changes nothing else; on an unpowered unit
the instruction waits for it to wake; the unit powers off after PSVIDLE times 256 core cycles without one.
The model's own choices in it: log 1, 15, 24, 72, 73, 74, 75, 95 and 96. -/
def Obligations.ServiceCoresRunPostAndCompute : Prop :=
  (∀ (c : Nat) (s : State),
     let x := s.core_ c
     let only := fun (t : State) => ∀ d, d ≠ c → t.core_ d = s.core_ d
     (c < 64 → s.stewardOn = true → (s.unit (1736 + c)).st = .active → s.softReset (pgCore c) = false → x.running = false →
       ∃ t, exec (.svcRun c) s = .next t ∧ (t.core_ c).running = true ∧ (t.core_ c).pc.toNat = s.reg64 (pgCore c) 0x108 ∧
         (t.core_ c).mode = .m ∧ { t.core_ c with running := false, pc := x.pc, mode := x.mode, fsOff := x.fsOff } = x ∧
         only t ∧ { t with cores := s.cores } = s) ∧
     (64 ≤ c ∨ s.stewardOn = false ∨ (s.unit (1736 + c)).st ≠ .active ∨ s.softReset (pgCore c) = true ∨ x.running = true →
       exec (.svcRun c) s = .next s) ∧
     (∀ a : W64, s.coreUp c = true → (s.unit (1736 + c)).st ≠ .off → x.heldPost = none → ∃ t, exec (.svcPost c a) s = .next t ∧ only t ∧
       { t with cores := s.cores } = s ∧
       t.core_ c = (if x.posts.length < 16 then { x with posts := x.posts ++ [a &&& 0xFFFFFFFFFFC0] }
         else { x with heldPost := some (a &&& 0xFFFFFFFFFFC0) })) ∧
     (∀ a : W64, (s.unit (1736 + c)).st ≠ .off → (s.unit (1736 + c)).st ≠ .fenced → s.coreUp c = false ∨ x.heldPost ≠ none →
       exec (.svcPost c a) s = .next s) ∧
     (∀ a : W64, c < 64 → (s.unit (1736 + c)).st = .off ∨ (s.unit (1736 + c)).st = .fenced → ∃ t, exec (.svcPost c a) s = .next t ∧
       Reported s t (pgCore c) ⟨1736 + c, 5, 0, 0, 0, (a &&& 0xFFFFFFFFFFC0).toNat, 0⟩ ∧
       { wordsOf s t with err := s.err, recWas := s.recWas, errSet := s.errSet, errSeq := s.errSeq, router := s.router } = s) ∧
     (s.coreUp c = false ∨ x.posts = [] → exec (.postIssue c) s = .next s) ∧
     (∀ a r, s.coreUp c = true → x.posts = a :: r → NoErrors s →
       let left := fun (t : State) => t.core_ c = { x with posts := r ++ x.heldPost.toList, heldPost := none }
       (s.posting a = none ∨ s.postTile a = none ∨ (∃ k, s.postTile a = some k ∧ s.tileOn k = false) →
         ∃ t, exec (.postIssue c) s = .next t ∧ left t ∧ only t ∧ Flagged t (pgCore c) 0x104 8 0 ∧ pgCore c ∈ t.errSet ∧
           (s.bit (pgCore c) 0x104 8 = false → t.reg64 (pgCore c) 0x120 = a.toNat) ∧ t.tiles = s.tiles ∧ t.mem = s.mem) ∧
       (∀ k tl q, s.posting a = some k → s.ptile (k.ltile / 64) (k.ltile % 64) = some tl → s.tileOn tl = true →
         queueOf (wMajor k.word) = some q → q < 4 →
         let room := wWcnt k.word ≤ s.tokSeen tl (wWidx k.word) ∧ (s.tile tl).hasCredit q = true
         let turn := (s.tile tl).lastPosted = false ∨ s.progReady tl q = false
         (s.rstActive (pgTile tl) = true → ∃ t, exec (.postIssue c) s = .next t ∧ left t ∧ only t ∧ { t with cores := s.cores } = s) ∧
         (s.rstActive (pgTile tl) = false → s.pageBusy (pgTile tl) = false → s.takesWork (tl / 72) = true → room → turn →
           ∃ t e, exec (.postIssue c) s = .next t ∧ left t ∧ only t ∧ (t.tile tl).queue q = (s.tile tl).queue q ++ [e] ∧
             e.word = BitVec.ofNat 64 k.word ∧ e.ext1 = BitVec.ofNat 64 k.ext1 ∧ e.ext2 = BitVec.ofNat 64 k.ext2 ∧ e.ops = k.ops ∧
             e.posted = true ∧ e.st = .queued ∧ (t.tile tl).pc = (s.tile tl).pc ∧ (t.tile tl).lastPosted = true ∧
             (∀ j, j ≠ tl → t.tile j = s.tile j) ∧ { t with cores := s.cores, tiles := s.tiles } = s) ∧
         (s.rstActive (pgTile tl) = false → ¬ room ∨ ¬ turn ∨ s.takesWork (tl / 72) = false → exec (.postIssue c) s = .next s)))) ∧
  (∀ (i : Instr) (c op : Nat) (w : W32) (rounds : Bool) (g : Nat → Nat → Nat → Nat → Nat → Nat × Nat) (s : State),
     psvRow i = some (c, w, op, rounds, g) → PsvReady s c w op rounds (psvRegs w) →
     let x := s.core_ c
     let p := psvOf w
     let b := psvBits p.ty
     let r := fun (k : Nat) => g p.ty (psvRm x.frm) (elemAt b (x.fval p.wide p.rs1) k) (elemAt b (x.fval p.wide p.rs2) k)
       (elemAt b (x.fval p.wide p.rd) k)
     ∃ t v fl, exec i s = .next t ∧ PsvDone s t c p v fl ∧ { t with cores := s.cores } = s ∧
       (∀ k, k < p.count → elemAt b v k = if x.psvidx.toNat ≤ k then (r k).1 % 2 ^ b else elemAt b (x.fval p.wide p.rd) k) ∧
       (∀ j, j < 5 → (fl.getLsbD j = true ↔ x.fflags.getLsbD j = true ∨
         ∃ k, k < p.count ∧ x.psvidx.toNat ≤ k ∧ (r k).2.testBit (4 - j) = true))) ∧
  (∀ (c : Nat) (w : W32) (x1 x2 : W64) (s : State),
     let x := s.core_ c
     let p := psvOf w
     let b := psvBits p.ty
     let vd := x.fval p.wide p.rd
     (PsvReady s c w 0x10 true [p.rd, p.rs1] → ∃ t v fl, exec (.psvRsum c w) s = .next t ∧ PsvDone s t c p v fl ∧
       { t with cores := s.cores } = s ∧ (∀ k, k < p.count → k ≠ 0 → elemAt b v k = elemAt b vd k) ∧
       let add := fun (y z : Nat) => if psvFp p.ty then (psvFmt p.ty).add (psvRm x.frm) y z else ((y + z) % 2 ^ b, 0)
       let sum := pfold add ((List.range p.count).map fun k => some (elemAt b (x.fval p.wide p.rs1) k))
       elemAt b v 0 = (sum.1.getD 0) % 2 ^ b ∧ fl = x.fflags ||| psvFlags sum.2) ∧
     let z := b / 8
     let at_ := psvAddr x1 x2
     let from_ := x.psvidx.toNat
     (PsvReady s c w 0x20 false [p.rd] → NoErrors s → CachesClean s → ∀ e : Nat → Nat,
       ((∀ k, k < p.count → from_ ≤ k → at_ k % z = 0 ∧ CoreReads s (at_ k) z (e k)) →
         ∃ t v, exec (.psvLds c w x1 x2) s = .next t ∧ PsvDone s t c p v x.fflags ∧
           { t with cores := s.cores, dcache := s.dcache, fresh := s.fresh } = s ∧
           ∀ k, k < p.count → elemAt b v k = if from_ ≤ k then e k % 2 ^ b else elemAt b vd k) ∧
       (∀ m, from_ ≤ m → m < p.count → (∀ k, k < m → from_ ≤ k → at_ k % z = 0 ∧ CoreReads s (at_ k) z (e k)) →
         at_ m % z ≠ 0 ∨ CoreFaults s (at_ m) z → ∃ t, exec (.psvLds c w x1 x2) s = .next t ∧
           (t.core_ c).trap = some (if at_ m % z ≠ 0 then 4 else 5) ∧ (t.core_ c).psvidx.toNat = m ∧
           (∀ k, k < p.count → elemAt b ((t.core_ c).fval p.wide p.rd) k = if from_ ≤ k ∧ k < m then e k % 2 ^ b else elemAt b vd k) ∧
           { t with cores := s.cores, dcache := s.dcache, fresh := s.fresh } = s)) ∧
     (PsvReady s c w 0x21 false [p.rd] →
       let apart := ∀ j k, from_ ≤ j → j < k → k < p.count → overlaps (at_ j) z (at_ k) z = false
       let elem := fun (k : Nat) => (toLE z (elemAt b vd k)).map some
       let beside := fun (n y : Nat) => ∀ k, k < n → from_ ≤ k → y < at_ k ∨ at_ k + z ≤ y
       let store := fun (k : Nat) => at_ k % z = 0 ∧ s.accessOk .unit (at_ k) z = true ∧ ∃ q, regionOf (at_ k) = .tstore q
       (apart → (∀ k, k < p.count → from_ ≤ k → store k) →
         ∃ t, exec (.psvSts c w x1 x2) s = .next t ∧ PsvDone s t c p vd x.fflags ∧ { t with cores := s.cores, mem := s.mem } = s ∧
           (∀ k, k < p.count → from_ ≤ k → t.mem.rd (at_ k) z = elem k) ∧
           ∀ y, beside p.count y → t.mem.at_ y = s.mem.at_ y) ∧
       (apart → NoErrors s → CachesClean s → (∀ k, k < p.count → from_ ≤ k → at_ k % z = 0 ∧
           s.accessOk .unit (at_ k / 64 * 64) 64 = true ∧ ∃ q, regionOf (at_ k) = .far q) →
         ∃ t, exec (.psvSts c w x1 x2) s = .next t ∧ PsvDone s t c p vd x.fflags ∧
           { t with cores := s.cores, mem := s.mem, dcache := s.dcache, fresh := s.fresh } = s ∧
           (∀ k, k < p.count → from_ ≤ k → t.mem.rd (at_ k) z = elem k ∨ ∃ l ∈ t.dcache, l.line = at_ k / 64 ∧ l.dirty = true ∧
             (l.data.drop (at_ k % 64)).take z = elem k) ∧
           ∀ y, beside p.count y → t.mem.at_ y = s.mem.at_ y) ∧
       (∀ m, apart → from_ ≤ m → m < p.count → (∀ k, k < m → from_ ≤ k → store k) →
         at_ m % z ≠ 0 ∨ (∃ q, regionOf (at_ m) = .tstore q) ∧ s.accessOk .unit (at_ m) z = false →
         ∃ t, exec (.psvSts c w x1 x2) s = .next t ∧ (t.core_ c).trap = some (if at_ m % z ≠ 0 then 6 else 7) ∧
           (t.core_ c).psvidx.toNat = m ∧ (∀ k, k < m → from_ ≤ k → t.mem.rd (at_ k) z = elem k) ∧
           (∀ y, beside m y → t.mem.at_ y = s.mem.at_ y) ∧ { t with cores := s.cores, mem := s.mem } = s))) ∧
  (∀ (i : Instr) (c op : Nat) (w : W32) (rounds : Bool) (g : Nat → Nat → Nat → Nat → Nat → Nat × Nat) (s : State),
     let x := s.core_ c
     (psvRow i = some (c, w, op, rounds, g) → psvIs w op = true →
       (c = 64 ∨ c = 65 ∨ s.coreUp c = true ∧ x.waking = false ∧
           ((psvOf w).legal (psvRegs w) = false ∨ x.fsOff = true ∨ rounds = true ∧ psvFp (psvOf w).ty = true ∧ 4 < x.frm.toNat) →
         ∃ t, exec i s = .next t ∧ t.core_ c = { x with trap := some 2 } ∧ { t with cores := s.cores } = s) ∧
       (c < 64 → s.coreUp c = true → x.waking = false → (psvOf w).legal (psvRegs w) = true → x.fsOff = false → x.frm.toNat ≤ 4 →
         x.psvOn = false → ∃ t, exec i s = .next t ∧ t.core_ c = { x with waking := true } ∧ { t with cores := s.cores } = s)) ∧
     (s.coreUp c = true → x.waking = true → ∃ t, exec (.psvWake c) s = .next t ∧
       t.core_ c = { x with waking := false, psvOn := true, psvIdleAt := s.clk } ∧ Counted s t (pgCore c) 0x128 ∧
       { wordsOf s t with cores := s.cores } = s) ∧
     (s.coreUp c = false ∨ x.waking = false → exec (.psvWake c) s = .next s) ∧
     (let lim := s.fld (pgCore c) 0x100 15 8
      let off := c < 64 ∧ x.psvOn = true ∧ lim ≠ 0 ∧
        lim * 256 * 5 ≤ (s.clk - x.psvIdleAt) * (if (16 + c / 32) ∈ s.power.throttled then 3 else 12)
      (off → ∃ t, exec (.psvIdleOff c) s = .next t ∧ t.core_ c = { x with psvOn := false } ∧ (∀ d, d ≠ c → t.core_ d = s.core_ d) ∧
        { t with cores := s.cores } = s) ∧
      (¬ off → exec (.psvIdleOff c) s = .next s)))

/-- HRING_TAIL, HRING_ENABLE and RING_ENTRY_DONE (R462, R463): a doorbell fetches the entries its tail passes, of a ring that is
on; a tail of SIZE or more stops the ring with an event; a rise of ENABLE starts it afresh, and a fall
discards what a doorbell of its nanosecond fetched (R470); the oldest entry that is complete
has its 16-byte record written at its place, with the phase of this pass, and its vector signalled. RING_NOP, HTOM, MTOH and
NOTIFY (R463, R464): each entry, in its turn, completes: a NOP at once; a copy of no bytes at once; HTOM with what the host
answered at MADDR, or MODULE_ERR, or HOST_ERR when the read failed; MTOH with the bytes at MADDR sent to the host, or
MODULE_ERR; NOTIFY with its value at MADDR. MADDR is one run of physical bytes, and no error is met in memory.
The model's own choices in it: log 1, 10, 76 and 95. -/
def Obligations.HostRingsAreServed : Prop :=
  (∀ (r : Nat) (w : W32) (s : State),
     let h := s.hring r
     let size := bits h.cfg.toNat 10 1
     let live := r < 256 ∧ s.hostp.up = true ∧ h.cfg.getLsbD 0 = true ∧ size ≠ 0 ∧ size ≤ 960 ∧ h.stopped = false
     let tail := bits w.toNat 9 0
     let only := fun (t : State) => ∀ q, q ≠ r → t.hring q = s.hring q
     (¬ live → exec (.hringTail r w) s = .next s) ∧
     (live → size ≤ tail → ∃ t, exec (.hringTail r w) s = .next t ∧ t.hring r = { h with err := true, stopped := true } ∧ only t ∧
       Flagged t pgHost 0x100 17 1 ∧ { wordsOf s t with hrings := s.hrings, router := s.router } = s) ∧
     (live → tail < size → ∃ t, exec (.hringTail r w) s = .next t ∧ only t ∧ { t with hrings := s.hrings } = s ∧
       (t.hring r).tail = tail ∧ (t.hring r).head = tail ∧ (t.hring r).ents.length = h.ents.length + (tail + size - h.head) % size ∧
       (∀ j, j < h.ents.length → (t.hring r).ents[j]? = h.ents[j]?) ∧
       (∃ u, exec (.hringEnable r 0) t = .next u ∧ (h.bell = none → u.hring r = { h with cfg := 0 })) ∧
       ∀ j, j < (tail + size - h.head) % size → (t.hring r).ents[h.ents.length + j]? =
         some (ringEntOf ((h.mem.rd (64 * ((h.head + j) % size)) 64).map fun b => b.getD 0))) ∧
     (r < 256 → s.hostp.up = true → ∃ t, exec (.hringEnable r w) s = .next t ∧ only t ∧ { t with hrings := s.hrings } = s ∧
       t.hring r = (if h.cfg.getLsbD 0 = false ∧ w.getLsbD 0 = true
         then { h with cfg := w &&& 0x07FF07FF, head := 0, tail := 0, phase := true, rec_ := 0, ents := [], stopped := false, bell := none }
         else if w.getLsbD 0 = true then { h with cfg := w &&& 0x07FF07FF } else { h.disable s.clk with cfg := w &&& 0x07FF07FF })) ∧
     (256 ≤ r ∨ s.hostp.up = false → exec (.hringEnable r w) s = .next s ∧ exec (.ringEntryDone r) s = .next s) ∧
     (h.ents = [] ∨ (∃ e l, h.ents = e :: l ∧ e.status = none) → exec (.ringEntryDone r) s = .next s) ∧
     (∀ e l st, h.ents = e :: l → e.status = some st → r < 256 → s.hostp.up = true → size ≠ 0 →
       let v := bits h.cfg.toNat 26 16
       ∃ t, exec (.ringEntryDone r) s = .next t ∧ only t ∧
         t.hring r = { h with ents := l, rec_ := if size ≤ h.rec_ + 1 then 0 else h.rec_ + 1
                              phase := if size ≤ h.rec_ + 1 then !h.phase else h.phase } ∧
         (let record : OutMsg := .hostWrite (h.cq + BitVec.ofNat 64 (16 * h.rec_))
           ((toLE 4 e.cid.toNat ++ toLE 1 st ++ toLE 1 (if h.phase then 1 else 0) ++ toLE 10 0).map some)
          t.out = s.out ++ [record] ++ (if v ∈ s.hostp.masked then [] else [.msix v])) ∧
         (v ∈ s.hostp.masked → v ∈ t.hostp.pba) ∧ t.mem = s.mem)) ∧
  (∀ (r i : Nat) (e : RingEnt) (s : State),
     (RingTurn s r 0 i e → ∃ t, exec (.ringNop r) s = .next t ∧ RingEnded s t r i 0 e ∧ { t with hrings := s.hrings } = s) ∧
     (∀ host : HostRead, RingTurn s r 1 i e →
       (e.len = 0 → ∃ t, exec (.htom r host) s = .next t ∧ RingEnded s t r i 0 e ∧ { t with hrings := s.hrings } = s) ∧
       (e.len ≠ 0 → host.failed = true → ∃ t, exec (.htom r host) s = .next t ∧ RingEnded s t r i 2 e ∧
         t.out = s.out ++ [.hostRead e.haddr e.len] ∧ { t with hrings := s.hrings, out := s.out } = s) ∧
       (∀ a, e.len ≠ 0 → host.failed = false → host.poisoned = false → host.data.length = e.len →
         s.xlateParts e.maddr e.len = some [(a, e.len)] →
         ((∃ u, s.store .host a (host.data.map some) = .ok u) → ∃ t, exec (.htom r host) s = .next t ∧ RingEnded s t r i 0 e ∧
           t.mem.rd a e.len = host.data.map some ∧ (∀ x, x < a ∨ a + e.len ≤ x → t.mem.at_ x = s.mem.at_ x) ∧
           t.out = s.out ++ [.hostRead e.haddr e.len] ∧ { t with hrings := s.hrings, out := s.out, mem := s.mem, cs := s.cs } = s) ∧
         (s.accessOk .host a e.len = false → ∃ t, exec (.htom r host) s = .next t ∧ RingEnded s t r i 1 e ∧ t.mem = s.mem)) ∧
       (∀ a, e.len ≠ 0 → host.failed = false → host.poisoned = true → s.xlateParts e.maddr e.len = some [(a, e.len)] →
         (∃ u, s.store .host a (List.replicate e.len none) = .ok u) → ∃ t, exec (.htom r host) s = .next t ∧
           RingEnded s t r i 2 e ∧ t.mem.rd a e.len = List.replicate e.len none)) ∧
     (RingTurn s r 2 i e →
       (e.len = 0 → ∃ t, exec (.mtoh r) s = .next t ∧ RingEnded s t r i 0 e ∧ { t with hrings := s.hrings } = s) ∧
       (e.len ≠ 0 → s.loadX .host e.maddr e.len = none → ∃ t, exec (.mtoh r) s = .next t ∧ RingEnded s t r i 1 e ∧
         { t with hrings := s.hrings } = s) ∧
       (∀ bs, NoErrors s → e.len ≠ 0 → s.loadX .host e.maddr e.len = some bs → ∃ t, exec (.mtoh r) s = .next t ∧ RingEnded s t r i 0 e ∧
         t.out = s.out ++ [.hostWrite e.haddr bs] ∧ { t with hrings := s.hrings, out := s.out } = s)) ∧
     (∀ a, RingTurn s r 3 i e → s.xlateParts e.maddr 8 = some [(a, 8)] →
       ((∃ u, s.store .host a ((toLE 8 e.value.toNat).map some) = .ok u) → ∃ t, exec (.notify r) s = .next t ∧ RingEnded s t r i 0 e ∧
         t.mem.rd a 8 = (toLE 8 e.value.toNat).map some ∧ (∀ x, x < a ∨ a + 8 ≤ x → t.mem.at_ x = s.mem.at_ x) ∧
         { t with hrings := s.hrings, mem := s.mem, cs := s.cs } = s) ∧
       (s.accessOk .host a 8 = false → ∃ t, exec (.notify r) s = .next t ∧ RingEnded s t r i 1 e ∧ t.mem = s.mem)))

/-- BAR2_ACCESS and HOST_ATOMICOP (R458 to R461, R470): while the module waits for an image BAR2 is the staging area; then it is
the module address HOST_BASE plus the offset. A read that errs completes with CA, one past BAR2's size with UR, poison as a poisoned
completion; a write that errs is discarded. An AtomicOp of an aligned tier operand changes it whole and completes with the old
value. MSIX_UNMASK, HOST_LINK_DOWN and HOST_LINK_UP (R457, R465, R466): unmasking a vector sends it if it was pending; a link
loss is said, and disables every ring and abandons its entries; the link comes up at a speed and width, from phase 8 on and in
Flit Mode only. No error is met in memory. The model's own choices in it: log 1, 10, 14, 77 and 95. -/
def Obligations.HostAccessesVectorsAndLink : Prop :=
  (∀ (y : Nat) (s : State),
     let reply := fun (st : Nat) (d : List Byte) => s.out ++ [OutMsg.hostReply st d]
     let a := s.reg64 pgHost 0x108 + y
     (s.hostp.up = false → ∀ n wr op, exec (.bar2Access y n wr) s = .next s ∧ exec (.hostAtomicop y op) s = .next s) ∧
     (s.hostp.up = true → s.waitImg = true →
       (∀ n bs, y + bs.length ≤ 0x800000 → ∃ t, exec (.bar2Access y n (some bs)) s = .next t ∧
         t.boot.staging.rd y bs.length = bs.map some ∧
         (∀ x, x < y ∨ y + bs.length ≤ x → t.boot.staging.at_ x = s.boot.staging.at_ x) ∧ { t with boot := s.boot } = s) ∧
       (∀ n, y + n ≤ 0x800000 → exec (.bar2Access y n none) s =
         .next { s with out := reply 0 ((s.boot.staging.rd y n).map fun b => b.getD 0) }) ∧
       (∀ n, 0x800000 < y + n → exec (.bar2Access y n none) s = .next { s with out := reply 1 [] }) ∧
       (∀ op : HostAtomic, y + op.size ≤ 0x800000 → exec (.hostAtomicop y op) s = .next { s with out := reply 2 [] })) ∧
     (s.hostp.up = true → s.waitImg = false →
       (∀ n, y + n ≤ s.hostp.b2size →
         (n = 0 → exec (.bar2Access y n none) s = .next { s with out := reply 0 [] }) ∧
         (∀ bs, NoErrors s → bar2Reaches a = true → s.load .host a n = some bs → exec (.bar2Access y n none) s =
           .next { s with out := if none ∈ bs then reply 3 (bs.map fun b => b.getD 0) else reply 0 (bs.map fun b => b.getD 0) }) ∧
         (n ≠ 0 → bar2Reaches a = false ∨ s.load .host a n = none → exec (.bar2Access y n none) s = .next { s with out := reply 2 [] })) ∧
       (∀ n, s.hostp.b2size < y + n → exec (.bar2Access y n none) s = .next { s with out := reply 1 [] }) ∧
       (∀ n bs, y + bs.length ≤ s.hostp.b2size →
         (bar2Reaches a = true → (∃ u, s.store .host a (bs.map some) = .ok u) → ∃ t, exec (.bar2Access y n (some bs)) s = .next t ∧
           t.mem.rd a bs.length = bs.map some ∧ (∀ x, x < a ∨ a + bs.length ≤ x → t.mem.at_ x = s.mem.at_ x) ∧
           { t with mem := s.mem, cs := s.cs } = s) ∧
         (bar2Reaches a = false ∨ bs.length ≠ 0 ∧ s.accessOk .host a bs.length = false → exec (.bar2Access y n (some bs)) s = .next s)) ∧
       (∀ op : HostAtomic, y + op.size ≤ s.hostp.b2size →
         let tier := (∃ q, regionOf a = .far q) ∨ ∃ q, regionOf a = .near q
         let form := (op.kind ≤ 1 ∧ (op.size = 4 ∨ op.size = 8) ∨ op.kind = 2 ∧ (op.size = 4 ∨ op.size = 8 ∨ op.size = 16)) ∧ a % op.size = 0
         (¬ (tier ∧ form) → exec (.hostAtomicop y op) s = .next { s with out := reply 2 [] }) ∧
         (∀ old, NoErrors s → tier → form → (s.load .host a op.size).bind pNat = some old →
           (∀ bs : List (PVal Byte), bs.length = op.size → ∃ u, s.store .host a bs = .ok u) →
           let m := 2 ^ (8 * op.size)
           let v := op.operand.toNat % m
           let new_ := if op.kind = 0 then (old + v) % m else if op.kind = 1 then v
             else if old = op.compare.toNat % m then v else old
           ∃ t, exec (.hostAtomicop y op) s = .next t ∧ t.mem.rd a op.size = (toLE op.size new_).map some ∧
             (∀ x, x < a ∨ a + op.size ≤ x → t.mem.at_ x = s.mem.at_ x) ∧ t.out = reply 0 (toLE op.size old) ∧
             { t with mem := s.mem, cs := s.cs, out := s.out } = s)))) ∧
  (∀ (v speed width : Nat) (s : State),
     (s.hostp.up = true → v ∈ s.hostp.masked → ∃ t, exec (.msixUnmask v) s = .next t ∧
       (∀ x, x ∈ t.hostp.masked ↔ x ∈ s.hostp.masked ∧ x ≠ v) ∧ (∀ x, x ∈ t.hostp.pba ↔ x ∈ s.hostp.pba ∧ x ≠ v) ∧
       t.out = s.out ++ (if v ∈ s.hostp.pba then [.msix v] else []) ∧ { t with hostp := s.hostp, out := s.out } = s) ∧
     (s.hostp.up = false ∨ v ∉ s.hostp.masked → exec (.msixUnmask v) s = .next s) ∧
     (s.hostp.up = true → ∃ t, exec .hostLinkDown s = .next t ∧ t.hostp.up = false ∧ Flagged t pgHost 0x100 16 0 ∧
       Counted s t pgHost 0x110 ∧ t.mem = s.mem ∧
       (∀ r, (t.hring r).ents = [] ∧ (t.hring r).cfg = (s.hring r).cfg &&& 0xFFFFFFFE) ∧
       { wordsOf s t with hostp := s.hostp, hrings := s.hrings, router := s.router } = s) ∧
     (s.hostp.up = false → exec .hostLinkDown s = .next s) ∧
     (let fits := 1 ≤ speed ∧ speed ≤ 7 ∧ (width = 1 ∨ width = 2 ∨ width = 4 ∨ width = 8 ∨ width = 16) ∧ s.rst.phase = 8 ∧
        s.powered = true ∧ s.hostp.up = false
      (fits → exec (.hostLinkUp speed width true) s =
        .next { s with hostp := { s.hostp with up := true, speed := speed, width := width } }) ∧
      (¬ fits → exec (.hostLinkUp speed width true) s = .next s) ∧ exec (.hostLinkUp speed width false) s = .next s))

/-- PARTITION_SLEEP and PARTITION_WAKE (R474, R475): a partition with no table, field table, work list or stage work goes to
sleep: its units OFF, its tile stores lost, and, where its tiles hold no work to be completed in error, all other memory and
every other partition kept; one that has is refused with an event. Awake again, each unit
has the state it had, and the channels that fail to train are said. STANDBY_ENTER and STANDBY_EXIT (R476): with every partition
asleep and no job LIVE the module enters Standby: its ports, core clusters and, unless NTRET is set, the near tiers go down,
lasers off; else it is refused. It leaves it with ports and cores ACTIVE again, but for those FENCED or PERMANENT, and the ports
begin training. SENSOR_SAMPLE (R477, R480, R481): a die at 115 °C trips the module, whose power returns as a cold reset when every die and
stack is at most 95 °C; from 105 °C to 103 °C a die is throttled, and its partition's clock is at 16; from 4000 W until
below 3900 W every partition's clock falls by 4 a sample, to 16 at least. GOVERNOR_UPDATE, DROOP and DROOP_RELEASE (R478, R479,
R482): above its target or its cap the governor's value falls by 1, to FMIN at least; well below both it rises by 1, to 64 at
most; the clock fraction follows it unless a loop holds it; a droop stretches a partition's cycles until it is released and
counted. REF_CLK_LOSS, REF_CLK_RELOCK, INPUT_UNDERVOLT and MODULE_WITHDRAWAL (R503, R504): without its reference the module
holds over and REFLOCK is clear until it locks again, pod time as it is; a low input or a withdrawn module takes it out of the
ring, which is said. The model's own choices in it: log 1, 12, 78, 79 and 80. -/
def Obligations.PowerStatesAndLoops : Prop :=
  (∀ (p : Nat) (l : List Nat) (s : State), p < 16 → s.softReset pgPower = false →
     let x := s.part p
     let bars := (s.arcu p).active ≠ [] ∨ x.fpl.active ≠ none ∨ x.fpl.ready ≠ none ∨ (∃ w ∈ x.wl, w.active = true) ∨ x.asm.run ≠ none ∨
       x.asm.queue ≠ [] ∨ x.slv.run ≠ none ∨ x.slv.queue ≠ [] ∨ x.inReset = true
     (x.sleep = .asleep → exec (.partitionSleep p) s = .next s) ∧
     (x.sleep = .awake → exec (.partitionWake p l) s = .next s ∧
       (bars → ∃ t, exec (.partitionSleep p) s = .next t ∧ Flagged t pgPower 0x104 9 2 ∧ { wordsOf s t with router := s.router } = s) ∧
       (¬ bars → ∃ t, exec (.partitionSleep p) s = .next t ∧ (t.part p).sleep = .asleep ∧ t.bit pgPower (0x180 + 4 * p) 0 = true ∧
         (∀ k, k < 72 → (s.unit (p * 72 + k)).st ≠ .fenced → t.unit (p * 72 + k) = ⟨.off, none⟩) ∧
         (∀ c, c < 32 → (s.unit (1152 + p * 32 + c)).st ≠ .fenced → t.unit (1152 + p * 32 + c) = ⟨.off, none⟩) ∧
         (∀ k y, k < 72 → y < 0x190000 → t.mem.at_ (tstoreOf (p * 72 + k) + y) = some 0) ∧
         (t.part p).smap = x.smap ∧ (t.part p).tmap = x.tmap ∧
         ((∀ k, k < 72 → (s.tile (p * 72 + k)).queues = []) →
           (∀ y, (∀ k, k < 72 → y < tstoreOf (p * 72 + k) ∨ tstoreOf (p * 72 + k) + 0x190000 ≤ y) → t.mem.at_ y = s.mem.at_ y) ∧
           ∀ q, q ≠ p → t.part q = s.part q))) ∧
     (x.sleep = .asleep → s.power.standby = true → exec (.partitionWake p l) s = .next s) ∧
     (x.sleep = .asleep → s.power.standby = false → ∃ t, exec (.partitionWake p l) s = .next t ∧ (t.part p).sleep = .awake ∧
       t.bit pgPower (0x180 + 4 * p) 0 = false ∧ t.bit pgPower 0x010 3 = true ∧ t.mem = s.mem ∧
       (∀ c, c < 32 → ((t.part p).far.dead.getLsbD c = true ↔ 1152 + p * 32 + c ∈ l)) ∧
       (∀ e ∈ x.atSleep, (x.atSleep.filter fun y => y.1 == e.1) = [e] → (s.unit e.1).st ≠ .fenced → (t.unit e.1).st = e.2) ∧
       ∀ q, q ≠ p → t.part q = s.part q)) ∧
  (∀ (s : State), s.softReset pgPower = false →
     let bars := (∃ p, p < 16 ∧ (s.part p).sleep = .awake) ∨ ∃ e ∈ s.jobs, e.2.st = .live
     (s.power.standby = true → exec .standbyEnter s = .next s) ∧
     (s.power.standby = false → exec .standbyExit s = .next s ∧
       (bars → ∃ t, exec .standbyEnter s = .next t ∧ Flagged t pgPower 0x104 9 2 ∧ { wordsOf s t with router := s.router } = s) ∧
       (¬ bars → ∃ t, exec .standbyEnter s = .next t ∧ t.power.standby = true ∧ t.pins.lasers = 0 ∧
         t.bit pgPower 0x100 0 = true ∧ t.cores = [] ∧
         (∀ u, 1664 ≤ u → u < 1800 → (s.unit u).st ≠ .fenced → t.unit u = UEntry.off) ∧
         (∀ i, i < 72 → (t.port i).st = .down ∧ (t.port i).taken = (s.port i).taken) ∧
         (∀ y, t.mem.at_ y = if s.bit pgPower 0x100 1 = false ∧ nearBase ≤ y ∧ y < tileBase then some 0 else s.mem.at_ y) ∧
         t.parts = s.parts ∧ t.tiles = s.tiles)) ∧
     (s.power.standby = true → ∃ t, exec .standbyExit s = .next t ∧ t.power.standby = false ∧ t.pins.lasers = 0xFF ∧
       t.bit pgPower 0x100 0 = false ∧ t.mem = s.mem ∧ t.parts = s.parts ∧
       (∀ u, 1664 ≤ u → u < 1800 → (s.unit u).st ≠ .fenced → (s.histOf u).st ≠ 2 → t.unit u = ⟨.active, none⟩) ∧
       (∀ u, 1664 ≤ u → u < 1800 → (s.unit u).st = .fenced ∨ (s.histOf u).st = 2 → t.unit u = s.unit u) ∧
       (∀ i, i < 72 → (s.port i).st = .down → s.bit (pgPort i) 0x100 0 = true → (s.unit (1664 + i)).st ≠ .fenced →
         (t.port i).st = .training))) ∧
  (∀ (m : Sample) (s : State),
     (s.pins.pwrOk = false → exec (.sensorSample m) s = .next s) ∧
     (s.pins.pwrOk = true → s.power.tripped = true →
       ((∃ d ∈ m.temps, 760 < d) ∨ (∃ p, p < 16 ∧ 760 < (s.part p).far.temp.toNat) → exec (.sensorSample m) s = .next { s with power := { s.power with sample := m } }) ∧
       ((∀ d ∈ m.temps, d ≤ 760) → (∀ p, p < 16 → (s.part p).far.temp.toNat ≤ 760) → ∃ t, exec (.sensorSample m) s = .next t ∧ t.power.tripped = false ∧ t.bit pgReset 0x100 7 = true ∧
         t.rst.running = (!s.pins.sysRst) ∧ t.rst.phase = 0 ∧ t.mem = Store.empty ∧ t.power.sample = m)) ∧
     (s.pins.pwrOk = true → s.power.tripped = false →
       ((∃ d ∈ m.temps, 920 ≤ d) → ∃ t, exec (.sensorSample m) s = .next t ∧ t.power.tripped = true ∧ t.powered = false ∧
         t.bit pgPower 0x12C 0 = true ∧ t.rst.running = false ∧ t.mem = Store.empty ∧ t.opt.slots = s.opt.slots ∧
         t.vault.images = s.vault.images) ∧
       ((∀ d ∈ m.temps, d < 920) →
         let hot := fun (d : Nat) => if d ∈ s.power.throttled then 824 < m.temps.getD d 0 else 840 ≤ m.temps.getD d 0
         let limit := 4000 ≤ m.watts ∨ s.power.limit = true ∧ 3900 ≤ m.watts
         ∃ t, exec (.sensorSample m) s = .next t ∧ t.power.sample = m ∧ t.power.tripped = false ∧
           (∀ d, d < 20 → (d ∈ t.power.throttled ↔ hot d)) ∧ (t.power.limit = true ↔ limit) ∧
           (∀ p, p < 16 → (t.part p).clkF = if hot p then 16 else if limit then max 16 ((s.part p).clkF - 4) else (s.part p).clkF) ∧
           (∀ d, d < 20 → d ∉ s.power.throttled → hot d → Flagged t pgPower 0x104 8 1) ∧
           (∀ p, { t.part p with clkF := (s.part p).clkF } = s.part p) ∧ t.mem = s.mem ∧ t.tiles = s.tiles))) ∧
  (∀ (p : Nat) (s : State),
     (s.powered = false → exec .governorUpdate s = .next s ∧ exec (.droop p) s = .next s) ∧
     (s.powered = true →
       let target : Int := (s.fld pgPower 0x108 22 16 : Nat)
       let cap := min 4000 (s.fld pgPower 0x108 11 0)
       let fmin := s.fld pgPower 0x10C 6 0
       let temp := fun (q : Nat) => s.power.sample.temps.getD q 0
       ∃ t, exec .governorUpdate s = .next t ∧ { t with parts := s.parts } = s ∧
         ∀ q, q < 16 →
           (t.part q).gov = (if 8 * target < temp q ∨ cap < s.power.sample.watts then max ((s.part q).gov - 1) fmin
             else if temp q ≤ 8 * (target - 2) ∧ s.power.sample.watts + 50 ≤ cap then min ((s.part q).gov + 1) 64 else (s.part q).gov) ∧
           (t.part q).clkF = (if s.power.limit = true ∨ q ∈ s.power.throttled then (s.part q).clkF
             else min ((s.part q).clkF + 1) (t.part q).gov) ∧
           { t.part q with gov := (s.part q).gov, clkF := (s.part q).clkF } = s.part q) ∧
     (p < 16 → s.powered = true → (s.part p).sleep = .awake → (s.part p).stretch = none → ∃ t, exec (.droop p) s = .next t ∧
       t.part p = { s.part p with stretch := some s.clk } ∧ (∀ q, q ≠ p → t.part q = s.part q) ∧ { t with parts := s.parts } = s) ∧
     ((s.part p).stretch = none → exec (.droopRelease p) s = .next s) ∧
     (∀ n, p < 16 → (s.part p).stretch = some n → ∃ t, exec (.droopRelease p) s = .next t ∧
       t.part p = { s.part p with stretch := none } ∧ (∀ q, q ≠ p → t.part q = s.part q) ∧
       (t.reg pgPower (0x1C0 + 4 * p)).toNat = min (2 ^ 32 - 1) ((s.reg pgPower (0x1C0 + 4 * p)).toNat + (s.clk - n) * 2 / 3) ∧
       { wordsOf s t with parts := s.parts } = s)) ∧
  (∀ (s : State),
     (∃ t, exec .refClkLoss s = .next t ∧ t.tb = { s.tb with reflock := false } ∧ t.pins = { s.pins with refClk := false } ∧
       { t with tb := s.tb, pins := s.pins } = s) ∧
     (∃ t, exec .refClkRelock s = .next t ∧ t.tb = { s.tb with reflock := decide (s.powered = true ∧ 1 ≤ s.rst.phase) } ∧
       t.pins = { s.pins with refClk := true } ∧ { t with tb := s.tb, pins := s.pins } = s) ∧
     (∃ t, exec .inputUndervolt s = .next t ∧ t.inRing = false ∧ t.pins.underVolt = true ∧
       (s.inRing = true → t.pins.bypassOpen = false ∧ t.bit pgRing 0x010 1 = true) ∧
       { wordsOf s t with inRing := s.inRing, pins := s.pins, router := s.router } = s) ∧
     (∃ t, exec .moduleWithdrawal s = .next t ∧ t.inRing = false ∧ t.pins.seated = false ∧
       (s.inRing = true → t.pins.bypassOpen = false ∧ t.bit pgRing 0x010 1 = true) ∧
       { wordsOf s t with inRing := s.inRing, pins := s.pins, router := s.router } = s))

/-- EVEN_WRITE and EVENT_DELIVERY (R489, R491, R492, R497): an enable that rises over a raised event delivers it where EVROUTE said
when the nanosecond began; the oldest delivery to the host signals its vector, or goes to the steward while the link is down, once and ahead of what its
page raised later; one to the steward is counted
and its record waits for the log; one to management is a packet to the listed module, or is dropped and counted when none is.
REG_WRITE and ERRREC_READ (R9, R10, R454, R486 to R490, R496): an aligned write of 4 bytes by a writer that reaches the pages
changes the RW bits of its word and clears the RW1C bits written as 1, but for those set in the same nanosecond, and nothing else;
a token or variance counter takes up the increments of that nanosecond too; EVRAW is cleared by ones as RW1C bits are, EVFIRST with
the last; a write of another size or alignment, to a page that is absent or in reset, or of a word with no row, changes nothing;
reading offset 0x020 latches the whole record. The model's own choices in it: log 1, 10, 11, 70 and 71. -/
def Obligations.EventsAndRegisterWrites : Prop :=
  (∀ (page : Nat) (v : W32) (x : Delivery) (r : List Delivery) (s : State),
     (pagePresent page = false ∨ s.pageBusy page = true → exec (.evenWrite page v) s = .next s) ∧
     (pagePresent page = true → s.pageBusy page = false → page ≠ pgEvr → s.router.host.length + 32 ≤ 4096 →
       s.router.stew.length + 32 ≤ 4096 → s.router.mgmt.length + 32 ≤ 4096 → ∃ t, exec (.evenWrite page v) s = .next t ∧
         (∀ j, j < 32 → t.bit page 0x014 j = (v.getLsbD j && decide (j < evBits (pageClass page)))) ∧
         t.reg page 0x010 = s.reg page 0x010 ∧ { wordsOf s t with router := s.router } = s ∧
         (∀ j, j < evBits (pageClass page) → j < 32 → v.getLsbD j = true → s.bit page 0x014 j = false → s.bit page 0x010 j = true →
           let sent := fun (q : List Delivery) => ∃ d ∈ q, d.page = page ∧ d.bit = some j ∧ d.evraw = s.reg page 0x010 ∧ d.rec_ = none
           ((s.was page 0x018).getLsbD 16 = true → s.hostp.up = true → sent t.router.host) ∧
           ((s.was page 0x018).getLsbD 17 = true → s.rst.warmReq = false → sent t.router.stew) ∧
           ((s.was page 0x018).getLsbD 18 = true → sent t.router.mgmt))) ∧
     (∀ d, (match d with
         | .host => s.router.host
         | .steward => s.router.stew
         | .mgmt => s.router.mgmt) = [] → exec (.eventDelivery d) s = .next s) ∧
     (s.router.host = x :: r → s.hostp.up = true → ∃ t, exec (.eventDelivery .host) s = .next t ∧ t.router = { s.router with host := r } ∧
       Counted s t pgEvr 0x104 ∧ (x.vec ∉ s.hostp.masked → t.out = s.out ++ [.msix x.vec] ∧ t.hostp = s.hostp) ∧
       (x.vec ∈ s.hostp.masked → t.out = s.out ∧ x.vec ∈ t.hostp.pba) ∧
       { wordsOf s t with router := s.router, hostp := s.hostp, out := s.out } = s) ∧
     (s.router.host = x :: r → s.hostp.up = false → s.rst.warmReq = false → s.router.stew.length < 4096 →
       ∃ t, exec (.eventDelivery .host) s = .next t ∧ t.router.host = r ∧ Counted s t pgEvr 0x110 ∧
         (x.both = true → t.router.stew = s.router.stew) ∧
         (x.both = false → ∃ l1 l2, s.router.stew = l1 ++ l2 ∧ t.router.stew = l1 ++ x :: l2 ∧
           (∀ y ∈ l1, ¬ (y.page = x.page ∧ x.ord < y.ord)) ∧ ∀ y ∈ l2.head?, y.page = x.page ∧ x.ord < y.ord) ∧
         { wordsOf s t with router := s.router } = s) ∧
     (s.router.stew = x :: r → s.stewardOn = true → ∃ t, exec (.eventDelivery .steward) s = .next t ∧
       t.router = { s.router with stew := r, inbox := s.router.inbox ++ x.rec_.toList } ∧
       (x.bit ≠ none → Counted s t pgEvr 0x108) ∧ { wordsOf s t with router := s.router } = s) ∧
     (s.router.mgmt = x :: r →
       ((∀ m, some m ∉ s.mgmtList) → ∃ t, exec (.eventDelivery .mgmt) s = .next t ∧ t.router = { s.router with mgmt := r } ∧
         t.bit pgEvr 0x100 3 = true ∧ Counted s t pgEvr 0x114 ∧ { wordsOf s t with router := s.router } = s) ∧
       (∀ m, s.mgmtList.filterMap id = [m] → ∃ t, exec (.eventDelivery .mgmt) s = .next t ∧
         Sent s t ⟨m, 0, 0, 0, 0, 0, 0, 0x43, mgmtEvent x⟩ ∧ Counted s t pgEvr 0x10C ∧
         (s.routeOwn (ownPacket s ⟨m, 0, 0, 0, 0, 0, 0, 0x43, mgmtEvent x⟩) ≠ .none_ → t.router.mgmt = r)))) ∧
  (∀ (pg o size : Nat) (data : W64) (w : Writer) (s : State), o < 0x1000 → pg < 0x4000 →
     let v : W32 := BitVec.ofNat 32 data.toNat
     (¬ (size = 4 ∨ size = 8) ∨ (pg * 0x1000 + o) % size ≠ 0 ∨ (w = .host ∧ s.hostp.up = false) ∨ (w = .steward ∧ s.stewardOn = false) ∨
         size = 4 ∧ (pagePresent pg = false ∨ s.pageBusy pg = true ∨ 0x100 ≤ o ∧ rowAt (pageClass pg) o = none ∨
           o < 0x100 ∧ o ≠ 0x010 ∧ o ≠ 0x014 ∧ o ≠ 0x018) →
       exec (.regWrite (pg * 0x1000 + o) data size w) s = .next s) ∧
     ((w = .host → s.hostp.up = true) → (w = .steward → s.stewardOn = true) → pagePresent pg = true → s.pageBusy pg = false → o % 4 = 0 →
       (∀ r, 0x100 ≤ o → rowAt (pageClass pg) o = some r → isLow64 pg o = false → (4 ≤ o → isLow64 pg (o - 4) = false) →
         r.lo64 = false → ¬ (pg = pgFault ∧ (o = 0x104 ∨ o = 0x118)) →
         let new_ := ((s.reg pg o &&& ~~~ (rwBits pg o r)) ||| (v &&& rwBits pg o r)) &&& ~~~ (v &&& r.w1c &&& ~~~ s.setNow pg o)
         ∃ t, exec (.regWrite (pg * 0x1000 + o) data 4 w) s = .next t ∧
           t.reg pg o = (if 0x20 ≤ pageClass pg ∧ pageClass pg ≤ 0x24 ∧ o < 0x300 ∧ 0x200 ≤ o then
               new_ + BitVec.ofNat 32 (s.cntNow pg o)
             else if pg = pgRep ∧ 0x118 ≤ o ∧ o < 0x12C then BitVec.ofNat 32 (min (2 ^ 32 - 1) (new_.toNat + s.cntNow pg o))
             else new_) ∧
           WordsKept s t (fun q y => q == pg && y == o) ∧ wordsOf s t = s) ∧
       (∀ q r, o % 8 = 0 → 0x100 ≤ o → rowAt (pageClass pg) o = some q → q.lo64 = true → rowAt (pageClass pg) (o + 4) = some r →
         r.lo64 = false → pg ≠ pgFault → (pg = pgRep → o = 0x108 → s.cntNow pg o = 0) →
         let hi : W32 := BitVec.ofNat 32 (data.toNat / 2 ^ 32)
         ∃ t, exec (.regWrite (pg * 0x1000 + o) data 8 w) s = .next t ∧
           t.reg pg o = ((s.reg pg o &&& ~~~ (rwBits pg o q)) ||| (v &&& rwBits pg o q)) &&& ~~~ (v &&& q.w1c &&& ~~~ s.setNow pg o) ∧
           t.reg pg (o + 4) = ((s.reg pg (o + 4) &&& ~~~ (rwBits pg (o + 4) r)) ||| (hi &&& rwBits pg (o + 4) r)) &&&
             ~~~ (hi &&& r.w1c &&& ~~~ s.setNow pg (o + 4)) ∧
           WordsKept s t (fun p y => p == pg && (y == o || y == o + 4)) ∧ { wordsOf s t with loHold := s.loHold } = s) ∧
       (o = 0x010 → ∃ t, exec (.regWrite (pg * 0x1000 + o) data 4 w) s = .next t ∧
         (∀ j, j < 32 → t.bit pg 0x010 j = (s.bit pg 0x010 j &&
           !(v.getLsbD j && decide (j < evBits (pageClass pg)) && !(s.setNow pg 0x010).getLsbD j))) ∧
         (t.reg pg 0x010 = 0 → t.reg pg 0x01C = 0) ∧ (t.reg pg 0x010 ≠ 0 → t.reg pg 0x01C = s.reg pg 0x01C) ∧
         wordsOf s t = s)) ∧
     (pagePresent pg = true → ∃ t, exec (.errrecRead pg) s = .next t ∧ mget [] t.errBuf pg = s.recAt pg ∧
       (∀ q, q ≠ pg → mget [] t.errBuf q = mget [] s.errBuf q) ∧ { t with errBuf := s.errBuf } = s) ∧
     (pagePresent pg = false → exec (.errrecRead pg) s = .next s))

/-- Writes of RST_CTL (R410): one that is not from the host or the steward, or without the key 0xA5, is ignored; one with both
WARM and PARTRST set performs the warm reset alone. -/
def Obligations.KeyedWritesAloneReset : Prop :=
  ∀ (w : W32) (b : Writer) (s : State),
    (b = .core ∨ bits w.toNat 15 8 ≠ 0xA5 → exec (.rstCtlWarm w b) s = .next s ∧ exec (.rstCtlPartrst w b) s = .next s) ∧
    (w.getLsbD 0 = true → w.getLsbD 1 = true → exec (.rstCtlPartrst w b) s = .next s ∧
      (b ≠ .core → bits w.toNat 15 8 = 0xA5 → s.pageBusy pgReset = false → s.powered = true → s.rst.running = false →
        ∃ t, exec (.rstCtlWarm w b) s = .next t ∧ t.rst.running = true ∧ t.rst.phase = 0 ∧ t.rst.cold = false ∧
          t.bit pgReset 0x100 3 = true ∧ t.tiles = []))

/-- Reading offset 0x020 (R488): the whole record is latched, the old one in the nanosecond in which the block writes a new one
(R497); offsets 0x024 to 0x05C return the latched record, whatever the block writes after the read, until 0x020 is read again. -/
def Obligations.ErrorRecordsAreReadWhole : Prop :=
  ∀ (pg : Nat) (s : State), pagePresent pg = true → ∃ t, exec (.errrecRead pg) s = .next t ∧
    mget [] t.errBuf pg = s.recAt pg ∧ (mheld s.recWas pg = none → s.recAt pg = mget [] s.err pg) ∧
    ∀ (b : List Byte) (o : Nat), 0x024 ≤ o → o ≤ 0x05C → mget 0 s.srst pg ≠ 1 →
      ((t.putRec pg b).word pg o).toNat = field (s.recAt pg) (o - 0x020) 4 ||| (s.reg pg o).toNat

/-- Reset (R4, R40, R43, R84, R312, R409, R411, R412, R422, R439, Tables 18.3 and 18.4): at reference cycle 0 the release order
is at phase 0, RST_CAUSE is POR, no tile runs, no partition has a logical tile, the slice maps are the identity, every table,
queue and job entry is empty, no source is listed, no module ID is set, the bypass is closed and the lasers are off. The stores
are in canonical form at reset. The model's own choices in it: log 5, 7, 9, 14 and 15. -/
def Obligations.ResetState : Prop :=
  (let s := State.reset
   s.rst.running = true ∧ s.rst.phase = 0 ∧ s.reg pgReset 0x100 = 1 ∧ s.pending = [] ∧
     (∀ t, (s.tile t).seq = .off ∧ (s.tile t).queues = [] ∧ s.unit t = ⟨.off, none⟩) ∧
     (∀ p l, (s.part p).n = 0 ∧ s.slice p l = l ∧ (s.part p).sleep = .awake ∧ (s.part p).far.live = 0xFFFFFFFF) ∧
     (∀ u, (s.arcu u).active = [] ∧ (s.arcu u).ready = false) ∧ (∀ i, (s.port i).st = .down) ∧
     (∀ j, (s.job j).st = .free) ∧ (∀ k, (s.rset k).valid = false) ∧ s.modId = none ∧ s.mjob = none ∧ s.noMgmt = true ∧
     s.tb.timevalid = false ∧ s.tb.caldone = false ∧ s.tb.instep = false ∧ s.cs.st = .off ∧ s.vault.drain = none ∧
     s.inRing = false ∧ s.pins.bypassOpen = false ∧ s.pins.lasers = 0 ∧ s.pins.replaceReq = false ∧
     s.ctxBase = 0x00FFFC000000 ∧ s.rplBase = 0x00FFFB000000 ∧ s.logBase = 0x00FFFA000000 ∧ s.boot.image = none ∧
     s.boot.mrs = List.replicate 8 (List.replicate 64 0)) ∧
  (Stores.wf State.reset = true)

/-- Every step keeps the canonical form of the module's memory, of the staging area and of the accumulator and vector register
files. -/
def Obligations.StepsKeepMemoryCanonical : Prop :=
  ∀ (s t : State), Stores.wf s = true → step s = .next t → Stores.wf t = true
end

