-- ==== Sys2Proof/Laws/Maps.lean ====
section
/-! SUPPORT. Laws of sparse maps and byte stores: what is read after a write, and that every operation keeps the canonical
form. -/
namespace Sys2Proof.Machine

/-! ### Reading after a change -/

@[simp] theorem mget_nil {α : Type} (d : α) (k : Nat) : mget d [] k = d := rfl

theorem mget_cons {α : Type} (d : α) (j : Nat) (v : α) (m : SMap α) (k : Nat) :
    mget d ((j, v) :: m) k = if j = k then v else mget d m k := rfl

theorem mget_mdel_same {α : Type} (d : α) (m : SMap α) (k : Nat) : mget d (mdel m k) k = d := by
  induction m with
  | nil => rfl
  | cons e m ih =>
    obtain ⟨j, v⟩ := e
    by_cases h : j = k <;> simp [mdel, h, mget, ih]

theorem mget_mdel_ne {α : Type} (d : α) (m : SMap α) {k q : Nat} (h : q ≠ k) : mget d (mdel m k) q = mget d m q := by
  induction m with
  | nil => rfl
  | cons e m ih =>
    obtain ⟨j, v⟩ := e
    by_cases hj : j = k
    · subst hj; simp [mdel, mget, ih, Ne.symm h]
    · simp [mdel, hj, mget, ih]

theorem mget_mins_ne {α : Type} (d : α) (m : SMap α) (k : Nat) (v : α) {q : Nat} (h : q ≠ k) :
    mget d (mins m k v) q = mget d m q := by
  induction m with
  | nil => simp [mins, mget, Ne.symm h]
  | cons e m ih =>
    obtain ⟨j, w⟩ := e
    by_cases hj : k < j
    · simp [mins, hj, mget, Ne.symm h]
    · simp [mins, hj, mget, ih]

/-- No entry is listed under `k`. -/
def mfree {α : Type} (m : SMap α) (k : Nat) : Prop := ∀ e ∈ m, e.1 ≠ k

theorem mfree_mdel {α : Type} (m : SMap α) (k : Nat) : mfree (mdel m k) k := by
  induction m with
  | nil => intro e h; cases h
  | cons e m ih =>
    obtain ⟨j, v⟩ := e
    by_cases h : j = k
    · simpa [mdel, h] using ih
    · intro e he
      simp only [mdel, if_neg h, List.mem_cons] at he
      rcases he with rfl | he
      · exact h
      · exact ih e he

theorem mget_mins_same {α : Type} (d : α) (m : SMap α) (k : Nat) (v : α) (h : mfree m k) : mget d (mins m k v) k = v := by
  induction m with
  | nil => simp [mins, mget]
  | cons e m ih =>
    obtain ⟨j, w⟩ := e
    have hj : j ≠ k := h (j, w) (by simp)
    by_cases hk : k < j
    · simp [mins, hk, mget]
    · simp only [mins, if_neg hk, mget, if_neg hj]
      exact ih fun e he => h e (by simp [he])

@[simp] theorem mget_mput_same {α : Type} [DecidableEq α] (d : α) (m : SMap α) (k : Nat) (v : α) :
    mget d (mput d m k v) k = v := by
  unfold mput
  split
  · subst v; exact mget_mdel_same d m k
  · exact mget_mins_same d _ k v (mfree_mdel m k)

theorem mget_mput_ne {α : Type} [DecidableEq α] (d : α) (m : SMap α) {k q : Nat} (v : α) (h : q ≠ k) :
    mget d (mput d m k v) q = mget d m q := by
  unfold mput
  split
  · exact mget_mdel_ne d m h
  · rw [mget_mins_ne d _ k v h, mget_mdel_ne d m h]

theorem mget_mput {α : Type} [DecidableEq α] (d : α) (m : SMap α) (k q : Nat) (v : α) :
    mget d (mput d m k v) q = if q = k then v else mget d m q := by
  by_cases h : q = k
  · subst h; simp
  · rw [mget_mput_ne d m v h, if_neg h]

/-! ### The canonical form -/

theorem mwfFrom_mono {α : Type} [DecidableEq α] (d : α) {lo lo2 : Nat} (m : SMap α) (h : mwfFrom d lo m = true)
    (hl : lo2 ≤ lo) : mwfFrom d lo2 m = true := by
  cases m with
  | nil => rfl
  | cons e m =>
    obtain ⟨j, v⟩ := e
    simp only [mwfFrom, Bool.and_eq_true, decide_eq_true_eq] at h ⊢
    exact ⟨⟨by omega, h.1.2⟩, h.2⟩

theorem mwfFrom_mdel {α : Type} [DecidableEq α] (d : α) (m : SMap α) (k : Nat) :
    ∀ lo, mwfFrom d lo m = true → mwfFrom d lo (mdel m k) = true := by
  induction m with
  | nil => intro lo h; exact h
  | cons e m ih =>
    obtain ⟨j, v⟩ := e
    intro lo h
    simp only [mwfFrom, Bool.and_eq_true, decide_eq_true_eq] at h
    by_cases hj : j = k
    · simp only [mdel, if_pos hj]
      exact mwfFrom_mono d _ (ih _ h.2) (by omega)
    · simp only [mdel, if_neg hj, mwfFrom, Bool.and_eq_true, decide_eq_true_eq]
      exact ⟨h.1, ih _ h.2⟩

theorem mwfFrom_mins {α : Type} [DecidableEq α] (d : α) (m : SMap α) (k : Nat) (v : α) (hv : v ≠ d) :
    ∀ lo, lo ≤ k → mfree m k → mwfFrom d lo m = true → mwfFrom d lo (mins m k v) = true := by
  induction m with
  | nil => intro lo hl _ _; simp [mins, mwfFrom, hl, hv]
  | cons e m ih =>
    obtain ⟨j, w⟩ := e
    intro lo hl hf h
    have hj : j ≠ k := hf (j, w) (by simp)
    simp only [mwfFrom, Bool.and_eq_true, decide_eq_true_eq] at h
    by_cases hk : k < j
    · simp only [mins, if_pos hk, mwfFrom, Bool.and_eq_true, decide_eq_true_eq]
      exact ⟨⟨hl, hv⟩, ⟨by omega, h.1.2⟩, h.2⟩
    · simp only [mins, if_neg hk, mwfFrom, Bool.and_eq_true, decide_eq_true_eq]
      exact ⟨h.1, ih _ (by omega) (fun e he => hf e (by simp [he])) h.2⟩

/-- Writing keeps the canonical form. -/
theorem mwf_mput {α : Type} [DecidableEq α] (d : α) (m : SMap α) (k : Nat) (v : α) (h : mwf d m = true) :
    mwf d (mput d m k v) = true := by
  unfold mput mwf
  split
  · exact mwfFrom_mdel d m k 0 h
  · rename_i hv
    exact mwfFrom_mins d _ k v hv 0 (Nat.zero_le _) (mfree_mdel m k) (mwfFrom_mdel d m k 0 h)

theorem mwfFrom_filter {α : Type} [DecidableEq α] (d : α) (f : Nat × α → Bool) (m : SMap α) :
    ∀ lo, mwfFrom d lo m = true → mwfFrom d lo (m.filter f) = true := by
  induction m with
  | nil => intro lo h; exact h
  | cons e m ih =>
    obtain ⟨j, v⟩ := e
    intro lo h
    simp only [mwfFrom, Bool.and_eq_true, decide_eq_true_eq] at h
    by_cases hf : f (j, v) = true
    · simp only [List.filter, hf, mwfFrom, Bool.and_eq_true, decide_eq_true_eq]
      exact ⟨h.1, ih _ h.2⟩
    · simp only [List.filter, hf]
      exact mwfFrom_mono d _ (ih _ h.2) (by omega)

theorem mwf_filter {α : Type} [DecidableEq α] (d : α) (f : Nat × α → Bool) (m : SMap α) (h : mwf d m = true) :
    mwf d (m.filter f) = true := mwfFrom_filter d f m 0 h

theorem mwf_foldl_mput {α β : Type} [DecidableEq α] (d : α) (key : β → Nat) (val : β → α) (l : List β) :
    ∀ m : SMap α, mwf d m = true → mwf d (l.foldl (fun m b => mput d m (key b) (val b)) m) = true := by
  induction l with
  | nil => intro m h; exact h
  | cons b l ih => intro m h; exact ih _ (mwf_mput d m _ _ h)

/-! ### Byte stores -/

theorem Store.wf_iff (st : Store) : st.wf = true ↔ mwf 0 st.cells = true ∧ mwf 0 st.poison = true := by
  simp [Store.wf]

theorem Store.at_put_same (st : Store) (a : Nat) (v : PVal Byte) : (st.put a v).at_ a = v := by
  cases v <;> simp [Store.put, Store.at_]

theorem Store.at_put_ne (st : Store) {a x : Nat} (v : PVal Byte) (h : x ≠ a) : (st.put a v).at_ x = st.at_ x := by
  cases v <;> simp [Store.put, Store.at_, mget_mput_ne _ _ _ h]

theorem Store.wf_put (st : Store) (a : Nat) (v : PVal Byte) (h : st.wf = true) : (st.put a v).wf = true := by
  rw [Store.wf_iff] at h ⊢
  cases v with
  | none => exact ⟨mwf_mput 0 st.cells a 0 h.1, mwf_mput 0 st.poison a 1 h.2⟩
  | some b => exact ⟨mwf_mput 0 st.cells a b h.1, mwf_mput 0 st.poison a 0 h.2⟩

theorem Store.wf_wr (bs : List (PVal Byte)) : ∀ (st : Store) (a : Nat), st.wf = true → (st.wr a bs).wf = true := by
  induction bs with
  | nil => intro st a h; exact h
  | cons b bs ih => intro st a h; exact ih _ _ (Store.wf_put st a b h)

/-- A write leaves every byte outside it as it was. -/
theorem Store.at_wr_out (bs : List (PVal Byte)) : ∀ (st : Store) (a x : Nat), x < a ∨ a + bs.length ≤ x →
    (st.wr a bs).at_ x = st.at_ x := by
  induction bs with
  | nil => intro st a x _; rfl
  | cons b bs ih =>
    intro st a x h
    simp only [List.length_cons] at h
    rw [Store.wr, ih (st.put a b) (a + 1) x (by omega), Store.at_put_ne st b (by omega)]

/-- A write is read back. -/
theorem Store.at_wr_in (bs : List (PVal Byte)) : ∀ (st : Store) (a i : Nat) (h : i < bs.length),
    (st.wr a bs).at_ (a + i) = bs[i] := by
  induction bs with
  | nil => intro st a i h; exact absurd h (by simp)
  | cons b bs ih =>
    intro st a i h
    cases i with
    | zero =>
      rw [Nat.add_zero, Store.wr, Store.at_wr_out bs _ _ _ (by omega), Store.at_put_same]; rfl
    | succ i =>
      have hi : i < bs.length := by simpa using h
      have e : a + (i + 1) = a + 1 + i := by omega
      rw [Store.wr, e, ih (st.put a b) (a + 1) i hi]; rfl

theorem Store.rd_length (n : Nat) : ∀ (st : Store) (a : Nat), (st.rd a n).length = n := by
  induction n with
  | zero => intro st a; rfl
  | succ n ih => intro st a; simp [Store.rd, ih]

theorem Store.rd_congr (n : Nat) : ∀ (st su : Store) (a : Nat), (∀ i, i < n → st.at_ (a + i) = su.at_ (a + i)) →
    st.rd a n = su.rd a n := by
  induction n with
  | zero => intro st su a _; rfl
  | succ n ih =>
    intro st su a h
    simp only [Store.rd]
    rw [show st.at_ a = su.at_ a from by simpa using h 0 (by omega),
      ih st su (a + 1) fun i hi => by simpa [Nat.add_assoc, Nat.add_comm 1 i] using h (i + 1) (by omega)]

theorem Store.rd_wr (bs : List (PVal Byte)) : ∀ (st : Store) (a : Nat), (st.wr a bs).rd a bs.length = bs := by
  induction bs with
  | nil => intro st a; rfl
  | cons b bs ih =>
    intro st a
    simp only [Store.wr, List.length_cons, Store.rd]
    rw [Store.at_wr_out bs _ _ _ (by omega), Store.at_put_same, ih]

theorem Store.wf_clear (st : Store) (a n : Nat) (h : st.wf = true) : (st.clear a n).wf = true := by
  rw [Store.wf_iff] at h ⊢
  exact ⟨mwf_filter 0 _ _ h.1, mwf_filter 0 _ _ h.2⟩

theorem mget_filter {α : Type} (d : α) (f : Nat → Bool) (m : SMap α) (k : Nat) :
    mget d (m.filter fun e => f e.1) k = if f k then mget d m k else d := by
  induction m with
  | nil => simp
  | cons e m ih =>
    obtain ⟨j, v⟩ := e
    by_cases hf : f j = true
    · simp only [List.filter, hf, mget, ih]
      by_cases hj : j = k
      · subst hj; simp [hf]
      · simp [hj]
    · simp only [List.filter, hf, mget, ih]
      by_cases hj : j = k
      · subst hj; simp [hf]
      · simp [hj]

/-- A range cleared reads 0, and every other byte as before. -/
theorem Store.at_clear (st : Store) (a n x : Nat) :
    (st.clear a n).at_ x = if x < a ∨ a + n ≤ x then st.at_ x else some 0 := by
  have hp := mget_filter (0 : BitVec 2) (fun k => decide (k < a) || decide (a + n ≤ k)) st.poison x
  have hc := mget_filter (0 : Byte) (fun k => decide (k < a) || decide (a + n ≤ k)) st.cells x
  unfold Store.at_
  show (if mget 0 (st.poison.filter fun c => decide (c.1 < a) || decide (a + n ≤ c.1)) x = 0 ∨
      mget 0 (st.poison.filter fun c => decide (c.1 < a) || decide (a + n ≤ c.1)) x = 3 then
    some (mget 0 (st.cells.filter fun c => decide (c.1 < a) || decide (a + n ≤ c.1)) x) else none) = _
  simp only [hp, hc, Bool.or_eq_true, decide_eq_true_eq]
  by_cases h : x < a ∨ a + n ≤ x <;> simp [h]

theorem Store.wf_poisonWords (bs : List (PVal Byte)) : ∀ (st : Store) (a : Nat), st.wf = true →
    (st.poisonWords a bs).wf = true := by
  induction bs with
  | nil => intro st a h; exact h
  | cons b bs ih =>
    intro st a h
    cases b with
    | none => exact ih _ _ (Store.wf_wr _ _ _ h)
    | some b => exact ih _ _ h

/-- Bytes that are all known make no poison. -/
theorem Store.poisonWords_some (bs : List (PVal Byte)) : ∀ (st : Store) (a : Nat), (∀ b ∈ bs, b ≠ none) →
    st.poisonWords a bs = st := by
  induction bs with
  | nil => intro st a _; rfl
  | cons b bs ih =>
    intro st a h
    cases b with
    | none => exact absurd rfl (h none (by simp))
    | some b => exact ih _ _ fun c hc => h c (by simp [hc])

theorem mwf_mswap {α : Type} [DecidableEq α] (d : α) (m : SMap α) (a b n : Nat) (h : mwf d m = true) :
    mwf d (mswap d m a b n) = true := by
  unfold mswap
  exact mwf_foldl_mput d _ _ _ _ (mwf_filter d _ _ h)

theorem Store.wf_swap (st : Store) (a b n : Nat) (h : st.wf = true) : (st.swap a b n).wf = true := by
  rw [Store.wf_iff] at h ⊢
  exact ⟨mwf_mswap 0 _ a b n h.1, mwf_mswap 0 _ a b n h.2⟩

theorem Store.wf_copyRange (st : Store) (a b n : Nat) (h : st.wf = true) : (st.copyRange a b n).wf = true := by
  have hc := (Store.wf_iff _).1 (Store.wf_clear st b n h)
  rw [Store.wf_iff]
  exact ⟨mwf_foldl_mput 0 _ _ _ _ hc.1, mwf_foldl_mput 0 _ _ _ _ hc.2⟩

end Sys2Proof.Machine
end

