-- ==== Sys2Proof/Laws/State.lean ====
section
/-! SUPPORT. What each update of `State` leaves alone, one lemma per field, and what it changes: the parts of the state, the stored
words of the register pages, and the frames of events and error records. -/
namespace Sys2Proof.Machine

set_option Elab.async false

variable (s : State)

/-! ### setTile -/

@[simp] theorem State.setTile_pending (t : Nat) (x : Tile) : (s.setTile t x).pending = s.pending := rfl
@[simp] theorem State.setTile_fresh (t : Nat) (x : Tile) : (s.setTile t x).fresh = s.fresh := rfl
@[simp] theorem State.setTile_clk (t : Nat) (x : Tile) : (s.setTile t x).clk = s.clk := rfl
@[simp] theorem State.setTile_pins (t : Nat) (x : Tile) : (s.setTile t x).pins = s.pins := rfl
@[simp] theorem State.setTile_regs (t : Nat) (x : Tile) : (s.setTile t x).regs = s.regs := rfl
@[simp] theorem State.setTile_bitsNow (t : Nat) (x : Tile) : (s.setTile t x).bitsNow = s.bitsNow := rfl
@[simp] theorem State.setTile_cntsNow (t : Nat) (x : Tile) : (s.setTile t x).cntsNow = s.cntsNow := rfl
@[simp] theorem State.setTile_wasNow (t : Nat) (x : Tile) : (s.setTile t x).wasNow = s.wasNow := rfl
@[simp] theorem State.setTile_loHold (t : Nat) (x : Tile) : (s.setTile t x).loHold = s.loHold := rfl
@[simp] theorem State.setTile_hiLatch (t : Nat) (x : Tile) : (s.setTile t x).hiLatch = s.hiLatch := rfl
@[simp] theorem State.setTile_err (t : Nat) (x : Tile) : (s.setTile t x).err = s.err := rfl
@[simp] theorem State.setTile_recWas (t : Nat) (x : Tile) : (s.setTile t x).recWas = s.recWas := rfl
@[simp] theorem State.setTile_errBuf (t : Nat) (x : Tile) : (s.setTile t x).errBuf = s.errBuf := rfl
@[simp] theorem State.setTile_errSet (t : Nat) (x : Tile) : (s.setTile t x).errSet = s.errSet := rfl
@[simp] theorem State.setTile_errSeq (t : Nat) (x : Tile) : (s.setTile t x).errSeq = s.errSeq := rfl
@[simp] theorem State.setTile_srst (t : Nat) (x : Tile) : (s.setTile t x).srst = s.srst := rfl
@[simp] theorem State.setTile_mem (t : Nat) (x : Tile) : (s.setTile t x).mem = s.mem := rfl
@[simp] theorem State.setTile_tb (t : Nat) (x : Tile) : (s.setTile t x).tb = s.tb := rfl
@[simp] theorem State.setTile_arcs (t : Nat) (x : Tile) : (s.setTile t x).arcs = s.arcs := rfl
@[simp] theorem State.setTile_copies (t : Nat) (x : Tile) : (s.setTile t x).copies = s.copies := rfl
@[simp] theorem State.setTile_parts (t : Nat) (x : Tile) : (s.setTile t x).parts = s.parts := rfl
@[simp] theorem State.setTile_ust (t : Nat) (x : Tile) : (s.setTile t x).ust = s.ust := rfl
@[simp] theorem State.setTile_hist (t : Nat) (x : Tile) : (s.setTile t x).hist = s.hist := rfl
@[simp] theorem State.setTile_ports (t : Nat) (x : Tile) : (s.setTile t x).ports = s.ports := rfl
@[simp] theorem State.setTile_sets (t : Nat) (x : Tile) : (s.setTile t x).sets = s.sets := rfl
@[simp] theorem State.setTile_modId (t : Nat) (x : Tile) : (s.setTile t x).modId = s.modId := rfl
@[simp] theorem State.setTile_mgmtList (t : Nat) (x : Tile) : (s.setTile t x).mgmtList = s.mgmtList := rfl
@[simp] theorem State.setTile_lost (t : Nat) (x : Tile) : (s.setTile t x).lost = s.lost := rfl
@[simp] theorem State.setTile_inbox (t : Nat) (x : Tile) : (s.setTile t x).inbox = s.inbox := rfl
@[simp] theorem State.setTile_ringCw (t : Nat) (x : Tile) : (s.setTile t x).ringCw = s.ringCw := rfl
@[simp] theorem State.setTile_ringCcw (t : Nat) (x : Tile) : (s.setTile t x).ringCcw = s.ringCcw := rfl
@[simp] theorem State.setTile_inRing (t : Nat) (x : Tile) : (s.setTile t x).inRing = s.inRing := rfl
@[simp] theorem State.setTile_cwLock (t : Nat) (x : Tile) : (s.setTile t x).cwLock = s.cwLock := rfl
@[simp] theorem State.setTile_ccwLock (t : Nat) (x : Tile) : (s.setTile t x).ccwLock = s.ccwLock := rfl
@[simp] theorem State.setTile_ctxs (t : Nat) (x : Tile) : (s.setTile t x).ctxs = s.ctxs := rfl
@[simp] theorem State.setTile_ctxCache (t : Nat) (x : Tile) : (s.setTile t x).ctxCache = s.ctxCache := rfl
@[simp] theorem State.setTile_arrNow (t : Nat) (x : Tile) : (s.setTile t x).arrNow = s.arrNow := rfl
@[simp] theorem State.setTile_ctxBase (t : Nat) (x : Tile) : (s.setTile t x).ctxBase = s.ctxBase := rfl
@[simp] theorem State.setTile_rplBase (t : Nat) (x : Tile) : (s.setTile t x).rplBase = s.rplBase := rfl
@[simp] theorem State.setTile_replay (t : Nat) (x : Tile) : (s.setTile t x).replay = s.replay := rfl
@[simp] theorem State.setTile_wins (t : Nat) (x : Tile) : (s.setTile t x).wins = s.wins := rfl
@[simp] theorem State.setTile_apts (t : Nat) (x : Tile) : (s.setTile t x).apts = s.apts := rfl
@[simp] theorem State.setTile_jobs (t : Nat) (x : Tile) : (s.setTile t x).jobs = s.jobs := rfl
@[simp] theorem State.setTile_mjob (t : Nat) (x : Tile) : (s.setTile t x).mjob = s.mjob := rfl
@[simp] theorem State.setTile_outst (t : Nat) (x : Tile) : (s.setTile t x).outst = s.outst := rfl
@[simp] theorem State.setTile_nextRid (t : Nat) (x : Tile) : (s.setTile t x).nextRid = s.nextRid := rfl
@[simp] theorem State.setTile_nextOrd (t : Nat) (x : Tile) : (s.setTile t x).nextOrd = s.nextOrd := rfl
@[simp] theorem State.setTile_rlc (t : Nat) (x : Tile) : (s.setTile t x).rlc = s.rlc := rfl
@[simp] theorem State.setTile_rinvs (t : Nat) (x : Tile) : (s.setTile t x).rinvs = s.rinvs := rfl
@[simp] theorem State.setTile_dcache (t : Nat) (x : Tile) : (s.setTile t x).dcache = s.dcache := rfl
@[simp] theorem State.setTile_colls (t : Nat) (x : Tile) : (s.setTile t x).colls = s.colls := rfl
@[simp] theorem State.setTile_heldToks (t : Nat) (x : Tile) : (s.setTile t x).heldToks = s.heldToks := rfl
@[simp] theorem State.setTile_led (t : Nat) (x : Tile) : (s.setTile t x).led = s.led := rfl
@[simp] theorem State.setTile_rcPast (t : Nat) (x : Tile) : (s.setTile t x).rcPast = s.rcPast := rfl
@[simp] theorem State.setTile_ringWait (t : Nat) (x : Tile) : (s.setTile t x).ringWait = s.ringWait := rfl
@[simp] theorem State.setTile_ringHops (t : Nat) (x : Tile) : (s.setTile t x).ringHops = s.ringHops := rfl
@[simp] theorem State.setTile_cs (t : Nat) (x : Tile) : (s.setTile t x).cs = s.cs := rfl
@[simp] theorem State.setTile_vault (t : Nat) (x : Tile) : (s.setTile t x).vault = s.vault := rfl
@[simp] theorem State.setTile_router (t : Nat) (x : Tile) : (s.setTile t x).router = s.router := rfl
@[simp] theorem State.setTile_logBase (t : Nat) (x : Tile) : (s.setTile t x).logBase = s.logBase := rfl
@[simp] theorem State.setTile_logHead (t : Nat) (x : Tile) : (s.setTile t x).logHead = s.logHead := rfl
@[simp] theorem State.setTile_logCnt (t : Nat) (x : Tile) : (s.setTile t x).logCnt = s.logCnt := rfl
@[simp] theorem State.setTile_fltNs (t : Nat) (x : Tile) : (s.setTile t x).fltNs = s.fltNs := rfl
@[simp] theorem State.setTile_boot (t : Nat) (x : Tile) : (s.setTile t x).boot = s.boot := rfl
@[simp] theorem State.setTile_opt (t : Nat) (x : Tile) : (s.setTile t x).opt = s.opt := rfl
@[simp] theorem State.setTile_rst (t : Nat) (x : Tile) : (s.setTile t x).rst = s.rst := rfl
@[simp] theorem State.setTile_cores (t : Nat) (x : Tile) : (s.setTile t x).cores = s.cores := rfl
@[simp] theorem State.setTile_hrings (t : Nat) (x : Tile) : (s.setTile t x).hrings = s.hrings := rfl
@[simp] theorem State.setTile_hostp (t : Nat) (x : Tile) : (s.setTile t x).hostp = s.hostp := rfl
@[simp] theorem State.setTile_power (t : Nat) (x : Tile) : (s.setTile t x).power = s.power := rfl
@[simp] theorem State.setTile_mgtCtr (t : Nat) (x : Tile) : (s.setTile t x).mgtCtr = s.mgtCtr := rfl
@[simp] theorem State.setTile_mgtBootId (t : Nat) (x : Tile) : (s.setTile t x).mgtBootId = s.mgtBootId := rfl
@[simp] theorem State.setTile_out (t : Nat) (x : Tile) : (s.setTile t x).out = s.out := rfl
@[simp] theorem State.setTile_tile_same (t : Nat) (x : Tile) : (s.setTile t x).tile t = x := mget_mput_same _ _ _ _
theorem State.setTile_tile_ne (t : Nat) (x : Tile) {q : Nat} (h : q ≠ t) : (s.setTile t x).tile q = s.tile q := mget_mput_ne _ _ _ h

/-! ### setArcu -/

@[simp] theorem State.setArcu_pending (u : Nat) (x : ArcUnit) : (s.setArcu u x).pending = s.pending := rfl
@[simp] theorem State.setArcu_fresh (u : Nat) (x : ArcUnit) : (s.setArcu u x).fresh = s.fresh := rfl
@[simp] theorem State.setArcu_clk (u : Nat) (x : ArcUnit) : (s.setArcu u x).clk = s.clk := rfl
@[simp] theorem State.setArcu_pins (u : Nat) (x : ArcUnit) : (s.setArcu u x).pins = s.pins := rfl
@[simp] theorem State.setArcu_regs (u : Nat) (x : ArcUnit) : (s.setArcu u x).regs = s.regs := rfl
@[simp] theorem State.setArcu_bitsNow (u : Nat) (x : ArcUnit) : (s.setArcu u x).bitsNow = s.bitsNow := rfl
@[simp] theorem State.setArcu_cntsNow (u : Nat) (x : ArcUnit) : (s.setArcu u x).cntsNow = s.cntsNow := rfl
@[simp] theorem State.setArcu_wasNow (u : Nat) (x : ArcUnit) : (s.setArcu u x).wasNow = s.wasNow := rfl
@[simp] theorem State.setArcu_loHold (u : Nat) (x : ArcUnit) : (s.setArcu u x).loHold = s.loHold := rfl
@[simp] theorem State.setArcu_hiLatch (u : Nat) (x : ArcUnit) : (s.setArcu u x).hiLatch = s.hiLatch := rfl
@[simp] theorem State.setArcu_err (u : Nat) (x : ArcUnit) : (s.setArcu u x).err = s.err := rfl
@[simp] theorem State.setArcu_recWas (u : Nat) (x : ArcUnit) : (s.setArcu u x).recWas = s.recWas := rfl
@[simp] theorem State.setArcu_errBuf (u : Nat) (x : ArcUnit) : (s.setArcu u x).errBuf = s.errBuf := rfl
@[simp] theorem State.setArcu_errSet (u : Nat) (x : ArcUnit) : (s.setArcu u x).errSet = s.errSet := rfl
@[simp] theorem State.setArcu_errSeq (u : Nat) (x : ArcUnit) : (s.setArcu u x).errSeq = s.errSeq := rfl
@[simp] theorem State.setArcu_srst (u : Nat) (x : ArcUnit) : (s.setArcu u x).srst = s.srst := rfl
@[simp] theorem State.setArcu_mem (u : Nat) (x : ArcUnit) : (s.setArcu u x).mem = s.mem := rfl
@[simp] theorem State.setArcu_tb (u : Nat) (x : ArcUnit) : (s.setArcu u x).tb = s.tb := rfl
@[simp] theorem State.setArcu_copies (u : Nat) (x : ArcUnit) : (s.setArcu u x).copies = s.copies := rfl
@[simp] theorem State.setArcu_tiles (u : Nat) (x : ArcUnit) : (s.setArcu u x).tiles = s.tiles := rfl
@[simp] theorem State.setArcu_parts (u : Nat) (x : ArcUnit) : (s.setArcu u x).parts = s.parts := rfl
@[simp] theorem State.setArcu_ust (u : Nat) (x : ArcUnit) : (s.setArcu u x).ust = s.ust := rfl
@[simp] theorem State.setArcu_hist (u : Nat) (x : ArcUnit) : (s.setArcu u x).hist = s.hist := rfl
@[simp] theorem State.setArcu_ports (u : Nat) (x : ArcUnit) : (s.setArcu u x).ports = s.ports := rfl
@[simp] theorem State.setArcu_sets (u : Nat) (x : ArcUnit) : (s.setArcu u x).sets = s.sets := rfl
@[simp] theorem State.setArcu_modId (u : Nat) (x : ArcUnit) : (s.setArcu u x).modId = s.modId := rfl
@[simp] theorem State.setArcu_mgmtList (u : Nat) (x : ArcUnit) : (s.setArcu u x).mgmtList = s.mgmtList := rfl
@[simp] theorem State.setArcu_lost (u : Nat) (x : ArcUnit) : (s.setArcu u x).lost = s.lost := rfl
@[simp] theorem State.setArcu_inbox (u : Nat) (x : ArcUnit) : (s.setArcu u x).inbox = s.inbox := rfl
@[simp] theorem State.setArcu_ringCw (u : Nat) (x : ArcUnit) : (s.setArcu u x).ringCw = s.ringCw := rfl
@[simp] theorem State.setArcu_ringCcw (u : Nat) (x : ArcUnit) : (s.setArcu u x).ringCcw = s.ringCcw := rfl
@[simp] theorem State.setArcu_inRing (u : Nat) (x : ArcUnit) : (s.setArcu u x).inRing = s.inRing := rfl
@[simp] theorem State.setArcu_cwLock (u : Nat) (x : ArcUnit) : (s.setArcu u x).cwLock = s.cwLock := rfl
@[simp] theorem State.setArcu_ccwLock (u : Nat) (x : ArcUnit) : (s.setArcu u x).ccwLock = s.ccwLock := rfl
@[simp] theorem State.setArcu_ctxs (u : Nat) (x : ArcUnit) : (s.setArcu u x).ctxs = s.ctxs := rfl
@[simp] theorem State.setArcu_ctxCache (u : Nat) (x : ArcUnit) : (s.setArcu u x).ctxCache = s.ctxCache := rfl
@[simp] theorem State.setArcu_arrNow (u : Nat) (x : ArcUnit) : (s.setArcu u x).arrNow = s.arrNow := rfl
@[simp] theorem State.setArcu_ctxBase (u : Nat) (x : ArcUnit) : (s.setArcu u x).ctxBase = s.ctxBase := rfl
@[simp] theorem State.setArcu_rplBase (u : Nat) (x : ArcUnit) : (s.setArcu u x).rplBase = s.rplBase := rfl
@[simp] theorem State.setArcu_replay (u : Nat) (x : ArcUnit) : (s.setArcu u x).replay = s.replay := rfl
@[simp] theorem State.setArcu_wins (u : Nat) (x : ArcUnit) : (s.setArcu u x).wins = s.wins := rfl
@[simp] theorem State.setArcu_apts (u : Nat) (x : ArcUnit) : (s.setArcu u x).apts = s.apts := rfl
@[simp] theorem State.setArcu_jobs (u : Nat) (x : ArcUnit) : (s.setArcu u x).jobs = s.jobs := rfl
@[simp] theorem State.setArcu_mjob (u : Nat) (x : ArcUnit) : (s.setArcu u x).mjob = s.mjob := rfl
@[simp] theorem State.setArcu_outst (u : Nat) (x : ArcUnit) : (s.setArcu u x).outst = s.outst := rfl
@[simp] theorem State.setArcu_nextRid (u : Nat) (x : ArcUnit) : (s.setArcu u x).nextRid = s.nextRid := rfl
@[simp] theorem State.setArcu_nextOrd (u : Nat) (x : ArcUnit) : (s.setArcu u x).nextOrd = s.nextOrd := rfl
@[simp] theorem State.setArcu_rlc (u : Nat) (x : ArcUnit) : (s.setArcu u x).rlc = s.rlc := rfl
@[simp] theorem State.setArcu_rinvs (u : Nat) (x : ArcUnit) : (s.setArcu u x).rinvs = s.rinvs := rfl
@[simp] theorem State.setArcu_dcache (u : Nat) (x : ArcUnit) : (s.setArcu u x).dcache = s.dcache := rfl
@[simp] theorem State.setArcu_colls (u : Nat) (x : ArcUnit) : (s.setArcu u x).colls = s.colls := rfl
@[simp] theorem State.setArcu_heldToks (u : Nat) (x : ArcUnit) : (s.setArcu u x).heldToks = s.heldToks := rfl
@[simp] theorem State.setArcu_led (u : Nat) (x : ArcUnit) : (s.setArcu u x).led = s.led := rfl
@[simp] theorem State.setArcu_rcPast (u : Nat) (x : ArcUnit) : (s.setArcu u x).rcPast = s.rcPast := rfl
@[simp] theorem State.setArcu_ringWait (u : Nat) (x : ArcUnit) : (s.setArcu u x).ringWait = s.ringWait := rfl
@[simp] theorem State.setArcu_ringHops (u : Nat) (x : ArcUnit) : (s.setArcu u x).ringHops = s.ringHops := rfl
@[simp] theorem State.setArcu_cs (u : Nat) (x : ArcUnit) : (s.setArcu u x).cs = s.cs := rfl
@[simp] theorem State.setArcu_vault (u : Nat) (x : ArcUnit) : (s.setArcu u x).vault = s.vault := rfl
@[simp] theorem State.setArcu_router (u : Nat) (x : ArcUnit) : (s.setArcu u x).router = s.router := rfl
@[simp] theorem State.setArcu_logBase (u : Nat) (x : ArcUnit) : (s.setArcu u x).logBase = s.logBase := rfl
@[simp] theorem State.setArcu_logHead (u : Nat) (x : ArcUnit) : (s.setArcu u x).logHead = s.logHead := rfl
@[simp] theorem State.setArcu_logCnt (u : Nat) (x : ArcUnit) : (s.setArcu u x).logCnt = s.logCnt := rfl
@[simp] theorem State.setArcu_fltNs (u : Nat) (x : ArcUnit) : (s.setArcu u x).fltNs = s.fltNs := rfl
@[simp] theorem State.setArcu_boot (u : Nat) (x : ArcUnit) : (s.setArcu u x).boot = s.boot := rfl
@[simp] theorem State.setArcu_opt (u : Nat) (x : ArcUnit) : (s.setArcu u x).opt = s.opt := rfl
@[simp] theorem State.setArcu_rst (u : Nat) (x : ArcUnit) : (s.setArcu u x).rst = s.rst := rfl
@[simp] theorem State.setArcu_cores (u : Nat) (x : ArcUnit) : (s.setArcu u x).cores = s.cores := rfl
@[simp] theorem State.setArcu_hrings (u : Nat) (x : ArcUnit) : (s.setArcu u x).hrings = s.hrings := rfl
@[simp] theorem State.setArcu_hostp (u : Nat) (x : ArcUnit) : (s.setArcu u x).hostp = s.hostp := rfl
@[simp] theorem State.setArcu_power (u : Nat) (x : ArcUnit) : (s.setArcu u x).power = s.power := rfl
@[simp] theorem State.setArcu_mgtCtr (u : Nat) (x : ArcUnit) : (s.setArcu u x).mgtCtr = s.mgtCtr := rfl
@[simp] theorem State.setArcu_mgtBootId (u : Nat) (x : ArcUnit) : (s.setArcu u x).mgtBootId = s.mgtBootId := rfl
@[simp] theorem State.setArcu_out (u : Nat) (x : ArcUnit) : (s.setArcu u x).out = s.out := rfl
@[simp] theorem State.setArcu_arcu_same (u : Nat) (x : ArcUnit) : (s.setArcu u x).arcu u = x := mget_mput_same _ _ _ _
theorem State.setArcu_arcu_ne (u : Nat) (x : ArcUnit) {q : Nat} (h : q ≠ u) : (s.setArcu u x).arcu q = s.arcu q := mget_mput_ne _ _ _ h

/-! ### setPart -/

@[simp] theorem State.setPart_pending (p : Nat) (x : Part) : (s.setPart p x).pending = s.pending := rfl
@[simp] theorem State.setPart_fresh (p : Nat) (x : Part) : (s.setPart p x).fresh = s.fresh := rfl
@[simp] theorem State.setPart_clk (p : Nat) (x : Part) : (s.setPart p x).clk = s.clk := rfl
@[simp] theorem State.setPart_pins (p : Nat) (x : Part) : (s.setPart p x).pins = s.pins := rfl
@[simp] theorem State.setPart_regs (p : Nat) (x : Part) : (s.setPart p x).regs = s.regs := rfl
@[simp] theorem State.setPart_bitsNow (p : Nat) (x : Part) : (s.setPart p x).bitsNow = s.bitsNow := rfl
@[simp] theorem State.setPart_cntsNow (p : Nat) (x : Part) : (s.setPart p x).cntsNow = s.cntsNow := rfl
@[simp] theorem State.setPart_wasNow (p : Nat) (x : Part) : (s.setPart p x).wasNow = s.wasNow := rfl
@[simp] theorem State.setPart_loHold (p : Nat) (x : Part) : (s.setPart p x).loHold = s.loHold := rfl
@[simp] theorem State.setPart_hiLatch (p : Nat) (x : Part) : (s.setPart p x).hiLatch = s.hiLatch := rfl
@[simp] theorem State.setPart_err (p : Nat) (x : Part) : (s.setPart p x).err = s.err := rfl
@[simp] theorem State.setPart_recWas (p : Nat) (x : Part) : (s.setPart p x).recWas = s.recWas := rfl
@[simp] theorem State.setPart_errBuf (p : Nat) (x : Part) : (s.setPart p x).errBuf = s.errBuf := rfl
@[simp] theorem State.setPart_errSet (p : Nat) (x : Part) : (s.setPart p x).errSet = s.errSet := rfl
@[simp] theorem State.setPart_errSeq (p : Nat) (x : Part) : (s.setPart p x).errSeq = s.errSeq := rfl
@[simp] theorem State.setPart_srst (p : Nat) (x : Part) : (s.setPart p x).srst = s.srst := rfl
@[simp] theorem State.setPart_mem (p : Nat) (x : Part) : (s.setPart p x).mem = s.mem := rfl
@[simp] theorem State.setPart_tb (p : Nat) (x : Part) : (s.setPart p x).tb = s.tb := rfl
@[simp] theorem State.setPart_arcs (p : Nat) (x : Part) : (s.setPart p x).arcs = s.arcs := rfl
@[simp] theorem State.setPart_copies (p : Nat) (x : Part) : (s.setPart p x).copies = s.copies := rfl
@[simp] theorem State.setPart_tiles (p : Nat) (x : Part) : (s.setPart p x).tiles = s.tiles := rfl
@[simp] theorem State.setPart_ust (p : Nat) (x : Part) : (s.setPart p x).ust = s.ust := rfl
@[simp] theorem State.setPart_hist (p : Nat) (x : Part) : (s.setPart p x).hist = s.hist := rfl
@[simp] theorem State.setPart_ports (p : Nat) (x : Part) : (s.setPart p x).ports = s.ports := rfl
@[simp] theorem State.setPart_sets (p : Nat) (x : Part) : (s.setPart p x).sets = s.sets := rfl
@[simp] theorem State.setPart_modId (p : Nat) (x : Part) : (s.setPart p x).modId = s.modId := rfl
@[simp] theorem State.setPart_mgmtList (p : Nat) (x : Part) : (s.setPart p x).mgmtList = s.mgmtList := rfl
@[simp] theorem State.setPart_lost (p : Nat) (x : Part) : (s.setPart p x).lost = s.lost := rfl
@[simp] theorem State.setPart_inbox (p : Nat) (x : Part) : (s.setPart p x).inbox = s.inbox := rfl
@[simp] theorem State.setPart_ringCw (p : Nat) (x : Part) : (s.setPart p x).ringCw = s.ringCw := rfl
@[simp] theorem State.setPart_ringCcw (p : Nat) (x : Part) : (s.setPart p x).ringCcw = s.ringCcw := rfl
@[simp] theorem State.setPart_inRing (p : Nat) (x : Part) : (s.setPart p x).inRing = s.inRing := rfl
@[simp] theorem State.setPart_cwLock (p : Nat) (x : Part) : (s.setPart p x).cwLock = s.cwLock := rfl
@[simp] theorem State.setPart_ccwLock (p : Nat) (x : Part) : (s.setPart p x).ccwLock = s.ccwLock := rfl
@[simp] theorem State.setPart_ctxs (p : Nat) (x : Part) : (s.setPart p x).ctxs = s.ctxs := rfl
@[simp] theorem State.setPart_ctxCache (p : Nat) (x : Part) : (s.setPart p x).ctxCache = s.ctxCache := rfl
@[simp] theorem State.setPart_arrNow (p : Nat) (x : Part) : (s.setPart p x).arrNow = s.arrNow := rfl
@[simp] theorem State.setPart_ctxBase (p : Nat) (x : Part) : (s.setPart p x).ctxBase = s.ctxBase := rfl
@[simp] theorem State.setPart_rplBase (p : Nat) (x : Part) : (s.setPart p x).rplBase = s.rplBase := rfl
@[simp] theorem State.setPart_replay (p : Nat) (x : Part) : (s.setPart p x).replay = s.replay := rfl
@[simp] theorem State.setPart_wins (p : Nat) (x : Part) : (s.setPart p x).wins = s.wins := rfl
@[simp] theorem State.setPart_apts (p : Nat) (x : Part) : (s.setPart p x).apts = s.apts := rfl
@[simp] theorem State.setPart_jobs (p : Nat) (x : Part) : (s.setPart p x).jobs = s.jobs := rfl
@[simp] theorem State.setPart_mjob (p : Nat) (x : Part) : (s.setPart p x).mjob = s.mjob := rfl
@[simp] theorem State.setPart_outst (p : Nat) (x : Part) : (s.setPart p x).outst = s.outst := rfl
@[simp] theorem State.setPart_nextRid (p : Nat) (x : Part) : (s.setPart p x).nextRid = s.nextRid := rfl
@[simp] theorem State.setPart_nextOrd (p : Nat) (x : Part) : (s.setPart p x).nextOrd = s.nextOrd := rfl
@[simp] theorem State.setPart_rlc (p : Nat) (x : Part) : (s.setPart p x).rlc = s.rlc := rfl
@[simp] theorem State.setPart_rinvs (p : Nat) (x : Part) : (s.setPart p x).rinvs = s.rinvs := rfl
@[simp] theorem State.setPart_dcache (p : Nat) (x : Part) : (s.setPart p x).dcache = s.dcache := rfl
@[simp] theorem State.setPart_colls (p : Nat) (x : Part) : (s.setPart p x).colls = s.colls := rfl
@[simp] theorem State.setPart_heldToks (p : Nat) (x : Part) : (s.setPart p x).heldToks = s.heldToks := rfl
@[simp] theorem State.setPart_led (p : Nat) (x : Part) : (s.setPart p x).led = s.led := rfl
@[simp] theorem State.setPart_rcPast (p : Nat) (x : Part) : (s.setPart p x).rcPast = s.rcPast := rfl
@[simp] theorem State.setPart_ringWait (p : Nat) (x : Part) : (s.setPart p x).ringWait = s.ringWait := rfl
@[simp] theorem State.setPart_ringHops (p : Nat) (x : Part) : (s.setPart p x).ringHops = s.ringHops := rfl
@[simp] theorem State.setPart_cs (p : Nat) (x : Part) : (s.setPart p x).cs = s.cs := rfl
@[simp] theorem State.setPart_vault (p : Nat) (x : Part) : (s.setPart p x).vault = s.vault := rfl
@[simp] theorem State.setPart_router (p : Nat) (x : Part) : (s.setPart p x).router = s.router := rfl
@[simp] theorem State.setPart_logBase (p : Nat) (x : Part) : (s.setPart p x).logBase = s.logBase := rfl
@[simp] theorem State.setPart_logHead (p : Nat) (x : Part) : (s.setPart p x).logHead = s.logHead := rfl
@[simp] theorem State.setPart_logCnt (p : Nat) (x : Part) : (s.setPart p x).logCnt = s.logCnt := rfl
@[simp] theorem State.setPart_fltNs (p : Nat) (x : Part) : (s.setPart p x).fltNs = s.fltNs := rfl
@[simp] theorem State.setPart_boot (p : Nat) (x : Part) : (s.setPart p x).boot = s.boot := rfl
@[simp] theorem State.setPart_opt (p : Nat) (x : Part) : (s.setPart p x).opt = s.opt := rfl
@[simp] theorem State.setPart_rst (p : Nat) (x : Part) : (s.setPart p x).rst = s.rst := rfl
@[simp] theorem State.setPart_cores (p : Nat) (x : Part) : (s.setPart p x).cores = s.cores := rfl
@[simp] theorem State.setPart_hrings (p : Nat) (x : Part) : (s.setPart p x).hrings = s.hrings := rfl
@[simp] theorem State.setPart_hostp (p : Nat) (x : Part) : (s.setPart p x).hostp = s.hostp := rfl
@[simp] theorem State.setPart_power (p : Nat) (x : Part) : (s.setPart p x).power = s.power := rfl
@[simp] theorem State.setPart_mgtCtr (p : Nat) (x : Part) : (s.setPart p x).mgtCtr = s.mgtCtr := rfl
@[simp] theorem State.setPart_mgtBootId (p : Nat) (x : Part) : (s.setPart p x).mgtBootId = s.mgtBootId := rfl
@[simp] theorem State.setPart_out (p : Nat) (x : Part) : (s.setPart p x).out = s.out := rfl
@[simp] theorem State.setPart_part_same (p : Nat) (x : Part) : (s.setPart p x).part p = x := mget_mput_same _ _ _ _
theorem State.setPart_part_ne (p : Nat) (x : Part) {q : Nat} (h : q ≠ p) : (s.setPart p x).part q = s.part q := mget_mput_ne _ _ _ h

/-! ### setPort -/

@[simp] theorem State.setPort_pending (i : Nat) (x : Port) : (s.setPort i x).pending = s.pending := rfl
@[simp] theorem State.setPort_fresh (i : Nat) (x : Port) : (s.setPort i x).fresh = s.fresh := rfl
@[simp] theorem State.setPort_clk (i : Nat) (x : Port) : (s.setPort i x).clk = s.clk := rfl
@[simp] theorem State.setPort_pins (i : Nat) (x : Port) : (s.setPort i x).pins = s.pins := rfl
@[simp] theorem State.setPort_regs (i : Nat) (x : Port) : (s.setPort i x).regs = s.regs := rfl
@[simp] theorem State.setPort_bitsNow (i : Nat) (x : Port) : (s.setPort i x).bitsNow = s.bitsNow := rfl
@[simp] theorem State.setPort_cntsNow (i : Nat) (x : Port) : (s.setPort i x).cntsNow = s.cntsNow := rfl
@[simp] theorem State.setPort_wasNow (i : Nat) (x : Port) : (s.setPort i x).wasNow = s.wasNow := rfl
@[simp] theorem State.setPort_loHold (i : Nat) (x : Port) : (s.setPort i x).loHold = s.loHold := rfl
@[simp] theorem State.setPort_hiLatch (i : Nat) (x : Port) : (s.setPort i x).hiLatch = s.hiLatch := rfl
@[simp] theorem State.setPort_err (i : Nat) (x : Port) : (s.setPort i x).err = s.err := rfl
@[simp] theorem State.setPort_recWas (i : Nat) (x : Port) : (s.setPort i x).recWas = s.recWas := rfl
@[simp] theorem State.setPort_errBuf (i : Nat) (x : Port) : (s.setPort i x).errBuf = s.errBuf := rfl
@[simp] theorem State.setPort_errSet (i : Nat) (x : Port) : (s.setPort i x).errSet = s.errSet := rfl
@[simp] theorem State.setPort_errSeq (i : Nat) (x : Port) : (s.setPort i x).errSeq = s.errSeq := rfl
@[simp] theorem State.setPort_srst (i : Nat) (x : Port) : (s.setPort i x).srst = s.srst := rfl
@[simp] theorem State.setPort_mem (i : Nat) (x : Port) : (s.setPort i x).mem = s.mem := rfl
@[simp] theorem State.setPort_tb (i : Nat) (x : Port) : (s.setPort i x).tb = s.tb := rfl
@[simp] theorem State.setPort_arcs (i : Nat) (x : Port) : (s.setPort i x).arcs = s.arcs := rfl
@[simp] theorem State.setPort_copies (i : Nat) (x : Port) : (s.setPort i x).copies = s.copies := rfl
@[simp] theorem State.setPort_tiles (i : Nat) (x : Port) : (s.setPort i x).tiles = s.tiles := rfl
@[simp] theorem State.setPort_parts (i : Nat) (x : Port) : (s.setPort i x).parts = s.parts := rfl
@[simp] theorem State.setPort_ust (i : Nat) (x : Port) : (s.setPort i x).ust = s.ust := rfl
@[simp] theorem State.setPort_hist (i : Nat) (x : Port) : (s.setPort i x).hist = s.hist := rfl
@[simp] theorem State.setPort_sets (i : Nat) (x : Port) : (s.setPort i x).sets = s.sets := rfl
@[simp] theorem State.setPort_modId (i : Nat) (x : Port) : (s.setPort i x).modId = s.modId := rfl
@[simp] theorem State.setPort_mgmtList (i : Nat) (x : Port) : (s.setPort i x).mgmtList = s.mgmtList := rfl
@[simp] theorem State.setPort_lost (i : Nat) (x : Port) : (s.setPort i x).lost = s.lost := rfl
@[simp] theorem State.setPort_inbox (i : Nat) (x : Port) : (s.setPort i x).inbox = s.inbox := rfl
@[simp] theorem State.setPort_ringCw (i : Nat) (x : Port) : (s.setPort i x).ringCw = s.ringCw := rfl
@[simp] theorem State.setPort_ringCcw (i : Nat) (x : Port) : (s.setPort i x).ringCcw = s.ringCcw := rfl
@[simp] theorem State.setPort_inRing (i : Nat) (x : Port) : (s.setPort i x).inRing = s.inRing := rfl
@[simp] theorem State.setPort_cwLock (i : Nat) (x : Port) : (s.setPort i x).cwLock = s.cwLock := rfl
@[simp] theorem State.setPort_ccwLock (i : Nat) (x : Port) : (s.setPort i x).ccwLock = s.ccwLock := rfl
@[simp] theorem State.setPort_ctxs (i : Nat) (x : Port) : (s.setPort i x).ctxs = s.ctxs := rfl
@[simp] theorem State.setPort_ctxCache (i : Nat) (x : Port) : (s.setPort i x).ctxCache = s.ctxCache := rfl
@[simp] theorem State.setPort_arrNow (i : Nat) (x : Port) : (s.setPort i x).arrNow = s.arrNow := rfl
@[simp] theorem State.setPort_ctxBase (i : Nat) (x : Port) : (s.setPort i x).ctxBase = s.ctxBase := rfl
@[simp] theorem State.setPort_rplBase (i : Nat) (x : Port) : (s.setPort i x).rplBase = s.rplBase := rfl
@[simp] theorem State.setPort_replay (i : Nat) (x : Port) : (s.setPort i x).replay = s.replay := rfl
@[simp] theorem State.setPort_wins (i : Nat) (x : Port) : (s.setPort i x).wins = s.wins := rfl
@[simp] theorem State.setPort_apts (i : Nat) (x : Port) : (s.setPort i x).apts = s.apts := rfl
@[simp] theorem State.setPort_jobs (i : Nat) (x : Port) : (s.setPort i x).jobs = s.jobs := rfl
@[simp] theorem State.setPort_mjob (i : Nat) (x : Port) : (s.setPort i x).mjob = s.mjob := rfl
@[simp] theorem State.setPort_outst (i : Nat) (x : Port) : (s.setPort i x).outst = s.outst := rfl
@[simp] theorem State.setPort_nextRid (i : Nat) (x : Port) : (s.setPort i x).nextRid = s.nextRid := rfl
@[simp] theorem State.setPort_nextOrd (i : Nat) (x : Port) : (s.setPort i x).nextOrd = s.nextOrd := rfl
@[simp] theorem State.setPort_rlc (i : Nat) (x : Port) : (s.setPort i x).rlc = s.rlc := rfl
@[simp] theorem State.setPort_rinvs (i : Nat) (x : Port) : (s.setPort i x).rinvs = s.rinvs := rfl
@[simp] theorem State.setPort_dcache (i : Nat) (x : Port) : (s.setPort i x).dcache = s.dcache := rfl
@[simp] theorem State.setPort_colls (i : Nat) (x : Port) : (s.setPort i x).colls = s.colls := rfl
@[simp] theorem State.setPort_heldToks (i : Nat) (x : Port) : (s.setPort i x).heldToks = s.heldToks := rfl
@[simp] theorem State.setPort_led (i : Nat) (x : Port) : (s.setPort i x).led = s.led := rfl
@[simp] theorem State.setPort_rcPast (i : Nat) (x : Port) : (s.setPort i x).rcPast = s.rcPast := rfl
@[simp] theorem State.setPort_ringWait (i : Nat) (x : Port) : (s.setPort i x).ringWait = s.ringWait := rfl
@[simp] theorem State.setPort_ringHops (i : Nat) (x : Port) : (s.setPort i x).ringHops = s.ringHops := rfl
@[simp] theorem State.setPort_cs (i : Nat) (x : Port) : (s.setPort i x).cs = s.cs := rfl
@[simp] theorem State.setPort_vault (i : Nat) (x : Port) : (s.setPort i x).vault = s.vault := rfl
@[simp] theorem State.setPort_router (i : Nat) (x : Port) : (s.setPort i x).router = s.router := rfl
@[simp] theorem State.setPort_logBase (i : Nat) (x : Port) : (s.setPort i x).logBase = s.logBase := rfl
@[simp] theorem State.setPort_logHead (i : Nat) (x : Port) : (s.setPort i x).logHead = s.logHead := rfl
@[simp] theorem State.setPort_logCnt (i : Nat) (x : Port) : (s.setPort i x).logCnt = s.logCnt := rfl
@[simp] theorem State.setPort_fltNs (i : Nat) (x : Port) : (s.setPort i x).fltNs = s.fltNs := rfl
@[simp] theorem State.setPort_boot (i : Nat) (x : Port) : (s.setPort i x).boot = s.boot := rfl
@[simp] theorem State.setPort_opt (i : Nat) (x : Port) : (s.setPort i x).opt = s.opt := rfl
@[simp] theorem State.setPort_rst (i : Nat) (x : Port) : (s.setPort i x).rst = s.rst := rfl
@[simp] theorem State.setPort_cores (i : Nat) (x : Port) : (s.setPort i x).cores = s.cores := rfl
@[simp] theorem State.setPort_hrings (i : Nat) (x : Port) : (s.setPort i x).hrings = s.hrings := rfl
@[simp] theorem State.setPort_hostp (i : Nat) (x : Port) : (s.setPort i x).hostp = s.hostp := rfl
@[simp] theorem State.setPort_power (i : Nat) (x : Port) : (s.setPort i x).power = s.power := rfl
@[simp] theorem State.setPort_mgtCtr (i : Nat) (x : Port) : (s.setPort i x).mgtCtr = s.mgtCtr := rfl
@[simp] theorem State.setPort_mgtBootId (i : Nat) (x : Port) : (s.setPort i x).mgtBootId = s.mgtBootId := rfl
@[simp] theorem State.setPort_out (i : Nat) (x : Port) : (s.setPort i x).out = s.out := rfl
@[simp] theorem State.setPort_port_same (i : Nat) (x : Port) : (s.setPort i x).port i = x := mget_mput_same _ _ _ _
theorem State.setPort_port_ne (i : Nat) (x : Port) {q : Nat} (h : q ≠ i) : (s.setPort i x).port q = s.port q := mget_mput_ne _ _ _ h

/-! ### setCore -/

@[simp] theorem State.setCore_pending (c : Nat) (x : Core_) : (s.setCore c x).pending = s.pending := rfl
@[simp] theorem State.setCore_fresh (c : Nat) (x : Core_) : (s.setCore c x).fresh = s.fresh := rfl
@[simp] theorem State.setCore_clk (c : Nat) (x : Core_) : (s.setCore c x).clk = s.clk := rfl
@[simp] theorem State.setCore_pins (c : Nat) (x : Core_) : (s.setCore c x).pins = s.pins := rfl
@[simp] theorem State.setCore_regs (c : Nat) (x : Core_) : (s.setCore c x).regs = s.regs := rfl
@[simp] theorem State.setCore_bitsNow (c : Nat) (x : Core_) : (s.setCore c x).bitsNow = s.bitsNow := rfl
@[simp] theorem State.setCore_cntsNow (c : Nat) (x : Core_) : (s.setCore c x).cntsNow = s.cntsNow := rfl
@[simp] theorem State.setCore_wasNow (c : Nat) (x : Core_) : (s.setCore c x).wasNow = s.wasNow := rfl
@[simp] theorem State.setCore_loHold (c : Nat) (x : Core_) : (s.setCore c x).loHold = s.loHold := rfl
@[simp] theorem State.setCore_hiLatch (c : Nat) (x : Core_) : (s.setCore c x).hiLatch = s.hiLatch := rfl
@[simp] theorem State.setCore_err (c : Nat) (x : Core_) : (s.setCore c x).err = s.err := rfl
@[simp] theorem State.setCore_recWas (c : Nat) (x : Core_) : (s.setCore c x).recWas = s.recWas := rfl
@[simp] theorem State.setCore_errBuf (c : Nat) (x : Core_) : (s.setCore c x).errBuf = s.errBuf := rfl
@[simp] theorem State.setCore_errSet (c : Nat) (x : Core_) : (s.setCore c x).errSet = s.errSet := rfl
@[simp] theorem State.setCore_errSeq (c : Nat) (x : Core_) : (s.setCore c x).errSeq = s.errSeq := rfl
@[simp] theorem State.setCore_srst (c : Nat) (x : Core_) : (s.setCore c x).srst = s.srst := rfl
@[simp] theorem State.setCore_mem (c : Nat) (x : Core_) : (s.setCore c x).mem = s.mem := rfl
@[simp] theorem State.setCore_tb (c : Nat) (x : Core_) : (s.setCore c x).tb = s.tb := rfl
@[simp] theorem State.setCore_arcs (c : Nat) (x : Core_) : (s.setCore c x).arcs = s.arcs := rfl
@[simp] theorem State.setCore_copies (c : Nat) (x : Core_) : (s.setCore c x).copies = s.copies := rfl
@[simp] theorem State.setCore_tiles (c : Nat) (x : Core_) : (s.setCore c x).tiles = s.tiles := rfl
@[simp] theorem State.setCore_parts (c : Nat) (x : Core_) : (s.setCore c x).parts = s.parts := rfl
@[simp] theorem State.setCore_ust (c : Nat) (x : Core_) : (s.setCore c x).ust = s.ust := rfl
@[simp] theorem State.setCore_hist (c : Nat) (x : Core_) : (s.setCore c x).hist = s.hist := rfl
@[simp] theorem State.setCore_ports (c : Nat) (x : Core_) : (s.setCore c x).ports = s.ports := rfl
@[simp] theorem State.setCore_sets (c : Nat) (x : Core_) : (s.setCore c x).sets = s.sets := rfl
@[simp] theorem State.setCore_modId (c : Nat) (x : Core_) : (s.setCore c x).modId = s.modId := rfl
@[simp] theorem State.setCore_mgmtList (c : Nat) (x : Core_) : (s.setCore c x).mgmtList = s.mgmtList := rfl
@[simp] theorem State.setCore_lost (c : Nat) (x : Core_) : (s.setCore c x).lost = s.lost := rfl
@[simp] theorem State.setCore_inbox (c : Nat) (x : Core_) : (s.setCore c x).inbox = s.inbox := rfl
@[simp] theorem State.setCore_ringCw (c : Nat) (x : Core_) : (s.setCore c x).ringCw = s.ringCw := rfl
@[simp] theorem State.setCore_ringCcw (c : Nat) (x : Core_) : (s.setCore c x).ringCcw = s.ringCcw := rfl
@[simp] theorem State.setCore_inRing (c : Nat) (x : Core_) : (s.setCore c x).inRing = s.inRing := rfl
@[simp] theorem State.setCore_cwLock (c : Nat) (x : Core_) : (s.setCore c x).cwLock = s.cwLock := rfl
@[simp] theorem State.setCore_ccwLock (c : Nat) (x : Core_) : (s.setCore c x).ccwLock = s.ccwLock := rfl
@[simp] theorem State.setCore_ctxs (c : Nat) (x : Core_) : (s.setCore c x).ctxs = s.ctxs := rfl
@[simp] theorem State.setCore_ctxCache (c : Nat) (x : Core_) : (s.setCore c x).ctxCache = s.ctxCache := rfl
@[simp] theorem State.setCore_arrNow (c : Nat) (x : Core_) : (s.setCore c x).arrNow = s.arrNow := rfl
@[simp] theorem State.setCore_ctxBase (c : Nat) (x : Core_) : (s.setCore c x).ctxBase = s.ctxBase := rfl
@[simp] theorem State.setCore_rplBase (c : Nat) (x : Core_) : (s.setCore c x).rplBase = s.rplBase := rfl
@[simp] theorem State.setCore_replay (c : Nat) (x : Core_) : (s.setCore c x).replay = s.replay := rfl
@[simp] theorem State.setCore_wins (c : Nat) (x : Core_) : (s.setCore c x).wins = s.wins := rfl
@[simp] theorem State.setCore_apts (c : Nat) (x : Core_) : (s.setCore c x).apts = s.apts := rfl
@[simp] theorem State.setCore_jobs (c : Nat) (x : Core_) : (s.setCore c x).jobs = s.jobs := rfl
@[simp] theorem State.setCore_mjob (c : Nat) (x : Core_) : (s.setCore c x).mjob = s.mjob := rfl
@[simp] theorem State.setCore_outst (c : Nat) (x : Core_) : (s.setCore c x).outst = s.outst := rfl
@[simp] theorem State.setCore_nextRid (c : Nat) (x : Core_) : (s.setCore c x).nextRid = s.nextRid := rfl
@[simp] theorem State.setCore_nextOrd (c : Nat) (x : Core_) : (s.setCore c x).nextOrd = s.nextOrd := rfl
@[simp] theorem State.setCore_rlc (c : Nat) (x : Core_) : (s.setCore c x).rlc = s.rlc := rfl
@[simp] theorem State.setCore_rinvs (c : Nat) (x : Core_) : (s.setCore c x).rinvs = s.rinvs := rfl
@[simp] theorem State.setCore_dcache (c : Nat) (x : Core_) : (s.setCore c x).dcache = s.dcache := rfl
@[simp] theorem State.setCore_colls (c : Nat) (x : Core_) : (s.setCore c x).colls = s.colls := rfl
@[simp] theorem State.setCore_heldToks (c : Nat) (x : Core_) : (s.setCore c x).heldToks = s.heldToks := rfl
@[simp] theorem State.setCore_led (c : Nat) (x : Core_) : (s.setCore c x).led = s.led := rfl
@[simp] theorem State.setCore_rcPast (c : Nat) (x : Core_) : (s.setCore c x).rcPast = s.rcPast := rfl
@[simp] theorem State.setCore_ringWait (c : Nat) (x : Core_) : (s.setCore c x).ringWait = s.ringWait := rfl
@[simp] theorem State.setCore_ringHops (c : Nat) (x : Core_) : (s.setCore c x).ringHops = s.ringHops := rfl
@[simp] theorem State.setCore_cs (c : Nat) (x : Core_) : (s.setCore c x).cs = s.cs := rfl
@[simp] theorem State.setCore_vault (c : Nat) (x : Core_) : (s.setCore c x).vault = s.vault := rfl
@[simp] theorem State.setCore_router (c : Nat) (x : Core_) : (s.setCore c x).router = s.router := rfl
@[simp] theorem State.setCore_logBase (c : Nat) (x : Core_) : (s.setCore c x).logBase = s.logBase := rfl
@[simp] theorem State.setCore_logHead (c : Nat) (x : Core_) : (s.setCore c x).logHead = s.logHead := rfl
@[simp] theorem State.setCore_logCnt (c : Nat) (x : Core_) : (s.setCore c x).logCnt = s.logCnt := rfl
@[simp] theorem State.setCore_fltNs (c : Nat) (x : Core_) : (s.setCore c x).fltNs = s.fltNs := rfl
@[simp] theorem State.setCore_boot (c : Nat) (x : Core_) : (s.setCore c x).boot = s.boot := rfl
@[simp] theorem State.setCore_opt (c : Nat) (x : Core_) : (s.setCore c x).opt = s.opt := rfl
@[simp] theorem State.setCore_rst (c : Nat) (x : Core_) : (s.setCore c x).rst = s.rst := rfl
@[simp] theorem State.setCore_hrings (c : Nat) (x : Core_) : (s.setCore c x).hrings = s.hrings := rfl
@[simp] theorem State.setCore_hostp (c : Nat) (x : Core_) : (s.setCore c x).hostp = s.hostp := rfl
@[simp] theorem State.setCore_power (c : Nat) (x : Core_) : (s.setCore c x).power = s.power := rfl
@[simp] theorem State.setCore_mgtCtr (c : Nat) (x : Core_) : (s.setCore c x).mgtCtr = s.mgtCtr := rfl
@[simp] theorem State.setCore_mgtBootId (c : Nat) (x : Core_) : (s.setCore c x).mgtBootId = s.mgtBootId := rfl
@[simp] theorem State.setCore_out (c : Nat) (x : Core_) : (s.setCore c x).out = s.out := rfl
@[simp] theorem State.setCore_core_same (c : Nat) (x : Core_) : (s.setCore c x).core_ c = x := mget_mput_same _ _ _ _
theorem State.setCore_core_ne (c : Nat) (x : Core_) {q : Nat} (h : q ≠ c) : (s.setCore c x).core_ q = s.core_ q := mget_mput_ne _ _ _ h

/-! ### setUnit -/

@[simp] theorem State.setUnit_pending (u : Nat) (x : UEntry) : (s.setUnit u x).pending = s.pending := rfl
@[simp] theorem State.setUnit_fresh (u : Nat) (x : UEntry) : (s.setUnit u x).fresh = s.fresh := rfl
@[simp] theorem State.setUnit_clk (u : Nat) (x : UEntry) : (s.setUnit u x).clk = s.clk := rfl
@[simp] theorem State.setUnit_pins (u : Nat) (x : UEntry) : (s.setUnit u x).pins = s.pins := rfl
@[simp] theorem State.setUnit_regs (u : Nat) (x : UEntry) : (s.setUnit u x).regs = s.regs := rfl
@[simp] theorem State.setUnit_bitsNow (u : Nat) (x : UEntry) : (s.setUnit u x).bitsNow = s.bitsNow := rfl
@[simp] theorem State.setUnit_cntsNow (u : Nat) (x : UEntry) : (s.setUnit u x).cntsNow = s.cntsNow := rfl
@[simp] theorem State.setUnit_wasNow (u : Nat) (x : UEntry) : (s.setUnit u x).wasNow = s.wasNow := rfl
@[simp] theorem State.setUnit_loHold (u : Nat) (x : UEntry) : (s.setUnit u x).loHold = s.loHold := rfl
@[simp] theorem State.setUnit_hiLatch (u : Nat) (x : UEntry) : (s.setUnit u x).hiLatch = s.hiLatch := rfl
@[simp] theorem State.setUnit_err (u : Nat) (x : UEntry) : (s.setUnit u x).err = s.err := rfl
@[simp] theorem State.setUnit_recWas (u : Nat) (x : UEntry) : (s.setUnit u x).recWas = s.recWas := rfl
@[simp] theorem State.setUnit_errBuf (u : Nat) (x : UEntry) : (s.setUnit u x).errBuf = s.errBuf := rfl
@[simp] theorem State.setUnit_errSet (u : Nat) (x : UEntry) : (s.setUnit u x).errSet = s.errSet := rfl
@[simp] theorem State.setUnit_errSeq (u : Nat) (x : UEntry) : (s.setUnit u x).errSeq = s.errSeq := rfl
@[simp] theorem State.setUnit_srst (u : Nat) (x : UEntry) : (s.setUnit u x).srst = s.srst := rfl
@[simp] theorem State.setUnit_mem (u : Nat) (x : UEntry) : (s.setUnit u x).mem = s.mem := rfl
@[simp] theorem State.setUnit_tb (u : Nat) (x : UEntry) : (s.setUnit u x).tb = s.tb := rfl
@[simp] theorem State.setUnit_arcs (u : Nat) (x : UEntry) : (s.setUnit u x).arcs = s.arcs := rfl
@[simp] theorem State.setUnit_copies (u : Nat) (x : UEntry) : (s.setUnit u x).copies = s.copies := rfl
@[simp] theorem State.setUnit_tiles (u : Nat) (x : UEntry) : (s.setUnit u x).tiles = s.tiles := rfl
@[simp] theorem State.setUnit_parts (u : Nat) (x : UEntry) : (s.setUnit u x).parts = s.parts := rfl
@[simp] theorem State.setUnit_hist (u : Nat) (x : UEntry) : (s.setUnit u x).hist = s.hist := rfl
@[simp] theorem State.setUnit_ports (u : Nat) (x : UEntry) : (s.setUnit u x).ports = s.ports := rfl
@[simp] theorem State.setUnit_sets (u : Nat) (x : UEntry) : (s.setUnit u x).sets = s.sets := rfl
@[simp] theorem State.setUnit_modId (u : Nat) (x : UEntry) : (s.setUnit u x).modId = s.modId := rfl
@[simp] theorem State.setUnit_mgmtList (u : Nat) (x : UEntry) : (s.setUnit u x).mgmtList = s.mgmtList := rfl
@[simp] theorem State.setUnit_lost (u : Nat) (x : UEntry) : (s.setUnit u x).lost = s.lost := rfl
@[simp] theorem State.setUnit_inbox (u : Nat) (x : UEntry) : (s.setUnit u x).inbox = s.inbox := rfl
@[simp] theorem State.setUnit_ringCw (u : Nat) (x : UEntry) : (s.setUnit u x).ringCw = s.ringCw := rfl
@[simp] theorem State.setUnit_ringCcw (u : Nat) (x : UEntry) : (s.setUnit u x).ringCcw = s.ringCcw := rfl
@[simp] theorem State.setUnit_inRing (u : Nat) (x : UEntry) : (s.setUnit u x).inRing = s.inRing := rfl
@[simp] theorem State.setUnit_cwLock (u : Nat) (x : UEntry) : (s.setUnit u x).cwLock = s.cwLock := rfl
@[simp] theorem State.setUnit_ccwLock (u : Nat) (x : UEntry) : (s.setUnit u x).ccwLock = s.ccwLock := rfl
@[simp] theorem State.setUnit_ctxs (u : Nat) (x : UEntry) : (s.setUnit u x).ctxs = s.ctxs := rfl
@[simp] theorem State.setUnit_ctxCache (u : Nat) (x : UEntry) : (s.setUnit u x).ctxCache = s.ctxCache := rfl
@[simp] theorem State.setUnit_arrNow (u : Nat) (x : UEntry) : (s.setUnit u x).arrNow = s.arrNow := rfl
@[simp] theorem State.setUnit_ctxBase (u : Nat) (x : UEntry) : (s.setUnit u x).ctxBase = s.ctxBase := rfl
@[simp] theorem State.setUnit_rplBase (u : Nat) (x : UEntry) : (s.setUnit u x).rplBase = s.rplBase := rfl
@[simp] theorem State.setUnit_replay (u : Nat) (x : UEntry) : (s.setUnit u x).replay = s.replay := rfl
@[simp] theorem State.setUnit_wins (u : Nat) (x : UEntry) : (s.setUnit u x).wins = s.wins := rfl
@[simp] theorem State.setUnit_apts (u : Nat) (x : UEntry) : (s.setUnit u x).apts = s.apts := rfl
@[simp] theorem State.setUnit_jobs (u : Nat) (x : UEntry) : (s.setUnit u x).jobs = s.jobs := rfl
@[simp] theorem State.setUnit_mjob (u : Nat) (x : UEntry) : (s.setUnit u x).mjob = s.mjob := rfl
@[simp] theorem State.setUnit_outst (u : Nat) (x : UEntry) : (s.setUnit u x).outst = s.outst := rfl
@[simp] theorem State.setUnit_nextRid (u : Nat) (x : UEntry) : (s.setUnit u x).nextRid = s.nextRid := rfl
@[simp] theorem State.setUnit_nextOrd (u : Nat) (x : UEntry) : (s.setUnit u x).nextOrd = s.nextOrd := rfl
@[simp] theorem State.setUnit_rlc (u : Nat) (x : UEntry) : (s.setUnit u x).rlc = s.rlc := rfl
@[simp] theorem State.setUnit_rinvs (u : Nat) (x : UEntry) : (s.setUnit u x).rinvs = s.rinvs := rfl
@[simp] theorem State.setUnit_dcache (u : Nat) (x : UEntry) : (s.setUnit u x).dcache = s.dcache := rfl
@[simp] theorem State.setUnit_colls (u : Nat) (x : UEntry) : (s.setUnit u x).colls = s.colls := rfl
@[simp] theorem State.setUnit_heldToks (u : Nat) (x : UEntry) : (s.setUnit u x).heldToks = s.heldToks := rfl
@[simp] theorem State.setUnit_led (u : Nat) (x : UEntry) : (s.setUnit u x).led = s.led := rfl
@[simp] theorem State.setUnit_rcPast (u : Nat) (x : UEntry) : (s.setUnit u x).rcPast = s.rcPast := rfl
@[simp] theorem State.setUnit_ringWait (u : Nat) (x : UEntry) : (s.setUnit u x).ringWait = s.ringWait := rfl
@[simp] theorem State.setUnit_ringHops (u : Nat) (x : UEntry) : (s.setUnit u x).ringHops = s.ringHops := rfl
@[simp] theorem State.setUnit_cs (u : Nat) (x : UEntry) : (s.setUnit u x).cs = s.cs := rfl
@[simp] theorem State.setUnit_vault (u : Nat) (x : UEntry) : (s.setUnit u x).vault = s.vault := rfl
@[simp] theorem State.setUnit_router (u : Nat) (x : UEntry) : (s.setUnit u x).router = s.router := rfl
@[simp] theorem State.setUnit_logBase (u : Nat) (x : UEntry) : (s.setUnit u x).logBase = s.logBase := rfl
@[simp] theorem State.setUnit_logHead (u : Nat) (x : UEntry) : (s.setUnit u x).logHead = s.logHead := rfl
@[simp] theorem State.setUnit_logCnt (u : Nat) (x : UEntry) : (s.setUnit u x).logCnt = s.logCnt := rfl
@[simp] theorem State.setUnit_fltNs (u : Nat) (x : UEntry) : (s.setUnit u x).fltNs = s.fltNs := rfl
@[simp] theorem State.setUnit_boot (u : Nat) (x : UEntry) : (s.setUnit u x).boot = s.boot := rfl
@[simp] theorem State.setUnit_opt (u : Nat) (x : UEntry) : (s.setUnit u x).opt = s.opt := rfl
@[simp] theorem State.setUnit_rst (u : Nat) (x : UEntry) : (s.setUnit u x).rst = s.rst := rfl
@[simp] theorem State.setUnit_cores (u : Nat) (x : UEntry) : (s.setUnit u x).cores = s.cores := rfl
@[simp] theorem State.setUnit_hrings (u : Nat) (x : UEntry) : (s.setUnit u x).hrings = s.hrings := rfl
@[simp] theorem State.setUnit_hostp (u : Nat) (x : UEntry) : (s.setUnit u x).hostp = s.hostp := rfl
@[simp] theorem State.setUnit_power (u : Nat) (x : UEntry) : (s.setUnit u x).power = s.power := rfl
@[simp] theorem State.setUnit_mgtCtr (u : Nat) (x : UEntry) : (s.setUnit u x).mgtCtr = s.mgtCtr := rfl
@[simp] theorem State.setUnit_mgtBootId (u : Nat) (x : UEntry) : (s.setUnit u x).mgtBootId = s.mgtBootId := rfl
@[simp] theorem State.setUnit_out (u : Nat) (x : UEntry) : (s.setUnit u x).out = s.out := rfl
@[simp] theorem State.setUnit_unit_same (u : Nat) (x : UEntry) : (s.setUnit u x).unit u = x := mget_mput_same _ _ _ _
theorem State.setUnit_unit_ne (u : Nat) (x : UEntry) {q : Nat} (h : q ≠ u) : (s.setUnit u x).unit q = s.unit q := mget_mput_ne _ _ _ h

/-! ### setCtx -/

@[simp] theorem State.setCtx_pending (c : Nat) (x : Ctx) : (s.setCtx c x).pending = s.pending := rfl
@[simp] theorem State.setCtx_fresh (c : Nat) (x : Ctx) : (s.setCtx c x).fresh = s.fresh := rfl
@[simp] theorem State.setCtx_clk (c : Nat) (x : Ctx) : (s.setCtx c x).clk = s.clk := rfl
@[simp] theorem State.setCtx_pins (c : Nat) (x : Ctx) : (s.setCtx c x).pins = s.pins := rfl
@[simp] theorem State.setCtx_regs (c : Nat) (x : Ctx) : (s.setCtx c x).regs = s.regs := rfl
@[simp] theorem State.setCtx_bitsNow (c : Nat) (x : Ctx) : (s.setCtx c x).bitsNow = s.bitsNow := rfl
@[simp] theorem State.setCtx_cntsNow (c : Nat) (x : Ctx) : (s.setCtx c x).cntsNow = s.cntsNow := rfl
@[simp] theorem State.setCtx_wasNow (c : Nat) (x : Ctx) : (s.setCtx c x).wasNow = s.wasNow := rfl
@[simp] theorem State.setCtx_loHold (c : Nat) (x : Ctx) : (s.setCtx c x).loHold = s.loHold := rfl
@[simp] theorem State.setCtx_hiLatch (c : Nat) (x : Ctx) : (s.setCtx c x).hiLatch = s.hiLatch := rfl
@[simp] theorem State.setCtx_err (c : Nat) (x : Ctx) : (s.setCtx c x).err = s.err := rfl
@[simp] theorem State.setCtx_recWas (c : Nat) (x : Ctx) : (s.setCtx c x).recWas = s.recWas := rfl
@[simp] theorem State.setCtx_errBuf (c : Nat) (x : Ctx) : (s.setCtx c x).errBuf = s.errBuf := rfl
@[simp] theorem State.setCtx_errSet (c : Nat) (x : Ctx) : (s.setCtx c x).errSet = s.errSet := rfl
@[simp] theorem State.setCtx_errSeq (c : Nat) (x : Ctx) : (s.setCtx c x).errSeq = s.errSeq := rfl
@[simp] theorem State.setCtx_srst (c : Nat) (x : Ctx) : (s.setCtx c x).srst = s.srst := rfl
@[simp] theorem State.setCtx_mem (c : Nat) (x : Ctx) : (s.setCtx c x).mem = s.mem := rfl
@[simp] theorem State.setCtx_tb (c : Nat) (x : Ctx) : (s.setCtx c x).tb = s.tb := rfl
@[simp] theorem State.setCtx_arcs (c : Nat) (x : Ctx) : (s.setCtx c x).arcs = s.arcs := rfl
@[simp] theorem State.setCtx_copies (c : Nat) (x : Ctx) : (s.setCtx c x).copies = s.copies := rfl
@[simp] theorem State.setCtx_tiles (c : Nat) (x : Ctx) : (s.setCtx c x).tiles = s.tiles := rfl
@[simp] theorem State.setCtx_parts (c : Nat) (x : Ctx) : (s.setCtx c x).parts = s.parts := rfl
@[simp] theorem State.setCtx_ust (c : Nat) (x : Ctx) : (s.setCtx c x).ust = s.ust := rfl
@[simp] theorem State.setCtx_hist (c : Nat) (x : Ctx) : (s.setCtx c x).hist = s.hist := rfl
@[simp] theorem State.setCtx_ports (c : Nat) (x : Ctx) : (s.setCtx c x).ports = s.ports := rfl
@[simp] theorem State.setCtx_sets (c : Nat) (x : Ctx) : (s.setCtx c x).sets = s.sets := rfl
@[simp] theorem State.setCtx_modId (c : Nat) (x : Ctx) : (s.setCtx c x).modId = s.modId := rfl
@[simp] theorem State.setCtx_mgmtList (c : Nat) (x : Ctx) : (s.setCtx c x).mgmtList = s.mgmtList := rfl
@[simp] theorem State.setCtx_lost (c : Nat) (x : Ctx) : (s.setCtx c x).lost = s.lost := rfl
@[simp] theorem State.setCtx_inbox (c : Nat) (x : Ctx) : (s.setCtx c x).inbox = s.inbox := rfl
@[simp] theorem State.setCtx_ringCw (c : Nat) (x : Ctx) : (s.setCtx c x).ringCw = s.ringCw := rfl
@[simp] theorem State.setCtx_ringCcw (c : Nat) (x : Ctx) : (s.setCtx c x).ringCcw = s.ringCcw := rfl
@[simp] theorem State.setCtx_inRing (c : Nat) (x : Ctx) : (s.setCtx c x).inRing = s.inRing := rfl
@[simp] theorem State.setCtx_cwLock (c : Nat) (x : Ctx) : (s.setCtx c x).cwLock = s.cwLock := rfl
@[simp] theorem State.setCtx_ccwLock (c : Nat) (x : Ctx) : (s.setCtx c x).ccwLock = s.ccwLock := rfl
@[simp] theorem State.setCtx_ctxCache (c : Nat) (x : Ctx) : (s.setCtx c x).ctxCache = s.ctxCache := rfl
@[simp] theorem State.setCtx_arrNow (c : Nat) (x : Ctx) : (s.setCtx c x).arrNow = s.arrNow := rfl
@[simp] theorem State.setCtx_ctxBase (c : Nat) (x : Ctx) : (s.setCtx c x).ctxBase = s.ctxBase := rfl
@[simp] theorem State.setCtx_rplBase (c : Nat) (x : Ctx) : (s.setCtx c x).rplBase = s.rplBase := rfl
@[simp] theorem State.setCtx_replay (c : Nat) (x : Ctx) : (s.setCtx c x).replay = s.replay := rfl
@[simp] theorem State.setCtx_wins (c : Nat) (x : Ctx) : (s.setCtx c x).wins = s.wins := rfl
@[simp] theorem State.setCtx_apts (c : Nat) (x : Ctx) : (s.setCtx c x).apts = s.apts := rfl
@[simp] theorem State.setCtx_jobs (c : Nat) (x : Ctx) : (s.setCtx c x).jobs = s.jobs := rfl
@[simp] theorem State.setCtx_mjob (c : Nat) (x : Ctx) : (s.setCtx c x).mjob = s.mjob := rfl
@[simp] theorem State.setCtx_outst (c : Nat) (x : Ctx) : (s.setCtx c x).outst = s.outst := rfl
@[simp] theorem State.setCtx_nextRid (c : Nat) (x : Ctx) : (s.setCtx c x).nextRid = s.nextRid := rfl
@[simp] theorem State.setCtx_nextOrd (c : Nat) (x : Ctx) : (s.setCtx c x).nextOrd = s.nextOrd := rfl
@[simp] theorem State.setCtx_rlc (c : Nat) (x : Ctx) : (s.setCtx c x).rlc = s.rlc := rfl
@[simp] theorem State.setCtx_rinvs (c : Nat) (x : Ctx) : (s.setCtx c x).rinvs = s.rinvs := rfl
@[simp] theorem State.setCtx_dcache (c : Nat) (x : Ctx) : (s.setCtx c x).dcache = s.dcache := rfl
@[simp] theorem State.setCtx_colls (c : Nat) (x : Ctx) : (s.setCtx c x).colls = s.colls := rfl
@[simp] theorem State.setCtx_heldToks (c : Nat) (x : Ctx) : (s.setCtx c x).heldToks = s.heldToks := rfl
@[simp] theorem State.setCtx_led (c : Nat) (x : Ctx) : (s.setCtx c x).led = s.led := rfl
@[simp] theorem State.setCtx_rcPast (c : Nat) (x : Ctx) : (s.setCtx c x).rcPast = s.rcPast := rfl
@[simp] theorem State.setCtx_ringWait (c : Nat) (x : Ctx) : (s.setCtx c x).ringWait = s.ringWait := rfl
@[simp] theorem State.setCtx_ringHops (c : Nat) (x : Ctx) : (s.setCtx c x).ringHops = s.ringHops := rfl
@[simp] theorem State.setCtx_cs (c : Nat) (x : Ctx) : (s.setCtx c x).cs = s.cs := rfl
@[simp] theorem State.setCtx_vault (c : Nat) (x : Ctx) : (s.setCtx c x).vault = s.vault := rfl
@[simp] theorem State.setCtx_router (c : Nat) (x : Ctx) : (s.setCtx c x).router = s.router := rfl
@[simp] theorem State.setCtx_logBase (c : Nat) (x : Ctx) : (s.setCtx c x).logBase = s.logBase := rfl
@[simp] theorem State.setCtx_logHead (c : Nat) (x : Ctx) : (s.setCtx c x).logHead = s.logHead := rfl
@[simp] theorem State.setCtx_logCnt (c : Nat) (x : Ctx) : (s.setCtx c x).logCnt = s.logCnt := rfl
@[simp] theorem State.setCtx_fltNs (c : Nat) (x : Ctx) : (s.setCtx c x).fltNs = s.fltNs := rfl
@[simp] theorem State.setCtx_boot (c : Nat) (x : Ctx) : (s.setCtx c x).boot = s.boot := rfl
@[simp] theorem State.setCtx_opt (c : Nat) (x : Ctx) : (s.setCtx c x).opt = s.opt := rfl
@[simp] theorem State.setCtx_rst (c : Nat) (x : Ctx) : (s.setCtx c x).rst = s.rst := rfl
@[simp] theorem State.setCtx_cores (c : Nat) (x : Ctx) : (s.setCtx c x).cores = s.cores := rfl
@[simp] theorem State.setCtx_hrings (c : Nat) (x : Ctx) : (s.setCtx c x).hrings = s.hrings := rfl
@[simp] theorem State.setCtx_hostp (c : Nat) (x : Ctx) : (s.setCtx c x).hostp = s.hostp := rfl
@[simp] theorem State.setCtx_power (c : Nat) (x : Ctx) : (s.setCtx c x).power = s.power := rfl
@[simp] theorem State.setCtx_mgtCtr (c : Nat) (x : Ctx) : (s.setCtx c x).mgtCtr = s.mgtCtr := rfl
@[simp] theorem State.setCtx_mgtBootId (c : Nat) (x : Ctx) : (s.setCtx c x).mgtBootId = s.mgtBootId := rfl
@[simp] theorem State.setCtx_out (c : Nat) (x : Ctx) : (s.setCtx c x).out = s.out := rfl
@[simp] theorem State.setCtx_ctx_same (c : Nat) (x : Ctx) : (s.setCtx c x).ctx c = x := mget_mput_same _ _ _ _
theorem State.setCtx_ctx_ne (c : Nat) (x : Ctx) {q : Nat} (h : q ≠ c) : (s.setCtx c x).ctx q = s.ctx q := mget_mput_ne _ _ _ h

/-! ### setHring -/

@[simp] theorem State.setHring_pending (r : Nat) (x : HRing) : (s.setHring r x).pending = s.pending := rfl
@[simp] theorem State.setHring_fresh (r : Nat) (x : HRing) : (s.setHring r x).fresh = s.fresh := rfl
@[simp] theorem State.setHring_clk (r : Nat) (x : HRing) : (s.setHring r x).clk = s.clk := rfl
@[simp] theorem State.setHring_pins (r : Nat) (x : HRing) : (s.setHring r x).pins = s.pins := rfl
@[simp] theorem State.setHring_regs (r : Nat) (x : HRing) : (s.setHring r x).regs = s.regs := rfl
@[simp] theorem State.setHring_bitsNow (r : Nat) (x : HRing) : (s.setHring r x).bitsNow = s.bitsNow := rfl
@[simp] theorem State.setHring_cntsNow (r : Nat) (x : HRing) : (s.setHring r x).cntsNow = s.cntsNow := rfl
@[simp] theorem State.setHring_wasNow (r : Nat) (x : HRing) : (s.setHring r x).wasNow = s.wasNow := rfl
@[simp] theorem State.setHring_loHold (r : Nat) (x : HRing) : (s.setHring r x).loHold = s.loHold := rfl
@[simp] theorem State.setHring_hiLatch (r : Nat) (x : HRing) : (s.setHring r x).hiLatch = s.hiLatch := rfl
@[simp] theorem State.setHring_err (r : Nat) (x : HRing) : (s.setHring r x).err = s.err := rfl
@[simp] theorem State.setHring_recWas (r : Nat) (x : HRing) : (s.setHring r x).recWas = s.recWas := rfl
@[simp] theorem State.setHring_errBuf (r : Nat) (x : HRing) : (s.setHring r x).errBuf = s.errBuf := rfl
@[simp] theorem State.setHring_errSet (r : Nat) (x : HRing) : (s.setHring r x).errSet = s.errSet := rfl
@[simp] theorem State.setHring_errSeq (r : Nat) (x : HRing) : (s.setHring r x).errSeq = s.errSeq := rfl
@[simp] theorem State.setHring_srst (r : Nat) (x : HRing) : (s.setHring r x).srst = s.srst := rfl
@[simp] theorem State.setHring_mem (r : Nat) (x : HRing) : (s.setHring r x).mem = s.mem := rfl
@[simp] theorem State.setHring_tb (r : Nat) (x : HRing) : (s.setHring r x).tb = s.tb := rfl
@[simp] theorem State.setHring_arcs (r : Nat) (x : HRing) : (s.setHring r x).arcs = s.arcs := rfl
@[simp] theorem State.setHring_copies (r : Nat) (x : HRing) : (s.setHring r x).copies = s.copies := rfl
@[simp] theorem State.setHring_tiles (r : Nat) (x : HRing) : (s.setHring r x).tiles = s.tiles := rfl
@[simp] theorem State.setHring_parts (r : Nat) (x : HRing) : (s.setHring r x).parts = s.parts := rfl
@[simp] theorem State.setHring_ust (r : Nat) (x : HRing) : (s.setHring r x).ust = s.ust := rfl
@[simp] theorem State.setHring_hist (r : Nat) (x : HRing) : (s.setHring r x).hist = s.hist := rfl
@[simp] theorem State.setHring_ports (r : Nat) (x : HRing) : (s.setHring r x).ports = s.ports := rfl
@[simp] theorem State.setHring_sets (r : Nat) (x : HRing) : (s.setHring r x).sets = s.sets := rfl
@[simp] theorem State.setHring_modId (r : Nat) (x : HRing) : (s.setHring r x).modId = s.modId := rfl
@[simp] theorem State.setHring_mgmtList (r : Nat) (x : HRing) : (s.setHring r x).mgmtList = s.mgmtList := rfl
@[simp] theorem State.setHring_lost (r : Nat) (x : HRing) : (s.setHring r x).lost = s.lost := rfl
@[simp] theorem State.setHring_inbox (r : Nat) (x : HRing) : (s.setHring r x).inbox = s.inbox := rfl
@[simp] theorem State.setHring_ringCw (r : Nat) (x : HRing) : (s.setHring r x).ringCw = s.ringCw := rfl
@[simp] theorem State.setHring_ringCcw (r : Nat) (x : HRing) : (s.setHring r x).ringCcw = s.ringCcw := rfl
@[simp] theorem State.setHring_inRing (r : Nat) (x : HRing) : (s.setHring r x).inRing = s.inRing := rfl
@[simp] theorem State.setHring_cwLock (r : Nat) (x : HRing) : (s.setHring r x).cwLock = s.cwLock := rfl
@[simp] theorem State.setHring_ccwLock (r : Nat) (x : HRing) : (s.setHring r x).ccwLock = s.ccwLock := rfl
@[simp] theorem State.setHring_ctxs (r : Nat) (x : HRing) : (s.setHring r x).ctxs = s.ctxs := rfl
@[simp] theorem State.setHring_ctxCache (r : Nat) (x : HRing) : (s.setHring r x).ctxCache = s.ctxCache := rfl
@[simp] theorem State.setHring_arrNow (r : Nat) (x : HRing) : (s.setHring r x).arrNow = s.arrNow := rfl
@[simp] theorem State.setHring_ctxBase (r : Nat) (x : HRing) : (s.setHring r x).ctxBase = s.ctxBase := rfl
@[simp] theorem State.setHring_rplBase (r : Nat) (x : HRing) : (s.setHring r x).rplBase = s.rplBase := rfl
@[simp] theorem State.setHring_replay (r : Nat) (x : HRing) : (s.setHring r x).replay = s.replay := rfl
@[simp] theorem State.setHring_wins (r : Nat) (x : HRing) : (s.setHring r x).wins = s.wins := rfl
@[simp] theorem State.setHring_apts (r : Nat) (x : HRing) : (s.setHring r x).apts = s.apts := rfl
@[simp] theorem State.setHring_jobs (r : Nat) (x : HRing) : (s.setHring r x).jobs = s.jobs := rfl
@[simp] theorem State.setHring_mjob (r : Nat) (x : HRing) : (s.setHring r x).mjob = s.mjob := rfl
@[simp] theorem State.setHring_outst (r : Nat) (x : HRing) : (s.setHring r x).outst = s.outst := rfl
@[simp] theorem State.setHring_nextRid (r : Nat) (x : HRing) : (s.setHring r x).nextRid = s.nextRid := rfl
@[simp] theorem State.setHring_nextOrd (r : Nat) (x : HRing) : (s.setHring r x).nextOrd = s.nextOrd := rfl
@[simp] theorem State.setHring_rlc (r : Nat) (x : HRing) : (s.setHring r x).rlc = s.rlc := rfl
@[simp] theorem State.setHring_rinvs (r : Nat) (x : HRing) : (s.setHring r x).rinvs = s.rinvs := rfl
@[simp] theorem State.setHring_dcache (r : Nat) (x : HRing) : (s.setHring r x).dcache = s.dcache := rfl
@[simp] theorem State.setHring_colls (r : Nat) (x : HRing) : (s.setHring r x).colls = s.colls := rfl
@[simp] theorem State.setHring_heldToks (r : Nat) (x : HRing) : (s.setHring r x).heldToks = s.heldToks := rfl
@[simp] theorem State.setHring_led (r : Nat) (x : HRing) : (s.setHring r x).led = s.led := rfl
@[simp] theorem State.setHring_rcPast (r : Nat) (x : HRing) : (s.setHring r x).rcPast = s.rcPast := rfl
@[simp] theorem State.setHring_ringWait (r : Nat) (x : HRing) : (s.setHring r x).ringWait = s.ringWait := rfl
@[simp] theorem State.setHring_ringHops (r : Nat) (x : HRing) : (s.setHring r x).ringHops = s.ringHops := rfl
@[simp] theorem State.setHring_cs (r : Nat) (x : HRing) : (s.setHring r x).cs = s.cs := rfl
@[simp] theorem State.setHring_vault (r : Nat) (x : HRing) : (s.setHring r x).vault = s.vault := rfl
@[simp] theorem State.setHring_router (r : Nat) (x : HRing) : (s.setHring r x).router = s.router := rfl
@[simp] theorem State.setHring_logBase (r : Nat) (x : HRing) : (s.setHring r x).logBase = s.logBase := rfl
@[simp] theorem State.setHring_logHead (r : Nat) (x : HRing) : (s.setHring r x).logHead = s.logHead := rfl
@[simp] theorem State.setHring_logCnt (r : Nat) (x : HRing) : (s.setHring r x).logCnt = s.logCnt := rfl
@[simp] theorem State.setHring_fltNs (r : Nat) (x : HRing) : (s.setHring r x).fltNs = s.fltNs := rfl
@[simp] theorem State.setHring_boot (r : Nat) (x : HRing) : (s.setHring r x).boot = s.boot := rfl
@[simp] theorem State.setHring_opt (r : Nat) (x : HRing) : (s.setHring r x).opt = s.opt := rfl
@[simp] theorem State.setHring_rst (r : Nat) (x : HRing) : (s.setHring r x).rst = s.rst := rfl
@[simp] theorem State.setHring_cores (r : Nat) (x : HRing) : (s.setHring r x).cores = s.cores := rfl
@[simp] theorem State.setHring_hostp (r : Nat) (x : HRing) : (s.setHring r x).hostp = s.hostp := rfl
@[simp] theorem State.setHring_power (r : Nat) (x : HRing) : (s.setHring r x).power = s.power := rfl
@[simp] theorem State.setHring_mgtCtr (r : Nat) (x : HRing) : (s.setHring r x).mgtCtr = s.mgtCtr := rfl
@[simp] theorem State.setHring_mgtBootId (r : Nat) (x : HRing) : (s.setHring r x).mgtBootId = s.mgtBootId := rfl
@[simp] theorem State.setHring_out (r : Nat) (x : HRing) : (s.setHring r x).out = s.out := rfl
@[simp] theorem State.setHring_hring_same (r : Nat) (x : HRing) : (s.setHring r x).hring r = x := mget_mput_same _ _ _ _
theorem State.setHring_hring_ne (r : Nat) (x : HRing) {q : Nat} (h : q ≠ r) : (s.setHring r x).hring q = s.hring q := mget_mput_ne _ _ _ h

/-! ### setRset -/

@[simp] theorem State.setRset_pending (k : Nat) (x : RouteSet) : (s.setRset k x).pending = s.pending := rfl
@[simp] theorem State.setRset_fresh (k : Nat) (x : RouteSet) : (s.setRset k x).fresh = s.fresh := rfl
@[simp] theorem State.setRset_clk (k : Nat) (x : RouteSet) : (s.setRset k x).clk = s.clk := rfl
@[simp] theorem State.setRset_pins (k : Nat) (x : RouteSet) : (s.setRset k x).pins = s.pins := rfl
@[simp] theorem State.setRset_regs (k : Nat) (x : RouteSet) : (s.setRset k x).regs = s.regs := rfl
@[simp] theorem State.setRset_bitsNow (k : Nat) (x : RouteSet) : (s.setRset k x).bitsNow = s.bitsNow := rfl
@[simp] theorem State.setRset_cntsNow (k : Nat) (x : RouteSet) : (s.setRset k x).cntsNow = s.cntsNow := rfl
@[simp] theorem State.setRset_wasNow (k : Nat) (x : RouteSet) : (s.setRset k x).wasNow = s.wasNow := rfl
@[simp] theorem State.setRset_loHold (k : Nat) (x : RouteSet) : (s.setRset k x).loHold = s.loHold := rfl
@[simp] theorem State.setRset_hiLatch (k : Nat) (x : RouteSet) : (s.setRset k x).hiLatch = s.hiLatch := rfl
@[simp] theorem State.setRset_err (k : Nat) (x : RouteSet) : (s.setRset k x).err = s.err := rfl
@[simp] theorem State.setRset_recWas (k : Nat) (x : RouteSet) : (s.setRset k x).recWas = s.recWas := rfl
@[simp] theorem State.setRset_errBuf (k : Nat) (x : RouteSet) : (s.setRset k x).errBuf = s.errBuf := rfl
@[simp] theorem State.setRset_errSet (k : Nat) (x : RouteSet) : (s.setRset k x).errSet = s.errSet := rfl
@[simp] theorem State.setRset_errSeq (k : Nat) (x : RouteSet) : (s.setRset k x).errSeq = s.errSeq := rfl
@[simp] theorem State.setRset_srst (k : Nat) (x : RouteSet) : (s.setRset k x).srst = s.srst := rfl
@[simp] theorem State.setRset_mem (k : Nat) (x : RouteSet) : (s.setRset k x).mem = s.mem := rfl
@[simp] theorem State.setRset_tb (k : Nat) (x : RouteSet) : (s.setRset k x).tb = s.tb := rfl
@[simp] theorem State.setRset_arcs (k : Nat) (x : RouteSet) : (s.setRset k x).arcs = s.arcs := rfl
@[simp] theorem State.setRset_copies (k : Nat) (x : RouteSet) : (s.setRset k x).copies = s.copies := rfl
@[simp] theorem State.setRset_tiles (k : Nat) (x : RouteSet) : (s.setRset k x).tiles = s.tiles := rfl
@[simp] theorem State.setRset_parts (k : Nat) (x : RouteSet) : (s.setRset k x).parts = s.parts := rfl
@[simp] theorem State.setRset_ust (k : Nat) (x : RouteSet) : (s.setRset k x).ust = s.ust := rfl
@[simp] theorem State.setRset_hist (k : Nat) (x : RouteSet) : (s.setRset k x).hist = s.hist := rfl
@[simp] theorem State.setRset_ports (k : Nat) (x : RouteSet) : (s.setRset k x).ports = s.ports := rfl
@[simp] theorem State.setRset_modId (k : Nat) (x : RouteSet) : (s.setRset k x).modId = s.modId := rfl
@[simp] theorem State.setRset_mgmtList (k : Nat) (x : RouteSet) : (s.setRset k x).mgmtList = s.mgmtList := rfl
@[simp] theorem State.setRset_lost (k : Nat) (x : RouteSet) : (s.setRset k x).lost = s.lost := rfl
@[simp] theorem State.setRset_inbox (k : Nat) (x : RouteSet) : (s.setRset k x).inbox = s.inbox := rfl
@[simp] theorem State.setRset_ringCw (k : Nat) (x : RouteSet) : (s.setRset k x).ringCw = s.ringCw := rfl
@[simp] theorem State.setRset_ringCcw (k : Nat) (x : RouteSet) : (s.setRset k x).ringCcw = s.ringCcw := rfl
@[simp] theorem State.setRset_inRing (k : Nat) (x : RouteSet) : (s.setRset k x).inRing = s.inRing := rfl
@[simp] theorem State.setRset_cwLock (k : Nat) (x : RouteSet) : (s.setRset k x).cwLock = s.cwLock := rfl
@[simp] theorem State.setRset_ccwLock (k : Nat) (x : RouteSet) : (s.setRset k x).ccwLock = s.ccwLock := rfl
@[simp] theorem State.setRset_ctxs (k : Nat) (x : RouteSet) : (s.setRset k x).ctxs = s.ctxs := rfl
@[simp] theorem State.setRset_ctxCache (k : Nat) (x : RouteSet) : (s.setRset k x).ctxCache = s.ctxCache := rfl
@[simp] theorem State.setRset_arrNow (k : Nat) (x : RouteSet) : (s.setRset k x).arrNow = s.arrNow := rfl
@[simp] theorem State.setRset_ctxBase (k : Nat) (x : RouteSet) : (s.setRset k x).ctxBase = s.ctxBase := rfl
@[simp] theorem State.setRset_rplBase (k : Nat) (x : RouteSet) : (s.setRset k x).rplBase = s.rplBase := rfl
@[simp] theorem State.setRset_replay (k : Nat) (x : RouteSet) : (s.setRset k x).replay = s.replay := rfl
@[simp] theorem State.setRset_wins (k : Nat) (x : RouteSet) : (s.setRset k x).wins = s.wins := rfl
@[simp] theorem State.setRset_apts (k : Nat) (x : RouteSet) : (s.setRset k x).apts = s.apts := rfl
@[simp] theorem State.setRset_jobs (k : Nat) (x : RouteSet) : (s.setRset k x).jobs = s.jobs := rfl
@[simp] theorem State.setRset_mjob (k : Nat) (x : RouteSet) : (s.setRset k x).mjob = s.mjob := rfl
@[simp] theorem State.setRset_outst (k : Nat) (x : RouteSet) : (s.setRset k x).outst = s.outst := rfl
@[simp] theorem State.setRset_nextRid (k : Nat) (x : RouteSet) : (s.setRset k x).nextRid = s.nextRid := rfl
@[simp] theorem State.setRset_nextOrd (k : Nat) (x : RouteSet) : (s.setRset k x).nextOrd = s.nextOrd := rfl
@[simp] theorem State.setRset_rlc (k : Nat) (x : RouteSet) : (s.setRset k x).rlc = s.rlc := rfl
@[simp] theorem State.setRset_rinvs (k : Nat) (x : RouteSet) : (s.setRset k x).rinvs = s.rinvs := rfl
@[simp] theorem State.setRset_dcache (k : Nat) (x : RouteSet) : (s.setRset k x).dcache = s.dcache := rfl
@[simp] theorem State.setRset_colls (k : Nat) (x : RouteSet) : (s.setRset k x).colls = s.colls := rfl
@[simp] theorem State.setRset_heldToks (k : Nat) (x : RouteSet) : (s.setRset k x).heldToks = s.heldToks := rfl
@[simp] theorem State.setRset_led (k : Nat) (x : RouteSet) : (s.setRset k x).led = s.led := rfl
@[simp] theorem State.setRset_rcPast (k : Nat) (x : RouteSet) : (s.setRset k x).rcPast = s.rcPast := rfl
@[simp] theorem State.setRset_ringWait (k : Nat) (x : RouteSet) : (s.setRset k x).ringWait = s.ringWait := rfl
@[simp] theorem State.setRset_ringHops (k : Nat) (x : RouteSet) : (s.setRset k x).ringHops = s.ringHops := rfl
@[simp] theorem State.setRset_cs (k : Nat) (x : RouteSet) : (s.setRset k x).cs = s.cs := rfl
@[simp] theorem State.setRset_vault (k : Nat) (x : RouteSet) : (s.setRset k x).vault = s.vault := rfl
@[simp] theorem State.setRset_router (k : Nat) (x : RouteSet) : (s.setRset k x).router = s.router := rfl
@[simp] theorem State.setRset_logBase (k : Nat) (x : RouteSet) : (s.setRset k x).logBase = s.logBase := rfl
@[simp] theorem State.setRset_logHead (k : Nat) (x : RouteSet) : (s.setRset k x).logHead = s.logHead := rfl
@[simp] theorem State.setRset_logCnt (k : Nat) (x : RouteSet) : (s.setRset k x).logCnt = s.logCnt := rfl
@[simp] theorem State.setRset_fltNs (k : Nat) (x : RouteSet) : (s.setRset k x).fltNs = s.fltNs := rfl
@[simp] theorem State.setRset_boot (k : Nat) (x : RouteSet) : (s.setRset k x).boot = s.boot := rfl
@[simp] theorem State.setRset_opt (k : Nat) (x : RouteSet) : (s.setRset k x).opt = s.opt := rfl
@[simp] theorem State.setRset_rst (k : Nat) (x : RouteSet) : (s.setRset k x).rst = s.rst := rfl
@[simp] theorem State.setRset_cores (k : Nat) (x : RouteSet) : (s.setRset k x).cores = s.cores := rfl
@[simp] theorem State.setRset_hrings (k : Nat) (x : RouteSet) : (s.setRset k x).hrings = s.hrings := rfl
@[simp] theorem State.setRset_hostp (k : Nat) (x : RouteSet) : (s.setRset k x).hostp = s.hostp := rfl
@[simp] theorem State.setRset_power (k : Nat) (x : RouteSet) : (s.setRset k x).power = s.power := rfl
@[simp] theorem State.setRset_mgtCtr (k : Nat) (x : RouteSet) : (s.setRset k x).mgtCtr = s.mgtCtr := rfl
@[simp] theorem State.setRset_mgtBootId (k : Nat) (x : RouteSet) : (s.setRset k x).mgtBootId = s.mgtBootId := rfl
@[simp] theorem State.setRset_out (k : Nat) (x : RouteSet) : (s.setRset k x).out = s.out := rfl
@[simp] theorem State.setRset_rset_same (k : Nat) (x : RouteSet) : (s.setRset k x).rset k = x := mget_mput_same _ _ _ _
theorem State.setRset_rset_ne (k : Nat) (x : RouteSet) {q : Nat} (h : q ≠ k) : (s.setRset k x).rset q = s.rset q := mget_mput_ne _ _ _ h

/-! ### setJob -/

@[simp] theorem State.setJob_pending (g : BitVec 16) (x : Job) : (s.setJob g x).pending = s.pending := rfl
@[simp] theorem State.setJob_fresh (g : BitVec 16) (x : Job) : (s.setJob g x).fresh = s.fresh := rfl
@[simp] theorem State.setJob_clk (g : BitVec 16) (x : Job) : (s.setJob g x).clk = s.clk := rfl
@[simp] theorem State.setJob_pins (g : BitVec 16) (x : Job) : (s.setJob g x).pins = s.pins := rfl
@[simp] theorem State.setJob_regs (g : BitVec 16) (x : Job) : (s.setJob g x).regs = s.regs := rfl
@[simp] theorem State.setJob_bitsNow (g : BitVec 16) (x : Job) : (s.setJob g x).bitsNow = s.bitsNow := rfl
@[simp] theorem State.setJob_cntsNow (g : BitVec 16) (x : Job) : (s.setJob g x).cntsNow = s.cntsNow := rfl
@[simp] theorem State.setJob_wasNow (g : BitVec 16) (x : Job) : (s.setJob g x).wasNow = s.wasNow := rfl
@[simp] theorem State.setJob_loHold (g : BitVec 16) (x : Job) : (s.setJob g x).loHold = s.loHold := rfl
@[simp] theorem State.setJob_hiLatch (g : BitVec 16) (x : Job) : (s.setJob g x).hiLatch = s.hiLatch := rfl
@[simp] theorem State.setJob_err (g : BitVec 16) (x : Job) : (s.setJob g x).err = s.err := rfl
@[simp] theorem State.setJob_recWas (g : BitVec 16) (x : Job) : (s.setJob g x).recWas = s.recWas := rfl
@[simp] theorem State.setJob_errBuf (g : BitVec 16) (x : Job) : (s.setJob g x).errBuf = s.errBuf := rfl
@[simp] theorem State.setJob_errSet (g : BitVec 16) (x : Job) : (s.setJob g x).errSet = s.errSet := rfl
@[simp] theorem State.setJob_errSeq (g : BitVec 16) (x : Job) : (s.setJob g x).errSeq = s.errSeq := rfl
@[simp] theorem State.setJob_srst (g : BitVec 16) (x : Job) : (s.setJob g x).srst = s.srst := rfl
@[simp] theorem State.setJob_mem (g : BitVec 16) (x : Job) : (s.setJob g x).mem = s.mem := rfl
@[simp] theorem State.setJob_tb (g : BitVec 16) (x : Job) : (s.setJob g x).tb = s.tb := rfl
@[simp] theorem State.setJob_arcs (g : BitVec 16) (x : Job) : (s.setJob g x).arcs = s.arcs := rfl
@[simp] theorem State.setJob_copies (g : BitVec 16) (x : Job) : (s.setJob g x).copies = s.copies := rfl
@[simp] theorem State.setJob_tiles (g : BitVec 16) (x : Job) : (s.setJob g x).tiles = s.tiles := rfl
@[simp] theorem State.setJob_parts (g : BitVec 16) (x : Job) : (s.setJob g x).parts = s.parts := rfl
@[simp] theorem State.setJob_ust (g : BitVec 16) (x : Job) : (s.setJob g x).ust = s.ust := rfl
@[simp] theorem State.setJob_hist (g : BitVec 16) (x : Job) : (s.setJob g x).hist = s.hist := rfl
@[simp] theorem State.setJob_ports (g : BitVec 16) (x : Job) : (s.setJob g x).ports = s.ports := rfl
@[simp] theorem State.setJob_sets (g : BitVec 16) (x : Job) : (s.setJob g x).sets = s.sets := rfl
@[simp] theorem State.setJob_modId (g : BitVec 16) (x : Job) : (s.setJob g x).modId = s.modId := rfl
@[simp] theorem State.setJob_mgmtList (g : BitVec 16) (x : Job) : (s.setJob g x).mgmtList = s.mgmtList := rfl
@[simp] theorem State.setJob_lost (g : BitVec 16) (x : Job) : (s.setJob g x).lost = s.lost := rfl
@[simp] theorem State.setJob_inbox (g : BitVec 16) (x : Job) : (s.setJob g x).inbox = s.inbox := rfl
@[simp] theorem State.setJob_ringCw (g : BitVec 16) (x : Job) : (s.setJob g x).ringCw = s.ringCw := rfl
@[simp] theorem State.setJob_ringCcw (g : BitVec 16) (x : Job) : (s.setJob g x).ringCcw = s.ringCcw := rfl
@[simp] theorem State.setJob_inRing (g : BitVec 16) (x : Job) : (s.setJob g x).inRing = s.inRing := rfl
@[simp] theorem State.setJob_cwLock (g : BitVec 16) (x : Job) : (s.setJob g x).cwLock = s.cwLock := rfl
@[simp] theorem State.setJob_ccwLock (g : BitVec 16) (x : Job) : (s.setJob g x).ccwLock = s.ccwLock := rfl
@[simp] theorem State.setJob_ctxs (g : BitVec 16) (x : Job) : (s.setJob g x).ctxs = s.ctxs := rfl
@[simp] theorem State.setJob_ctxCache (g : BitVec 16) (x : Job) : (s.setJob g x).ctxCache = s.ctxCache := rfl
@[simp] theorem State.setJob_arrNow (g : BitVec 16) (x : Job) : (s.setJob g x).arrNow = s.arrNow := rfl
@[simp] theorem State.setJob_ctxBase (g : BitVec 16) (x : Job) : (s.setJob g x).ctxBase = s.ctxBase := rfl
@[simp] theorem State.setJob_rplBase (g : BitVec 16) (x : Job) : (s.setJob g x).rplBase = s.rplBase := rfl
@[simp] theorem State.setJob_replay (g : BitVec 16) (x : Job) : (s.setJob g x).replay = s.replay := rfl
@[simp] theorem State.setJob_wins (g : BitVec 16) (x : Job) : (s.setJob g x).wins = s.wins := rfl
@[simp] theorem State.setJob_apts (g : BitVec 16) (x : Job) : (s.setJob g x).apts = s.apts := rfl
@[simp] theorem State.setJob_mjob (g : BitVec 16) (x : Job) : (s.setJob g x).mjob = s.mjob := rfl
@[simp] theorem State.setJob_outst (g : BitVec 16) (x : Job) : (s.setJob g x).outst = s.outst := rfl
@[simp] theorem State.setJob_nextRid (g : BitVec 16) (x : Job) : (s.setJob g x).nextRid = s.nextRid := rfl
@[simp] theorem State.setJob_nextOrd (g : BitVec 16) (x : Job) : (s.setJob g x).nextOrd = s.nextOrd := rfl
@[simp] theorem State.setJob_rlc (g : BitVec 16) (x : Job) : (s.setJob g x).rlc = s.rlc := rfl
@[simp] theorem State.setJob_rinvs (g : BitVec 16) (x : Job) : (s.setJob g x).rinvs = s.rinvs := rfl
@[simp] theorem State.setJob_dcache (g : BitVec 16) (x : Job) : (s.setJob g x).dcache = s.dcache := rfl
@[simp] theorem State.setJob_colls (g : BitVec 16) (x : Job) : (s.setJob g x).colls = s.colls := rfl
@[simp] theorem State.setJob_heldToks (g : BitVec 16) (x : Job) : (s.setJob g x).heldToks = s.heldToks := rfl
@[simp] theorem State.setJob_led (g : BitVec 16) (x : Job) : (s.setJob g x).led = s.led := rfl
@[simp] theorem State.setJob_rcPast (g : BitVec 16) (x : Job) : (s.setJob g x).rcPast = s.rcPast := rfl
@[simp] theorem State.setJob_ringWait (g : BitVec 16) (x : Job) : (s.setJob g x).ringWait = s.ringWait := rfl
@[simp] theorem State.setJob_ringHops (g : BitVec 16) (x : Job) : (s.setJob g x).ringHops = s.ringHops := rfl
@[simp] theorem State.setJob_cs (g : BitVec 16) (x : Job) : (s.setJob g x).cs = s.cs := rfl
@[simp] theorem State.setJob_vault (g : BitVec 16) (x : Job) : (s.setJob g x).vault = s.vault := rfl
@[simp] theorem State.setJob_router (g : BitVec 16) (x : Job) : (s.setJob g x).router = s.router := rfl
@[simp] theorem State.setJob_logBase (g : BitVec 16) (x : Job) : (s.setJob g x).logBase = s.logBase := rfl
@[simp] theorem State.setJob_logHead (g : BitVec 16) (x : Job) : (s.setJob g x).logHead = s.logHead := rfl
@[simp] theorem State.setJob_logCnt (g : BitVec 16) (x : Job) : (s.setJob g x).logCnt = s.logCnt := rfl
@[simp] theorem State.setJob_fltNs (g : BitVec 16) (x : Job) : (s.setJob g x).fltNs = s.fltNs := rfl
@[simp] theorem State.setJob_boot (g : BitVec 16) (x : Job) : (s.setJob g x).boot = s.boot := rfl
@[simp] theorem State.setJob_opt (g : BitVec 16) (x : Job) : (s.setJob g x).opt = s.opt := rfl
@[simp] theorem State.setJob_rst (g : BitVec 16) (x : Job) : (s.setJob g x).rst = s.rst := rfl
@[simp] theorem State.setJob_cores (g : BitVec 16) (x : Job) : (s.setJob g x).cores = s.cores := rfl
@[simp] theorem State.setJob_hrings (g : BitVec 16) (x : Job) : (s.setJob g x).hrings = s.hrings := rfl
@[simp] theorem State.setJob_hostp (g : BitVec 16) (x : Job) : (s.setJob g x).hostp = s.hostp := rfl
@[simp] theorem State.setJob_power (g : BitVec 16) (x : Job) : (s.setJob g x).power = s.power := rfl
@[simp] theorem State.setJob_mgtCtr (g : BitVec 16) (x : Job) : (s.setJob g x).mgtCtr = s.mgtCtr := rfl
@[simp] theorem State.setJob_mgtBootId (g : BitVec 16) (x : Job) : (s.setJob g x).mgtBootId = s.mgtBootId := rfl
@[simp] theorem State.setJob_out (g : BitVec 16) (x : Job) : (s.setJob g x).out = s.out := rfl

/-! ### send -/

@[simp] theorem State.send_pending (m : OutMsg) : (s.send m).pending = s.pending := rfl
@[simp] theorem State.send_fresh (m : OutMsg) : (s.send m).fresh = s.fresh := rfl
@[simp] theorem State.send_clk (m : OutMsg) : (s.send m).clk = s.clk := rfl
@[simp] theorem State.send_pins (m : OutMsg) : (s.send m).pins = s.pins := rfl
@[simp] theorem State.send_regs (m : OutMsg) : (s.send m).regs = s.regs := rfl
@[simp] theorem State.send_bitsNow (m : OutMsg) : (s.send m).bitsNow = s.bitsNow := rfl
@[simp] theorem State.send_cntsNow (m : OutMsg) : (s.send m).cntsNow = s.cntsNow := rfl
@[simp] theorem State.send_wasNow (m : OutMsg) : (s.send m).wasNow = s.wasNow := rfl
@[simp] theorem State.send_loHold (m : OutMsg) : (s.send m).loHold = s.loHold := rfl
@[simp] theorem State.send_hiLatch (m : OutMsg) : (s.send m).hiLatch = s.hiLatch := rfl
@[simp] theorem State.send_err (m : OutMsg) : (s.send m).err = s.err := rfl
@[simp] theorem State.send_recWas (m : OutMsg) : (s.send m).recWas = s.recWas := rfl
@[simp] theorem State.send_errBuf (m : OutMsg) : (s.send m).errBuf = s.errBuf := rfl
@[simp] theorem State.send_errSet (m : OutMsg) : (s.send m).errSet = s.errSet := rfl
@[simp] theorem State.send_errSeq (m : OutMsg) : (s.send m).errSeq = s.errSeq := rfl
@[simp] theorem State.send_srst (m : OutMsg) : (s.send m).srst = s.srst := rfl
@[simp] theorem State.send_mem (m : OutMsg) : (s.send m).mem = s.mem := rfl
@[simp] theorem State.send_tb (m : OutMsg) : (s.send m).tb = s.tb := rfl
@[simp] theorem State.send_arcs (m : OutMsg) : (s.send m).arcs = s.arcs := rfl
@[simp] theorem State.send_copies (m : OutMsg) : (s.send m).copies = s.copies := rfl
@[simp] theorem State.send_tiles (m : OutMsg) : (s.send m).tiles = s.tiles := rfl
@[simp] theorem State.send_parts (m : OutMsg) : (s.send m).parts = s.parts := rfl
@[simp] theorem State.send_ust (m : OutMsg) : (s.send m).ust = s.ust := rfl
@[simp] theorem State.send_hist (m : OutMsg) : (s.send m).hist = s.hist := rfl
@[simp] theorem State.send_ports (m : OutMsg) : (s.send m).ports = s.ports := rfl
@[simp] theorem State.send_sets (m : OutMsg) : (s.send m).sets = s.sets := rfl
@[simp] theorem State.send_modId (m : OutMsg) : (s.send m).modId = s.modId := rfl
@[simp] theorem State.send_mgmtList (m : OutMsg) : (s.send m).mgmtList = s.mgmtList := rfl
@[simp] theorem State.send_lost (m : OutMsg) : (s.send m).lost = s.lost := rfl
@[simp] theorem State.send_inbox (m : OutMsg) : (s.send m).inbox = s.inbox := rfl
@[simp] theorem State.send_ringCw (m : OutMsg) : (s.send m).ringCw = s.ringCw := rfl
@[simp] theorem State.send_ringCcw (m : OutMsg) : (s.send m).ringCcw = s.ringCcw := rfl
@[simp] theorem State.send_inRing (m : OutMsg) : (s.send m).inRing = s.inRing := rfl
@[simp] theorem State.send_cwLock (m : OutMsg) : (s.send m).cwLock = s.cwLock := rfl
@[simp] theorem State.send_ccwLock (m : OutMsg) : (s.send m).ccwLock = s.ccwLock := rfl
@[simp] theorem State.send_ctxs (m : OutMsg) : (s.send m).ctxs = s.ctxs := rfl
@[simp] theorem State.send_ctxCache (m : OutMsg) : (s.send m).ctxCache = s.ctxCache := rfl
@[simp] theorem State.send_arrNow (m : OutMsg) : (s.send m).arrNow = s.arrNow := rfl
@[simp] theorem State.send_ctxBase (m : OutMsg) : (s.send m).ctxBase = s.ctxBase := rfl
@[simp] theorem State.send_rplBase (m : OutMsg) : (s.send m).rplBase = s.rplBase := rfl
@[simp] theorem State.send_replay (m : OutMsg) : (s.send m).replay = s.replay := rfl
@[simp] theorem State.send_wins (m : OutMsg) : (s.send m).wins = s.wins := rfl
@[simp] theorem State.send_apts (m : OutMsg) : (s.send m).apts = s.apts := rfl
@[simp] theorem State.send_jobs (m : OutMsg) : (s.send m).jobs = s.jobs := rfl
@[simp] theorem State.send_mjob (m : OutMsg) : (s.send m).mjob = s.mjob := rfl
@[simp] theorem State.send_outst (m : OutMsg) : (s.send m).outst = s.outst := rfl
@[simp] theorem State.send_nextRid (m : OutMsg) : (s.send m).nextRid = s.nextRid := rfl
@[simp] theorem State.send_nextOrd (m : OutMsg) : (s.send m).nextOrd = s.nextOrd := rfl
@[simp] theorem State.send_rlc (m : OutMsg) : (s.send m).rlc = s.rlc := rfl
@[simp] theorem State.send_rinvs (m : OutMsg) : (s.send m).rinvs = s.rinvs := rfl
@[simp] theorem State.send_dcache (m : OutMsg) : (s.send m).dcache = s.dcache := rfl
@[simp] theorem State.send_colls (m : OutMsg) : (s.send m).colls = s.colls := rfl
@[simp] theorem State.send_heldToks (m : OutMsg) : (s.send m).heldToks = s.heldToks := rfl
@[simp] theorem State.send_led (m : OutMsg) : (s.send m).led = s.led := rfl
@[simp] theorem State.send_rcPast (m : OutMsg) : (s.send m).rcPast = s.rcPast := rfl
@[simp] theorem State.send_ringWait (m : OutMsg) : (s.send m).ringWait = s.ringWait := rfl
@[simp] theorem State.send_ringHops (m : OutMsg) : (s.send m).ringHops = s.ringHops := rfl
@[simp] theorem State.send_cs (m : OutMsg) : (s.send m).cs = s.cs := rfl
@[simp] theorem State.send_vault (m : OutMsg) : (s.send m).vault = s.vault := rfl
@[simp] theorem State.send_router (m : OutMsg) : (s.send m).router = s.router := rfl
@[simp] theorem State.send_logBase (m : OutMsg) : (s.send m).logBase = s.logBase := rfl
@[simp] theorem State.send_logHead (m : OutMsg) : (s.send m).logHead = s.logHead := rfl
@[simp] theorem State.send_logCnt (m : OutMsg) : (s.send m).logCnt = s.logCnt := rfl
@[simp] theorem State.send_fltNs (m : OutMsg) : (s.send m).fltNs = s.fltNs := rfl
@[simp] theorem State.send_boot (m : OutMsg) : (s.send m).boot = s.boot := rfl
@[simp] theorem State.send_opt (m : OutMsg) : (s.send m).opt = s.opt := rfl
@[simp] theorem State.send_rst (m : OutMsg) : (s.send m).rst = s.rst := rfl
@[simp] theorem State.send_cores (m : OutMsg) : (s.send m).cores = s.cores := rfl
@[simp] theorem State.send_hrings (m : OutMsg) : (s.send m).hrings = s.hrings := rfl
@[simp] theorem State.send_hostp (m : OutMsg) : (s.send m).hostp = s.hostp := rfl
@[simp] theorem State.send_power (m : OutMsg) : (s.send m).power = s.power := rfl
@[simp] theorem State.send_mgtCtr (m : OutMsg) : (s.send m).mgtCtr = s.mgtCtr := rfl
@[simp] theorem State.send_mgtBootId (m : OutMsg) : (s.send m).mgtBootId = s.mgtBootId := rfl

/-! ### setReg -/

@[simp] theorem State.setReg_pending (pg o : Nat) (v : W32) : (s.setReg pg o v).pending = s.pending := rfl
@[simp] theorem State.setReg_fresh (pg o : Nat) (v : W32) : (s.setReg pg o v).fresh = s.fresh := rfl
@[simp] theorem State.setReg_clk (pg o : Nat) (v : W32) : (s.setReg pg o v).clk = s.clk := rfl
@[simp] theorem State.setReg_pins (pg o : Nat) (v : W32) : (s.setReg pg o v).pins = s.pins := rfl
@[simp] theorem State.setReg_bitsNow (pg o : Nat) (v : W32) : (s.setReg pg o v).bitsNow = s.bitsNow := rfl
@[simp] theorem State.setReg_cntsNow (pg o : Nat) (v : W32) : (s.setReg pg o v).cntsNow = s.cntsNow := rfl
@[simp] theorem State.setReg_wasNow (pg o : Nat) (v : W32) : (s.setReg pg o v).wasNow = s.wasNow := rfl
@[simp] theorem State.setReg_loHold (pg o : Nat) (v : W32) : (s.setReg pg o v).loHold = s.loHold := rfl
@[simp] theorem State.setReg_hiLatch (pg o : Nat) (v : W32) : (s.setReg pg o v).hiLatch = s.hiLatch := rfl
@[simp] theorem State.setReg_err (pg o : Nat) (v : W32) : (s.setReg pg o v).err = s.err := rfl
@[simp] theorem State.setReg_recWas (pg o : Nat) (v : W32) : (s.setReg pg o v).recWas = s.recWas := rfl
@[simp] theorem State.setReg_errBuf (pg o : Nat) (v : W32) : (s.setReg pg o v).errBuf = s.errBuf := rfl
@[simp] theorem State.setReg_errSet (pg o : Nat) (v : W32) : (s.setReg pg o v).errSet = s.errSet := rfl
@[simp] theorem State.setReg_errSeq (pg o : Nat) (v : W32) : (s.setReg pg o v).errSeq = s.errSeq := rfl
@[simp] theorem State.setReg_srst (pg o : Nat) (v : W32) : (s.setReg pg o v).srst = s.srst := rfl
@[simp] theorem State.setReg_mem (pg o : Nat) (v : W32) : (s.setReg pg o v).mem = s.mem := rfl
@[simp] theorem State.setReg_tb (pg o : Nat) (v : W32) : (s.setReg pg o v).tb = s.tb := rfl
@[simp] theorem State.setReg_arcs (pg o : Nat) (v : W32) : (s.setReg pg o v).arcs = s.arcs := rfl
@[simp] theorem State.setReg_copies (pg o : Nat) (v : W32) : (s.setReg pg o v).copies = s.copies := rfl
@[simp] theorem State.setReg_tiles (pg o : Nat) (v : W32) : (s.setReg pg o v).tiles = s.tiles := rfl
@[simp] theorem State.setReg_parts (pg o : Nat) (v : W32) : (s.setReg pg o v).parts = s.parts := rfl
@[simp] theorem State.setReg_ust (pg o : Nat) (v : W32) : (s.setReg pg o v).ust = s.ust := rfl
@[simp] theorem State.setReg_hist (pg o : Nat) (v : W32) : (s.setReg pg o v).hist = s.hist := rfl
@[simp] theorem State.setReg_ports (pg o : Nat) (v : W32) : (s.setReg pg o v).ports = s.ports := rfl
@[simp] theorem State.setReg_sets (pg o : Nat) (v : W32) : (s.setReg pg o v).sets = s.sets := rfl
@[simp] theorem State.setReg_modId (pg o : Nat) (v : W32) : (s.setReg pg o v).modId = s.modId := rfl
@[simp] theorem State.setReg_mgmtList (pg o : Nat) (v : W32) : (s.setReg pg o v).mgmtList = s.mgmtList := rfl
@[simp] theorem State.setReg_lost (pg o : Nat) (v : W32) : (s.setReg pg o v).lost = s.lost := rfl
@[simp] theorem State.setReg_inbox (pg o : Nat) (v : W32) : (s.setReg pg o v).inbox = s.inbox := rfl
@[simp] theorem State.setReg_ringCw (pg o : Nat) (v : W32) : (s.setReg pg o v).ringCw = s.ringCw := rfl
@[simp] theorem State.setReg_ringCcw (pg o : Nat) (v : W32) : (s.setReg pg o v).ringCcw = s.ringCcw := rfl
@[simp] theorem State.setReg_inRing (pg o : Nat) (v : W32) : (s.setReg pg o v).inRing = s.inRing := rfl
@[simp] theorem State.setReg_cwLock (pg o : Nat) (v : W32) : (s.setReg pg o v).cwLock = s.cwLock := rfl
@[simp] theorem State.setReg_ccwLock (pg o : Nat) (v : W32) : (s.setReg pg o v).ccwLock = s.ccwLock := rfl
@[simp] theorem State.setReg_ctxs (pg o : Nat) (v : W32) : (s.setReg pg o v).ctxs = s.ctxs := rfl
@[simp] theorem State.setReg_ctxCache (pg o : Nat) (v : W32) : (s.setReg pg o v).ctxCache = s.ctxCache := rfl
@[simp] theorem State.setReg_arrNow (pg o : Nat) (v : W32) : (s.setReg pg o v).arrNow = s.arrNow := rfl
@[simp] theorem State.setReg_ctxBase (pg o : Nat) (v : W32) : (s.setReg pg o v).ctxBase = s.ctxBase := rfl
@[simp] theorem State.setReg_rplBase (pg o : Nat) (v : W32) : (s.setReg pg o v).rplBase = s.rplBase := rfl
@[simp] theorem State.setReg_replay (pg o : Nat) (v : W32) : (s.setReg pg o v).replay = s.replay := rfl
@[simp] theorem State.setReg_wins (pg o : Nat) (v : W32) : (s.setReg pg o v).wins = s.wins := rfl
@[simp] theorem State.setReg_apts (pg o : Nat) (v : W32) : (s.setReg pg o v).apts = s.apts := rfl
@[simp] theorem State.setReg_jobs (pg o : Nat) (v : W32) : (s.setReg pg o v).jobs = s.jobs := rfl
@[simp] theorem State.setReg_mjob (pg o : Nat) (v : W32) : (s.setReg pg o v).mjob = s.mjob := rfl
@[simp] theorem State.setReg_outst (pg o : Nat) (v : W32) : (s.setReg pg o v).outst = s.outst := rfl
@[simp] theorem State.setReg_nextRid (pg o : Nat) (v : W32) : (s.setReg pg o v).nextRid = s.nextRid := rfl
@[simp] theorem State.setReg_nextOrd (pg o : Nat) (v : W32) : (s.setReg pg o v).nextOrd = s.nextOrd := rfl
@[simp] theorem State.setReg_rlc (pg o : Nat) (v : W32) : (s.setReg pg o v).rlc = s.rlc := rfl
@[simp] theorem State.setReg_rinvs (pg o : Nat) (v : W32) : (s.setReg pg o v).rinvs = s.rinvs := rfl
@[simp] theorem State.setReg_dcache (pg o : Nat) (v : W32) : (s.setReg pg o v).dcache = s.dcache := rfl
@[simp] theorem State.setReg_colls (pg o : Nat) (v : W32) : (s.setReg pg o v).colls = s.colls := rfl
@[simp] theorem State.setReg_heldToks (pg o : Nat) (v : W32) : (s.setReg pg o v).heldToks = s.heldToks := rfl
@[simp] theorem State.setReg_led (pg o : Nat) (v : W32) : (s.setReg pg o v).led = s.led := rfl
@[simp] theorem State.setReg_rcPast (pg o : Nat) (v : W32) : (s.setReg pg o v).rcPast = s.rcPast := rfl
@[simp] theorem State.setReg_ringWait (pg o : Nat) (v : W32) : (s.setReg pg o v).ringWait = s.ringWait := rfl
@[simp] theorem State.setReg_ringHops (pg o : Nat) (v : W32) : (s.setReg pg o v).ringHops = s.ringHops := rfl
@[simp] theorem State.setReg_cs (pg o : Nat) (v : W32) : (s.setReg pg o v).cs = s.cs := rfl
@[simp] theorem State.setReg_vault (pg o : Nat) (v : W32) : (s.setReg pg o v).vault = s.vault := rfl
@[simp] theorem State.setReg_router (pg o : Nat) (v : W32) : (s.setReg pg o v).router = s.router := rfl
@[simp] theorem State.setReg_logBase (pg o : Nat) (v : W32) : (s.setReg pg o v).logBase = s.logBase := rfl
@[simp] theorem State.setReg_logHead (pg o : Nat) (v : W32) : (s.setReg pg o v).logHead = s.logHead := rfl
@[simp] theorem State.setReg_logCnt (pg o : Nat) (v : W32) : (s.setReg pg o v).logCnt = s.logCnt := rfl
@[simp] theorem State.setReg_fltNs (pg o : Nat) (v : W32) : (s.setReg pg o v).fltNs = s.fltNs := rfl
@[simp] theorem State.setReg_boot (pg o : Nat) (v : W32) : (s.setReg pg o v).boot = s.boot := rfl
@[simp] theorem State.setReg_opt (pg o : Nat) (v : W32) : (s.setReg pg o v).opt = s.opt := rfl
@[simp] theorem State.setReg_rst (pg o : Nat) (v : W32) : (s.setReg pg o v).rst = s.rst := rfl
@[simp] theorem State.setReg_cores (pg o : Nat) (v : W32) : (s.setReg pg o v).cores = s.cores := rfl
@[simp] theorem State.setReg_hrings (pg o : Nat) (v : W32) : (s.setReg pg o v).hrings = s.hrings := rfl
@[simp] theorem State.setReg_hostp (pg o : Nat) (v : W32) : (s.setReg pg o v).hostp = s.hostp := rfl
@[simp] theorem State.setReg_power (pg o : Nat) (v : W32) : (s.setReg pg o v).power = s.power := rfl
@[simp] theorem State.setReg_mgtCtr (pg o : Nat) (v : W32) : (s.setReg pg o v).mgtCtr = s.mgtCtr := rfl
@[simp] theorem State.setReg_mgtBootId (pg o : Nat) (v : W32) : (s.setReg pg o v).mgtBootId = s.mgtBootId := rfl
@[simp] theorem State.setReg_out (pg o : Nat) (v : W32) : (s.setReg pg o v).out = s.out := rfl

/-! ### Stored words -/

@[simp] theorem State.reg_setReg_same (pg o : Nat) (v : W32) : (s.setReg pg o v).reg pg o = v := by
  unfold State.setReg State.reg
  exact mget_mput_same _ _ _ _

theorem State.reg_setReg_ne (pg o : Nat) (v : W32) {q y : Nat} (h : q * 0x1000 + y ≠ pg * 0x1000 + o) :
    (s.setReg pg o v).reg q y = s.reg q y := by
  unfold State.setReg State.reg mput
  split
  · exact mget_mdel_ne _ _ h
  · exact (mget_mins_ne _ _ _ _ h).trans (mget_mdel_ne _ _ h)

/-- Words of one page at other offsets, and words of other pages, stay. -/
theorem State.reg_setReg_other (pg o : Nat) (v : W32) {q y : Nat} (ho : o < 0x1000) (hy : y < 0x1000) (h : q ≠ pg ∨ y ≠ o) :
    (s.setReg pg o v).reg q y = s.reg q y := s.reg_setReg_ne pg o v (by omega)

/-- Beside the words, bits set and counters raised are noted for the nanosecond. -/
@[simp] theorem State.reg_orReg (pg o : Nat) (m : W32) (q y : Nat) :
    (s.orReg pg o m).reg q y = (s.setReg pg o (s.reg pg o ||| m)).reg q y := rfl

@[simp] theorem State.reg_noteCnt (pg o k q y : Nat) : (s.noteCnt pg o k).reg q y = s.reg q y := rfl

@[simp] theorem State.reg_count (pg o k q y : Nat) :
    (s.count pg o k).reg q y = (s.setReg pg o (BitVec.ofNat 32 (min (2 ^ 32 - 1) ((s.reg pg o).toNat + k)))).reg q y := rfl

@[simp] theorem State.orReg_mem (pg o : Nat) (m : W32) : (s.orReg pg o m).mem = s.mem := rfl
@[simp] theorem State.count_mem (pg o k : Nat) : (s.count pg o k).mem = s.mem := rfl
@[simp] theorem State.setFld_mem (pg o hi lo v : Nat) : (s.setFld pg o hi lo v).mem = s.mem := rfl
@[simp] theorem State.setReg64_mem (pg o v : Nat) : (s.setReg64 pg o v).mem = s.mem := rfl

theorem State.countFld_eq (pg o hi lo : Nat) :
    s.countFld pg o hi lo = s.setFld pg o hi lo (min (2 ^ (hi + 1 - lo) - 1) (s.fld pg o hi lo + 1)) := rfl

theorem State.setReg64_eq (pg o v : Nat) :
    s.setReg64 pg o v = (s.setReg pg o (BitVec.ofNat 32 v)).setReg pg (o + 4) (BitVec.ofNat 32 (v / 2 ^ 32)) := rfl

/-- A field's bits change, the word's other bits do not. -/
theorem State.reg_setFld_same (pg o hi lo v : Nat) :
    (s.setFld pg o hi lo v).reg pg o =
      (s.reg pg o &&& ~~~ (BitVec.ofNat 32 ((2 ^ (hi + 1 - lo) - 1) * 2 ^ lo))) |||
        (BitVec.ofNat 32 (v * 2 ^ lo) &&& BitVec.ofNat 32 ((2 ^ (hi + 1 - lo) - 1) * 2 ^ lo)) :=
  s.reg_setReg_same pg o _

/-! ### Events and records -/

/-- Only stored words, what the nanosecond did to them, and the event router's queues differ. -/
def RouterOnly (s t : State) : Prop :=
  { t with regs := s.regs, bitsNow := s.bitsNow, cntsNow := s.cntsNow, wasNow := s.wasNow, router := s.router } = s

/-- Only those and the error records differ. -/
def ReportOnly (s t : State) : Prop :=
  { t with
    regs := s.regs, bitsNow := s.bitsNow, cntsNow := s.cntsNow, wasNow := s.wasNow, router := s.router, err := s.err
    recWas := s.recWas, errSet := s.errSet, errSeq := s.errSeq } = s

theorem RouterOnly.refl : RouterOnly s s := rfl

theorem RouterOnly.trans {s t u : State} (h : RouterOnly s t) (g : RouterOnly t u) : RouterOnly s u := by
  unfold RouterOnly at *
  rw [← h, ← g]

theorem RouterOnly.report {s t : State} (h : RouterOnly s t) : ReportOnly s t := by
  unfold RouterOnly at h
  unfold ReportOnly
  rw [← h]

theorem ReportOnly.trans {s t u : State} (h : ReportOnly s t) (g : ReportOnly t u) : ReportOnly s u := by
  unfold ReportOnly at *
  rw [← h, ← g]

theorem routerOnly_setReg (pg o : Nat) (v : W32) : RouterOnly s (s.setReg pg o v) := rfl
theorem routerOnly_orReg (pg o : Nat) (m : W32) : RouterOnly s (s.orReg pg o m) := rfl
theorem routerOnly_count (pg o k : Nat) : RouterOnly s (s.count pg o k) := rfl
theorem routerOnly_noteWas (pg o : Nat) : RouterOnly s (s.noteWas pg o) := rfl
theorem routerOnly_drop (b : W32) : RouterOnly s (s.drop b) :=
  (routerOnly_orReg s _ _ _).trans (routerOnly_count _ _ _ _)

theorem routerOnly_enqueueRaw (d : Dest) (x : Delivery) : RouterOnly s (s.enqueueRaw d x).1 := by
  unfold State.enqueueRaw
  cases d <;> simp only <;> split
  · rfl
  · exact routerOnly_drop s _
  · rfl
  · exact routerOnly_drop s _
  · rfl
  · exact routerOnly_drop s _

theorem routerOnly_enqueueAll (ds : List Dest) (x : Delivery) : ∀ s : State, RouterOnly s (s.enqueueAll ds x).1 := by
  induction ds with
  | nil => intro s; rfl
  | cons d ds ih => intro s; exact (routerOnly_enqueueRaw s d x).trans (ih _)

theorem routerOnly_setRaw (pg i : Nat) : RouterOnly s (s.setRaw pg i) := by
  unfold State.setRaw
  exact (((routerOnly_noteWas s _ _).trans (routerOnly_noteWas _ _ _)).trans (routerOnly_orReg _ _ _ _)).trans (routerOnly_setReg _ _ _ _)

theorem routerOnly_deliver (pg i : Nat) (r : Option (List Byte)) : RouterOnly s (s.deliver pg i r).1 := by
  have h : ∀ ds x n, RouterOnly s (State.enqueueAll { s with router.nextEv := n } ds x).1 := fun ds x n =>
    RouterOnly.trans (t := { s with router.nextEv := n }) rfl (routerOnly_enqueueAll ds x _)
  unfold State.deliver
  simp only
  split
  · exact (h _ _ _).trans (routerOnly_count _ _ _ _)
  · exact h _ _ _

theorem routerOnly_raiseOvf : RouterOnly s s.raiseOvf := by
  unfold State.raiseOvf
  simp only
  split
  · exact (routerOnly_setRaw s _ _).trans (routerOnly_deliver _ _ _ _)
  · exact routerOnly_setRaw s _ _

theorem routerOnly_recToSteward (pg : Nat) (b : List Byte) : RouterOnly s (s.recToSteward pg b) := by
  unfold State.recToSteward
  generalize (if s.rst.warmReq then Dest.host else Dest.steward) = d
  have h : ∀ x n, RouterOnly s (State.enqueueRaw { s with router.nextEv := n } d x).1 := fun x n =>
    RouterOnly.trans (t := { s with router.nextEv := n }) rfl (routerOnly_enqueueRaw _ d x)
  simp only
  split
  · exact h _ _
  · exact (h _ _).trans (routerOnly_raiseOvf _)

/-- Raising an event changes stored words and the router's queues, and nothing else. -/
theorem routerOnly_raiseWith (pg i : Nat) (r : Option (List Byte)) : RouterOnly s (s.raiseWith pg i r) := by
  unfold State.raiseWith
  have h1 := routerOnly_setRaw s pg i
  have h2 := h1.trans (routerOnly_deliver (s.setRaw pg i) pg i r)
  have h3 := h2.trans (routerOnly_raiseOvf _)
  cases r with
  | none =>
    simp only
    split
    · split
      · exact h2
      · exact h3
    · exact h1
  | some b =>
    simp only
    split
    · split
      · split
        · exact h2
        · exact h3
      · split
        · exact h2.trans (routerOnly_recToSteward _ _ _)
        · exact h3.trans (routerOnly_recToSteward _ _ _)
    · exact h1.trans (routerOnly_recToSteward _ _ _)

theorem routerOnly_raise (pg i : Nat) : RouterOnly s (s.raise pg i) := routerOnly_raiseWith s pg i none

theorem reportOnly_putRec (pg : Nat) (b : List Byte) : ReportOnly s (s.putRec pg b) := rfl

/-- Writing a record, with or without an event, changes those and the error records, and nothing else. -/
theorem reportOnly_report (pg : Nat) (r : Rec) (ev : Option Nat) : ReportOnly s (s.report pg r ev) := by
  unfold State.report
  generalize s.recBytes pg r = b
  simp only
  have h := reportOnly_putRec s pg b
  generalize s.putRec pg b = t at h ⊢
  cases ev with
  | none => exact h.trans (routerOnly_recToSteward t pg b).report
  | some i => exact h.trans (routerOnly_raiseWith t pg i (some b)).report

theorem RouterOnly.mem {s t : State} (h : RouterOnly s t) : t.mem = s.mem := by
  unfold RouterOnly at h
  have e := congrArg State.mem h
  exact e

theorem RouterOnly.tiles {s t : State} (h : RouterOnly s t) : t.tiles = s.tiles := by
  unfold RouterOnly at h
  have e := congrArg State.tiles h
  exact e

theorem RouterOnly.arcs {s t : State} (h : RouterOnly s t) : t.arcs = s.arcs := by
  unfold RouterOnly at h
  have e := congrArg State.arcs h
  exact e

theorem RouterOnly.parts {s t : State} (h : RouterOnly s t) : t.parts = s.parts := by
  unfold RouterOnly at h
  have e := congrArg State.parts h
  exact e

theorem RouterOnly.ports {s t : State} (h : RouterOnly s t) : t.ports = s.ports := by
  unfold RouterOnly at h
  have e := congrArg State.ports h
  exact e

theorem RouterOnly.tb {s t : State} (h : RouterOnly s t) : t.tb = s.tb := by
  unfold RouterOnly at h
  have e := congrArg State.tb h
  exact e

theorem RouterOnly.rst {s t : State} (h : RouterOnly s t) : t.rst = s.rst := by
  unfold RouterOnly at h
  have e := congrArg State.rst h
  exact e

theorem RouterOnly.cs {s t : State} (h : RouterOnly s t) : t.cs = s.cs := by
  unfold RouterOnly at h
  have e := congrArg State.cs h
  exact e

theorem RouterOnly.vault {s t : State} (h : RouterOnly s t) : t.vault = s.vault := by
  unfold RouterOnly at h
  have e := congrArg State.vault h
  exact e

theorem RouterOnly.ust {s t : State} (h : RouterOnly s t) : t.ust = s.ust := by
  unfold RouterOnly at h
  have e := congrArg State.ust h
  exact e

theorem RouterOnly.out {s t : State} (h : RouterOnly s t) : t.out = s.out := by
  unfold RouterOnly at h
  have e := congrArg State.out h
  exact e

theorem RouterOnly.pending {s t : State} (h : RouterOnly s t) : t.pending = s.pending := by
  unfold RouterOnly at h
  have e := congrArg State.pending h
  exact e

theorem RouterOnly.clk {s t : State} (h : RouterOnly s t) : t.clk = s.clk := by
  unfold RouterOnly at h
  have e := congrArg State.clk h
  exact e

theorem RouterOnly.power {s t : State} (h : RouterOnly s t) : t.power = s.power := by
  unfold RouterOnly at h
  have e := congrArg State.power h
  exact e

theorem RouterOnly.boot {s t : State} (h : RouterOnly s t) : t.boot = s.boot := by
  unfold RouterOnly at h
  have e := congrArg State.boot h
  exact e

theorem RouterOnly.hostp {s t : State} (h : RouterOnly s t) : t.hostp = s.hostp := by
  unfold RouterOnly at h
  have e := congrArg State.hostp h
  exact e

theorem RouterOnly.cores {s t : State} (h : RouterOnly s t) : t.cores = s.cores := by
  unfold RouterOnly at h
  have e := congrArg State.cores h
  exact e

theorem ReportOnly.mem {s t : State} (h : ReportOnly s t) : t.mem = s.mem := by
  unfold ReportOnly at h
  have e := congrArg State.mem h
  exact e

theorem ReportOnly.tiles {s t : State} (h : ReportOnly s t) : t.tiles = s.tiles := by
  unfold ReportOnly at h
  have e := congrArg State.tiles h
  exact e

theorem ReportOnly.arcs {s t : State} (h : ReportOnly s t) : t.arcs = s.arcs := by
  unfold ReportOnly at h
  have e := congrArg State.arcs h
  exact e

theorem ReportOnly.parts {s t : State} (h : ReportOnly s t) : t.parts = s.parts := by
  unfold ReportOnly at h
  have e := congrArg State.parts h
  exact e

theorem ReportOnly.ports {s t : State} (h : ReportOnly s t) : t.ports = s.ports := by
  unfold ReportOnly at h
  have e := congrArg State.ports h
  exact e

theorem ReportOnly.tb {s t : State} (h : ReportOnly s t) : t.tb = s.tb := by
  unfold ReportOnly at h
  have e := congrArg State.tb h
  exact e

theorem ReportOnly.rst {s t : State} (h : ReportOnly s t) : t.rst = s.rst := by
  unfold ReportOnly at h
  have e := congrArg State.rst h
  exact e

theorem ReportOnly.cs {s t : State} (h : ReportOnly s t) : t.cs = s.cs := by
  unfold ReportOnly at h
  have e := congrArg State.cs h
  exact e

theorem ReportOnly.vault {s t : State} (h : ReportOnly s t) : t.vault = s.vault := by
  unfold ReportOnly at h
  have e := congrArg State.vault h
  exact e

theorem ReportOnly.ust {s t : State} (h : ReportOnly s t) : t.ust = s.ust := by
  unfold ReportOnly at h
  have e := congrArg State.ust h
  exact e

theorem ReportOnly.out {s t : State} (h : ReportOnly s t) : t.out = s.out := by
  unfold ReportOnly at h
  have e := congrArg State.out h
  exact e

theorem ReportOnly.pending {s t : State} (h : ReportOnly s t) : t.pending = s.pending := by
  unfold ReportOnly at h
  have e := congrArg State.pending h
  exact e

theorem ReportOnly.clk {s t : State} (h : ReportOnly s t) : t.clk = s.clk := by
  unfold ReportOnly at h
  have e := congrArg State.clk h
  exact e

theorem ReportOnly.power {s t : State} (h : ReportOnly s t) : t.power = s.power := by
  unfold ReportOnly at h
  have e := congrArg State.power h
  exact e

theorem ReportOnly.boot {s t : State} (h : ReportOnly s t) : t.boot = s.boot := by
  unfold ReportOnly at h
  have e := congrArg State.boot h
  exact e

theorem ReportOnly.hostp {s t : State} (h : ReportOnly s t) : t.hostp = s.hostp := by
  unfold ReportOnly at h
  have e := congrArg State.hostp h
  exact e

theorem ReportOnly.cores {s t : State} (h : ReportOnly s t) : t.cores = s.cores := by
  unfold ReportOnly at h
  have e := congrArg State.cores h
  exact e

@[simp] theorem State.raise_mem (pg i : Nat) : (s.raise pg i).mem = s.mem := (routerOnly_raise s pg i).mem
@[simp] theorem State.raise_tiles (pg i : Nat) : (s.raise pg i).tiles = s.tiles := (routerOnly_raise s pg i).tiles
@[simp] theorem State.raise_arcs (pg i : Nat) : (s.raise pg i).arcs = s.arcs := (routerOnly_raise s pg i).arcs
@[simp] theorem State.raise_parts (pg i : Nat) : (s.raise pg i).parts = s.parts := (routerOnly_raise s pg i).parts
@[simp] theorem State.raise_ports (pg i : Nat) : (s.raise pg i).ports = s.ports := (routerOnly_raise s pg i).ports
@[simp] theorem State.raise_tb (pg i : Nat) : (s.raise pg i).tb = s.tb := (routerOnly_raise s pg i).tb
@[simp] theorem State.raise_rst (pg i : Nat) : (s.raise pg i).rst = s.rst := (routerOnly_raise s pg i).rst
@[simp] theorem State.raise_cs (pg i : Nat) : (s.raise pg i).cs = s.cs := (routerOnly_raise s pg i).cs
@[simp] theorem State.raise_vault (pg i : Nat) : (s.raise pg i).vault = s.vault := (routerOnly_raise s pg i).vault
@[simp] theorem State.raise_ust (pg i : Nat) : (s.raise pg i).ust = s.ust := (routerOnly_raise s pg i).ust
@[simp] theorem State.raise_out (pg i : Nat) : (s.raise pg i).out = s.out := (routerOnly_raise s pg i).out
@[simp] theorem State.raise_pending (pg i : Nat) : (s.raise pg i).pending = s.pending := (routerOnly_raise s pg i).pending
@[simp] theorem State.raise_clk (pg i : Nat) : (s.raise pg i).clk = s.clk := (routerOnly_raise s pg i).clk
@[simp] theorem State.raise_power (pg i : Nat) : (s.raise pg i).power = s.power := (routerOnly_raise s pg i).power
@[simp] theorem State.raise_boot (pg i : Nat) : (s.raise pg i).boot = s.boot := (routerOnly_raise s pg i).boot
@[simp] theorem State.raise_hostp (pg i : Nat) : (s.raise pg i).hostp = s.hostp := (routerOnly_raise s pg i).hostp
@[simp] theorem State.raise_cores (pg i : Nat) : (s.raise pg i).cores = s.cores := (routerOnly_raise s pg i).cores

@[simp] theorem State.report_mem (pg : Nat) (r : Rec) (ev : Option Nat) : (s.report pg r ev).mem = s.mem :=
  (reportOnly_report s pg r ev).mem
@[simp] theorem State.report_tiles (pg : Nat) (r : Rec) (ev : Option Nat) : (s.report pg r ev).tiles = s.tiles :=
  (reportOnly_report s pg r ev).tiles
@[simp] theorem State.report_arcs (pg : Nat) (r : Rec) (ev : Option Nat) : (s.report pg r ev).arcs = s.arcs :=
  (reportOnly_report s pg r ev).arcs
@[simp] theorem State.report_parts (pg : Nat) (r : Rec) (ev : Option Nat) : (s.report pg r ev).parts = s.parts :=
  (reportOnly_report s pg r ev).parts
@[simp] theorem State.report_ports (pg : Nat) (r : Rec) (ev : Option Nat) : (s.report pg r ev).ports = s.ports :=
  (reportOnly_report s pg r ev).ports
@[simp] theorem State.report_tb (pg : Nat) (r : Rec) (ev : Option Nat) : (s.report pg r ev).tb = s.tb :=
  (reportOnly_report s pg r ev).tb
@[simp] theorem State.report_rst (pg : Nat) (r : Rec) (ev : Option Nat) : (s.report pg r ev).rst = s.rst :=
  (reportOnly_report s pg r ev).rst
@[simp] theorem State.report_cs (pg : Nat) (r : Rec) (ev : Option Nat) : (s.report pg r ev).cs = s.cs :=
  (reportOnly_report s pg r ev).cs
@[simp] theorem State.report_vault (pg : Nat) (r : Rec) (ev : Option Nat) : (s.report pg r ev).vault = s.vault :=
  (reportOnly_report s pg r ev).vault
@[simp] theorem State.report_ust (pg : Nat) (r : Rec) (ev : Option Nat) : (s.report pg r ev).ust = s.ust :=
  (reportOnly_report s pg r ev).ust
@[simp] theorem State.report_out (pg : Nat) (r : Rec) (ev : Option Nat) : (s.report pg r ev).out = s.out :=
  (reportOnly_report s pg r ev).out
@[simp] theorem State.report_pending (pg : Nat) (r : Rec) (ev : Option Nat) : (s.report pg r ev).pending = s.pending :=
  (reportOnly_report s pg r ev).pending
@[simp] theorem State.report_clk (pg : Nat) (r : Rec) (ev : Option Nat) : (s.report pg r ev).clk = s.clk :=
  (reportOnly_report s pg r ev).clk
@[simp] theorem State.report_power (pg : Nat) (r : Rec) (ev : Option Nat) : (s.report pg r ev).power = s.power :=
  (reportOnly_report s pg r ev).power
@[simp] theorem State.report_boot (pg : Nat) (r : Rec) (ev : Option Nat) : (s.report pg r ev).boot = s.boot :=
  (reportOnly_report s pg r ev).boot
@[simp] theorem State.report_hostp (pg : Nat) (r : Rec) (ev : Option Nat) : (s.report pg r ev).hostp = s.hostp :=
  (reportOnly_report s pg r ev).hostp
@[simp] theorem State.report_cores (pg : Nat) (r : Rec) (ev : Option Nat) : (s.report pg r ev).cores = s.cores :=
  (reportOnly_report s pg r ev).cores

end Sys2Proof.Machine
end

