-- ==== Sys2Proof/Laws/Words.lean ====
section
/-! SUPPORT. Which stored words an update of a register page may change, and which an event or an error record may
(R489 to R492), in the terms of `WordsKept`. -/
namespace Sys2Proof

open Machine

theorem WordsKept.refl (s : State) (f : Nat → Nat → Bool) : WordsKept s s f := fun _ _ _ _ => rfl

theorem WordsKept.trans {s t u : State} {f : Nat → Nat → Bool} (h : WordsKept s t f) (g : WordsKept t u f) :
    WordsKept s u f := fun pg o ho hf => (g pg o ho hf).trans (h pg o ho hf)

/-- Naming more words says less. -/
theorem WordsKept.mono {s t : State} {f g : Nat → Nat → Bool} (h : WordsKept s t f)
    (le : ∀ pg o, f pg o = true → g pg o = true) : WordsKept s t g := fun pg o ho hg => h pg o ho (by
  cases hf : f pg o with
  | false => rfl
  | true => rw [le pg o hf] at hg; cases hg)

/-- States with the same stored words. -/
theorem WordsKept.of_regs {s t : State} (h : t.regs = s.regs) (f : Nat → Nat → Bool) : WordsKept s t f :=
  fun pg o _ _ => by unfold State.reg; rw [h]

variable (s : State)

theorem wordsKept_setReg (p x : Nat) (v : W32) (hx : x < 0x1000) {f : Nat → Nat → Bool} (hf : f p x = true) :
    WordsKept s (s.setReg p x v) f := fun pg o ho h => s.reg_setReg_other p x v hx ho (by
  by_cases h1 : pg = p
  · by_cases h2 : o = x
    · rw [h1, h2, hf] at h; cases h
    · exact .inr h2
  · exact .inl h1)

theorem wordsKept_orReg (p x : Nat) (m : W32) (hx : x < 0x1000) {f : Nat → Nat → Bool} (hf : f p x = true) :
    WordsKept s (s.orReg p x m) f := fun pg o ho h =>
  wordsKept_setReg s p x (s.reg p x ||| m) hx hf pg o ho h

theorem wordsKept_setFld (p x hi lo v : Nat) (hx : x < 0x1000) {f : Nat → Nat → Bool} (hf : f p x = true) :
    WordsKept s (s.setFld p x hi lo v) f := wordsKept_setReg s p x _ hx hf

theorem wordsKept_count (p x k : Nat) (hx : x < 0x1000) {f : Nat → Nat → Bool} (hf : f p x = true) :
    WordsKept s (s.count p x k) f := fun pg o ho h =>
  wordsKept_setReg s p x (BitVec.ofNat 32 (min (2 ^ 32 - 1) ((s.reg p x).toNat + k))) hx hf pg o ho h

theorem wordsKept_setReg64 (p x v : Nat) (hx : x + 4 < 0x1000) {f : Nat → Nat → Bool} (hf : f p x = true)
    (hg : f p (x + 4) = true) : WordsKept s (s.setReg64 p x v) f :=
  (wordsKept_setReg s p x _ (by omega) hf).trans (wordsKept_setReg _ p (x + 4) _ hx hg)

/-! ### Events -/

theorem wordsKept_drop (b : W32) : WordsKept s (s.drop b) evrWord :=
  (wordsKept_orReg s pgEvr 0x100 b (by decide) (by decide)).trans (wordsKept_count _ pgEvr 0x114 1 (by decide) (by decide))

theorem wordsKept_enqueueRaw (d : Dest) (x : Delivery) : WordsKept s (s.enqueueRaw d x).1 evrWord := by
  unfold State.enqueueRaw
  cases d <;> simp only <;> split
  · exact .of_regs rfl _
  · exact wordsKept_drop s _
  · exact .of_regs rfl _
  · exact wordsKept_drop s _
  · exact .of_regs rfl _
  · exact wordsKept_drop s _

theorem wordsKept_enqueueAll (ds : List Dest) (x : Delivery) : ∀ s : State, WordsKept s (s.enqueueAll ds x).1 evrWord := by
  induction ds with
  | nil => intro s; exact .refl s _
  | cons d ds ih => intro s; exact (wordsKept_enqueueRaw s d x).trans (ih _)

theorem wordsKept_setRaw (p i : Nat) : WordsKept s (s.setRaw p i) fun pg o => pg == p && [0x010, 0x01C].contains o := by
  unfold State.setRaw
  exact (WordsKept.trans (t := (s.noteWas p 0x010).noteWas p 0x01C) (.of_regs rfl _)
    (wordsKept_orReg _ p 0x010 _ (by decide) (by simp))).trans (wordsKept_setReg _ p 0x01C _ (by decide) (by simp))

theorem wordsKept_deliver (pg i : Nat) (r : Option (List Byte)) : WordsKept s (s.deliver pg i r).1 evrWord := by
  have h : ∀ ds x n, WordsKept s (State.enqueueAll { s with router.nextEv := n } ds x).1 evrWord := fun ds x n =>
    WordsKept.trans (t := { s with router.nextEv := n }) (.of_regs rfl _) (wordsKept_enqueueAll ds x _)
  unfold State.deliver
  simp only
  split
  · exact (h _ _ _).trans (wordsKept_count _ pgEvr 0x110 1 (by decide) (by decide))
  · exact h _ _ _

theorem wordsKept_raiseOvf : WordsKept s s.raiseOvf evrWord := by
  have h : WordsKept s (s.setRaw pgEvr 0) evrWord := (wordsKept_setRaw s pgEvr 0).mono fun pg o h => by
    simp only [evrWord, Bool.and_eq_true, beq_iff_eq, List.contains_cons, List.contains_nil, Bool.or_eq_true] at h ⊢
    exact ⟨h.1, h.2.elim .inl fun g => g.elim (fun g => .inr (.inl g)) fun g => nomatch g⟩
  unfold State.raiseOvf
  simp only
  split
  · exact h.trans (wordsKept_deliver _ _ _ _)
  · exact h

theorem wordsKept_recToSteward (pg : Nat) (b : List Byte) : WordsKept s (s.recToSteward pg b) evrWord := by
  unfold State.recToSteward
  generalize (if s.rst.warmReq then Dest.host else Dest.steward) = d
  have h : ∀ x n, WordsKept s (State.enqueueRaw { s with router.nextEv := n } d x).1 evrWord := fun x n =>
    WordsKept.trans (t := { s with router.nextEv := n }) (.of_regs rfl _) (wordsKept_enqueueRaw _ d x)
  simp only
  split
  · exact h _ _
  · exact (h _ _).trans (wordsKept_raiseOvf _)

theorem evrWord_le (p pg o : Nat) (h : evrWord pg o = true) : eventWord p pg o = true := by simp [eventWord, h]

/-- An event of page `p` changes that page's EVRAW and EVFIRST and the event router's words, and no other word. -/
theorem wordsKept_raiseWith (p i : Nat) (r : Option (List Byte)) : WordsKept s (s.raiseWith p i r) (eventWord p) := by
  unfold State.raiseWith
  have h1 : WordsKept s (s.setRaw p i) (eventWord p) := (wordsKept_setRaw s p i).mono fun pg o h => by
    simp only [eventWord]; rw [h]; rfl
  have h2 := h1.trans ((wordsKept_deliver (s.setRaw p i) p i r).mono (evrWord_le p))
  have h3 := h2.trans ((wordsKept_raiseOvf _).mono (evrWord_le p))
  have rec_ : ∀ t b, WordsKept s t (eventWord p) → WordsKept s (t.recToSteward p b) (eventWord p) :=
    fun t b h => h.trans ((wordsKept_recToSteward t p b).mono (evrWord_le p))
  cases r with
  | none =>
    simp only
    split
    · split
      · exact h2
      · exact h3
    · exact h1
  | some b =>
    simp only
    split
    · split
      · split
        · exact h2
        · exact h3
      · split
        · exact rec_ _ _ h2
        · exact rec_ _ _ h3
    · exact rec_ _ _ h1

theorem wordsKept_raise (p i : Nat) : WordsKept s (s.raise p i) (eventWord p) := wordsKept_raiseWith s p i none

/-- A bit set with the event of its page changes its word and what the event changes. -/
theorem wordsKept_orRaise {p x i : Nat} {m : W32} {f : Nat → Nat → Bool} (hx : x < 0x1000) (hf : f p x = true)
    (le : ∀ pg o, eventWord p pg o = true → f pg o = true) : WordsKept s ((s.orReg p x m).raise p i) f :=
  (wordsKept_orReg s p x m hx hf).trans ((wordsKept_raise (s.orReg p x m) p i).mono le)

/-- A record with its event changes the words the event does; a record alone those of the event router. -/
theorem wordsKept_report (p : Nat) (r : Rec) (ev : Option Nat) : WordsKept s (s.report p r ev) (eventWord p) := by
  have h : ∀ b, WordsKept s (s.putRec p b) (eventWord p) := fun b => .of_regs rfl _
  unfold State.report
  generalize s.recBytes p r = b
  have hb := h b
  simp only
  generalize s.putRec p b = t at hb ⊢
  cases ev with
  | none => exact hb.trans ((wordsKept_recToSteward t p b).mono (evrWord_le p))
  | some i => exact hb.trans (wordsKept_raiseWith t p i (some b))

end Sys2Proof
end

