-- ==== Sys2Proof/Laws/Arcs.lean ====
section
/-! SUPPORT. The shared operations of arcs and tokens: when an entry fires and what firing changes, what completing one changes,
and what a token does; and the three things a step can be. -/
namespace Sys2Proof

open Machine

variable (s : Machine.State)

/-! ### Tokens (R58, R78) -/

@[simp] theorem arcTok_same (u i : Nat) (a : Bool) : arcTokOf (s.arcTok u i a) u i = arcTokOf s u i + 1 := by
  unfold arcTokOf State.arcTok ArcUnit.inc
  rw [State.setArcu_arcu_same]
  exact mget_mput_same _ _ _ _

theorem arcTok_other (u i : Nat) (a : Bool) {v j : Nat} (h : v ≠ u ∨ j ≠ i) : arcTokOf (s.arcTok u i a) v j = arcTokOf s v j := by
  unfold arcTokOf State.arcTok ArcUnit.inc
  by_cases hv : v = u
  · subst hv
    rw [State.setArcu_arcu_same]
    exact mget_mput_ne _ _ _ (h.resolve_left fun g => g rfl)
  · rw [State.setArcu_arcu_ne _ _ _ hv]

/-- A token signalled into an arc table leaves every table's entries alone. -/
theorem arcTok_active (u i : Nat) (a : Bool) (v : Nat) : ((s.arcTok u i a).arcu v).active = (s.arcu v).active := by
  unfold State.arcTok ArcUnit.inc
  by_cases hv : v = u
  · subst hv; rw [State.setArcu_arcu_same]
  · rw [State.setArcu_arcu_ne _ _ _ hv]

/-- A tile token counter rises by one, modulo 2^32, and the tile's other counters stay. -/
theorem tileTok_reg (t i j : Nat) (hi : i < 64) (hj : j < 64) :
    tileTokOf (s.tileTok t i) t j = tileTokOf s t j + (if j = i then 1 else 0) := by
  have key : ∀ u : Machine.State, WordsKept (s.setReg (pgTile t) (0x200 + 4 * i) (tileTokOf s t i + 1)) u
      (fun pg o => pg == pgTile t && o == 0x108 || eventWord (pgTile t) pg o) →
      tileTokOf u t j = tileTokOf s t j + (if j = i then 1 else 0) := by
    intro u h
    have e : u.reg (pgTile t) (0x200 + 4 * j) =
        (s.setReg (pgTile t) (0x200 + 4 * i) (tileTokOf s t i + 1)).reg (pgTile t) (0x200 + 4 * j) := by
      refine h _ _ (by omega) ?_
      have h1 : (0x200 + 4 * j == 0x108) = false := by simp; omega
      simp [eventWord, evrWord, h1]
      omega
    unfold tileTokOf
    rw [e]
    by_cases hji : j = i
    · subst hji; rw [State.reg_setReg_same, if_pos rfl]; rfl
    · rw [State.reg_setReg_other _ _ _ _ (by omega) (by omega) (.inr (by omega)), if_neg hji]
      exact (BitVec.add_zero _).symm
  have noted := WordsKept.of_regs (s := s.setReg (pgTile t) (0x200 + 4 * i) (tileTokOf s t i + 1))
    (t := (s.setReg (pgTile t) (0x200 + 4 * i) (tileTokOf s t i + 1)).noteCnt (pgTile t) (0x200 + 4 * i) 1) rfl
    fun pg o => pg == pgTile t && o == 0x108 || eventWord (pgTile t) pg o
  unfold State.tileTok
  simp only
  rw [show s.reg (pgTile t) (0x200 + 4 * i) = tileTokOf s t i from rfl]
  generalize (s.setReg (pgTile t) (0x200 + 4 * i) (tileTokOf s t i + 1)).noteCnt (pgTile t) (0x200 + 4 * i) 1 = u at noted ⊢
  split
  · exact key _ (noted.trans (wordsKept_orRaise u (by decide) (by simp) fun pg o h => by simp [h]))
  · exact key _ noted

/-! ### Firing (R59, R60) -/

/-- An entry fires exactly when it can. -/
theorem arcFires_iff (u e act : Nat) (x : ArcEnt) : s.arcFires u e act = some x ↔
    (s.arcu u).active[e]? = some x ∧ s.arcMay u = true ∧ x.action = act ∧ s.arcReady u x = true ∧
      ((s.arcu u).active.take e).all (fun y => !s.arcReady u y) = true := by
  unfold State.arcFires
  simp only
  cases h : (s.arcu u).active[e]? with
  | none => simp
  | some y =>
    simp only [Option.some.injEq]
    constructor
    · intro g
      split at g
      · rename_i c
        cases g
        exact ⟨rfl, c⟩
      · cases g
    · rintro ⟨rfl, c⟩
      rw [if_pos c]

theorem fire_pos {u e act : Nat} {x : ArcEnt} (f : ArcEnt → Machine.State → Machine.State) (h : s.arcFires u e act = some x) :
    s.fire u e act f = f x (s.arcFired u e) := by unfold State.fire; rw [h]

theorem fire_neg {u e act : Nat} (f : ArcEnt → Machine.State → Machine.State) (h : s.arcFires u e act = none) :
    s.fire u e act f = s := by unfold State.fire; rw [h]

/-- Firing changes the state of that entry alone. -/
theorem arcFired_eq {u e : Nat} {x : ArcEnt} (h : (s.arcu u).active[e]? = some x) :
    s.arcFired u e = s.setArcu u { s.arcu u with
      active := (s.arcu u).active.set e { x with st := .fired }, firedAt := s.clk + 1 } := by
  unfold State.arcFired
  simp only
  rw [h]

/-! ### Completion (R60) -/

/-- Completing a FIRED entry makes it DONE, and raises the counter it names unless a wrapper completed it. -/
theorem completeArc_eq {u e : Nat} {x : ArcEnt} (w : Bool) (h : (s.arcu u).active[e]? = some x) (hx : x.st = .fired) :
    s.completeArc u e w =
      (let t := s.setArcu u { s.arcu u with active := (s.arcu u).active.set e { x with st := .done, doneAng := s.tb.prevAng } }
       if x.w1.getLsbD 22 && !w then t.arcTok u (bits x.w1.toNat 21 16) true else t) := by
  unfold State.completeArc
  simp only
  rw [h]
  simp only [hx, ne_eq, not_true_eq_false, if_false]

/-- An entry that is not FIRED is not completed. -/
theorem completeArc_none {u e : Nat} (w : Bool) (h : ∀ x, (s.arcu u).active[e]? = some x → x.st ≠ .fired) :
    s.completeArc u e w = s := by
  unfold State.completeArc
  simp only
  cases g : (s.arcu u).active[e]? with
  | none => rfl
  | some x => simp only [h x g, ne_eq, not_false_eq_true, if_true]

/-- Completion changes only an arc unit. -/
theorem completeArc_arcs (u e : Nat) (w : Bool) : { s.completeArc u e w with arcs := s.arcs } = s := by
  unfold State.completeArc
  simp only
  split
  · rfl
  · split
    · rfl
    · split <;> rfl

theorem completeArc_regs (u e : Nat) (w : Bool) : (s.completeArc u e w).regs = s.regs := by
  have h := congrArg State.regs (completeArc_arcs s u e w)
  exact h

theorem completeArc_mem (u e : Nat) (w : Bool) : (s.completeArc u e w).mem = s.mem := by
  have h := congrArg State.mem (completeArc_arcs s u e w)
  exact h

/-- An arc that fails writes a record, and is complete. -/
theorem failArc_mem (u e code : Nat) : (s.failArc u e code).mem = s.mem := by
  unfold State.failArc
  rw [completeArc_mem, State.report_mem]

end Sys2Proof
end

