-- ==== Sys2Proof/Laws/Memory.lean ====
section
/-! SUPPORT. The memory operations: what a write does and leaves alone, and that each keeps the canonical form of memory. -/
namespace Sys2Proof.Machine

variable (s : State)

/-! ### The bytes of a write -/

theorem State.poke_wf (a : Nat) (bs : List (PVal Byte)) (h : Memory.wf s = true) : Memory.wf (s.poke a bs) = true := by
  unfold State.poke Memory.wf
  split
  · exact Store.wf_poisonWords _ _ _ (Store.wf_wr _ _ _ h)
  · exact Store.wf_poisonWords _ _ _ (Store.wf_wr _ _ _ h)
  · exact Store.wf_wr _ _ _ h

/-- Known bytes are written as they are, whatever the region. -/
theorem State.poke_known (a : Nat) (bs : List (PVal Byte)) (h : ∀ b ∈ bs, b ≠ none) :
    s.poke a bs = { s with mem := s.mem.wr a bs } := by
  unfold State.poke
  split
  · rw [Store.poisonWords_some bs _ _ h]
  · rw [Store.poisonWords_some bs _ _ h]
  · rfl

/-- Known bytes written: every byte outside them reads as before. -/
theorem State.poke_at_out (a : Nat) (bs : List (PVal Byte)) (h : ∀ b ∈ bs, b ≠ none) (x : Nat)
    (hx : x < a ∨ a + bs.length ≤ x) : (s.poke a bs).mem.at_ x = s.mem.at_ x := by
  rw [State.poke_known s a bs h]
  exact Store.at_wr_out bs _ _ _ hx

/-- Known bytes written are read back. -/
theorem State.poke_rd (a : Nat) (bs : List (PVal Byte)) (h : ∀ b ∈ bs, b ≠ none) :
    (s.poke a bs).mem.rd a bs.length = bs := by
  rw [State.poke_known s a bs h]
  exact Store.rd_wr bs _ _

/-! ### What a write can answer -/

@[simp] theorem State.markWritten_mem (p l off n : Nat) : (s.markWritten p l off n).mem = s.mem := rfl

theorem State.fold_markWritten_mem (ps : List (Nat × Nat × Nat × Nat)) : ∀ s : State,
    (ps.foldl (fun t x => State.markWritten t x.1 x.2.1 x.2.2.1 x.2.2.2) s).mem = s.mem := by
  induction ps with
  | nil => intro s; rfl
  | cons x ps ih => intro s; exact (ih _).trans (s.markWritten_mem _ _ _ _)

theorem State.poke_mem_congr {s t : State} (h : t.mem = s.mem) (a : Nat) (bs : List (PVal Byte)) :
    (t.poke a bs).mem = (s.poke a bs).mem := by
  unfold State.poke
  split <;> simp [h]

@[simp] theorem State.fplRefuse_mem (p bit entry a : Nat) : (s.fplRefuse p bit entry a).mem = s.mem := by
  unfold State.fplRefuse
  simp only [State.raise_mem, State.orReg_mem]
  split <;> simp

@[simp] theorem State.postcodeSaid_mem : s.postcodeSaid.mem = s.mem := by
  unfold State.postcodeSaid
  simp

/-- A write that the field plane refuses changes no byte (R239, R367, R368). -/
theorem State.refused_mem {w : Who} {a : Nat} {ps : List (Nat × Nat × Nat × Nat)} {t : State} (h : s.refused w a ps = some t) :
    t.mem = s.mem := by
  revert h
  unfold State.refused
  generalize ps.findSome? (fun x => (s.postcode x.1 x.2.1 x.2.2.1 x.2.2.2).map fun i => (x.1, i)) = post
  generalize (if w = .steward then none
    else ps.findSome? fun x => (s.retHit x.1 x.2.1 x.2.2.1 x.2.2.2).map fun i => (x.1, i)) = ret
  generalize s.fplForbids ps = f
  rcases f with _ | ⟨p, i, b⟩ <;> rcases ret with _ | ⟨q, j⟩ <;> rcases post with _ | ⟨r, k⟩ <;>
    simp only [reduceCtorEq, Option.some.injEq, false_implies] <;> rintro rfl <;> simp

/-- Memory after a write: its bytes are in it when it was done; it is as before when it was refused or is held. -/
def WrRes.MemIs (a : Nat) (bs : List (PVal Byte)) : WrRes → Prop
  | .ok t => (t.mem = s.mem ∧ bs = []) ∨ t.mem = (s.poke a bs).mem
  | .err t => t.mem = s.mem
  | .hold _ => True

/-- A write done puts its bytes into memory; a write refused leaves memory as it was (R239, R265, R269, R368). -/
theorem State.store_mem (w : Who) (a : Nat) (bs : List (PVal Byte)) : WrRes.MemIs s a bs (s.store w a bs) := by
  unfold State.store
  simp only
  split
  · rename_i h
    exact .inl ⟨rfl, List.eq_nil_of_length_eq_zero h⟩
  · split
    · exact Eq.refl s.mem
    · split
      · exact Eq.refl s.mem
      · exact .inr rfl
      · split
        · exact Eq.refl s.mem
        · exact .inr rfl
      · split
        · exact .inr rfl
        · split
          · rename_i h
            exact s.refused_mem h
          · split
            · exact Eq.refl s.mem
            · split
              · trivial
              · exact .inr (State.poke_mem_congr (s := s) (State.fold_markWritten_mem _ _) _ _)
      · exact Eq.refl s.mem

/-- A state that a write answers has its memory in canonical form. -/
def WrRes.Wf : WrRes → Prop
  | .ok t => Memory.wf t = true
  | .err t => Memory.wf t = true
  | .hold _ => True

theorem State.store_wf (w : Who) (a : Nat) (bs : List (PVal Byte)) (h : Memory.wf s = true) : (s.store w a bs).Wf := by
  have m := s.store_mem w a bs
  have k := s.poke_wf a bs h
  revert m
  cases s.store w a bs with
  | ok t =>
    rintro (⟨m, -⟩ | m)
    · exact (congrArg Store.wf m).trans h
    · exact (congrArg Store.wf m).trans k
  | err t => intro m; exact (congrArg Store.wf m).trans h
  | hold k => intro _; trivial

theorem State.put_wf (w : Who) (a : Nat) (bs : List (PVal Byte)) (h : Memory.wf s = true) :
    Memory.wf (s.put w a bs).1 = true := by
  have m := s.store_wf w a bs h
  unfold State.put
  revert m
  cases s.store w a bs with
  | ok t => exact id
  | err t => exact id
  | hold k => intro _; exact h

/-- A write in two pieces keeps the canonical form, whichever of its pieces is refused. -/
theorem State.storeParts_wf (w : Who) (ps : List (Nat × Nat)) (bs : List (PVal Byte)) (h : Memory.wf s = true) :
    (s.storeParts w ps bs).Wf := by
  rcases ps with _ | ⟨⟨x, n⟩, _ | ⟨⟨y, m⟩, _ | ⟨z, r⟩⟩⟩
  · exact h
  · exact s.store_wf w x bs h
  · simp only [State.storeParts]
    have g1 := s.store_wf w x (bs.take n) h
    revert g1
    cases s.store w x (bs.take n) with
    | ok t =>
      intro g1
      simp only
      have g2 := t.store_wf w y (bs.drop n) g1
      revert g2
      cases t.store w y (bs.drop n) with
      | ok u => exact id
      | err u => intro _; exact s.store_wf w y (bs.drop n) h
      | hold k => exact id
    | err t => exact id
    | hold k => exact id
  · exact h

theorem State.putX_wf (w : Who) (a : W64) (bs : List (PVal Byte)) (h : Memory.wf s = true) :
    Memory.wf (s.putX w a bs).1 = true := by
  have m : (s.storeX w a bs).Wf := by
    unfold State.storeX
    split
    · exact s.storeParts_wf w _ bs h
    · exact h
  unfold State.putX
  revert m
  cases s.storeX w a bs with
  | ok t => exact id
  | err t => exact id
  | hold k => intro _; exact h

theorem State.undef_wf (w : Who) (a : W64) (n : Nat) (h : Memory.wf s = true) : Memory.wf (s.undef w a n) = true :=
  State.putX_wf _ w a _ h

/-- A write refused by the tiers or held changes no byte; a write done changes only its own bytes. -/
theorem State.put_at_out (w : Who) (a : Nat) (bs : List (PVal Byte)) (hb : ∀ b ∈ bs, b ≠ none) (x : Nat)
    (hx : x < a ∨ a + bs.length ≤ x) : (s.put w a bs).1.mem.at_ x = s.mem.at_ x := by
  have m := s.store_mem w a bs
  unfold State.put
  revert m
  cases s.store w a bs with
  | ok t =>
    rintro (⟨m, -⟩ | m)
    · exact congrArg (fun m => m.at_ x) m
    · exact (congrArg (fun m => m.at_ x) m).trans (s.poke_at_out a bs hb x hx)
  | err t => intro m; exact congrArg (fun m => m.at_ x) m
  | hold k => intro _; rfl

/-! ### Whole ranges and error marks -/

theorem mwf_foldl_range {α : Type} [DecidableEq α] (d v : α) (b n : Nat) (m : SMap α) (h : mwf d m = true) :
    mwf d ((List.range n).foldl (fun m i => mput d m (b + i) v) m) = true :=
  mwf_foldl_mput d (fun i => b + i) (fun _ => v) _ _ h

theorem State.markUE_wf (a : Nat) (h : Memory.wf s = true) : Memory.wf (s.markUE a) = true := by
  have g := (Store.wf_iff _).1 h
  have c := mwf_foldl_range (0 : Byte) 0 (a / 8 * 8) 8 s.mem.cells g.1
  have p := mwf_foldl_range (0 : BitVec 2) 2 (a / 8 * 8) 8 s.mem.poison g.2
  unfold Memory.wf State.markUE
  rw [Store.wf_iff]
  refine ⟨?_, ?_⟩
  · dsimp only
    exact c
  · dsimp only
    exact p

theorem mem_ite {c : Prop} [Decidable c] (x y : State) {m : Store} (hx : x.mem = m) (hy : y.mem = m) :
    (if c then x else y).mem = m := by
  split
  · exact hx
  · exact hy

theorem State.noteUE_mem (a : Nat) : (s.noteUE a).mem = s.mem := by
  unfold State.noteUE
  split
  · simp only [State.report_mem, State.orReg_mem]
    exact mem_ite _ _ rfl rfl
  · simp only [State.report_mem, State.orReg_mem]
    exact mem_ite _ _ rfl rfl
  · rfl

theorem mget_correct (a x : Nat) (l : List Nat) : ∀ m : SMap (BitVec 2),
    mget 0 (l.foldl (fun m i => if mget 0 m (a + i) = 3 then mdel m (a + i) else m) m) x = mget 0 m x ∨
      (mget 0 m x = 3 ∧ mget 0 (l.foldl (fun m i => if mget 0 m (a + i) = 3 then mdel m (a + i) else m) m) x = 0) := by
  induction l with
  | nil => intro m; exact .inl rfl
  | cons i l ih =>
    intro m
    simp only [List.foldl_cons]
    by_cases h : mget 0 m (a + i) = 3
    · rw [if_pos h]
      by_cases hx : x = a + i
      · subst hx
        refine .inr ⟨h, ?_⟩
        rcases ih (mdel m (a + i)) with g | g
        · rw [g, mget_mdel_same]
        · exact g.2
      · have e := mget_mdel_ne (0 : BitVec 2) m hx
        rw [← e]
        exact ih _
    · rw [if_neg h]
      exact ih m

theorem mwf_correct (a : Nat) (l : List Nat) : ∀ m : SMap (BitVec 2), mwf 0 m = true →
    mwf 0 (l.foldl (fun m i => if mget 0 m (a + i) = 3 then mdel m (a + i) else m) m) = true := by
  induction l with
  | nil => intro m h; exact h
  | cons i l ih =>
    intro m h
    refine ih _ ?_
    dsimp only
    split
    · exact mwfFrom_mdel 0 m _ 0 h
    · exact h

/-- Correcting errors changes no byte that is read. -/
theorem Store.at_correct (st : Store) (a n x : Nat) : (st.correct a n).at_ x = st.at_ x := by
  unfold Store.at_ Store.correct
  rcases mget_correct a x (List.range n) st.poison with g | ⟨g, e⟩
  · simp only [g]
  · simp only [e, g, true_or, or_true]

theorem Store.wf_correct (st : Store) (a n : Nat) (h : st.wf = true) : (st.correct a n).wf = true := by
  rw [Store.wf_iff] at h ⊢
  exact ⟨h.1, mwf_correct a _ _ h.2⟩

/-- Memory as a reader sees it is the same, and in canonical form if it was. -/
def SameBytes (s t : State) : Prop := (∀ x, t.mem.at_ x = s.mem.at_ x) ∧ (Memory.wf s = true → Memory.wf t = true)

theorem SameBytes.of_mem {s t : State} (h : t.mem = s.mem) : SameBytes s t := ⟨fun x => by rw [h], fun g => by
  unfold Memory.wf; rw [h]; exact g⟩

theorem SameBytes.trans {s t u : State} (h : SameBytes s t) (g : SameBytes t u) : SameBytes s u :=
  ⟨fun x => (g.1 x).trans (h.1 x), fun w => g.2 (h.2 w)⟩

theorem SameBytes.fold {α : Type} (f : State → α → State) (h : ∀ s x, SameBytes s (f s x)) (l : List α) :
    ∀ s, SameBytes s (l.foldl f s) := by
  induction l with
  | nil => intro s; exact .of_mem rfl
  | cons x l ih => intro s; exact (h s x).trans (ih _)

theorem State.spareRow_mem (p row : Nat) : (s.spareRow p row).mem = s.mem := by
  unfold State.spareRow
  simp only
  repeat' split
  all_goals rfl

theorem State.rowErr_mem (p row : Nat) : (s.rowErr p row).mem = s.mem := by
  unfold State.rowErr
  simp only
  repeat' split
  all_goals first
    | rfl
    | exact State.spareRow_mem _ _ _

theorem State.noteCE_same (a : Nat) : SameBytes s (s.noteCE a) := by
  have h : SameBytes s { s with mem := s.mem.correct (a / codeUnit a * codeUnit a) (codeUnit a) } :=
    ⟨Store.at_correct _ _ _, Store.wf_correct _ _ _⟩
  unfold State.noteCE
  simp only
  split
  · exact h.trans (.of_mem (State.rowErr_mem _ _ _))
  · exact h.trans (.of_mem rfl)
  · exact h

/-- The errors that a read meets are corrected, counted and recorded, or the read is held; every byte reads as before. -/
theorem State.readNote_same (a n : Nat) : SameBytes s (s.readNote a n) := by
  unfold State.readNote
  split
  · exact .of_mem rfl
  · refine .trans (.fold _ (fun t x => t.noteCE_same x) _ s) (.fold _ (fun t x => ?_) _ _)
    simp only
    split
    · exact .of_mem ((State.spareRow_mem _ _ _).trans (t.noteUE_mem x))
    · exact .of_mem (t.noteUE_mem x)

theorem mwfFrom_append {α : Type} [DecidableEq α] (d : α) {hi : Nat} (r : SMap α) (hr : mwfFrom d hi r = true) (l : SMap α) :
    ∀ lo, lo ≤ hi → mwfFrom d lo l = true → (∀ e ∈ l, e.1 < hi) → mwfFrom d lo (l ++ r) = true := by
  induction l with
  | nil => intro lo h _ _; exact mwfFrom_mono d r hr h
  | cons e l ih =>
    intro lo _ h k
    simp only [List.cons_append, mwfFrom, Bool.and_eq_true, decide_eq_true_eq] at h ⊢
    exact ⟨h.1, ih _ (k e (by simp)) h.2 fun x hx => k x (by simp [hx])⟩

/-- Entries of a rising range of numbers, the default ones left out. -/
theorem mwfFrom_range {α : Type} [DecidableEq α] (d : α) (f : Nat → α) (a n : Nat) :
    let l := (List.range n).filterMap fun i => if f i = d then none else some (a + i, f i)
    mwfFrom d a l = true ∧ ∀ e ∈ l, e.1 < a + n := by
  induction n with
  | zero => exact ⟨rfl, fun e h => by simp at h⟩
  | succ n ih =>
    simp only [List.range_succ, List.filterMap_append] at ih ⊢
    refine ⟨mwfFrom_append d (hi := a + n) _ ?_ _ a (by omega) ih.1 ih.2, fun e he => ?_⟩
    · by_cases h : f n = d <;> simp [h, mwfFrom]
    · rcases List.mem_append.1 he with h | h
      · have := ih.2 e h
        omega
      · by_cases g : f n = d
        · simp [g] at h
        · simp [g] at h
          subst h
          exact Nat.lt_succ_self _

/-- Contents that become undefined keep memory's form (R86, R276). -/
theorem State.openBytes_wf (a n : Nat) (h : Memory.wf s = true) : Memory.wf (s.openBytes a n) = true := by
  have g := (Store.wf_iff _).1 h
  have c := mwfFrom_range (0 : Byte) (fun i => Config.freeByte (s.fresh + i)) a n
  have hi : mwfFrom 0 (a + n) (s.mem.cells.filter fun c => decide (a + n ≤ c.1)) = true := by
    have k : ∀ (m : SMap Byte) (lo : Nat), mwfFrom 0 lo m = true →
        mwfFrom 0 (a + n) (m.filter fun c => decide (a + n ≤ c.1)) = true := by
      intro m
      induction m with
      | nil => intro _ _; rfl
      | cons e m ih =>
        intro lo hm
        simp only [mwfFrom, Bool.and_eq_true, decide_eq_true_eq] at hm
        by_cases he : a + n ≤ e.1
        · simp only [List.filter, he, decide_true, mwfFrom, Bool.and_eq_true, decide_eq_true_eq]
          exact ⟨⟨trivial, hm.1.2⟩, mwfFrom_filter 0 _ _ _ hm.2⟩
        · simp only [List.filter, he, decide_false]
          exact ih _ hm.2
    exact k _ _ g.1
  have mid := mwfFrom_append 0 _ hi _ a (by omega) c.1 c.2
  unfold Memory.wf State.openBytes
  rw [Store.wf_iff]
  refine ⟨?_, mwf_filter 0 _ _ g.2⟩
  show mwf 0 ((s.mem.cells.filter fun c => decide (c.1 < a)) ++ _ ++ _) = true
  rw [List.append_assoc]
  exact mwfFrom_append 0 _ mid _ 0 (by omega) (mwf_filter 0 _ _ g.1) fun e he => by simpa using (List.mem_filter.1 he).2

theorem memory_clear_wf (a n : Nat) (h : Memory.wf s = true) : Memory.wf { s with mem := s.mem.clear a n } = true :=
  Store.wf_clear _ a n h

theorem memory_swap_wf (a b n : Nat) (h : Memory.wf s = true) : Memory.wf { s with mem := s.mem.swap a b n } = true :=
  Store.wf_swap _ a b n h

theorem memory_copyRange_wf (a b n : Nat) (h : Memory.wf s = true) :
    Memory.wf { s with mem := s.mem.copyRange a b n } = true := Store.wf_copyRange _ a b n h

theorem memory_wr_wf (a : Nat) (bs : List (PVal Byte)) (h : Memory.wf s = true) :
    Memory.wf { s with mem := s.mem.wr a bs } = true := Store.wf_wr bs _ a h

/-- Reset memory lists nothing. -/
theorem reset_memory_wf : Memory.wf State.reset = true := rfl

end Sys2Proof.Machine
end

