-- ==== Sys2Proof/Laws/Step.lean ====
section
/-! SUPPORT. What a step is: the command at the front of the queue, or one nanosecond. -/
namespace Sys2Proof.Machine

theorem step_cons {s : State} {c : Instr} {q : List Instr} (h : s.pending = c :: q) : step s = exec c { s with pending := q } := by
  unfold step; rw [h]

theorem step_nil {s : State} (h : s.pending = []) : step s = .next s.nanosecond := by
  unfold step; rw [h]

end Sys2Proof.Machine
end

