-- ==== Sys2Proof/Tests/Base.lean ====
section
/-! SUPPORT. The small state that the tests and the witnesses start from: a module in service, with one job, one partition
whose tiles 0 to 47 are logical tiles, and one stack of its pod, and the helpers that change one thing of it. -/
namespace Sys2Proof.Tests

open Machine

/-- Partition 0 with logical tiles 0 to 47 on its tiles 0 to 47. -/
def part0 : Part := { Part.reset with n := 48, grade := 48, tmap := List.range 48 }

/-- A module out of reset (phase 8) with its steward, host link and job 5 of generation 1 stepping. -/
def base : State :=
  { State.reset with
    clk := 1000
    rst := { RstSeq.reset with running := false, phase := 8, loaded := true }
    boot := { Boot.reset with stewardUp := true, idOk := true, image := some [] }
    hostp := ⟨true, 6, 16, Store.empty, [], [], 0x1000000000⟩
    modId := some 1
    mgmtList := some 9 :: List.replicate 7 none
    jobs := [(5, ⟨.live, 1, none, 0, 0⟩)]
    mjob := some (5, 1)
    ust := [(0, ⟨.active, some 0⟩), (1, ⟨.active, some 1⟩), (60, ⟨.spare, none⟩), (1736, ⟨.active, none⟩)]
    parts := [(0, part0)]
    tiles := [(0, { Tile.reset with seq := .idle }), (1, { Tile.reset with seq := .idle })]
    tb := { Timebase.reset with caldone := true, timevalid := true, reflock := true, time := 1000, admitted := true } }

/-- `base` with tile 0 changed. -/
def tile0 (f : Tile → Tile) : State := base.setTile 0 (f (base.tile 0))

/-- Bytes put into memory. -/
def withBytes (a : Nat) (bs : List Byte) (s : State) : State := { s with mem := s.mem.wr a (bs.map some) }

/-- `base` with partition 0 changed. -/
def withPart (f : Part → Part) : State := base.setPart 0 (f part0)

/-- `base` with the timebase changed. -/
def withTb (f : Timebase → Timebase) : State := { base with tb := f base.tb }

/-- An arc entry of action `a` with no wait counts: target `t`, argument `g`, in state `st`. -/
def arc (a t g : Nat) (st : ArcSt := .armed) (w1 : W64 := 0) : ArcEnt :=
  ⟨BitVec.ofNat 64 (a * 2 ^ 32), w1, BitVec.ofNat 64 t, BitVec.ofNat 64 g, st, 0, false⟩

/-- `base` with one arc in the active table of unit `u`. -/
def withArc (u : Nat) (x : ArcEnt) (s : State := base) : State := s.setArcu u { ArcUnit.reset with active := [x] }

/-- An arc fires where the model says that it can. -/
theorem arcCanFire_of {s : State} {u e act : Nat} {x : ArcEnt} (h : s.arcFires u e act = some x) : ArcCanFire s u e act x := by
  obtain ⟨h1, h2, h3, h4, h6⟩ := (arcFires_iff s u e act x).1 h
  unfold State.arcReady at h4
  unfold State.arcMay at h2
  simp only [Bool.and_eq_true, Bool.or_eq_true, beq_iff_eq, decide_eq_true_eq, bne_iff_ne, ne_eq, Bool.not_eq_true'] at h2 h4
  refine ⟨h2.1.1.1, h1, h3, h4.1.1.1.1, h4.1.1.1.2, h4.1.1.2, h4.1.2, ?_, h2.1.2, h2.1.1.2, h2.2, ?_⟩
  · rw [← h3]; exact h4.2
  · intro i y hi hy
    have g := List.all_eq_true.1 h6 y (List.mem_of_getElem? (i := i) (by rw [List.getElem?_take, if_pos hi]; exact hy))
    simpa using g

/-- Words in the tile's instruction memory, from its start. -/
def withCode (ws : List Nat) (s : State) : State := { s with mem := s.mem.wr (imemOf 0) ((ws.flatMap (toLE 8)).map some) }

/-- Tile 0 about to issue the first of the words. -/
def issuing (ws : List Nat) (f : Tile → Tile := fun x => x) : State := withCode ws (tile0 fun x => f { x with seq := .run })

/-- Tile 0 with `e` the next entry of queue `q`. -/
def starting (q : Nat) (e : QEntry) (f : Tile → Tile := fun x => x) : State := tile0 fun x => f (x.setQueue q [e])

/-- An entry of an engine queue as issue leaves it: its words and its address registers. -/
def entry (w : Nat) (ops : List Nat) (e1 e2 : Nat := 0) : QEntry :=
  { id := 0, word := BitVec.ofNat 64 w, ext1 := BitVec.ofNat 64 e1, ext2 := BitVec.ofNat 64 e2
    ops := (ops.map fun v => some (BitVec.ofNat 64 v)) ++ List.replicate (16 - ops.length) (some 0)
    pc := 0, posted := false, inItem := false, st := .queued, flags := 0, err := none, var := 0, feed := none, need := 0, since := 0 }

/-- A word, when its tile may issue it. -/
theorem issues_of {s : State} {k w e1 e2 n : Nat} (h : s.fetch k = .words w e1 e2 n ∧ k < 1152 ∧ s.tileOn k = true ∧
    ((s.tile k).seq = .run ∨ (s.tile k).seq = .wait) ∧ (s.tile k).ended = none ∧ s.pageBusy (pgTile k) = false ∧
    wordOk w e1 e2 = true ∧ wWcnt w ≤ s.tokSeen k (wWidx w)) : Issues s k w e1 e2 n :=
  ⟨h.2.1, h.2.2.1, h.2.2.2.1, h.2.2.2.2.1, h.2.2.2.2.2.1, h.1, h.2.2.2.2.2.2.1, h.2.2.2.2.2.2.2⟩

/-- An entry, when its engine may take it. -/
theorem starts_of {s : State} {k q : Nat} {e : QEntry} (h : (s.tile k).nextEntry q = some e ∧ k < 1152 ∧ s.tileOn k = true ∧
    s.pageBusy (pgTile k) = false) : Starts s k q e := ⟨h.2.1, h.2.2.1, h.2.2.2, h.1⟩

/-- A memory with no error word, and no rebuild. -/
theorem noErrors_of {s : State} (h : s.cs.st ≠ .rebuild ∧ (s.mem.poison.all fun e => e.2 == 1) = true) : NoErrors s :=
  ⟨h.1, fun e he => by simpa using List.all_eq_true.1 h.2 e he⟩

/-- Context 0 of job 5 to this module itself, which may send and take atomics. -/
def ctx0 : Ctx := { Ctx.none_ with tag := 5, gen := 1, valid := true, send := true, atom := true, dst := 1, peer := 1 }

/-- The write was done. -/
def isDone : WrRes → Bool
  | .ok _ => true
  | _ => false

theorem done_of {r : WrRes} (h : isDone r = true) : ∃ v, r = .ok v := by
  cases r with
  | ok v => exact ⟨v, rfl⟩
  | err v => cases h
  | hold k => cases h

/-- What goes to the module itself has a route. -/
theorem routed_of {s : State} {x : Ctx} (h : s.modId = some x.dst ∧ s.live x.tag x.gen = true) : Routed s x := by
  refine ⟨h.2, fun k hd _ _ _ => ?_⟩
  unfold State.routeOwn
  rw [h.1, hd]
  simp

/-- What a state outside every group holds back: nothing. -/
theorem noHolds_of {s : State} (h : s.cs.group = none) : NoHolds s := by
  intro p l o n
  have hm : s.codingMap = [] := by unfold State.codingMap; rw [h]
  unfold State.holdAt State.codedHits
  rw [hm]
  rfl

/-- What every partition's entry says, said of the entry of partition 0 and of one at reset. -/
theorem parts_of {P : Part → Prop} (f : Part → Part) (h0 : P (f part0)) (h : P Part.reset) (p : Nat) : P ((withPart f).part p) := by
  unfold withPart State.part State.setPart
  rw [mget_mput]
  split
  · exact h0
  · rename_i hp
    simpa [base, mget_cons, Ne.symm hp] using h

/-- Answer of a command, or the state it was given. -/
def after (i : Instr) (s : State) : State :=
  match exec i s with
  | .next t => t
  | _ => s

end Sys2Proof.Tests
end

