-- ==== Sys2Proof/WellFormed.lean ====
section
/-! DEFINITION. Which commands name things that the module has: the ranges of tile, partition, port and other numbers, and
the lengths of what a command brings. A meaning leaves the machine unchanged where a number is out of range (log 1). -/
namespace Sys2Proof

/-- Tile (R12). -/
def tileWf (t : Nat) : Bool := decide (t < 1152)
/-- Partition (R14). -/
def partWf (p : Nat) : Bool := decide (p < 16)
/-- Arc unit: 16 partition units and the module unit (R55). -/
def unitWf (u : Nat) : Bool := decide (u < 17)
/-- Arc entry: 256 in a partition's table, 64 in the module's (R55). -/
def entryWf (u e : Nat) : Bool := decide (e < if u = 16 then 64 else 256)
/-- Engine queue of a tile (R75). -/
def queueWf (q : Nat) : Bool := decide (q < 4)
/-- Work-list slot (R90). -/
def slotWf (k : Nat) : Bool := decide (k < 4)
/-- Byte offset in a partition's near tier (R267). -/
def nearWf (o : Nat) : Bool := decide (o < 0x100000000)
/-- 4 KiB row of a partition's near tier (R271). -/
def rowWf (r : Nat) : Bool := decide (r < 0x100000)
/-- Requester of a stack port (R277). -/
def reqWf (n : Nat) : Bool := decide (n < 16)
/-- Burst of 64 B to 8 KiB in multiples of 64 B (R277). -/
def burstWf (b : BurstReq) : Bool := reqWf b.n && decide (64 ≤ b.bytes) && decide (b.bytes ≤ 8192) && b.bytes % 64 == 0
/-- Fabric port (R287). -/
def portWf (i : Nat) : Bool := decide (i < 72)
/-- Queue of STOREs and atomics: one for each port and one for the module's own (R330). -/
def linePortWf (i : Nat) : Bool := decide (i < 73)
/-- Lane of a port (R287). -/
def laneWf (l : Nat) : Bool := decide (l < 4)
/-- F-die (R16). -/
def dieWf (f : Nat) : Bool := decide (f < 2)
/-- Route set (R297). -/
def setWf (k : Nat) : Bool := decide (k < 8)
/-- A run of at most 128 of a route set's 256 entries (R297, Table 19.6). -/
def entriesWf (first : Nat) (es : List W32) : Bool := decide (es.length ≤ 128) && decide (first + es.length ≤ 256)
/-- Access inside the 48-bit address map (R264). -/
def addrWf (a n : Nat) : Bool := decide (a + n ≤ 2 ^ 48)
/-- The bytes of a write are as many as its length. -/
def dataWf (n : Nat) (wr : Option (List Byte)) : Bool := (wr.getD (List.replicate n 0)).length == n
/-- Kind of hold (R373): 1 coding, 2 rebuild, 3 drain. -/
def kindWf (k : Nat) : Bool := decide (1 ≤ k) && decide (k ≤ 3)
/-- Unit number of a far-tier channel (R391). -/
def chanWf (c : Nat) : Bool := decide (1152 ≤ c) && decide (c < 1664)
/-- Option slots and history entries that exist (R394, R427). -/
def optionWf (o : OptionLoad) : Bool :=
  o.slots.all (fun b => decide (b.1 < 20) && decide (b.2.length ≤ 65536)) && (o.lost.all fun k => decide (k < 20)) &&
    o.histLost.all fun u => decide (u < 1802)
/-- MSI-X vector (R458). -/
def vectorWf (v : Nat) : Bool := decide (v < 2048)
/-- Temperatures of 20 dies and voltages of 56 rails (R481). -/
def sampleWf (m : Sample) : Bool := m.temps.length == 20 && m.volts.length == 56
/-- Speed and width of a PCIe link (R457). -/
def linkWf (speed width : Nat) : Bool := decide (1 ≤ speed) && decide (speed ≤ 7) && [1, 2, 4, 8, 16].contains width
/-- A register access is 4 or 8 bytes, aligned (R9). -/
def sizeWf (off n : Nat) : Bool := (n == 4 || n == 8) && off % n == 0
/-- Service core (R442). -/
def coreWf (c : Nat) : Bool := decide (c < 64)
/-- Host ring (R462). -/
def ringWf (r : Nat) : Bool := decide (r < 256)
/-- Register page (R484). -/
def pageWf (page : Nat) : Bool := decide (page < 0x4000)
/-- A ring frame has its length byte (Table 13.6). -/
def frameWf (b : List Byte) : Bool := decide (0 < b.length)

/-- The command names what the module has. -/
def Instr.wf (i : Instr) : Bool :=
  match i with
  | .time _ | .timeSlew | .calCw _ | .calCcw _ | .calLoop _ | .admitToken _ _ | .mark _ | .stepRelease | .arrive
  | .overtime | .repVarclr | .ringFrameTx _ | .ringInsert _ | .loadReq | .loadRsp | .store | .put | .atomReq
  | .atomRsp | .nak | .atomResend _ | .flowTimeout _ | .admitJob _ _ _ _ | .teardown _ _ _ | .tagQuarantineEnd _
  | .collContrib | .collResult | .collBlock | .collBarrier | .collFold _ _ | .collTimeout _ | .rcCollect _
  | .rcResult _ | .rcResend _ | .rcHoldExpire _ | .csLoad _ | .codeDelta | .codeAck | .codeEnd | .codeReady | .rebReq
  | .rebRsp | .rebuildDone | .freeze _ _ _ | .regen _ _ _ _ | .recover _ _ | .drainDone | .vltRestore _
  | .restoreEpochList _ | .restoreChoice _ | .errorRecord | .stewardTakeover | .pwrOkRise | .pwrOkFall | .sysRstN
  | .perst | .rstCtlWarm _ _ | .rstCtlPartrst _ _ | .warmReset _ | .rstHbeat _ _ | .watchdogBite | .stewardRestart
  | .configUpdate _ _ | .bootGo _ | .imgVerifyDone _ | .attQuote _ | .attExtend _ | .mgmtHello _ | .setId _ _
  | .hostLinkDown | .vaultCmdDone _ | .vaultCmdTimeout | .vaultLinkDown | .vaultLinkUp _ | .standbyEnter
  | .standbyExit | .governorUpdate | .refClkLoss | .inputUndervolt | .eventDelivery _ | .refClkRelock
  | .sysRstNRelease | .moduleWithdrawal | .historyWriteDone _ => true
  | .arcLate u | .arcCommit u _ | .arcLoadDone u => unitWf u
  | .arcNop u e | .arcToken u e | .arcCopy u e | .arcCode u e | .arcCollective u e | .arcDigestMark u e
  | .arcAudit u e | .arcAssemble u e | .arcSolve u e | .arcSignalModule u e | .arcSignalPart u e | .arcDrain u e
  | .arcComplete u e => unitWf u && entryWf u e
  | .tileImgload t | .tileImgloadDone t | .tileRun t | .tileStop t | .tileTokclr t | .nop t | .endI t | .waittok t
  | .qwait t | .jmp t | .loop t | .brz t | .brnz t | .bset t | .baddi t | .bmuli t | .balu t | .bld t | .bst t
  | .bgetc t | .mmad t _ | .mmas t _ | .mmax t _ | .castm t _ | .castf t _ | .dmark t _ | .dru t _ | .pivot t _
  | .solve t _ | .solveb t _ | .cpy t _ | .rget t _ | .rput t _ | .ratom t _ | .rinv t _ | .cwait t _ | .cscat t _
  | .vadd t _ | .vsub t _ | .vmul t _ | .vfma t _ | .vfnma t _ | .vmin t _ | .vmax t _ | .vclamp t _ | .vabs t _
  | .vneg t _ | .vand t _ | .vor t _ | .vxor t _ | .vshl t _ | .vshrl t _ | .vshra t _ | .vcvt t _ | .vcmp t _
  | .vsel t _ | .vld t _ | .vst t _ | .vsplat t _ | .vrsum t _ | .vrmax t _ | .vrmin t _ | .vdot t _ | .vcompress t _
  | .vexpand t _ | .vsetc t _ | .vecRegclr t | .arrDigclr t | .cwaitTimeout t _ | .auditSuiteDone t _ => tileWf t
  | .instrRetire t q _ => tileWf t && queueWf q
  | .wlGo p k => partWf p && slotWf k
  | .wlDispatch p | .sliceSwapDone p | .asmProgramStart p | .asmPassStart p | .asmRecord p | .asmProgramDone p
  | .asmLate p | .solveRequestStart p | .factorWorkListDone p | .solveCommitPoint p | .solveGuardLate p
  | .fplCommit p _ | .fplLoadDone p | .ftTempSample p _ | .arbWindow p | .ftPortWdog p | .partReset _ p
  | .partitionSleep p | .droop p | .droopRelease p => partWf p
  | .ntScrubPass p ce ue => partWf p && ce.all nearWf && ue.all nearWf
  | .rowSpareDone p row => partWf p && rowWf row
  | .arbDecision p reqs => partWf p && reqs.all burstWf
  | .arbBackoffEnd p n => partWf p && reqWf n
  | .portEnable i _ | .portTrainDone i _ | .flitTx i | .portTake _ i => portWf i
  | .packetRx b => portWf b.port && decide (b.vc < 8)
  | .laneFail i lane => portWf i && laneWf lane
  | .flitRx i r => portWf i && r.flit.payload.length == 244
  | .ringFrameRx _ f => frameWf f.bytes
  | .routeLoad _ k first es => setWf k && entriesWf first es
  | .routeBind _ k _ _ _ | .routeUnbind _ k => setWf k
  | .flwCreate f | .flwDestroy f | .flwRead f | .flwSetarr f | .flwWindow f | .flwUnwindow f | .flwAperture f
  | .flwInvall f => dieWf f
  | .apertureAccess addr len wr => addrWf addr len && dataWf len wr
  | .lineApply i => linePortWf i
  | .holdLate kind => kindWf kind
  | .pgctlFence page | .pgctlSrst page | .srstComplete page | .pgctlErrack page | .evenWrite page _
  | .errrecRead page => pageWf page
  | .resetPhase untrained => untrained.all chanWf
  | .optionLoadDone o => optionWf o
  | .partResetRelease p untrained | .partitionWake p untrained => partWf p && untrained.all chanWf
  | .attest _ nonce => nonce.length == 32
  | .setMgmt _ es => es.length == 8
  | .svcRun c | .svcPost c _ | .postIssue c | .psvAdd c _ | .psvSub c _ | .psvMul c _ | .psvMac c _ | .psvMin c _
  | .psvMax c _ | .psvRsum c _ | .psvLds c _ _ _ | .psvSts c _ _ _ | .psvIdleOff c | .psvWake c => coreWf c
  | .hringTail r _ | .hringEnable r _ | .ringNop r | .htom r _ | .mtoh r | .notify r | .ringEntryDone r => ringWf r
  | .bar2Access y len wr => addrWf y len && dataWf len wr
  | .hostAtomicop y op => addrWf y op.size
  | .msixUnmask v => vectorWf v
  | .hostLinkUp speed width _ => linkWf speed width
  | .sensorSample m => sampleWf m
  | .regWrite off _ size _ => sizeWf off size

end Sys2Proof
end

