-- ==== Sys2Proof/Tests/Slice0.lean ====
section
/-! SUPPORT. Smoke tests of the well-formedness checks: a command that each check refuses, beside one that it takes. -/
namespace Sys2Proof.Tests

open Machine

/-- The numbers of tiles, units, entries, queues and slots. -/
theorem test_wf_tile : (Instr.tileRun 1152).wf = false ∧ (Instr.tileRun 1151).wf = true := by decide
theorem test_wf_unit : (Instr.arcLate 17).wf = false ∧ (Instr.arcLate 16).wf = true := by decide
theorem test_wf_entry : (Instr.arcNop 16 64).wf = false ∧ (Instr.arcNop 0 256).wf = false ∧ (Instr.arcNop 0 255).wf = true := by
  decide
theorem test_wf_queue : (Instr.instrRetire 0 4 0).wf = false ∧ (Instr.instrRetire 0 3 0).wf = true := by decide
theorem test_wf_slot : (Instr.wlGo 0 4).wf = false ∧ (Instr.wlGo 0 3).wf = true := by decide
theorem test_wf_partition : (Instr.asmRecord 16).wf = false ∧ (Instr.asmRecord 15).wf = true := by decide

/-- Memory tiers. -/
theorem test_wf_near : (Instr.ntScrubPass 0 [] [0x100000000]).wf = false ∧ (Instr.ntScrubPass 0 [0x100000000] []).wf = false ∧
    (Instr.ntScrubPass 0 [0xFFFFFFFF] []).wf = true := by decide
theorem test_wf_row : (Instr.rowSpareDone 0 0x100000).wf = false ∧ (Instr.rowSpareDone 0 0xFFFFF).wf = true := by decide
theorem test_wf_requester : (Instr.arbBackoffEnd 0 16).wf = false ∧ (Instr.arbBackoffEnd 0 15).wf = true := by decide
theorem test_wf_burst : (Instr.arbDecision 0 [⟨0, 0, true⟩]).wf = false ∧ (Instr.arbDecision 0 [⟨0, 8256, true⟩]).wf = false ∧
    (Instr.arbDecision 0 [⟨0, 96, true⟩]).wf = false ∧ (Instr.arbDecision 0 [⟨15, 8192, true⟩]).wf = true := by decide

/-- Fabric. -/
theorem test_wf_port : (Instr.flitTx 72).wf = false ∧ (Instr.flitTx 71).wf = true := by decide
theorem test_wf_linePort : (Instr.lineApply 73).wf = false ∧ (Instr.lineApply 72).wf = true := by decide
theorem test_wf_lane : (Instr.laneFail 0 4).wf = false ∧ (Instr.laneFail 0 3).wf = true := by decide
theorem test_wf_flit : (Instr.flitRx 0 ⟨0, 0, ⟨0, true, true, false, 0, 0, false, 0, 0, [], 0⟩⟩).wf = false ∧
    (Instr.flitRx 0 ⟨0, 0, ⟨0, true, true, false, 0, 0, false, 0, 0, List.replicate 244 0, 0⟩⟩).wf = true := by decide +kernel
theorem test_wf_channel_of_packet : (Instr.packetRx ⟨0, 8⟩).wf = false ∧ (Instr.packetRx ⟨0, 7⟩).wf = true := by decide
theorem test_wf_frame : (Instr.ringFrameRx true ⟨0, []⟩).wf = false ∧ (Instr.ringFrameRx true ⟨0, [0]⟩).wf = true := by decide
theorem test_wf_die : (Instr.flwInvall 2).wf = false ∧ (Instr.flwInvall 1).wf = true := by decide

/-- An authenticated command from source 9, which `base` lists. -/
def auth : Auth := ⟨9, 0, 1, 0, true, true⟩

theorem test_wf_set : (Instr.routeUnbind auth 8).wf = false ∧ (Instr.routeUnbind auth 7).wf = true := by decide
theorem test_wf_entries : (Instr.routeLoad auth 0 129 (List.replicate 128 0)).wf = false ∧
    (Instr.routeLoad auth 0 0 (List.replicate 129 0)).wf = false ∧
    (Instr.routeLoad auth 0 128 (List.replicate 128 0)).wf = true := by decide +kernel
theorem test_wf_sources : (Instr.setMgmt auth []).wf = false ∧ (Instr.setMgmt auth (List.replicate 8 0)).wf = true := by decide
theorem test_wf_nonce : (Instr.attest auth []).wf = false ∧ (Instr.attest auth (List.replicate 32 0)).wf = true := by decide

/-- Accesses, host and core. -/
theorem test_wf_address : (Instr.apertureAccess (2 ^ 48) 1 none).wf = false ∧
    (Instr.apertureAccess (2 ^ 48 - 1) 1 none).wf = true := by decide
theorem test_wf_data : (Instr.bar2Access 0 2 (some [0])).wf = false ∧ (Instr.bar2Access 0 1 (some [0])).wf = true := by decide
theorem test_wf_vector : (Instr.msixUnmask 2048).wf = false ∧ (Instr.msixUnmask 2047).wf = true := by decide
theorem test_wf_link : (Instr.hostLinkUp 0 1 true).wf = false ∧ (Instr.hostLinkUp 8 1 true).wf = false ∧
    (Instr.hostLinkUp 7 3 true).wf = false ∧ (Instr.hostLinkUp 7 16 true).wf = true := by decide
theorem test_wf_ring : (Instr.ringNop 256).wf = false ∧ (Instr.ringNop 255).wf = true := by decide
theorem test_wf_core : (Instr.svcRun 64).wf = false ∧ (Instr.svcRun 63).wf = true := by decide
theorem test_wf_size : (Instr.regWrite 2 0 4 .host).wf = false ∧ (Instr.regWrite 0 0 2 .host).wf = false ∧
    (Instr.regWrite 8 0 8 .host).wf = true := by decide
theorem test_wf_page : (Instr.errrecRead 0x4000).wf = false ∧ (Instr.errrecRead 0x3FFF).wf = true := by decide

/-- Reset, options, faults and power. -/
theorem test_wf_hold : (Instr.holdLate 0).wf = false ∧ (Instr.holdLate 4).wf = false ∧ (Instr.holdLate 3).wf = true := by decide
theorem test_wf_channel : (Instr.resetPhase [1151]).wf = false ∧ (Instr.resetPhase [1664]).wf = false ∧
    (Instr.resetPhase [1152, 1663]).wf = true := by decide
theorem test_wf_option : (Instr.optionLoadDone ⟨[(20, [])], true, true, [], 0, [], []⟩).wf = false ∧
    (Instr.optionLoadDone ⟨[], true, true, [], 0, [1802], []⟩).wf = false := by decide
theorem test_wf_sample : (Instr.sensorSample ⟨[], [], 0, 0⟩).wf = false ∧
    (Instr.sensorSample ⟨List.replicate 20 0, List.replicate 56 0, 0, 0⟩).wf = true := by decide

/-- The word of a table row: the table gives no row bits, so a word spells no command. -/
theorem test_no_words (n w : Nat) : decodeTableWord n w = none := rfl

end Sys2Proof.Tests
end

