-- ==== Sys2Proof/Tests/Witness1.lean ====
section
/-! SUPPORT. Concrete states and operands that meet the hypotheses of the statements about the timebase, arcs and tiles: one
theorem for each clause group of a statement. -/
namespace Sys2Proof.Tests

open Machine

set_option Elab.async false

/-! ### Steps, nanoseconds, tokens -/

theorem witness_StepRunsFrontCommand : { base with pending := [.timeSlew, .stepRelease] }.pending = .timeSlew :: [.stepRelease] := rfl

theorem witness_EveryCommandCompletesAndLeavesTheQueue : exec .stepRelease base = .next base ∧ Instr.stepRelease ≠ .timeSlew :=
  ⟨rfl, by decide⟩

theorem witness_NanosecondsAdvancePodTime_queue : base.pending = [] ∧
    (after .timeSlew (withTb fun b => { b with slewCnt := 1022 })).tb.slewCnt = 1023 ∧
    (base.nanosecond.tb.slewCnt ≠ 1023 ∧ base.tb.diff = 0) ∧
    ((withTb fun b => { b with slewCnt := 1022, diff := 5 }).nanosecond.tb.slewCnt = 1023 ∧ (0 : Int) < 5) ∧
    ((withTb fun b => { b with slewCnt := 1022, diff := -1 }).nanosecond.tb.slewCnt = 1023 ∧ (-1 : Int) < 0) := by decide +kernel

/-- Nothing goes on by itself in `base`, while a write is held in it or none is; nor while one is held for a coding that has not
committed. -/
theorem witness_NanosecondsAdvancePodTime_quiet : Quiet base ∧ base.cs.held = none ∧
    Quiet { base with cs.held := some 0 } ∧ Quiet { base with cs := { base.cs with held := some 1, lastCoded := some 1, epoch := none } } ∧
    (base.core_ 0).heldPost = none :=
  have h : Quiet base :=
    ⟨parts_of (P := fun x => x.swap = []) id rfl rfl, parts_of (P := fun x => ∀ r, x.slv.run = some r → r.phase = .factor → r.slot ≠ none)
      id (fun _ h => by cases h) (fun _ h => by cases h), parts_of (P := fun x => x.far.refmode ≠ 3) id (by decide) (by decide),
      fun _ h => (by cases h), fun h => (by cases h)⟩
  ⟨h, rfl, ⟨h.swap, h.slot, h.stack, h.code, fun h => (by cases h)⟩, ⟨h.swap, h.slot, h.stack, h.code, fun _ => ⟨by decide, by decide⟩⟩, rfl⟩

theorem witness_NanosecondsAdvancePodTime_slew :
    let s := fun (d : Int) => withTb fun b => { b with slewCnt := 1022, diff := d }
    (∀ d ∈ ([-1, 0, 1] : List Int), (s d).tb.timevalid = true ∧ (s d).tb.slewCnt = 1022 ∧ (s d).tb.diff = d) := by decide +kernel

/-- A mark held, of step 7, to be released at nanosecond 1000. -/
def mark7 : Held := ⟨⟨2, true, 7, 1000⟩, 900, false, false⟩

theorem witness_TimeAndCalibrationTokens_time :
    State.reset.tb.caldone = false ∧
    (let s := withTb fun b => { b with timevalid := false, held := some mark7 }
     s.tb.caldone = true ∧ s.tb.timevalid = false ∧ s.tb.held = some mark7 ∧ mark7.mark.release.toNat ≤ 1000) ∧
    (base.tb.caldone = true ∧ base.tb.timevalid = true) := by decide +kernel

/-- The three clauses of RING_DELAY, where they meet: 0, the largest value, and one below it. -/
theorem witness_TimeAndCalibrationTokens_loop :
    let twice := fun (a b d : Nat) => (125 * a - 125 * b + d : Int)
    twice 0 2 250 ≤ 0 ∧ twice 0 0 1 = 1 ∧ 2 * 0xFFFFFF ≤ twice 0 0 (2 * 0xFFFFFF) ∧
      (0 ≤ twice 0 0 (2 * 0xFFFFFF - 1) ∧ twice 0 0 (2 * 0xFFFFFF - 1) < 2 * 0xFFFFFF) := by decide

theorem witness_MarkAndAdmitTokens :
    (withTb fun b => { b with held := some mark7 }).tb.held.isSome = true ∧ base.tb.held = none ∧
    (withTb fun b => { b with instep := true }).tb.instep = true ∧
    (mark7.mark.release.toNat ≤ base.tb.time.toNat ∧ base.tb.timevalid = true ∧ base.tb.instep = false) ∧
    (1 : BitVec 6) ≠ base.pins.slot ∧ (0 : BitVec 6) = base.pins.slot := by decide +kernel

/-! ### Release, arrival, lateness -/

theorem witness_StepsAreReleasedAndArrive_due :
    let s := (withTb fun b => { b with held := some mark7 }).setArcu 0 { ArcUnit.reset with shadow := [arc 0 0 0 .idle], ready := true }
    s.tb.held = some mark7 ∧ s.tb.timevalid = true ∧ s.tb.instep = false ∧ mark7.mark.release.toNat ≤ s.tb.time.toNat ∧
      mark7.arrival < s.clk ∧ mark7.early = false ∧ (s.arcu 0).ready = true ∧ (s.arcu 0).commitNs ≠ s.clk := by decide +kernel

/-- An early mark, released after the arrival; and nothing to release: no mark, before its time, without time, in a step. -/
theorem witness_StepsAreReleasedAndArrive_early :
    let s := withTb fun b => { b with held := some { mark7 with early := true }, arrivedNs := 950 }
    (s.tb.held = some { mark7 with early := true } ∧ s.tb.arrivedNs < s.clk) ∧ base.tb.held = none ∧
    (let u := withTb fun b => { b with held := some mark7, time := 999 }
     u.tb.held = some mark7 ∧ u.tb.time.toNat < mark7.mark.release.toNat) ∧
    (withTb fun b => { b with held := some mark7, timevalid := false }).tb.timevalid = false ∧
    (withTb fun b => { b with held := some mark7, instep := true }).tb.instep = true := by decide +kernel

theorem witness_StepsAreReleasedAndArrive_arrive :
    let s := fun (st : ArcSt) => withArc 0 (arc 0 0 0 st) { (withTb fun b => { b with instep := true, relNs := 990 }) with inRing := true }
    ((s .done).tb.instep = true ∧ (s .done).tb.relNs < (s .done).clk ∧ (s .done).ringCw.length < 8 ∧ (s .done).ringWait = [] ∧
      (s .done).anyCut = false ∧ ((s .done).setPart 0 { part0 with cut := true }).anyCut = true ∧
      ∀ u, u ≤ 16 → ∀ x ∈ ((s .done).arcu u).active, x.st = .done ∨ x.st = .idle) ∧
    (∃ x ∈ ((s .armed).arcu 0).active, x.st = .armed) ∧ ∃ x ∈ ((s .fired).arcu 0).active, x.st = .fired := by decide +kernel

theorem witness_AngleOvertimeAndLateArcs_angle :
    base.tb.period = 0 ∧
    (let s := withTb fun b => { b with period := 100, start := 901 }
     0 < s.tb.period ∧ s.angle < 65535) ∧
    (let s := withTb fun b => { b with period := 100, start := 900 }
     0 < s.tb.period ∧ s.angle = 65535) := by decide +kernel

theorem witness_AngleOvertimeAndLateArcs_overtime :
    let s := withTb fun b => { b with instep := true, period := 100, start := 900 }
    s.tb.period ≠ 0 ∧ s.angle = 65535 ∧ s.tb.overtime = false ∧ base.tb.period = 0 := by decide +kernel

/-- An arc with guard 100, its step past it. -/
theorem witness_AngleOvertimeAndLateArcs_late :
    let x : ArcEnt := { arc 0 0 0 with w0 := 100 * 2 ^ 16 }
    let s := withArc 3 x (withTb fun b => { b with instep := true, period := 100, start := 950, prevAng := 32112 })
    let u := s.setArcu 3 { s.arcu 3 with lateSeen := true }
    ((s.arcu 3).active[0]? = some x ∧ s.arcLateNow x = true ∧ (s.arcu 3).lateSeen = false) ∧
      (u.arcLateNow x = true ∧ (u.arcu 3).lateSeen = true) := by decide +kernel

/-- An arc whose guard is the angle that the last nanosecond reached, and one whose guard is above it. -/
theorem witness_AngleOvertimeAndLateArcs_guard :
    let x : ArcEnt := { arc 0 0 0 with w0 := 100 * 2 ^ 16 }
    let s := fun (a : Nat) => withTb fun b => { b with period := 100, prevAng := a }
    x.guard_ ≠ 0 ∧ (s 99).tb.period ≠ 0 ∧ x.late = false ∧ x.st = .armed ∧ (s 100).arcLateNow x = true ∧ (s 99).arcLateNow x = false := by
  decide +kernel

/-! ### Arc tables -/

theorem witness_ArcTablesCommit_commit : base.pageBusy (pgArc 0) = false ∧ base.pageBusy (pgArc 16) = false ∧
    (1 : W32).getLsbD 0 = true ∧ (0 : W32).getLsbD 0 = false := by decide +kernel

/-- `base` with unit 0 copying `n` entries from `a`. -/
def loadingArcs (u a n : Nat) : State := base.setArcu u { ArcUnit.reset with loading := some (a, n) }

theorem witness_ArcTablesCommit_load :
    (let s := loadingArcs 0 0x10000000000 1
     let bs := List.replicate 32 (some (0 : Byte))
     (s.arcu 0).loading = some (0x10000000000, 1) ∧ inNear 0x10000000000 32 = true ∧ s.load .unit 0x10000000000 32 = some bs ∧
       arcEntOf (bs.take 32) = some (arc 0 0 0 .idle) ∧ (arc 0 0 0 .idle).check 0 = 0) ∧
    ((loadingArcs 16 0 0).arcu 16).loading = some (0, 0) ∧ (loadingArcs 16 0 0).load .unit 0 (32 * 0) = some [] := by decide +kernel

/-- A table that is too long, one that is not in the near tier, one with a poisoned entry, and one with an action that is not. -/
theorem witness_ArcTablesCommit_fails :
    (((loadingArcs 0 0 257).arcu 0).loading = some (0, 257) ∧ 256 < 257) ∧
    (((loadingArcs 16 0 65).arcu 16).loading = some (0, 65) ∧ 64 < 65) ∧ inNear 0 32 = false ∧
    (let s := { loadingArcs 0 0x10000000000 1 with mem := Store.empty.wr 0x10000000000 [none] }
     (s.load .unit 0x10000000000 32).bind (fun bs => arcEntOf (bs.take 32)) = none ∧ (s.load .unit 0x10000000000 32).isSome = true) ∧
    (let s := { loadingArcs 0 0x10000000000 1 with mem := Store.empty.wr 0x10000000004 [some 0xFF] }
     ∃ x, (s.load .unit 0x10000000000 32).bind (fun bs => arcEntOf (bs.take 32)) = some x ∧ x.check 0 ≠ 0) := by
  refine ⟨by decide +kernel, by decide +kernel, by decide +kernel, by decide +kernel, arc 0xFF 0 0 .idle, by decide +kernel⟩

/-! ### Arcs that complete as they fire -/

theorem witness_NopSignalAndTokenArcs_nop : ArcCanFire (withArc 0 (arc 0 0 0)) 0 0 0 (arc 0 0 0) := arcCanFire_of (by decide +kernel)
theorem witness_NopSignalAndTokenArcs_module : ArcCanFire (withArc 0 (arc 9 0 63)) 0 0 9 (arc 9 0 63) := arcCanFire_of (by decide +kernel)
theorem witness_NopSignalAndTokenArcs_part : ArcCanFire (withArc 16 (arc 10 0xFFFF 5)) 16 0 10 (arc 10 0xFFFF 5) := arcCanFire_of (by decide +kernel)
theorem witness_NopSignalAndTokenArcs_token : ArcCanFire (withArc 0 (arc 1 3 5)) 0 0 1 (arc 1 3 5) ∧
    (withArc 0 (arc 1 3 5)).targets 0 3 = [0, 1] := ⟨arcCanFire_of (by decide +kernel), by decide +kernel⟩

end Sys2Proof.Tests
end

