-- ==== Sys2Proof/Tests/Witness4.lean ====
section
/-! SUPPORT. Concrete states and operands that meet the hypotheses of the statements about assembly, the solver and field tables. -/
namespace Sys2Proof.Tests

open Machine

set_option Elab.async false

/-! ### The Assembly Stage -/

/-- Base of partition 0's near tier. -/
def nt0 : Nat := 0x10000000000

/-- One word that a unit may write. -/
def WordFree (s : State) (y : Nat) : Prop :=
  regionOf y = .near 0 ∧ s.accessOk .unit y 8 = true ∧ s.partialBad y 8 = false ∧
    (s.refused .unit y (s.pieces 1200 y 8)).isNone = true ∧
    (s.pieces 1200 y 8).findSome? (fun x => s.holdAt x.1 x.2.1 x.2.2.1 x.2.2.2) = none

theorem store_free {s : State} {y : Nat} (h : WordFree s y) (bs : List (PVal Byte)) (hb : bs.length = 8) :
    ∃ u, s.store .unit y bs = .ok u := by
  obtain ⟨h1, h2, h3, h4, h5⟩ := h
  have h6 := Option.isNone_iff_eq_none.1 h4
  unfold State.store
  simp only [hb, h2, h1, h3, h6, h5]
  simp

/-- The words of a range may be written when each of them may. -/
theorem writable_of {s : State} {a n : Nat} (h : a % 8 = 0 ∧ ∀ i, i < n / 8 → WordFree s (a + 8 * i)) : Writable s a n := by
  intro x h1 h2 h3 bs hb
  have e : x = a + 8 * ((x - a) / 8) := by omega
  rw [e]
  exact store_free (h.2 _ (by omega)) bs hb

/-- A matrix header at `a`: form, order, bricks. -/
def mhdr (form n nblk bricks : Nat) : List Byte :=
  toLE 4 form ++ toLE 4 n ++ toLE 4 nblk ++ toLE 4 0 ++ toLE 8 0 ++ toLE 8 0 ++ toLE 8 bricks ++ toLE 8 0 ++ toLE 16 0

/-- A program over the matrix at 4096 of the near tier, with a pass of one element record, one that waits, one of none. -/
def asmBytes (ctl np : Nat) : List Byte :=
  toLE 8 (nt0 + 4096) ++ toLE 4 np ++ toLE 4 ctl ++ toLE 4 0 ++ toLE 4 1 ++ toLE 8 0 ++ toLE 32 0 ++
    ([(1, 0), (1, 1), (0, 0)].flatMap fun x : Nat × Nat =>
      toLE 4 1 ++ toLE 4 x.1 ++ toLE 8 (nt0 + 12288) ++ toLE 4 64 ++ toLE 2 0 ++ toLE 2 x.2 ++ toLE 8 0)

/-- An element record of one value at element (0, 0), of `ne` declared entries. -/
def recBytes (ne : Nat) : List Byte := toLE 4 7 ++ toLE 2 ne ++ toLE 2 0 ++ toLE 8 0 ++ toLE 8 0x3FF0000000000000

/-- Partition 0 with the program, its matrix of order 1 and its record in place. -/
def asmState (ctl np ne : Nat) (f : Part → Part) (s : State := base) : State :=
  let t := withBytes nt0 (asmBytes ctl np) (withBytes (nt0 + 4096) (mhdr 0 1 1 (nt0 + 8192)) (withBytes (nt0 + 12288) (recBytes ne) s))
  t.setPart 0 (f (t.part 0))

/-- The program with `np` passes as the stage reads it. -/
def asmProg0 (clear : Bool) (np : Nat) : AsmProg :=
  ⟨BitVec.ofNat 64 nt0, BitVec.ofNat 64 (nt0 + 4096), clear, false, 0, 1, 0,
    ([⟨1, 1, BitVec.ofNat 64 (nt0 + 12288), 64, 0, 0⟩, ⟨1, 1, BitVec.ofNat 64 (nt0 + 12288), 64, 0, 1⟩,
      ⟨1, 0, BitVec.ofNat 64 (nt0 + 12288), 64, 0, 0⟩] : List AsmPass).take np⟩

def mat1 : MatHdr := ⟨BitVec.ofNat 64 (nt0 + 4096), false, false, 1, 1, 0, 0, BitVec.ofNat 64 (nt0 + 8192), some 0⟩

theorem witness_AssemblyProgramsRun_start : ∀ clear ∈ [true, false],
    let s := asmState (if clear then 1 else 0) 3 1 fun x => { x with asm := ⟨[⟨0, nt0, false⟩], none⟩ }
    s.pageBusy (pgAsm 0) = false ∧ s.takesWork 0 = true ∧ (s.part 0).asm.run = none ∧ (s.part 0).asm.queue = [⟨0, nt0, false⟩] ∧
      s.asmProg (BitVec.ofNat 64 nt0) = some (asmProg0 clear 3) ∧ s.matHeld 0 (asmProg0 clear 3).matrix = false ∧
      s.matHdr (asmProg0 clear 3).matrix = some mat1 ∧ NoHolds s ∧ mat1.nb = 1 ∧
      Writable s mat1.bricks.toNat (512 * mat1.nb * mat1.nb) := by
  intro clear hc
  simp only [List.mem_cons, List.not_mem_nil, or_false] at hc
  rcases hc with rfl | rfl <;>
    exact ⟨by decide +kernel, by decide +kernel, by decide +kernel, by decide +kernel, by decide +kernel, by decide +kernel,
      by decide +kernel, noHolds_of (by decide +kernel), by decide +kernel, writable_of (by unfold WordFree; decide +kernel)⟩

/-- The run at pass `i`, started or not. -/
def asmRun0 (i : Nat) (st : Bool) : AsmRun := ⟨0, nt0, i, st, 0, none, false⟩

/-- Its pass 0 may start, its pass 1 waits for a token, its pass 2 has no records. -/
theorem witness_AssemblyProgramsRun_pass : ∀ i, i < 3 →
    let s := asmState 0 3 1 fun x => { x with asm := ⟨[], some (asmRun0 i false)⟩ }
    s.pageBusy (pgAsm 0) = false ∧ s.asmNow 0 = some (asmRun0 i false, asmProg0 false 3, mat1) ∧
      (asmProg0 false 3).passes[i]? = some ⟨1, if i = 2 then 0 else 1, BitVec.ofNat 64 (nt0 + 12288), 64, 0, if i = 1 then 1 else 0⟩ ∧
      (arcTokOf s 0 0).toNat = 0 := by decide +kernel

/-- A record of one entry passes; one that declares 65 does not. -/
theorem witness_AssemblyProgramsRun_record : ∀ ne ∈ [1, 65],
    let s := asmState 0 3 ne fun x => { x with asm := ⟨[], some (asmRun0 0 true)⟩ }
    let rec_ := elementRec (fun n => s.loadX .unit (plus (BitVec.ofNat 64 (nt0 + 12288)) (0 * 64)) n) 64 1 none
    (s.pageBusy (pgAsm 0) = false ∧ s.asmNow 0 = some (asmRun0 0 true, asmProg0 false 3, mat1) ∧
      rec_ = (if ne = 1 then some ⟨7, 24, [(.mat 0 0, some 0x3FF0000000000000, 0)]⟩ else none) ∧ s.bit (pgAsm 0) 0x100 8 = false) ∧
      NoErrors s ∧ NoHolds s ∧ Writable s mat1.bricks.toNat 512 := by
  intro ne hn
  simp only [List.mem_cons, List.not_mem_nil, or_false] at hn
  rcases hn with rfl | rfl <;>
    exact ⟨by decide +kernel, noErrors_of (by decide +kernel), noHolds_of (by decide +kernel), writable_of (by unfold WordFree; decide +kernel)⟩

/-- The end of a program with a credit of the ready queue and without, and its guard, reached. -/
theorem witness_AssemblyProgramsRun_done : ∀ n ∈ [7, 8],
    let x := { arc 7 0 nt0 .fired with w1 := 0 }
    let s := asmState 0 1 1 (fun x => { x with asm := ⟨[], some (asmRun0 1 false)⟩, slv := { x.slv with ready := List.replicate n 64 } })
      (withArc 0 x)
    (s.asmNow 0 = some (asmRun0 1 false, asmProg0 false 1, mat1) ∧ (s.arcu 0).active[0]? = some x ∧ x.st = .fired ∧
      s.pageBusy (pgAsm 0) = false ∧ (asmProg0 false 1).passes.length = 1 ∧ (s.part 0).slv.ready.length = n) ∧ NoHolds s ∧
      ∃ u, s.storeX .unit (plus mat1.at_ 48) (pBytes 8 (s.signature mat1)) = .ok u := by
  intro n hn
  simp only [List.mem_cons, List.not_mem_nil, or_false] at hn
  rcases hn with rfl | rfl <;> exact ⟨by decide +kernel, noHolds_of (by decide +kernel), done_of (by decide +kernel)⟩

/-- The same run while its arc's guard, angle 1, is reached half way into a step. -/
theorem witness_AssemblyProgramsRun_late :
    let x := { arc 7 0 nt0 .fired with w0 := BitVec.ofNat 64 (7 * 2 ^ 32 + 2 ^ 16) }
    let s := { asmState 0 1 1 (fun y => { y with asm := ⟨[], some (asmRun0 1 false)⟩ }) (withArc 0 x) with
      tb := { base.tb with period := 1000, start := 500 } }
    s.asmNow 0 = some (asmRun0 1 false, asmProg0 false 1, mat1) ∧ (s.arcu 0).active[0]? = some x ∧ x.st = .fired ∧
      (asmRun0 1 false).late = false ∧ s.guardReached x.guard_ = true := by decide +kernel

/-! ### The solver sequencer -/

/-- A program of method `m`, control byte `c`, at most `maxit` iterations and tolerance `tol`, over the matrix at 4096. -/
def solveBytes0 (m c maxit nscr tol : Nat) : List Byte :=
  toLE 1 m ++ toLE 1 0 ++ toLE 1 c ++ toLE 1 0 ++ toLE 4 maxit ++ toLE 2 0 ++ toLE 2 1 ++ toLE 4 0 ++ toLE 8 (nt0 + 4096) ++
    toLE 8 (nt0 + 24576) ++ toLE 8 (nt0 + 16384) ++ toLE 8 (nt0 + 20480) ++ toLE 8 0 ++ toLE 8 (nt0 + 65536) ++ toLE 4 nscr ++
    toLE 4 0 ++ toLE 8 tol ++ toLE 8 0 ++ toLE 8 0 ++ toLE 8 (nt0 + 28672) ++ toLE 24 0

/-- A vector header. -/
def vhdr (n data sig : Nat) : List Byte := toLE 4 n ++ toLE 4 0 ++ toLE 8 data ++ toLE 8 sig ++ toLE 40 0

/-- Signature of a dense symmetric matrix of order 1, poison where it has none. -/
def sig1 : Nat := (base.signature ⟨0, false, true, 1, 1, 0, 0, 0, some 0⟩).getD 0

/-- Partition 0 with a program, a symmetric matrix of order `n` whose one value is `v`, and its vectors and factor header. -/
def slvState (prog : List Byte) (n v sig : Nat) (f : Part → Part) : State :=
  let t := withBytes nt0 prog (withBytes (nt0 + 4096) (mhdr 2 n n (nt0 + 8192)) (withBytes (nt0 + 8192) (toLE 8 v)
    (withBytes (nt0 + 16384) (vhdr n (nt0 + 16448) 0) (withBytes (nt0 + 20480) (vhdr n (nt0 + 20544) sig)
      (withBytes (nt0 + 24576) (mhdr 2 n n (nt0 + 32768)) base)))))
  t.setPart 0 (f (t.part 0))

/-- A request of arc 0 with guard 1. -/
def req0 (b : Bool) (late : Bool := false) : SolveReq := ⟨nt0, .arc 0, b, 1, late⟩

def slvMat (n : Nat) : MatHdr := ⟨BitVec.ofNat 64 (nt0 + 4096), false, true, n, n, 0, 0, BitVec.ofNat 64 (nt0 + 8192), some 0⟩

/-- PCG warm and not, its SIG the matrix's and another's, over a matrix of order 1; of order 0; with no scratch; method 0. -/
theorem witness_SolvesRunToTheirEnd_start : ∀ x ∈ [(3, 16, 4, 1, sig1), (3, 16, 4, 1, sig1 + 1), (3, 0, 4, 1, 0), (3, 0, 4, 0, 0),
      (3, 0, 3, 1, 0), (0, 0, 1, 1, 0)],
    let b := solveBytes0 x.1 x.2.1 10 x.2.2.1 0
    let s := slvState b x.2.2.2.1 0x3FF0000000000000 x.2.2.2.2 fun y => { y with slv := { y.slv with queue := [req0 false] } }
    let g := solveProgOf b
    (s.pageBusy (pgSlv 0) = false ∧ s.takesWork 0 = true ∧ (s.part 0).slv.run = none ∧ (s.part 0).slv.queue = [req0 false] ∧
      s.solveBytes (BitVec.ofNat 64 nt0) = some b ∧ solveReserved b = false ∧ s.assembling 0 g.matrix = false ∧
      s.matHdr g.matrix = some (slvMat x.2.2.2.1) ∧ g.iterative = (x.1 == 3) ∧ g.warm = (x.2.1 == 16) ∧
      (x.2.2.2.1 = 1 → s.solveCheck 0 g (slvMat 1) = if x.2.2.1 = 3 then some 9 else none) ∧
      ((s.vecHdr g.x).map (·.sig) = some (some x.2.2.2.2)) ∧ s.signature (slvMat 1) = some sig1 ∧ sig1 < 2 ^ 64 - 1) ∧ NoHolds s := by
  intro x hx
  simp only [List.mem_cons, List.not_mem_nil, or_false] at hx
  rcases hx with rfl | rfl | rfl | rfl | rfl | rfl <;> exact ⟨by decide +kernel, noHolds_of (by decide +kernel)⟩

/-- A PCG run of order 1 after iteration 0: its iterate 0, residual `r`, direction 1, and ρ 1; a factor run at column `c`. -/
def slvRun (ph : SolvePhase) (c list : Nat) (r : Nat) (b late : Bool) : SolveRun :=
  { req := req0 b, consumed := false, phase := ph, col := c, list := list, slot := none, on := false, thr := 0, rep := 0
    piv := ⟨0, 0, 0, none, false, false, false⟩, refineLeft := 0, iter := 0, vecs := [[some 0], [some r], [some 0x3FF0000000000000]]
    scals := [some 0x3FF0000000000000], jac := [], bnorm := some 0x3FF0000000000000, flags := 0, late := late, sig := 0 }

/-- Commit points of PCG: breakdown (the matrix is 0); exact; infinite; at the limit; past the guard; going on. -/
theorem witness_SolvesRunToTheirEnd_iterate : ∀ x ∈ [(0, 0x3FF0000000000000, 10, false),
      (0x3FF0000000000000, 0x3FF0000000000000, 10, false),
      (0x3FF0000000000000, 0x7FF0000000000000, 10, false), (0x3FF0000000000000, 0x4000000000000000, 1, false),
      (0x3FF0000000000000, 0x4000000000000000, 3, true), (0x3FF0000000000000, 0x4000000000000000, 3, false)],
    let b := solveBytes0 3 0 x.2.2.1 4 0
    let r := slvRun .iterate 0 1 x.2.1 x.2.2.2 false
    let s := { slvState b 1 x.1 0 fun y => { y with slv := { y.slv with run := some r } } with
      tb := { base.tb with period := 1000, start := 500 } }
    let u := s.nextUnit (solveProgOf b) (slvMat 1) r false
    (s.pageBusy (pgSlv 0) = false ∧ s.solveNow 0 = some (r, solveProgOf b, slvMat 1) ∧ u.broke = (x.1 == 0) ∧
      (x.1 ≠ 0 → u.iter = 1 ∧ pfinite u.rnorm = (x.2.1 != 0x7FF0000000000000) ∧
        ple u.rnorm (pmul (some 0) r.bnorm).1 = (x.2.1 == 0x3FF0000000000000) ∧ (pdiv u.rnorm r.bnorm).1.isSome = true) ∧
      s.solveGuard r = true) ∧ NoHolds s ∧ NoErrors s := by
  intro x hx
  simp only [List.mem_cons, List.not_mem_nil, or_false] at hx
  rcases hx with rfl | rfl | rfl | rfl | rfl | rfl <;>
    exact ⟨by decide +kernel, noHolds_of (by decide +kernel), noErrors_of (by decide +kernel)⟩

/-- A factor over one brick column, whose one work list is its last, before the end and at it; and a factor over two, whose
first column has more lists. A slot is free; the run has the slot; no slot is free. -/
theorem witness_SolvesRunToTheirEnd_factor : ∀ x ∈ [(1, 0), (1, 1), (9, 0)], ∀ own ∈ ([none, some 0] : List (Option Nat)),
    let b := solveBytes0 0 0 0 1 0
    let r := { slvRun .factor x.2 0 0 false false with slot := own }
    let s := slvState b x.1 0x3FF0000000000000 0 fun y => { y with slv := { y.slv with run := some r } }
    let full := s.setPart 0 { s.part 0 with wl := List.replicate 4 { WlSlot.free with active := true } }
    (s.pageBusy (pgSlv 0) = false ∧ s.solveNow 0 = some (r, solveProgOf b, slvMat x.1) ∧ (solveProgOf b).method = 0 ∧ r.slot = own ∧
      ((s.part 0).wl[0]?).map (·.active) = some false ∧ (full.part 0).wl.all (·.active) = true ∧ full.solveNow 0 = s.solveNow 0 ∧
      (s.matHdr (solveProgOf b).fhdr).isSome = true ∧
      (slvMat x.1).nb = (x.1 + 7) / 8 ∧ (x.2 = 0 → 2 * (s.factorPlan (solveProgOf b) (slvMat x.1) 0).length = if x.1 = 9 then 6 else 2)) ∧
      NoHolds s ∧ NoHolds full ∧ NoErrors s := by
  intro x hx own ho
  simp only [List.mem_cons, List.not_mem_nil, or_false] at hx ho
  rcases hx with rfl | rfl | rfl <;> rcases ho with rfl | rfl <;>
    exact ⟨by decide +kernel, noHolds_of (by decide +kernel), noHolds_of (by decide +kernel), noErrors_of (by decide +kernel)⟩

theorem witness_SolvesRunToTheirEnd_late : ∀ late ∈ [true, false],
    let r := slvRun .iterate 0 1 0 false late
    let s := { withPart (fun y => { y with slv := { y.slv with run := some r } }) with tb := { base.tb with period := 1000, start := 500 } }
    (s.part 0).slv.run = some r ∧ s.solveGuard r = true ∧ r.late = late := by decide +kernel

/-- A request that waits at the head of the queue while its guard is reached. -/
theorem witness_SolvesRunToTheirEnd_waiting :
    let s := { withPart (fun y => { y with slv := { y.slv with queue := [req0 false] } }) with tb := { base.tb with period := 1000, start := 500 } }
    (s.part 0).slv.run = none ∧ (s.part 0).slv.queue = [req0 false] ∧ (req0 false).late = false ∧
      s.guardReached (s.waitGuard (req0 false)) = true := by decide +kernel

/-! ### Field tables -/

/-- An image entry: kind, format, first slice, slices, offset and length, no values. -/
def fplBytes (k first nsl off len : Nat) : List Byte :=
  toLE 1 k ++ toLE 1 3 ++ toLE 2 0 ++ toLE 1 first ++ toLE 1 nsl ++ toLE 2 0 ++ toLE 4 off ++ toLE 4 len ++ toLE 16 0

/-- COMMIT and a write without it; a copy of two entries that pass, of a second that overlaps, of a poisoned one, of none. -/
theorem witness_FieldTablesCommitAndProtect_commit :
    let img := fun (b : List (PVal Byte)) (n : Nat) => { withPart (fun x => { x with fpl := { x.fpl with loading := some (metaOf 0, n) } })
      with mem := base.mem.wr (metaOf 0) b }
    let ok := fplBytes 2 0 1 0 64 ++ fplBytes 2 0 1 64 64
    let bad := fplBytes 2 0 1 0 64 ++ fplBytes 1 0 1 32 64
    let chk := fun (b : List Byte) => fplCheck ((b.drop 32).take 32) [fplEntOf (b.take 32)]
    (1 : W32).getLsbD 0 = true ∧ (0 : W32).getLsbD 0 = false ∧ base.pageBusy (pgFpl 0) = false ∧ base.pageBusy pgRep = false ∧
      (img (ok.map some) 2).load .unit (metaOf 0) 64 = some (ok.map some) ∧ fplCheck (ok.take 32) [] = 0 ∧ chk ok = 0 ∧
      (img (bad.map some) 2).load .unit (metaOf 0) 64 = some (bad.map some) ∧ chk bad = 5 ∧
      (img ((ok.take 32).map some ++ [none]) 2).load .unit (metaOf 0) 64 = some ((ok.take 32).map some ++ [none] ++ List.replicate 31 (some 0)) ∧
      (img [] 0).load .unit (metaOf 0) 0 = some [] ∧
      (img [] 32).load .unit (metaOf 0) (32 * 32) = some (List.replicate 1024 (some 0)) ∧
      fplCheck (List.replicate 32 0) [] = 3 := by decide +kernel

/-- Entries of the three kinds, met and not met by bytes at either end of them, within a step and outside one. -/
theorem witness_FieldTablesCommitAndProtect_entries : ∀ k ∈ [1, 2, 3], ∀ step ∈ [true, false],
    let e : FplEnt := { kind := k, fmt := 3, ty := 0, first := 2, nsl := 1, off := 64, len := 64, nval := 0 }
    let s := withTb fun t => { t with instep := step }
    s.entForbids e 2 64 8 = (if k = 2 then some 6 else if k = 1 ∧ step = true then some 5 else none) ∧ s.entForbids e 2 120 8 = s.entForbids e 2 64 8 ∧
      s.releaseDue = none ∧ s.entForbids e 2 56 8 = none ∧ s.entForbids e 2 128 8 = none ∧ s.entForbids e 3 64 8 = none := by decide +kernel

/-- A release that is due in this nanosecond, of a step of the other half, and one that is not. -/
theorem witness_FieldTablesCommitAndProtect_due :
    let e : FplEnt := { kind := 1, fmt := 3, ty := 0, first := 2, nsl := 1, off := 64, len := 64, nval := 0 }
    let s := withTb fun t => { t with held := some ⟨⟨2, true, 7, 1000⟩, 900, false, false⟩ }
    (s.releaseDue.map (·.mark.stepIndex.toNat % 2)) = some 1 ∧ s.entForbids e 2 128 8 = some 5 ∧ s.entForbids e 2 64 8 = none ∧
      base.cntNow pgRep 0x108 = 0 := by decide +kernel

/-- A write into an active FROZEN entry of slice 0. -/
theorem witness_FieldTablesCommitAndProtect_forbidden :
    let e : FplEnt := { kind := 2, fmt := 3, ty := 0, first := 0, nsl := 1, off := 0, len := 64, nval := 0 }
    let s := withPart fun x => { x with fpl := { x.fpl with active := some [e] } }
    Who.unit ≠ .exempt ∧ s.accessOk .unit nt0 8 = true ∧ regionOf nt0 = .near 0 ∧ s.partialBad nt0 8 = false ∧
      s.fplForbids (s.pieces 1200 nt0 8) = some (0, 0, 6) ∧ s.bit (pgFpl 0) 0x110 5 = false ∧ s.bit (pgFpl 0) 0x110 6 = false := by
  decide +kernel

end Sys2Proof.Tests
end

