-- ==== Sys2Proof/Tests/Witness7.lean ====
section
/-! SUPPORT. Concrete states and operands that meet the hypotheses of the statements about management, jobs, configuration and
attestation. -/
namespace Sys2Proof.Tests

open Machine

set_option Elab.async false

/-- A heard and verified command of source 9, in any state with `base`'s steward, sources, boot ID and counter. -/
theorem verified_of {s : State} {cmd : Nat} (h : s.stewardOn = true ∧ (s.noMgmt = false ∧ s.mgmtKnows auth.src = true) ∧
    s.authStatus auth = 0 ∧ s.mgmtRoute auth.src ≠ .none_) : Verified s auth cmd := by
  obtain ⟨h1, ⟨h2, h3⟩, h4, h5⟩ := h
  refine ⟨⟨⟨h1, ?_⟩, h4⟩, h5⟩
  rw [h2]
  exact h3

/-- `base` with the port to its source's module FAILED. -/
def noWayBack : State := { base with ports := [(portOfPeer (((slotOf auth.src) + 128 - base.pins.slot.toNat - 1) % 64), { Port.reset with st := .failed })] }

/-- No source listed. -/
def unlisted : State := { base with mgmtList := List.replicate 8 none }

/-- A command from a source that is not listed; SET_MGMT and SET_ID with no source listed; each failing check; a source with a
route for the answer and one without, the latter accepted and saying HELLO. -/
theorem witness_ManagementCommandsAreVerifiedAndSetTables_checks :
    mgmtRow (.setId auth 3) = some (auth, 2) ∧ mgmtRow (.setMgmt auth []) = some (auth, 1) ∧
      (¬ Heard base { auth with src := 8 } 2) ∧ (¬ Heard unlisted auth 2) ∧ Heard unlisted auth 1 ∧ Heard base auth 2 ∧
      ({ auth with bootId := 1 } : Auth).bootId ≠ base.mgtBootId ∧ auth.bootId = base.mgtBootId ∧
      ({ auth with counter := 0 } : Auth).counter.toNat ≤ base.mgtCtr.toNat ∧ base.mgtCtr.toNat < auth.counter.toNat ∧
      base.keyPresent 1 = false ∧ base.keyPresent 0 = true ∧ ({ auth with sigOk := false } : Auth).sigOk = false ∧
      base.mgmtRoute auth.src ≠ .none_ ∧ noWayBack.mgmtRoute auth.src = .none_ ∧ Heard noWayBack auth 2 ∧ noWayBack.stewardOn = true ∧
      noWayBack.mgmtKnows auth.src = true := by
  unfold Heard
  decide +kernel

/-- `base` with set 0 as given. -/
def setState (valid : Bool) : State := { base with sets := [(0, ⟨5, 1, valid, false, []⟩)] }

/-- The largest load of the last entries of a set, one word more, and one entry on; a set that is VALID and one that is not. -/
theorem witness_ManagementCommandsAreVerifiedAndSetTables_routes : ∀ valid ∈ [true, false], ∀ cmd ∈ [0x20, 0x21, 0x22],
    Verified (setState valid) auth cmd ∧ (((setState valid).rset 0).valid = valid ∧ 0 < 8 ∧ 8 ≤ 8 ∧
      (List.replicate 128 (0 : W32)).length ≤ 128 ∧ 128 + (List.replicate 128 (0 : W32)).length ≤ 256 ∧
      128 < (List.replicate 129 (0 : W32)).length ∧ 256 < 129 + (List.replicate 128 (0 : W32)).length) := by
  intro valid hv cmd _
  simp only [List.mem_cons, List.not_mem_nil, or_false] at hv
  rcases hv with rfl | rfl <;> exact ⟨verified_of (by decide +kernel), by decide +kernel⟩

/-- PORT_TAKE of a FAILED port, of one that serves, of a FENCED one, and with the spare taken; the sources, the ID and MGMT_HELLO;
an ID that leaves a route for the answer, for a source with one and for one without. -/
theorem witness_ManagementCommandsAreVerifiedAndSetTables_ports : ∀ st ∈ [PortSt.failed, .up], ∀ taken ∈ [true, false],
    let s := { base with ports := [(70, { Port.reset with st := st }), (3, { Port.reset with taken := taken })] }
    Verified s auth 0x23 ∧ (s.portGone 70 = decide (st = .failed) ∧ 70 < 71 ∧ (s.port 3).taken = taken ∧
      (s.setUnit 1734 ⟨.fenced, none⟩).portGone 70 = true ∧
      (taken = false → ∀ j, j < 71 → (s.port j).taken = false) ∧ (List.replicate 8 (0x8003 : W32)).length = 8 ∧
      { s with modId := some 2 }.mgmtRoute auth.src ≠ .none_ ∧ { noWayBack with modId := some auth.src }.mgmtRoute auth.src ≠ .none_ ∧
      noWayBack.authStatus auth = 0 ∧
      unlisted.noMgmt = true ∧ unlisted.stewardOn = true ∧ s.mgmtKnows 9 = true) := by
  intro st hs taken ht
  simp only [List.mem_cons, List.not_mem_nil, or_false] at hs ht
  rcases hs with rfl | rfl <;> rcases ht with rfl | rfl <;> exact ⟨verified_of (by decide +kernel), by decide +kernel⟩

/-! ### Jobs -/

/-- `base` with the job table as given, and what steps. -/
def jobState (js : SMap Job) (m : Option (BitVec 16 × BitVec 8)) (stby : Bool := false) : State :=
  { base with jobs := js, mjob := m, power := { base.power with standby := stby } }

/-- ADMIT into an empty table, of a last generation, into a full table, beside a stepping job, and in Standby. -/
theorem witness_JobsLiveRetireFreezeAndRegenerate_admit :
    let full : SMap Job := (List.range 8).map fun i => (10 + i, ⟨.live, 1, none, 0, 0⟩)
    let old : SMap Job := [(6, ⟨.free, 1, some 1, 0, 0⟩)]
    (∀ s ∈ [jobState [] none, jobState full none, jobState old none, base, jobState [] none true],
      s.stewardOn = true ∧ (s.noMgmt = false ∧ s.mgmtKnows auth.src = true) ∧ s.authStatus auth = 0 ∧ s.mgmtRoute auth.src ≠ .none_) ∧
    ((jobState [] none).job 6).st = .free ∧ ((jobState [] none).job 6).lastGen ≠ some 1 ∧ (jobState [] none).liveTags < 8 ∧
      (jobState [] none).mjob = none ∧ (jobState [] none).power.standby = false ∧
      8 ≤ (jobState full none).liveTags ∧ ((jobState old none).job 6).lastGen = some 1 ∧ base.mjob ≠ none ∧ (base.job 5).st ≠ .free ∧
      (jobState [] none true).power.standby = true := by decide +kernel

/-- TEARDOWN, FREEZE and REGEN of the stepping job, of another, and of one that is not LIVE; the end of a quarantine and a moment
before it; a group loaded and none; RECOVER. -/
theorem witness_JobsLiveRetireFreezeAndRegenerate_others :
    let other := jobState base.jobs none
    let g := { base with cs := { base.cs with st := .coding, group := some ⟨5, 1, 2, 1, 0, 1, 0, 1, 0, [], [], 0⟩ } }
    let q := fun (t : Nat) => { jobState [(5, ⟨.retired, 1, some 1, 0, 0⟩)] none with tb := { base.tb with time := BitVec.ofNat 64 t } }
    let r : RecoverArgs := ⟨5, 1, 0, [], [], 9⟩
    (∀ cmd, Verified base auth cmd ∧ Verified other auth cmd ∧ Verified g auth cmd) ∧
    (base.live 5 1 = true ∧ base.live 5 2 = false ∧ base.mjob = some (5, 1) ∧ other.mjob ≠ some (5, 1) ∧ other.live 5 1 = true ∧
      g.live 5 1 = true ∧ g.cs.group ≠ none ∧ (2 : BitVec 8) ≠ 1 ∧ base.live r.tag r.gen = true ∧ base.cs.group = none ∧
      base.live 7 1 = false ∧ base.ports = [] ∧
      (∀ t ∈ [250000000, 249999999], ((q t).job 5).st = .retired ∧ ((q t).job 5).retiredAt = 0)) :=
  ⟨fun _ => ⟨verified_of (by decide +kernel), verified_of (by decide +kernel), verified_of (by decide +kernel)⟩, by decide +kernel⟩

/-! ### Configuration and attestation -/

/-- A blob that names unit 1801, the highest. -/
def blob0 (target : Nat) (vendor ok : Bool) : Blob := ⟨target, toLE 2 1801, vendor, ok⟩

/-- Good blobs of a block and of the history; each condition that fails; a store that is not sound; a block whose slot B is the newer
one, and one with no valid slot. -/
theorem witness_ConfigurationAndAttestation_update :
    let bad := { base with opt := { base.opt with sfdpOk := false } }
    (∀ cmd, Verified base auth cmd ∧ Verified bad auth cmd) ∧
    (auth.keySel < 2 ∧ (∀ t ∈ [1, 10, 15], signerAllowed t true = true) ∧ signerAllowed 0 true = false ∧ signerAllowed 1 false = false ∧
      signerAllowed 2 false = true ∧ base.ownerUsable true = false ∧ (blob0 1 true false).sigOk = false ∧
      (blob0 1 true true).payload.length ≤ 65516 ∧ base.opt.sfdpOk = true ∧ bad.opt.sfdpOk = false ∧
      1801 ∈ histUnits (blob0 15 true true).payload ∧ 0 ∉ histUnits (blob0 15 true true).payload ∧ base.opt.newer 10 = none ∧
      ({ base.opt with slots := [(18, slotBytes 10 6 [1]), (19, slotBytes 10 7 [2])] } : OptStore).newer 10 = some (1, 7, [2])) :=
  ⟨fun _ => ⟨verified_of (by decide +kernel), verified_of (by decide +kernel)⟩, by decide +kernel⟩

/-- ATTEST and ATT_QUOTE with an identity and without; ATT_EXTEND of the lowest and highest register it may change, and of one
that it may not. -/
theorem witness_ConfigurationAndAttestation_attest :
    let no := { base with boot := { base.boot with idOk := false } }
    (∀ cmd, Verified base auth cmd ∧ Verified no auth cmd) ∧
    ((List.replicate 32 (0 : Byte)).length = 32 ∧ base.boot.idOk = true ∧ no.boot.idOk = false ∧ base.pageBusy pgBoot = false ∧
      ({ base with srst := [(pgBoot, 1)] }).pageBusy pgBoot = true ∧ (1 : W32).getLsbD 0 = true ∧
      (∀ i ∈ [2, 3, 7], (BitVec.ofNat 32 (2 + 16 * i)).getLsbD 1 = true ∧ bits (BitVec.ofNat 32 (2 + 16 * i)).toNat 6 4 = i) ∧
      base.stewardOn = true ∧ (base.boot.mrs[3]?).isSome = true ∧ base.boot.idfp.length = 32) ∧ NoErrors base :=
  ⟨fun _ => ⟨verified_of (by decide +kernel), verified_of (by decide +kernel)⟩, by decide +kernel, noErrors_of (by decide +kernel)⟩

theorem witness_ConfigurationAndAttestation_read :
    let s := base.setReg64 pgBoot 0x138 0x10000000000
    (s.load .steward (s.reg64 pgBoot 0x138) (bits (0x00080032 : W32).toNat 31 16)).bind allSome = some (List.replicate 8 0) := by
  decide +kernel

theorem witness_ConfigurationAndAttestation_write :
    let s := base.setReg64 pgBoot 0x138 0x10000000000
    ∃ u, s.store .unit (s.reg64 pgBoot 0x138) ((s.attReport s.attNonce).1.map some) = .ok u := done_of (by decide +kernel)

end Sys2Proof.Tests
end

