-- ==== Sys2Proof/Tests/Witness9.lean ====
section
/-! SUPPORT. Concrete states and operands that meet the hypotheses of the statements about coded groups and the vault. -/
namespace Sys2Proof.Tests

open Machine

set_option Elab.async false

/-! ### Groups and coding -/

/-- A PAIR field of 64 bytes at the start of slice 0. -/
def pairEnt : FplEnt := { kind := 1, fmt := 3, ty := 0, first := 0, nsl := 1, off := 0, len := 64, nval := 0 }

/-- The coding-map entry of that field. -/
def mapEnt0 : MapEnt := ⟨0, 0, 0, 0, 1, 0⟩

/-- A descriptor of job 5 with `n` members, one parity, `k`, this module as `self`, and one coding-map entry. -/
def groupBytes (n k gen : Nat) : List Byte :=
  toLE 2 5 ++ toLE 1 gen ++ toLE 1 n ++ toLE 1 1 ++ toLE 1 0 ++ toLE 2 k ++ toLE 4 0 ++ toLE 4 3 ++ toLE 8 0 ++ toLE 8 (nt0 + 4096) ++
    toLE 4 (if n = 0 then 0 else 1) ++ toLE 28 0 ++
    (if n = 0 then [] else [1, 2, 3, 4].flatMap fun m => toLE 8 (2 ^ 63 + m * 2 ^ 16 + m)) ++ List.replicate (192 - 8 * n) 0

/-- Modules 1 to 4 on flows 1 to 4. -/
def group0 : Group :=
  { tag := 5, gen := 1, n := 4, m := 1, self := 0, k := 1, ebase := 0, dmax := 3, parity := 0
    members := [⟨1, 1⟩, ⟨2, 2⟩, ⟨3, 3⟩, ⟨4, 4⟩], map := [mapEnt0], digest := 7 }

/-- The module with contexts to the members, ports to them UP, and the field table in force. -/
def csNet (f : Coded → Coded) (s : State := base) : State :=
  { s.setPart 0 { part0 with fpl := { part0.fpl with active := some [pairEnt] } } with
    ctxs := [(1, ctx0), (2, { ctx0 with dst := 2 }), (3, { ctx0 with dst := 3 }), (4, { ctx0 with dst := 4 })]
    ports := [1, 2, 3].map fun i => (i, { Port.reset with st := .up, lanes := 15, peerSlot := BitVec.ofNat 6 (i + 1) })
    cs := f s.cs }

/-- CS_ADDR names the descriptor `b`, whose map is in place. -/
def csLoading (b : List Byte) (st : CsSt) : State :=
  ((withBytes nt0 b (withBytes (nt0 + 4096) (toLE 3 0 ++ toLE 1 0 ++ toLE 1 0 ++ toLE 1 0 ++ toLE 1 1 ++ toLE 9 0) (csNet fun c => { c with st := st }))
    ).setReg64 pgCs 0x110 nt0)

/-- LOAD of a good descriptor from OFF and REFORM, of one with n = 0, of one with k = 0, of one of no LIVE job, and in CODING. -/
theorem witness_GroupsLoadAndCode_load : ∀ st ∈ [CsSt.off, .reform, .coding], ∀ x ∈ [(4, 1, 1), (0, 1, 1), (4, 0, 1), (4, 1, 2)],
    let b := groupBytes x.1 x.2.1 x.2.2
    let s := csLoading b st
    s.pageBusy pgCs = false ∧ bits (1 : W32).toNat 2 0 = 1 ∧ s.cs.st = st ∧ inNear (s.reg64 pgCs 0x110) 256 = true ∧
      (s.load .unit (s.reg64 pgCs 0x110) 256).bind allSome = some b ∧
      (s.groupOf b).map (fun g => (g.n, g.k)) = (if x.2.2 = 2 then none else some (x.1, x.2.1)) ∧ inNear 0 256 = false := by
  decide +kernel

/-- The group codes in step `i`, the bytes of the two halves being `new` and `old`. -/
def csState (i : Nat) (f : Coded → Coded) (s : State := base) : State :=
  withBytes nt0 [3] (csNet (fun c => f { c with st := .coding, group := some group0 })
    { s with tb := { s.tb with stepIdx := BitVec.ofNat 32 i } })

/-- CODE with no group; in an epoch step, with the epoch before committed or not; its segment, written and changed. -/
theorem witness_GroupsLoadAndCode_code : ∀ x ∈ [(some 0, some 0), (some 0, none)],
    let s := csState 1 (fun c => { c with firstEpoch := false, lastCoded := x.1, epoch := x.2, written := [(0, true)] })
      (withArc 0 (arc 3 0 0))
    ArcCanFire s 0 0 3 (arc 3 0 0) ∧ ArcCanFire (withArc 0 (arc 3 0 0)) 0 0 3 (arc 3 0 0) ∧
    (base.cs.group = none ∧ s.cs.group = some group0 ∧ s.codingOn = true ∧ s.epochOf group0 = some 1 ∧ s.cs.lastCoded ≠ none ∧
      s.cs.lastCoded ≠ some (BitVec.ofNat 32 1) ∧ (s.cs.lastCoded = s.cs.epoch ↔ x.2 = some 0) ∧ group0.k = 1 ∧ s.cs.firstEpoch = false ∧
      s.segList.length = 1 ∧ (s.mem.poison.all fun y => y.2 == 1) = true ∧ s.cs.st ≠ .rebuild ∧
      (∀ y ∈ s.segList, y.m.part = 0 ∧ mget false s.cs.written y.j = true ∧
        (s.segLoad y (y.at_ group0 1)).bind allSome = some (3 :: List.replicate 63 0) ∧
        (s.segLoad y (y.at_ group0 2)).bind allSome = some (List.replicate 64 0))) := by
  intro x hx
  simp only [List.mem_cons, List.not_mem_nil, or_false] at hx
  rcases hx with rfl | rfl <;> exact ⟨arcCanFire_of (by decide +kernel), arcCanFire_of (by decide +kernel), by decide +kernel⟩

/-- A coding packet of member 1 at port 1: operation, epoch, two fields, and data. -/
def codePkt (op ep a b off : Nat) (d : List Byte) : Packet :=
  ⟨1, 0, 2, 5, 1, 5, 2, BitVec.ofNat 8 op, toLE 4 ep ++ toLE 4 a ++ toLE 1 b ++ toLE 3 off ++ toLE 4 0 ++ d⟩

/-- The packet is next, in step `i`. -/
def csArrived (i : Nat) (k : Packet) (f : Coded → Coded) (s : State := base) : State := { csState i f s with inbox := [(1, k)] }

theorem codeArrives_of {i op : Nat} {k : Packet} {f : Coded → Coded} {s : State} {g : Group}
    (h : ((csArrived i k f s).inbox.find? fun e => e.2.vc == 5 && e.2.op.toNat == op) = some (1, k) ∧
      (csArrived i k f s).live k.tag k.gen = true ∧ (csArrived i k f s).cs.group = some g ∧
      ((List.range g.n).find? fun q => (g.member q).modid == k.src) = some 1 ∧ 1 ≠ g.self ∧ g.tag = k.tag ∧ g.gen = k.gen ∧
      16 ≤ k.body.length) : CodeArrives (csArrived i k f s) op 1 k g 1 :=
  ⟨h.1, h.2.1, h.2.2.1, h.2.2.2.1, h.2.2.2.2.1, h.2.2.2.2.2.1, h.2.2.2.2.2.2.1, h.2.2.2.2.2.2.2⟩

/-- An acknowledgement that no CODE awaits, one of two awaited, and the last, of a segment and of a CODE_END. -/
theorem witness_GroupsLoadAndCode_ack : ∀ st ∈ [1, endMark], ∀ more ∈ [[], [(5, 0)]],
    let k := codePkt 0x21 1 st 0 0 []
    let x := arc 3 0 0 .fired
    let a : Nat × Nat := if st = 1 then (1, 0) else (endMark, 1)
    let f := fun (c : Coded) => { c with codes := [⟨0, 0, false, a :: more⟩] }
    CodeArrives (csArrived 1 k f (withArc 0 x)) 0x21 1 k group0 1 ∧ CodeArrives (csArrived 1 k (fun c => c) (withArc 0 x)) 0x21 1 k group0 1 ∧
      (let s := csArrived 1 k f (withArc 0 x)
       (s.cs.codes.find? fun y => y.owed.contains a) = some ⟨0, 0, false, a :: more⟩ ∧ (kStripe k = endMark ∨ (kStripe k + kPidx k) % group0.n = 1) ∧
         s.epochOf group0 = some (kEpoch k).toNat ∧ (s.arcu 0).active[0]? = some x ∧ x.st = .fired ∧ (a :: more).erase a = more) := by
  intro st hs more hm
  simp only [List.mem_cons, List.not_mem_nil, or_false] at hs hm
  rcases hs with rfl | rfl <;> rcases hm with rfl | rfl <;>
    exact ⟨codeArrives_of (by decide +kernel), codeArrives_of (by decide +kernel), by decide +kernel⟩

/-! ### Holders, holds and rebuild -/

/-- Packets of the epoch being built and of another. -/
theorem witness_HoldersBuildHoldAndRebuild_epochs : ∀ op ∈ [0x20, 0x22, 0x23], ∀ ep ∈ [1, 2],
    let k := codePkt op ep 0 0 0 []
    let f := fun (c : Coded) => { c with building := some 1, epoch := some 0 }
    CodeArrives (csArrived 1 k f) op 1 k group0 1 ∧ (csArrived 1 k f).buildOk (kEpoch k) = (ep == 1) := by
  intro op ho ep he
  simp only [List.mem_cons, List.not_mem_nil, or_false] at ho he
  rcases ho with rfl | rfl | rfl <;> rcases he with rfl | rfl <;> exact ⟨codeArrives_of (by decide +kernel), by decide +kernel⟩

theorem notPoison_of {m : Store} (h : m.poison = []) (a : Nat) : m.at_ a ≠ none := by
  unfold Store.at_
  rw [h]
  simp [mget]

/-- A delta of 8 bytes at the start of stripe 0's parity here, and one that ends it, its slot built already or not. -/
theorem witness_HoldersBuildHoldAndRebuild_delta : ∀ off ∈ [0, 63488], ∀ built ∈ [[], [0]],
    let d := List.replicate (if off = 0 then 8 else 2048) (1 : Byte)
    let k := codePkt 0x20 1 0 0 off d
    let f := fun (c : Coded) => { c with building := some 1, epoch := some 0, built := built }
    let s := csArrived 1 k f
    CodeArrives s 0x20 1 k group0 1 ∧ (Memory.wf s = true ∧ s.cs.building = some (kEpoch k) ∧ s.codingOn = true ∧
      kStripe k < group0.stripes ∧ kPidx k < group0.m ∧ (kStripe k + kPidx k) % group0.n = group0.self ∧
      parityOf group0.n group0.m (kStripe k) 1 = none ∧ field k.body 9 3 = off ∧ off % 2048 = 0 ∧ (kData k).length = d.length ∧
      1 ≤ d.length ∧ d.length ≤ 2048 ∧ off + d.length ≤ 65536 ∧ field k.body 12 4 = 0 ∧ s.cs.opened = [] ∧ 2 ∈ group0.others ∧
        s.cs.ends = [] ∧ s.mem.poison = []) := by
  intro off ho built hb
  simp only [List.mem_cons, List.not_mem_nil, or_false] at ho hb
  rcases ho with rfl | rfl <;> rcases hb with rfl | rfl <;> exact ⟨codeArrives_of (by decide +kernel), by decide +kernel⟩

/-- CODE_END with another digest, and with this one while another member's is due and as the last; CODE_READY while others are due
and as the last. -/
theorem witness_HoldersBuildHoldAndRebuild_ends : ∀ last ∈ [true, false],
    let f := fun (c : Coded) =>
      { c with
        building := some 1, epoch := some 0, lastCoded := some 1, ends := if last then [(2, 0), (3, 0)] else []
        readies := if last then [0, 2, 3] else [0] }
    let e := fun dg => codePkt 0x22 1 0 (dg % 256) 0 []
    let r := codePkt 0x23 1 0 0 0 []
    let s := csArrived 1 (e 7) f
    CodeArrives s 0x22 1 (e 7) group0 1 ∧ CodeArrives (csArrived 1 (e 8) f) 0x22 1 (e 8) group0 1 ∧
      CodeArrives (csArrived 1 r f) 0x23 1 r group0 1 ∧
      (field (e 8).body 8 8 ≠ group0.digest.toNat ∧ field (e 7).body 8 8 = group0.digest.toNat ∧ s.buildOk (kEpoch (e 7)) = true ∧
        s.cs.building = some (kEpoch (e 7)) ∧ s.cs.opened = [] ∧ s.cs.sentReady = false ∧ field (e 7).body 4 4 = countOf s.cs.deltas 1 ∧
        (last = false → 2 ∈ group0.others ∧ 2 ∉ s.cs.readies ∧ ∀ y ∈ s.cs.ends, y.1 ≠ 2) ∧
        (last = true → (∀ q ∈ group0.others, q ≠ 1 → (∃ y ∈ s.cs.ends, y.1 = q) ∧ s.cs.ended q = countOf s.cs.deltas q) ∧
          s.cs.ended 1 + field (e 7).body 4 4 = countOf s.cs.deltas 1 ∧
          s.cs.lastCoded = s.cs.building ∧ s.cs.codes = [] ∧
          ∀ q, q < group0.n → q = 1 ∨ q ∈ s.cs.readies)) := by
  intro last hl
  simp only [List.mem_cons, List.not_mem_nil, or_false] at hl
  rcases hl with rfl | rfl <;>
    exact ⟨codeArrives_of (by decide +kernel), codeArrives_of (by decide +kernel), codeArrives_of (by decide +kernel), by decide +kernel⟩

/-- A held write of each kind half way into the step, with the guard at angle 1. -/
theorem witness_HoldersBuildHoldAndRebuild_hold : ∀ kind ∈ [1, 2, 3],
    let s := { base.setReg pgCs 0x100 1 with
      tb := { base.tb with period := 1000, start := 500 }, cs := { base.cs with held := some kind } }
    s.cs.held = some kind ∧ s.cs.holdSaid = false ∧ s.guardReached (s.fld pgCs 0x100 15 0) = true := by decide +kernel

/-- RECOVER of the halted group with nothing lost; a survivor's request and a lost segment's answer; the rebuild done and not. -/
theorem witness_HoldersBuildHoldAndRebuild_recover :
    let s := csState 1 fun c => { c with st := .halted }
    let r : RecoverArgs := ⟨5, 1, 1, [], [], 0⟩
    Verified s auth 0x32 ∧ (s.live r.tag r.gen = true ∧ s.cs.group = some group0 ∧ group0.tag = r.tag ∧ group0.gen = r.gen ∧
      group0.k = 1 ∧ s.cs.st = .halted ∧ r.adopt = [] ∧ (∀ q, q < group0.n → (group0.member q).modid ∉ r.lost) ∧
      s.cs.building ≠ some r.epoch) := ⟨verified_of (by decide +kernel), by decide +kernel⟩

theorem witness_HoldersBuildHoldAndRebuild_request :
    let k := codePkt 0x24 1 0 0 0 []
    let s := csArrived 1 k fun c => { c with st := .rebuild, recovered := 1 }
    CodeArrives s 0x24 1 k group0 1 ∧ (s.mem.poison = [] ∧ some k.src ≠ s.modId ∧ field k.body 0 4 < group0.stripes ∧
      symbolOwner group0 (field k.body 0 4) (field k.body 4 4) = group0.self ∧
      field k.body 4 4 < 0x80 ∧ s.symbolBytes group0 (field k.body 0 4) (field k.body 4 4) = some (3 :: List.replicate 63 0)) :=
  ⟨codeArrives_of (by decide +kernel), by decide +kernel⟩

/-- The segment of member 3 in stripe 2, whose data positions are members 0, 1 and 3, adopted here: what stays to come is member 1's
symbol. -/
def rebSeg0 (done : Bool) : RebSeg :=
  { stripe := 2, pos := 2, lost := [3], adopter := 1, part := 0, slice := 0, offs := [0], len := 64
    got := [(0, List.replicate 64 0, true), (1, [], false), (0x80, List.replicate 64 0, true)], done := done }

theorem witness_HoldersBuildHoldAndRebuild_answer :
    let k := codePkt 0x25 2 1 0 0 (List.replicate 64 5)
    let s := csArrived 1 k fun c => { c with st := .rebuild, recovered := 1, rebuild := [rebSeg0 false] }
    CodeArrives s 0x25 1 k group0 1 ∧ (s.rebHead = some (0, rebSeg0 false) ∧
      ((rebSeg0 false).got.find? fun v => v.1 == field k.body 4 4 && !v.2.2) = some (field k.body 4 4, [], false) ∧ field k.body 8 4 = 0 ∧
      (rebSeg0 false).stripe = field k.body 0 4 ∧ (kData k).length = 64 ∧
      (∀ v ∈ (rebSeg0 false).got, v.1 = field k.body 4 4 ∨ v.2.2 = true) ∧ s.sliceParts 0 0 0 64 = some [(nt0, 64)] ∧
      symbolOwner group0 (rebSeg0 false).stripe (field k.body 4 4) = 1 ∧ s.mem.poison = [] ∧ 2 < group0.stripes ∧
      s.accessOk .exempt nt0 64 = true) := ⟨codeArrives_of (by decide +kernel), by decide +kernel⟩

theorem witness_HoldersBuildHoldAndRebuild_done : ∀ d ∈ [true, false],
    let s := csState 1 fun c => { c with st := .rebuild, rebuild := [rebSeg0 d] }
    s.cs.st = .rebuild ∧ (d = true → ∀ y ∈ s.cs.rebuild, y.done = true) ∧ (d = false → ∃ y ∈ s.cs.rebuild, y.done = false) := by
  decide +kernel

end Sys2Proof.Tests
end

