-- ==== Sys2Proof/Tests/Witness10.lean ====
section
/-! SUPPORT. Concrete states and operands that meet the hypotheses of the statements about the vault, fault handling, fencing and
audits, resets and the watchdog. -/
namespace Sys2Proof.Tests

open Machine

set_option Elab.async false

/-! ### The vault -/

/-- An image of epoch `ep`: of the field of `csState`, with the CRC of its bytes or another. -/
def image0 (ep : Nat) (ok : Bool) : Image :=
  ⟨true, BitVec.ofNat 32 ep, BitVec.ofNat 32 ep, 5, 1, 7,
    [(mapEnt0, List.replicate 64 6, if ok then crc64 (List.replicate 64 6) else 0)]⟩

/-- The drive with its slots at blocks 0, 16 and 32 of namespace 1, and images in slots 1 and 2. -/
def vltState (i : Nat) (a b : Image) (f : Vault → Vault) (s : State := base) : State :=
  let t := ((csState i (fun c => c) s).setReg64 pgVault 0x110 16).setReg64 pgVault 0x118 32
  { t with vault := f { t.vault with ready := true, linkup := true, images := [((1, 16), a), ((1, 32), b)] } }

/-- A DRAIN of interval `v` whose descriptor lies at the start of the near tier's second slice. -/
def drainState (v : Nat) (rd : Bool) (grp : Bool) : State :=
  let s := withBytes (nt0 + 4096) (toLE 4 0 ++ toLE 4 v ++ toLE 56 0)
    (vltState 1 (image0 1 true) (image0 0 true) (fun y => { y with ready := rd }) (withArc 0 (arc 11 0 (nt0 + 4096))))
  if grp then s else { s with cs := base.cs }

/-- An epoch step of its interval with the drive ready; an interval of 2, of 0; a drive not ready; no group; the region can be read,
and with a poisoned byte it cannot. -/
theorem witness_VaultDrainsAndRestores_drain : ∀ x ∈ [(1, true, true), (2, true, true), (0, true, true), (1, false, true), (1, true, false)],
    let s := drainState x.1 x.2.1 x.2.2
    let b := toLE 4 0 ++ toLE 4 x.1 ++ toLE 56 0
    ArcCanFire s 0 0 11 (arc 11 0 (nt0 + 4096)) ∧ ((s.loadX .unit (arc 11 0 (nt0 + 4096)).w3 64).bind allSome = some b ∧
      (arc 11 0 (nt0 + 4096)).arg % 64 = 0 ∧ field b 0 4 = 0 ∧ field b 4 4 = x.1 ∧ allZero (b.drop 8) = true ∧ s.vault.ready = x.2.1 ∧
      s.cs.group = (if x.2.2 then some group0 else none) ∧ s.epochOf group0 = some 1 ∧ s.vault.drain = none ∧
      (s.slotImage 1).valid = true ∧ (s.slotImage 2).valid = true) ∧ NoErrors s := by
  intro x hx
  simp only [List.mem_cons, List.not_mem_nil, or_false] at hx
  rcases hx with rfl | rfl | rfl | rfl | rfl <;> exact ⟨arcCanFire_of (by decide +kernel), by decide +kernel, noErrors_of (by decide +kernel)⟩

theorem witness_VaultDrainsAndRestores_regions :
    let s := drainState 1 true true
    let bad := { s with mem := s.mem.wr nt0 (List.replicate 128 none) }
    ArcCanFire bad 0 0 11 (arc 11 0 (nt0 + 4096)) ∧ NoErrors bad ∧ (s.drainMap group0 1 = [mapEnt0] ∧ bad.drainMap group0 1 = [mapEnt0] ∧
      (∀ m ∈ s.drainMap group0 1, s.piecesLoad (s.drainCmds group0 1 m).flatten ≠ none) ∧
      (∃ m ∈ bad.drainMap group0 1, bad.piecesLoad (bad.drainCmds group0 1 m).flatten = none)) :=
  ⟨arcCanFire_of (by decide +kernel), noErrors_of (by decide +kernel), by decide +kernel⟩

/-- A running drain with a write to come; with Flush; with its header; 30 seconds after its latest command; the port's link. -/
theorem witness_VaultDrainsAndRestores_running : ∀ x ∈ [([[(0, 0, 0, 64)]], false), ([], false), ([], true)],
    let d : Drain := ⟨1, false, { image0 1 true with valid := false }, x.1, x.2, 0⟩
    let s := { vltState 1 (image0 1 true) (image0 0 true) (fun y => { y with drain := some d }) with clk := 30000000000 }
    s.vault.drain = some d ∧ d.cmds = x.1 ∧ d.flushed = x.2 ∧ d.cmdAt + 30000000000 ≤ s.clk ∧ s.vault.linkup = true ∧ (1 : BitVec 16) ≠ 0 ∧
      (s.mem.poison.all fun y => y.2 == 1) = true ∧ s.cs.st ≠ .rebuild := by
  decide +kernel

/-- RESTORE with the drive ready and not; the first list of two; the last, with an epoch in common and with none. -/
theorem witness_VaultDrainsAndRestores_lists : ∀ ep ∈ [1, 2],
    let one : EpochList := ⟨1, 2, 2, [(1, 1, [0])]⟩
    let two : EpochList := ⟨2, 2, 2, [(BitVec.ofNat 32 ep, 1, [1])]⟩
    let s := fun ls => vltState 1 (image0 1 true) (image0 0 true) fun y => { y with restoring := true, lists := ls }
    bits (1 : W32).toNat 1 0 = 1 ∧ (s []).pageBusy pgVault = false ∧ (s []).vault.restoring = true ∧ (s []).vault.ready = true ∧
      base.vault.ready = false ∧ (([] : List EpochList).filter fun y => y.src != one.src) ++ [one] = [one] ∧ [one].length < one.members ∧
      (((s [one]).vault.lists.filter fun y => y.src != two.src) ++ [two]).length = two.members := by decide +kernel

theorem witness_VaultDrainsAndRestores_common : CommonEpoch [⟨1, 2, 2, [(1, 1, [0])]⟩, ⟨2, 2, 2, [(1, 1, [1])]⟩] 2 1 := by
  refine ⟨⟨_, List.mem_cons_self, _, List.mem_singleton.2 rfl, rfl⟩, fun k hk => ?_⟩
  rcases (show k = 0 ∨ k = 1 by omega) with rfl | rfl
  · exact ⟨_, List.mem_cons_self, _, List.mem_singleton.2 rfl, rfl, List.mem_singleton.2 rfl⟩
  · exact ⟨_, List.mem_cons_of_mem _ (List.mem_singleton.2 rfl), _, List.mem_singleton.2 rfl, rfl, List.mem_singleton.2 rfl⟩

theorem witness_VaultDrainsAndRestores_mixed : ∀ ep, ¬ CommonEpoch [⟨1, 2, 2, [(1, 1, [0])]⟩, ⟨2, 2, 2, [(2, 1, [1])]⟩] 2 ep := by
  intro ep h
  obtain ⟨l, hl, x, hx, he, hk⟩ := h.2 0 (by omega)
  obtain ⟨l1, hl1, x1, hx1, he1, hk1⟩ := h.2 1 (by omega)
  simp only [List.mem_cons, List.not_mem_nil, or_false] at hl hl1
  rcases hl with rfl | rfl <;> rcases hl1 with rfl | rfl <;> simp only [List.mem_singleton] at hx hx1 <;> subst hx <;> subst hx1 <;>
    first
    | exact absurd hk (by decide)
    | exact absurd hk1 (by decide)
    | exact absurd (he.trans he1.symm) (by decide)

/-- A restore that has waited for 30 seconds. -/
theorem witness_VaultDrainsAndRestores_timeout :
    let s := { vltState 1 (image0 1 true) (image0 0 true) (fun y => { y with restoring := true, restAt := 1000 }) with clk := 30000001000 }
    s.vault.drain = none ∧ s.vault.restoring = true ∧ s.vault.restAt + 30000000000 ≤ s.clk := by decide +kernel

/-- The choice of an epoch whose regions pass their CRCs, and of one whose region does not. -/
theorem witness_VaultDrainsAndRestores_choice : ∀ ok ∈ [true, false],
    let m := image0 1 ok
    let s := vltState 1 m (image0 0 true) fun y => { y with restoring := true }
    let f := pairEnt
    s.vault.restoring = true ∧ ([s.slotImage 1, s.slotImage 2].find? fun y => y.valid && y.epoch == 1) = some m ∧
      (s.slotImage 0).valid = false ∧ (∀ r ∈ m.regs, (crc64 r.2.1 = r.2.2 ↔ ok = true)) ∧ s.mapField mapEnt0 = some f ∧ f.len = 64 ∧
        m.regs.length = 1 ∧ mapEnt0.part < 16 ∧
      s.sliceParts 0 (f.first + 0) (f.off + (if f.kind = 1 then (1 - m.step.toNat % 2) * f.len else 0)) f.len = some [(nt0, f.len)] ∧
      s.accessOk .exempt nt0 f.len = true := by decide +kernel

/-! ### Records, history and takeover -/

/-- A record of page `pg`, unit `u` and class `c`. -/
def rec0 (pg u c : Nat) : List Byte := toLE 2 pg ++ toLE 2 u ++ toLE 1 c ++ toLE 59 0

/-- The record is at the steward, the unit in state `st`, with `h` in its history and a limit of `lim` events. -/
def logState (b : List Byte) (st : UState) (h : Hist) (lim : Nat) : State :=
  { base.setReg pgFault 0x108 (BitVec.ofNat 32 (lim + 256)) with
    router := { base.router with inbox := [b] }, ust := [(field b 2 2, ⟨st, none⟩)], hist := [(field b 2 2, h)] }

/-- Records that do not count, and that do: of a spare tile, a channel whose unit is fenced for its class or its history or not at
all, a core, a steward core; a FENCED unit again; the first event, with a limit of 1 and of 2. -/
theorem witness_FaultsAreLogged_record : ∀ x ∈ [(5, 60, 0), (5, 60, 2), (5, 1152, 5), (5, 1152, 2), (5, 1736, 4), (pgReset, 1800, 4),
      (5, 1801, 4)], ∀ st ∈ [UState.active, .fenced], ∀ hs ∈ [0, 2], ∀ lim ∈ [0, 1, 2],
    let b := rec0 x.1 x.2.1 x.2.2
    let s := logState b st ⟨hs, 0, 0, []⟩ lim
    s.stewardOn = true ∧ s.router.inbox = [b] ∧ b.length = 64 ∧ field b 2 2 = x.2.1 ∧ field b 4 1 = x.2.2 ∧ field b 0 2 = x.1 ∧
      (s.unit x.2.1).st = st ∧ (s.unit x.2.1).lt = none ∧ (s.histOf x.2.1).st = hs ∧ s.fld pgFault 0x108 3 0 = lim ∧ base.router.inbox = [] := by
  decide +kernel

theorem witness_FaultsAreLogged_store : ∃ v, (logState (rec0 5 60 0) .active Hist.clean 0).store .steward base.logBase ((rec0 5 60 0).map some) = .ok v :=
  done_of (by decide +kernel)

/-- A changed entry to write with a sound store and one that is not; a takeover pending and not. -/
theorem witness_FaultsAreLogged_history : ∀ ok ∈ [true, false],
    let s := { base with opt := { base.opt with histDue := [60, 61], sfdpOk := ok }, rst := { base.rst with takeover := ok } }
    s.opt.histDue = 60 :: [61] ∧ s.opt.sfdpOk = ok ∧ s.rst.takeover = ok ∧ base.opt.histDue = [] := by decide +kernel

/-! ### Fencing and audits -/

/-- `base` with units as given. -/
def unitState (us : SMap UEntry) (f : Part → Part := fun x => x) : State := { withPart f with ust := us }

/-- FENCE of a page of no unit; of a unit OFF, FENCED, spare; of an ACTIVE tile with a spare and with none, the last logical tile
and another; of a port and a core. -/
theorem witness_UnitsAreFencedAndAudited_fence :
    pageUnit pgFault = none ∧ pageUnit (pgTile 0) = some 0 ∧ pageUnit (pgPort 0) = some 1664 ∧ pageUnit (pgCore 0) = some 1736 ∧
      (∀ st ∈ [UState.off, .fenced, .spare, .active], ((unitState [(0, ⟨st, none⟩)]).unit 0).st = st ∧ ((unitState [(0, ⟨st, none⟩)]).unit 0).lt = none) ∧
      (∀ k ∈ [0, 47], let s := unitState [(k, ⟨.active, some k⟩), (1, ⟨.active, some 1⟩)]
        (s.unit k).lt = some k ∧ (s.unit k).st = .active ∧ (s.part (k / 72)).audit = [] ∧ s.spares 0 = [] ∧ (s.part 0).n = 48 ∧
          (s.part 0).tmap[47]? = some 47) ∧
      base.spares 0 = [60] ∧ (base.core_ 0).posts = [] ∧ (base.core_ 0).heldPost = none := by decide +kernel

/-- An AUDIT arc that its filter passes over, every step, for a logical tile that is not there, with a spare and without. -/
theorem witness_UnitsAreFencedAndAudited_arc : ∀ x ∈ [(0, 0, true), (1, 48, true), (1, 0, true), (1, 0, false)],
    let g := x.2.1 + 2 ^ 15 + 2 ^ 16 * x.1
    let s := withArc 0 (arc 6 0 g) (if x.2.2 then base else unitState [])
    ArcCanFire s 0 0 6 (arc 6 0 g) ∧ (bits (arc 6 0 g).arg 31 16 = x.1 ∧ (x.1 ≠ 0 → s.tb.stepIdx.toNat % x.1 = 0) ∧ bitAt (arc 6 0 g).arg 32 = false ∧
      bits (arc 6 0 g).arg 5 0 = x.2.1 ∧ (s.part 0).n = 48 ∧ bitAt (arc 6 0 g).arg 15 = true ∧
      (s.spares 0).head? = if x.2.2 then some 60 else none) := by
  intro x hx
  simp only [List.mem_cons, List.not_mem_nil, or_false] at hx
  rcases hx with rfl | rfl | rfl | rfl <;> exact ⟨arcCanFire_of (by decide +kernel), by decide +kernel⟩

/-- The suite on a tile in AUDIT, of each history, and on one that is not. -/
theorem witness_UnitsAreFencedAndAudited_suite : ∀ h ∈ [0, 2],
    let s := { unitState [(1151, ⟨.audit, none⟩), (1, ⟨.active, some 1⟩)] with hist := [(1151, ⟨h, 1, 2, [1]⟩)] }
    (s.unit 1151).st = .audit ∧ (s.unit 1151).lt = none ∧ (s.histOf 1151).st = h ∧ (s.unit 1).st ≠ .audit := by decide +kernel

/-! ### Resets -/

/-- `base` with its pins changed, and tripped or not. -/
def pinState (ok rst trip : Bool) : State :=
  { base with pins := { base.pins with pwrOk := ok, sysRst := rst }, power := { base.power with tripped := trip } }

theorem witness_ColdAndWarmResets_pins : ∀ ok ∈ [true, false], ∀ rst ∈ [true, false], ∀ trip ∈ [true, false],
    (pinState ok rst trip).pins.pwrOk = ok ∧ (pinState ok rst trip).pins.sysRst = rst ∧ (pinState ok rst trip).power.tripped = trip := by
  decide +kernel

/-- PERST, the keyed write and the management command, in service, during option loading, and without power. -/
theorem witness_ColdAndWarmResets_warm :
    let load := { base with rst := { base.rst with running := true, phase := 2 } }
    let w : W32 := 0xA501
    (∃ b : Writer, bits w.toNat 15 8 = 0xA5 ∧ w.getLsbD 0 = true ∧ b ≠ .core ∧ base.pageBusy pgReset = false) ∧ Verified base auth 0x41 ∧
      ((base.warmBy 4).mgmtRoute auth.src ≠ .none_ ∧ base.powered = true ∧ ¬ (base.rst.running = true ∧ base.rst.phase = 2) ∧
        load.powered = true ∧ load.rst.running = true ∧
        load.rst.phase = 2 ∧ (pinState false false false).powered = false) :=
  ⟨⟨.host, by decide +kernel⟩, verified_of (by decide +kernel), by decide +kernel⟩

/-- A partition's reset by the keyed write and by the command, while in service and in reset; its release a cycle early and due. -/
theorem witness_PartitionResetsAndReleaseOrder_partition : ∀ r ∈ [true, false],
    let s := withPart fun x => { x with inReset := r, rstAt := 0 }
    let w : W32 := 0xA502
    Verified s auth 0x40 ∧ (bits w.toNat 15 8 = 0xA5 ∧ w.getLsbD 1 = true ∧ w.getLsbD 0 = false ∧ bits w.toNat 7 4 = 0 ∧
      (Writer.steward ≠ .core) ∧ s.pageBusy pgReset = false ∧ s.powered = true ∧ (s.part 0).inReset = r ∧
      s.refCycle < (s.part 0).rstAt + 6656 ∧ (s.part 0).rstAt + 6656 = ({ s with clk := 42598 } : State).refCycle + 1 ∧
      (s.part 0).rstAt + 6656 = ({ s with clk := 42600 } : State).refCycle) := by
  intro r hr
  simp only [List.mem_cons, List.not_mem_nil, or_false] at hr
  rcases hr with rfl | rfl <;> exact ⟨verified_of (by decide +kernel), by decide +kernel⟩

/-- Every phase, its gap ended and a reference cycle before. -/
theorem witness_PartitionResetsAndReleaseOrder_phase : ∀ ph, ph < 8 → ∀ cold ∈ [true, false],
    let gap := if ph = 0 then 1024 else if ph = 6 then 256 + (if cold then 81920 else 0) else if ph = 7 then 65536 else 256
    let s := fun clk => { base with clk := clk, rst := { base.rst with running := true, phase := ph, cold := cold, loaded := true, at_ := 0 } }
    (s 0).rst.running = true ∧ (s 0).rst.phase = ph ∧ (s 0).rst.loaded = true ∧ (s 0).rst.cold = cold ∧
      (s (gap * 32 / 5 + 1)).rst.at_ + gap ≤ (s (gap * 32 / 5 + 1)).refCycle ∧ (s (gap * 32 / 5 - 7)).refCycle < (s 0).rst.at_ + gap := by
  decide +kernel

/-- A port that phase 4 trains. -/
theorem witness_PartitionResetsAndReleaseOrder_port :
    base.bit (pgPort 0) 0x100 0 = true ∧ (base.unit 1664).st ≠ .fenced ∧ (base.port 0).st = .down := by decide +kernel

/-- Pages that are absent, in a soft reset, in a partition in reset, and free; each kind of page; its two steps. -/
theorem witness_SoftResetsAndWatchdog_pages :
    let b := { base with srst := [(pgTile 0, 1), (pgTile 1, 5)] }
    let r := withPart fun x => { x with inReset := true }
    pagePresent 0x3FFF = false ∧ b.softReset (pgTile 0) = true ∧ pagePart (pgTile 0) = some 0 ∧ r.partUp 0 = false ∧
      (∀ pg ∈ [pgTile 0, pgPart 0, pgAsm 0, pgSlv 0, pgFpl 0, pgCore 0, pgPort 0, pgBoot, pgArc 16], pagePresent pg = true ∧
        base.softReset pg = false ∧ (pagePart pg = none ∨ pagePart pg = some 0)) ∧ base.partUp 0 = true ∧
      mget 0 b.srst (pgTile 0) = 1 ∧ mget 0 b.srst (pgTile 1) ≠ 1 := by decide +kernel

/-- A beat; a bite due and not, the first and the second within a second, a second later, and during a takeover; a restart due and
not. -/
theorem witness_SoftResetsAndWatchdog_watchdog : ∀ x ∈ [(none, false), (some 0, false), (some 0, true)],
    let s := { base with clk := 3000000, rst := { base.rst with armed := true, lastBeat := 0, lastBite := x.1, takeover := x.2 } }
    let t := { base with clk := 427, rst := { base.rst with stopped := true, biteAt := 0 } }
    base.stewardOn = true ∧ base.pageBusy pgReset = false ∧ (s.rst.armed = true ∧ s.rst.stopped = false ∧ s.rst.warmReq = false ∧
      s.fld pgReset 0x118 15 0 = 1000 ∧ s.fld pgReset 0x118 19 16 = 3 ∧ s.rst.lastBeat + 1000 * 1000 * 3 ≤ s.clk) ∧
      s.rst.lastBite = x.1 ∧ s.clk < 0 + 1000000000 ∧ s.rst.takeover = x.2 ∧ base.rst.armed = false ∧ base.rst.stopped = false ∧
      t.rst.stopped = true ∧ t.rst.warmReq = false ∧ t.rst.noSteward = false ∧ t.rst.biteAt + 427 ≤ t.clk ∧
      (if t.rst.active1 then 17 else 16) ∉ t.power.throttled := by decide +kernel

end Sys2Proof.Tests
end

