-- ==== Sys2Proof/Tests/Witness11.lean ====
section
/-! SUPPORT. Concrete states and operands that meet the hypotheses of the statements about boot, the service cores, the host rings
and the host's accesses. -/
namespace Sys2Proof.Tests

open Machine

set_option Elab.async false

/-! ### Boot -/

/-- In phase `ph` of the release order. -/
def atPhase (ph : Nat) (run loaded : Bool) : State :=
  { base with rst := { base.rst with running := run, phase := ph, loaded := loaded } }

/-- Option loading due; not in reset, in another phase, and done already. -/
theorem witness_OptionsAndImagesBoot_load :
    ((atPhase 2 true false).rst.running = true ∧ (atPhase 2 true false).rst.phase = 2 ∧ (atPhase 2 true false).rst.loaded = false) ∧
      (atPhase 2 false false).rst.running = false ∧ (atPhase 3 true false).rst.phase ≠ 2 ∧ (atPhase 2 true true).rst.loaded = true := by
  decide +kernel

/-- Waiting for an image of `n` bytes, of which `hdr` are the first and the others are 0; `v`: it is being verified. -/
def imgState (n : Nat) (hdr : List Byte) (v : Bool) (svn : BitVec 16 := 0) : State :=
  let s := base.setFld pgBoot 0x10C 23 0 n
  { s with boot := { s.boot with image := none, stewardUp := false, verifying := if v then some n else none, minsvn := svn
                                 staging := Store.empty.wr 0 (hdr.map some) } }

/-- A header (Table 19.3): magic, SVN, signer, reserved byte, body length, entry. -/
def imgHdr (svn signer body entry : Nat) : List Byte :=
  toLE 4 0x44584657 ++ toLE 2 svn ++ toLE 1 signer ++ toLE 1 0 ++ toLE 4 body ++ toLE 4 entry

/-- GO of a length, and of none; GO while one is verified; with an image. -/
theorem witness_OptionsAndImagesBoot_go : ∀ n ∈ [0, 3374],
    let s := imgState n [] false
    let w : W32 := 1
    s.fld pgBoot 0x10C 23 0 = n ∧ w.getLsbD 0 = true ∧ s.pageBusy pgBoot = false ∧ s.rst.phase = 8 ∧ s.rst.running = false ∧
      s.boot.image = none ∧ s.boot.verifying = none ∧ (imgState 3374 [] true).boot.verifying ≠ none ∧ base.boot.image ≠ none := by
  decide +kernel

/-- The shortest image that passes its header checks, one byte shorter, and one longer. -/
theorem witness_OptionsAndImagesBoot_shape : ∀ n ∈ [3373, 3374, 3375],
    let s := imgState n (imgHdr 3 0 1 0) true 3
    let b := (s.boot.staging.rd 0 (min n 0x800000)).map fun x => x.getD 0
    s.boot.verifying = some n ∧ ((64 + 3309 ≤ n ∧ n ≤ 0x800000 ∧ n = 64 + field b 8 4 + 3309) ↔ n = 3374) ∧ field b 0 4 = 0x44584657 ∧
      field b 6 1 = 0 ∧ field b 7 1 = 0 ∧ allZero (slice_ b 20 44) = true ∧ field b 12 4 < field b 8 4 ∧
      ¬ field b 4 2 < s.boot.minsvn.toNat ∧ s.boot.mrs[2]? = some (List.replicate 64 0) := by decide +kernel

/-- An image of the owner without its key; a verified one of the MINSVN less one; one whose entry is its body's end. -/
theorem witness_OptionsAndImagesBoot_checks : ∀ x ∈ [(2, 1, 0), (2, 0, 0), (3, 0, 1)],
    let s := imgState 3374 (imgHdr x.1 x.2.1 1 x.2.2) true 3
    let b := (s.boot.staging.rd 0 3374).map fun x => x.getD 0
    s.boot.verifying = some 3374 ∧ 3374 = 64 + field b 8 4 + 3309 ∧ field b 6 1 = x.2.1 ∧ s.ownerUsable true = false ∧
      (field b 4 2 < s.boot.minsvn.toNat ↔ x.1 = 2) ∧ (field b 12 4 < field b 8 4 ↔ x.2.2 = 0) := by decide +kernel

/-! ### Service cores -/

/-- `base` with core 0 running, its FP state on and its PSV unit powered. -/
def coreState (f : Core_ → Core_) (s : State := base) : State :=
  s.setCore 0 (f { Core_.reset with running := true, fsOff := false, psvOn := true })

/-- RUN of a core at rest, of one in a soft reset, and of a running one; a core whose unit is OFF. -/
theorem witness_ServiceCoresRunPostAndCompute_run :
    base.stewardOn = true ∧ (base.unit 1736).st = .active ∧ base.softReset (pgCore 0) = false ∧ (base.core_ 0).running = false ∧
      ({ base with srst := [(pgCore 0, 1)] } : State).softReset (pgCore 0) = true ∧
      ((coreState fun x => x).core_ 0).running = true ∧ (base.unit 1737).st ≠ .active := by decide +kernel

/-- 15 and 16 places taken; a posting held; none; a core that is FENCED and one that is OFF. -/
theorem witness_ServiceCoresRunPostAndCompute_post : ∀ n ∈ [15, 16], ∀ h ∈ [true, false],
    let s := coreState fun x => { x with posts := List.replicate n 64, heldPost := if h then some 1 else none }
    s.coreUp 0 = true ∧ (s.core_ 0).posts = 64 :: List.replicate (n - 1) 64 ∧ ((s.core_ 0).heldPost = none ↔ h = false) ∧ base.coreUp 0 = false ∧
      ((coreState fun x => x).core_ 0).posts = [] ∧ (s.unit 1736).st = .active ∧ (s.unit 1737).st = .off ∧
      ((s.setUnit 1736 ⟨.fenced, none⟩).unit 1736).st = .fenced := by decide +kernel

/-- A MATMUL of no other fields. -/
def mmWord (cnt : Nat) : Nat := 0x10 * 2 ^ 58 + cnt * 2 ^ 46

/-- A posting (Table 20.3) of a MATMUL with wait count `cnt` for logical tile `l`. -/
def postBytes (l cnt : Nat) : List Byte := toLE 8 l ++ toLE 8 (mmWord cnt) ++ toLE 112 0

def postState (l cnt : Nat) (f : Tile → Tile := fun x => x) : State :=
  withBytes nt0 (postBytes l cnt) (coreState (fun x => { x with posts := [BitVec.ofNat 64 nt0] }) (tile0 f))

/-- A posting whose wait holds; one that waits for a token; one whose queue is full; one that gives way to the program, whose next
word is ready, because the last word issued was a posting's; one whose partition takes no work. -/
theorem witness_ServiceCoresRunPostAndCompute_issue : ∀ x ∈ [(0, 0), (1, 0), (0, 32)],
    let s := postState 0 x.1 fun y => { y with q0 := List.replicate x.2 (entry (mmWord 0) []) }
    s.coreUp 0 = true ∧ (s.core_ 0).posts = [BitVec.ofNat 64 nt0] ∧
      s.posting (BitVec.ofNat 64 nt0) = some ⟨0, mmWord x.1, 0, 0, List.replicate 8 (some 0)⟩ ∧
      s.ptile 0 0 = some 0 ∧ s.tileOn 0 = true ∧ queueOf (wMajor (mmWord x.1)) = some 0 ∧ s.pageBusy (pgTile 0) = false ∧
      s.rstActive (pgTile 0) = false ∧ s.takesWork 0 = true ∧ (s.mem.poison.all fun y => y.2 == 1) = true ∧ s.cs.st ≠ .rebuild ∧
      (s.tile 0).lastPosted = false ∧ ((wWcnt (mmWord x.1) ≤ s.tokSeen 0 (wWidx (mmWord x.1)) ∧
        (s.tile 0).hasCredit 0 = true) ↔ x = (0, 0)) := by decide +kernel

theorem witness_ServiceCoresRunPostAndCompute_waits :
    let s := withCode [mmWord 0] (postState 0 0 fun y => { y with seq := .run, lastPosted := true })
    let few := s.setPart 0 { part0 with n := 47 }
    (∀ t ∈ [s, few], t.coreUp 0 = true ∧ (t.core_ 0).posts = [BitVec.ofNat 64 nt0] ∧
      t.posting (BitVec.ofNat 64 nt0) = some ⟨0, mmWord 0, 0, 0, List.replicate 8 (some 0)⟩ ∧ t.ptile 0 0 = some 0 ∧ t.tileOn 0 = true ∧
      t.rstActive (pgTile 0) = false ∧ (t.mem.poison.all fun y => y.2 == 1) = true ∧ t.cs.st ≠ .rebuild) ∧
      (s.tile 0).lastPosted = true ∧ s.progReady 0 0 = true ∧ few.takesWork 0 = false := by decide +kernel

/-- Postings of no logical tile, of a logical tile that is not there, of a tile that is not in service. -/
theorem witness_ServiceCoresRunPostAndCompute_refused :
    (postState 1024 0).posting (BitVec.ofNat 64 nt0) = none ∧ (postState 1023 0).postTile (BitVec.ofNat 64 nt0) = none ∧
      (postState 5 0).postTile (BitVec.ofNat 64 nt0) = some 5 ∧ (postState 5 0).tileOn 5 = false ∧
      (postState 5 0).bit (pgCore 0) 0x104 8 = false := by decide +kernel

/-- A PSV word: operation, type, the two sources and the destination; `wide`: of 128 bits. -/
def psvw (op ty rd rs1 rs2 : Nat) (wide : Bool) : W32 :=
  BitVec.ofNat 32 (op * 2 ^ 25 + rs2 * 2 ^ 20 + rs1 * 2 ^ 15 + ty * 2 ^ 12 + rd * 2 ^ 7 + if wide then 0x2B else 0x0B)

theorem psvReady_of {s : State} {c op : Nat} {w : W32} {rounds : Bool} {l : List Nat} (h : c < 64 ∧ s.coreUp c = true ∧ psvIs w op = true ∧
    (psvOf w).legal l = true ∧ (s.core_ c).fsOff = false ∧ (rounds = false ∨ psvFp (psvOf w).ty = false ∨ (s.core_ c).frm.toNat ≤ 4) ∧
    ((s.core_ c).psvOn = true ∧ (s.core_ c).waking = false) ∧ (s.core_ c).f.length = 32) : PsvReady s c w op rounds l :=
  ⟨h.1, h.2.1, h.2.2.1, h.2.2.2.1, h.2.2.2.2.1, h.2.2.2.2.2.1, h.2.2.2.2.2.2.1, h.2.2.2.2.2.2.2⟩

/-- Every operation of three registers, of every type, in both forms, with frm at its last mode. -/
theorem witness_ServiceCoresRunPostAndCompute_psv : ∀ x ∈ [(0, 3, false), (1, 0, false), (2, 1, true), (3, 4, true), (4, 2, false), (5, 3, true)],
    let w := psvw x.1 x.2.1 2 4 6 x.2.2
    let i := if x.1 = 0 then Instr.psvAdd 0 w else if x.1 = 1 then .psvSub 0 w else if x.1 = 2 then .psvMul 0 w else if x.1 = 3 then .psvMac 0 w
      else if x.1 = 4 then .psvMin 0 w else .psvMax 0 w
    (∃ g, psvRow i = some (0, w, x.1, decide (x.1 < 4), g)) ∧
      PsvReady (coreState fun y => { y with frm := 4 }) 0 w x.1 (decide (x.1 < 4)) (psvRegs w) := by
  intro x hx
  simp only [List.mem_cons, List.not_mem_nil, or_false] at hx
  rcases hx with rfl | rfl | rfl | rfl | rfl | rfl <;> exact ⟨⟨_, rfl⟩, psvReady_of (by decide +kernel)⟩

theorem coreReads_of {s : State} {a n v : Nat} (h : cacheable a = true ∧
    ((s.load .unit (a / 64 * 64) 64).bind fun bs => pNat ((bs.drop (a % 64)).take n)) = some v) : CoreReads s a n v := by
  unfold CoreReads
  rw [if_pos h.1]
  exact Option.bind_eq_some_iff.1 h.2

theorem coreReads_store {s : State} {a n v : Nat} (h : cacheable a = false ∧ regionOf a ≠ .page ∧ regionOf a ≠ .window ∧
    (s.load .unit a n).bind pNat = some v) : CoreReads s a n v := by
  unfold CoreReads
  rw [if_neg (by rw [h.1]; decide)]
  exact h.2

/-- LDS reads two F64 of a tile store and of the far tier, the caches being clean with a line of it; an element of a poisoned line
faults. -/
theorem witness_ServiceCoresRunPostAndCompute_reads :
    let s := { coreState fun y => y with dcache := [⟨1, List.replicate 64 (some 0), false⟩] }
    let bad := { s with mem := s.mem.wr 128 [none] }
    let a : W64 := BitVec.ofNat 64 (tstoreOf 0 + 64)
    (NoErrors s ∧ NoErrors bad) ∧ CachesClean s ∧ CachesClean bad ∧ PsvReady bad 0 (psvw 0x20 4 2 0 0 true) 0x20 false [2] ∧
      (∀ k ∈ [0, 1], CoreReads s (psvAddr a 16 k) 8 0 ∧ CoreReads s (psvAddr 64 16 k) 8 0) ∧ CoreReads bad (psvAddr 64 64 0) 8 0 ∧
      CoreFaults bad (psvAddr 64 64 1) 8 := by
  refine ⟨⟨noErrors_of (by decide +kernel), noErrors_of (by decide +kernel)⟩, fun l hl => ?_, fun l hl => ?_,
    psvReady_of (by decide +kernel), fun k hk => ?_, coreReads_of (by decide +kernel), ?_⟩
  · rw [List.mem_singleton.1 hl]; decide +kernel
  · rw [List.mem_singleton.1 hl]; decide +kernel
  · simp only [List.mem_cons, List.not_mem_nil, or_false] at hk
    rcases hk with rfl | rfl <;> exact ⟨coreReads_store (by decide +kernel), coreReads_of (by decide +kernel)⟩
  · unfold CoreFaults; decide +kernel

/-- RSUM, LDS and STS of F64 pairs, with elements at a tile store, the second of them first, and misaligned. -/
theorem witness_ServiceCoresRunPostAndCompute_mem : ∀ x ∈ [0, 1],
    let s := coreState fun y => { y with psvidx := BitVec.ofNat 4 x }
    let a : W64 := BitVec.ofNat 64 (tstoreOf 0 + 64)
    let far : W64 := 64
    PsvReady s 0 (psvw 0x10 4 2 4 0 true) 0x10 true [2, 4] ∧ PsvReady s 0 (psvw 0x20 4 2 0 0 true) 0x20 false [2] ∧
      PsvReady s 0 (psvw 0x21 4 2 0 0 true) 0x21 false [2] ∧ ((s.core_ 0).psvidx.toNat = x ∧ (psvOf (psvw 0x20 4 2 0 0 true)).count = 2 ∧
      (∀ k, k < 2 → psvAddr a 16 k % 8 = 0 ∧ regionOf (psvAddr a 16 k) ≠ .page ∧ regionOf (psvAddr a 16 k) ≠ .window ∧
        (s.load .unit (psvAddr a 16 k) 8).bind pNat = some 0 ∧ s.accessOk .unit (psvAddr a 16 k) 8 = true ∧
        regionOf (psvAddr a 16 k) = .tstore 0 ∧ regionOf (psvAddr far 16 k) = .far 0 ∧
          s.accessOk .unit (psvAddr far 16 k / 64 * 64) 64 = true ∧ s.mem.poison = []) ∧
      s.dcache = [] ∧ (s.setPart 0 { part0 with inReset := true }).accessOk .unit (tstoreOf 0 + 64) 8 = false ∧
      overlaps (psvAddr a 16 0) 8 (psvAddr a 16 1) 8 = false ∧ psvAddr (a + 4) 16 x % 8 ≠ 0) := by
  intro x hx
  simp only [List.mem_cons, List.not_mem_nil, or_false] at hx
  rcases hx with rfl | rfl <;>
    exact ⟨psvReady_of (by decide +kernel), psvReady_of (by decide +kernel), psvReady_of (by decide +kernel), by decide +kernel⟩

/-- A word with no form, one without FP state, one of a reserved rounding mode; a unit that is off, and one that wakes. -/
theorem witness_ServiceCoresRunPostAndCompute_traps :
    let w := psvw 0 3 2 4 6 false
    let s := coreState fun y => { y with frm := 5 }
    (∃ g, psvRow (.psvAdd 0 w) = some (0, w, 0, true, g)) ∧ (psvIs w 0 = true ∧ (psvOf w).legal (psvRegs w) = true ∧ s.coreUp 0 = true ∧
      (s.core_ 0).waking = false ∧ 4 < (s.core_ 0).frm.toNat ∧ psvFp (psvOf w).ty = true ∧ (psvOf (psvw 0 4 2 4 6 false)).legal [2, 4, 6] = false ∧
      (psvOf (psvw 0 0 3 4 6 true)).legal [3, 4, 6] = false ∧ ((coreState fun y => { y with fsOff := true }).core_ 0).fsOff = true ∧
      ((coreState fun y => { y with psvOn := false }).core_ 0).psvOn = false ∧ ((coreState fun y => { y with waking := true }).core_ 0).waking = true) :=
  ⟨⟨_, rfl⟩, by decide +kernel⟩

/-- PSVIDLE of 1: 256 core cycles are due at 107 ns, not at 106; at a quarter of the frequency, at 427 ns. -/
theorem witness_ServiceCoresRunPostAndCompute_idle :
    let s := fun clk th => { (coreState fun x => x).setFld (pgCore 0) 0x100 15 8 1 with clk := clk, power := { base.power with throttled := th } }
    (s 107 []).fld (pgCore 0) 0x100 15 8 = 1 ∧ ((s 107 []).core_ 0).psvOn = true ∧ ((s 107 []).core_ 0).psvIdleAt = 0 ∧
      1 * 256 * 5 ≤ (s 107 []).clk * 12 ∧ ¬ 1 * 256 * 5 ≤ (s 106 []).clk * 12 ∧ 16 ∈ (s 427 [16]).power.throttled ∧
      1 * 256 * 5 ≤ (s 427 [16]).clk * 3 ∧ ¬ 1 * 256 * 5 ≤ (s 426 [16]).clk * 3 := by decide +kernel

/-! ### Host rings -/

/-- Ring `r` as given. -/
def ringState (r : Nat) (h : HRing) (s : State := base) : State := s.setHring r h

/-- A ring of `n` entries, on, with vector 7. -/
def ring0 (n : Nat) (es : List RingEnt) : HRing := { HRing.reset with cfg := BitVec.ofNat 32 (1 + 2 * n + 7 * 2 ^ 16), ents := es }

/-- An entry waiting to start. -/
def ringEnt0 (op : Nat) (fence : Bool) (m : W64) (len : Nat) : RingEnt := ⟨op, fence, 9, 0x1000, m, len, 5, false, none⟩

/-- The last ring, of 1, of 960, of 961 and of no entries; the tail within and at its size; stopped; off; link down; no doorbell before
this one. -/
theorem witness_HostRingsAreServed_tail : ∀ n ∈ [0, 1, 960, 961],
    let s := ringState 255 (ring0 n [])
    s.hostp.up = true ∧ (s.hring 255).cfg.getLsbD 0 = true ∧ bits (s.hring 255).cfg.toNat 10 1 = n ∧ (s.hring 255).stopped = false ∧
      bits (BitVec.ofNat 32 (n - 1)).toNat 9 0 = n - 1 ∧ bits (BitVec.ofNat 32 n).toNat 9 0 = n ∧
      (s.hring 255).bell = none ∧ ({ ring0 n [] with stopped := true } : HRing).stopped = true ∧ HRing.reset.cfg.getLsbD 0 = false := by decide +kernel

/-- A running ring whose oldest entry is complete, is not, and with no entry; its record last of the ring, and its vector masked. -/
theorem witness_HostRingsAreServed_done : ∀ st ∈ [none, some 0], ∀ m ∈ [[], [7]],
    let e := { ringEnt0 0 false 0 0 with started := true, status := st }
    let s := ringState 255 { ring0 2 [e] with rec_ := 1 } { base with hostp := { base.hostp with masked := m } }
    (s.hring 255).ents = [e] ∧ e.status = st ∧ s.hostp.up = true ∧ bits (s.hring 255).cfg.toNat 10 1 = 2 ∧ (s.hring 255).rec_ + 1 = 2 ∧
      bits (s.hring 255).cfg.toNat 26 16 = 7 ∧ s.hostp.masked = m ∧ (base.hring 0).ents = [] := by decide +kernel

/-- One entry of ring 3 in its turn: the first. -/
theorem ringTurn_first (op : Nat) (fence : Bool) (m : W64) (len : Nat) :
    RingTurn (ringState 3 (ring0 4 [ringEnt0 op fence m len])) 3 op 0 (ringEnt0 op fence m len) := by
  have e : ((ringState 3 (ring0 4 [ringEnt0 op fence m len])).hring 3).ents = [ringEnt0 op fence m len] := rfl
  exact ⟨by omega, rfl, by rw [e]; rfl, rfl, ⟨rfl, rfl⟩, fun j y hj => by omega, fun _ j y hj => by omega, by rw [e]; exact (by decide : (0:Nat) < 8)⟩

/-- A fenced NOP behind two entries that are complete; a copy behind seven that run. -/
theorem witness_HostRingsAreServed_turns : ∀ x ∈ [(0, true, 2, some 0), (2, false, 7, none)],
    let y := { ringEnt0 1 false 0 8 with started := true, status := x.2.2.2 }
    let e := ringEnt0 x.1 x.2.1 0 8
    RingTurn (ringState 3 (ring0 16 (List.replicate x.2.2.1 y ++ [e]))) 3 x.1 x.2.2.1 e := by
  intro x hx y e
  simp only [List.mem_cons, List.not_mem_nil, or_false] at hx
  rcases hx with rfl | rfl <;> dsimp only [] at *
  · refine ⟨by decide, by decide, by decide +kernel, by decide, by decide, fun j z hj hz => ?_, fun _ j z hj hz => ?_, by decide +kernel⟩ <;>
      (rcases (show j = 0 ∨ j = 1 by omega) with rfl | rfl <;> cases hz <;> simp [y])
  · refine ⟨by decide, by decide, by decide +kernel, by decide, by decide, fun j z hj hz => ?_, fun h => ?_, by decide +kernel⟩
    · rcases (show j = 0 ∨ j = 1 ∨ j = 2 ∨ j = 3 ∨ j = 4 ∨ j = 5 ∨ j = 6 by omega) with rfl | rfl | rfl | rfl | rfl | rfl | rfl <;> cases hz <;> simp [y]
    · rcases h with h | h <;> exact absurd h (by decide)

/-- HTOM, MTOH and NOTIFY of bytes of the near tier, and of a hole; of no bytes; what the host may answer. -/
theorem witness_HostRingsAreServed_copies : ∀ m ∈ [nt0, 0x11090000000], ∀ len ∈ [0, 8],
    let a : W64 := BitVec.ofNat 64 m
    let s := fun op => ringState 3 (ring0 4 [ringEnt0 op false a len])
    (∀ op, op < 4 → RingTurn (s op) 3 op 0 (ringEnt0 op false a len)) ∧ (∀ op ∈ [1, 2, 3], (ringEnt0 op false a len).len = len ∧
      (s op).xlateParts a 8 = some [(m, 8)] ∧ (s op).mem.poison = [] ∧ (s op).cs.st ≠ .rebuild ∧
        ((s op).accessOk .host m 8 = decide (m = nt0)) ∧ ((s op).loadX .host a 8).isSome = decide (m = nt0)) ∧
      (⟨List.replicate 8 1, false, false⟩ : HostRead).data.length = 8 ∧ (⟨[], true, false⟩ : HostRead).failed = true ∧
      (⟨[], false, true⟩ : HostRead).poisoned = true := by
  intro m hm len hl
  simp only [List.mem_cons, List.not_mem_nil, or_false] at hm hl
  rcases hm with rfl | rfl <;> rcases hl with rfl | rfl <;>
    exact ⟨fun op _ => ringTurn_first op false _ _, by decide +kernel⟩

/-- The near tier takes those bytes, and poison in their place. -/
theorem witness_HostRingsAreServed_stores : ∀ bs ∈ [List.replicate 8 (some (1 : Byte)), List.replicate 8 none],
    let s := ringState 3 (ring0 4 [ringEnt0 1 false (BitVec.ofNat 64 nt0) 8])
    ∃ u, s.store .host nt0 bs = .ok u := by
  intro bs hb
  simp only [List.mem_cons, List.not_mem_nil, or_false] at hb
  rcases hb with rfl | rfl <;> exact done_of (by decide +kernel)

/-! ### Host accesses, vectors and the link -/

/-- Far-tier words without poison take any bytes. -/
theorem store_far {s : State} {w : Who} {a n : Nat} (h : s.accessOk w a n = true ∧ n ≠ 0 ∧ regionOf a = .far (a / 0x1000000000) ∧ s.partialBad a n = false)
    (bs : List (PVal Byte)) (hb : bs.length = n) : ∃ u, s.store w a bs = .ok u := by
  obtain ⟨h1, h2, h3, h4⟩ := h
  unfold State.store
  simp only [hb, h1, h2, h3, h4]
  simp

/-- BAR2 while the module waits for an image: the last bytes of the staging area, and one beyond. -/
theorem witness_HostAccessesVectorsAndLink_staging :
    let s := imgState 0 [] false
    s.hostp.up = true ∧ s.waitImg = true ∧ 0x7FFFF8 + (List.replicate 8 (1 : Byte)).length ≤ 0x800000 ∧ 0x800000 < 0x7FFFF8 + 9 ∧
      0x7FFFF8 + (⟨8, 0, 0, 0⟩ : HostAtomic).size ≤ 0x800000 := by decide +kernel

/-- BAR2 in service: the far tier, the last bytes of the window, and one beyond; a hole, and a page. -/
theorem witness_HostAccessesVectorsAndLink_bar2 :
    let s := base.setReg64 pgHost 0x108 0x800000000
    let t := base.setReg64 pgHost 0x108 0x11090000000
    let u := base.setReg64 pgHost 0x108 0x12000000000
    let a := fun (x : State) => x.reg64 pgHost 0x108 + 64
    base.hostp.up = true ∧ base.waitImg = false ∧ a s = 0x800000040 ∧ bar2Reaches (a s) = true ∧ (s.load .host (a s) 8).isSome = true ∧
      isDone (s.store .host (a s) (List.replicate 8 (some 1))) = true ∧ bar2Reaches (a t) = false ∧ bar2Reaches (a u) = false ∧
        s.mem.poison = [] ∧ s.cs.st ≠ .rebuild ∧
      s.load .host 0x11090000000 8 = none ∧ s.accessOk .host 0x11090000000 8 = false ∧ 0xFFFFFFFF8 + 8 ≤ s.hostp.b2size ∧ s.hostp.b2size < 0xFFFFFFFF8 + 9 := by decide +kernel

/-- AtomicOps of every size and kind at the far tier; one misaligned, one of a wrong size, one of a tile's store. -/
theorem witness_HostAccessesVectorsAndLink_atomic : ∀ x ∈ [(4, 0), (8, 1), (16, 2)],
    let op : HostAtomic := ⟨x.1, x.2, 5, 0⟩
    (64 + op.size ≤ base.hostp.b2size ∧ base.reg64 pgHost 0x108 + 64 = 64 ∧ regionOf 64 = .far 0 ∧ 64 % op.size = 0 ∧
      (base.load .host 64 op.size).bind pNat = some 0 ∧ base.mem.poison = [] ∧ base.cs.st ≠ .rebuild ∧ 66 % op.size ≠ 0 ∧ regionOf (tstoreOf 0) = .tstore 0) ∧
      ∀ bs : List (PVal Byte), bs.length = op.size → ∃ u, base.store .host 64 bs = .ok u := by
  intro x hx
  simp only [List.mem_cons, List.not_mem_nil, or_false] at hx
  rcases hx with rfl | rfl | rfl <;> exact ⟨by decide +kernel, store_far (by decide +kernel)⟩

/-- A masked vector, pending and not; a link that may come up. -/
theorem witness_HostAccessesVectorsAndLink_link : ∀ p ∈ [false, true],
    let s := { base with hostp := { base.hostp with masked := [7], pba := if p then [7] else [] } }
    let d := { base with hostp := { base.hostp with up := false } }
    s.hostp.up = true ∧ 7 ∈ s.hostp.masked ∧ (7 ∈ s.hostp.pba ↔ p = true) ∧ 8 ∉ s.hostp.masked ∧ d.hostp.up = false ∧ d.rst.phase = 8 ∧
      d.powered = true := by decide +kernel

end Sys2Proof.Tests
end

