-- ==== Sys2Proof/Tests/Witness12.lean ====
section
/-! SUPPORT. Concrete states and operands that meet the hypotheses of the statements about power, events, register writes, error
records and the whole machine. -/
namespace Sys2Proof.Tests

open Machine

set_option Elab.async false

/-! ### Power -/

/-- What keeps partition 0 awake. -/
def barred (s : State) : Prop :=
  (s.arcu 0).active ≠ [] ∨ (s.part 0).fpl.active ≠ none ∨ (s.part 0).fpl.ready ≠ none ∨ (∃ w ∈ (s.part 0).wl, w.active = true) ∨
    (s.part 0).asm.run ≠ none ∨ (s.part 0).asm.queue ≠ [] ∨ (s.part 0).slv.run ≠ none ∨ (s.part 0).slv.queue ≠ [] ∨ (s.part 0).inReset = true

theorem barred_iff (s : State) : barred s ↔ s.sleepBars 0 = true := by
  unfold barred State.sleepBars
  simp [Option.isSome_iff_ne_none, or_assoc]

/-- A partition with nothing to keep it awake, and with each thing that does; asleep, in service and in Standby. -/
theorem witness_PowerStatesAndLoops_sleep :
    let z := withPart fun x => { x with sleep := .asleep, atSleep := [(60, .spare)] }
    base.softReset pgPower = false ∧ (base.part 0).sleep = .awake ∧ ¬ barred base ∧ barred (withArc 0 (arc 6 0 0)) ∧
      barred (withPart fun x => { x with wl := [{ WlSlot.free with active := true }] }) ∧ barred (withPart fun x => { x with inReset := true }) ∧
      barred (withPart fun x => { x with slv := { x.slv with queue := [⟨nt0, .arc 0, false, 0, false⟩] } }) ∧
        (z.part 0).sleep = .asleep ∧ z.power.standby = false ∧
      (∀ k, k < 72 → (base.tile k).queues = []) ∧
      ((z.part 0).atSleep.filter fun y => y.1 == 60) = [(60, .spare)] ∧ (z.unit 60).st ≠ .fenced ∧
      ({ z with power := { z.power with standby := true } } : State).power.standby = true := by
  simp only [barred_iff]
  decide +kernel

/-- Every partition asleep and no job LIVE, but for what `p` and `j` say; `b`: in Standby. -/
def standbyState (p j b : Bool) : State :=
  let z := fun (q : Nat) => (q, { Part.reset with sleep := if p && q == 15 then .awake else .asleep })
  { base with
    parts := (List.range 16).map z, jobs := if j then base.jobs else [], hist := [(1665, ⟨2, 0, 0, []⟩)]
    ust := base.ust ++ [(1664, ⟨.fenced, none⟩)], power := { base.power with standby := b } }

theorem witness_PowerStatesAndLoops_standby : ∀ p ∈ [true, false], ∀ j ∈ [true, false], ∀ b ∈ [true, false],
    let s := standbyState p j b
    s.softReset pgPower = false ∧ s.power.standby = b ∧
      (((∃ q, q < 16 ∧ (s.part q).sleep = .awake) ∨ ∃ e ∈ s.jobs, e.2.st = .live) ↔ (p = true ∨ j = true)) ∧
      (s.unit 1664).st = .fenced ∧ (s.unit 1665).st ≠ .fenced ∧ (s.histOf 1665).st = 2 ∧ (s.histOf 1666).st ≠ 2 ∧
      (s.port 0).st = .down ∧ s.bit (pgPort 1) 0x100 0 = true := by decide +kernel

/-- Samples at and beside the trip's ends, of dies and of a stack, the throttle's and the limit's. -/
theorem witness_PowerStatesAndLoops_sample :
    let t := fun (d : Int) => List.replicate 20 d
    let s := fun (l : List Nat) (lim trip ok : Bool) =>
      ({ base with pins := { base.pins with pwrOk := ok }, power := { base.power with throttled := l, limit := lim, tripped := trip } } : State)
    (s [] false false false).pins.pwrOk = false ∧ (s [] false true true).pins.pwrOk = true ∧ (s [] false true true).power.tripped = true ∧
      (s [3] true false true).power.tripped = false ∧ (∃ d ∈ t 761, 760 < d) ∧ (∀ d ∈ t 760, d ≤ 760) ∧
      (∀ p, p < 16 → ((s [] false true true).part p).far.temp.toNat ≤ 760) ∧
      760 < ((withPart fun x => { x with far := { x.far with temp := 761 } }).part 0).far.temp.toNat ∧ (∃ d ∈ t 920, 920 ≤ d) ∧
      (∀ d ∈ t 919, d < 920) ∧ 840 ≤ (t 840).getD 3 0 ∧ ¬ 840 ≤ (t 839).getD 3 0 ∧ 824 < (t 825).getD 3 0 ∧ ¬ 824 < (t 824).getD 3 0 ∧
      3 ∈ (s [3] true false true).power.throttled ∧ (s [3] true false true).power.limit = true ∧ 3 ∉ (s [] false false true).power.throttled := by
  decide +kernel

/-- The governor above its target and cap, well below both, and between; its value and clock with no loop and with each. -/
theorem witness_PowerStatesAndLoops_governor : ∀ x ∈ [(761, 3950), (744, 4001), (744, 3950), (745, 3950), (744, 3951)],
    let s := { base with power := { base.power with sample := ⟨List.replicate 20 x.1, [], x.2, 48000⟩, throttled := [1] } }
    s.powered = true ∧ s.fld pgPower 0x108 22 16 = 95 ∧ min 4000 (s.fld pgPower 0x108 11 0) = 4000 ∧ s.fld pgPower 0x10C 6 0 = 48 ∧
      s.power.sample.temps.getD 0 0 = x.1 ∧ s.power.sample.watts = x.2 ∧ 1 ∈ s.power.throttled ∧ 0 ∉ s.power.throttled ∧
      (pinState false false false).powered = false := by decide +kernel

/-- A droop of an awake partition, and its release. -/
theorem witness_PowerStatesAndLoops_droop :
    base.powered = true ∧ (base.part 15).sleep = .awake ∧ (base.part 15).stretch = none ∧
      ((withPart fun x => { x with stretch := some 10 }).part 0).stretch = some 10 := by decide +kernel

/-- A module in its ring, and not. -/
theorem witness_PowerStatesAndLoops_ring : ({ base with inRing := true } : State).inRing = true ∧ base.inRing = false := by decide +kernel

/-! ### Events -/

/-- Event 0 of tile 0 raised and not enabled, by route `r`. -/
def raised0 (r : Nat) (up warm : Bool := false) : State :=
  let s := ((base.setReg (pgTile 0) 0x010 1).setReg (pgTile 0) 0x014 0).setReg (pgTile 0) 0x018 (BitVec.ofNat 32 r)
  { s with hostp := { s.hostp with up := up }, rst := { s.rst with warmReq := warm } }

theorem witness_EventsAndRegisterWrites_enable : ∀ k ∈ [16, 17, 18],
    let s := raised0 (2 ^ k) true
    let v : W32 := 1
    pagePresent (pgTile 0) = true ∧ s.pageBusy (pgTile 0) = false ∧ pgTile 0 ≠ pgEvr ∧ s.router.host.length + 32 ≤ 4096 ∧
      s.router.stew.length + 32 ≤ 4096 ∧ s.router.mgmt.length + 32 ≤ 4096 ∧ 0 < evBits (pageClass (pgTile 0)) ∧ v.getLsbD 0 = true ∧
      s.bit (pgTile 0) 0x014 0 = false ∧ s.bit (pgTile 0) 0x010 0 = true ∧ (s.was (pgTile 0) 0x018).getLsbD k = true ∧ s.hostp.up = true ∧
      (({ s with wasNow := mhold [] (pgTile 0 * 0x1000 + 0x018) 0 } : State).was (pgTile 0) 0x018).getLsbD k = false ∧
      s.rst.warmReq = false ∧ pagePresent 0x3FFF = false ∧ (withPart fun x => { x with inReset := true }).pageBusy (pgTile 0) = true := by
  decide +kernel

/-- A delivery of event 0 of tile 0 by vector 7, to the host alone or to the steward too. -/
def dlv (both : Bool := false) : Delivery := ⟨pgTile 0, some 0, 7, 1, 5, none, 3, both⟩

/-- One delivery in each queue, with vector 7 masked or not, the link up or down, and a management module listed or none; the
steward's own copy of it queued or not. -/
theorem witness_EventsAndRegisterWrites_delivery : ∀ m ∈ [true, false], ∀ up ∈ [true, false], ∀ l ∈ [true, false], ∀ b ∈ [true, false],
    let dlv := dlv b
    let s := { base with
      router := ⟨[dlv], [dlv], [dlv], [], 4⟩, hostp := { base.hostp with up := up, masked := if m then [7] else [] }
      mgmtList := (if l then some 1 else none) :: List.replicate 7 none }
    base.router.host = [] ∧ base.router.stew = [] ∧ base.router.mgmt = [] ∧ s.router.host = [dlv] ∧ s.router.stew = [dlv] ∧
      s.router.mgmt = [dlv] ∧ s.hostp.up = up ∧ (dlv.vec ∈ s.hostp.masked ↔ m = true) ∧ s.rst.warmReq = false ∧ s.router.stew.length < 4096 ∧
      s.stewardOn = true ∧ dlv.bit ≠ none ∧ dlv.both = b ∧ s.mgmtList.filterMap id = (if l then [1] else []) ∧
      s.routeOwn (ownPacket s ⟨1, 0, 0, 0, 0, 0, 0, 0x43, mgmtEvent dlv⟩) ≠ .none_ := by decide +kernel

/-! ### Register writes -/

/-- Writes of other sizes and alignments, by a host or steward that is not there, to a page in reset, a word with no row. -/
theorem witness_EventsAndRegisterWrites_refused :
    let r := withPart fun x => { x with inReset := true }
    let h := { base with hostp := { base.hostp with up := false }, boot := { base.boot with stewardUp := false } }
    ¬ (2 = 4 ∨ 2 = 8) ∧ (pgPower * 0x1000 + 0x10A) % 4 ≠ 0 ∧ h.hostp.up = false ∧ h.stewardOn = false ∧ pagePresent 0x3FFF = false ∧
      r.pageBusy (pgPart 0) = true ∧ rowAt (pageClass pgPower) 0x200 = none ∧ rowAt (pageClass pgPower) 0x104 ≠ none := by decide +kernel

/-- A plain word, a word of a pair, EVRAW, an error record; who may write them. -/
theorem witness_EventsAndRegisterWrites_words :
    let q := (rowAt (pageClass pgBoot) 0x138).getD (rwRow 0 0)
    let r := (rowAt (pageClass pgBoot) 0x13C).getD (rwRow 0 0)
    let w := (rowAt (pageClass pgPower) 0x108).getD (rwRow 0 0)
    base.hostp.up = true ∧ base.stewardOn = true ∧ pagePresent pgPower = true ∧ base.pageBusy pgPower = false ∧ 0x108 % 4 = 0 ∧
      rowAt (pageClass pgPower) 0x108 = some w ∧ isLow64 pgPower 0x108 = false ∧ isLow64 pgPower 0x104 = false ∧ w.lo64 = false ∧
      pgPower ≠ pgFault ∧ base.pageBusy pgBoot = false ∧ 0x138 % 8 = 0 ∧ rowAt (pageClass pgBoot) 0x138 = some q ∧ q.lo64 = true ∧
      rowAt (pageClass pgBoot) 0x13C = some r ∧ r.lo64 = false ∧ pgBoot ≠ pgFault ∧ (raised0 0).reg (pgTile 0) 0x010 ≠ 0 ∧
      mget 0 base.srst (pgTile 0) ≠ 1 := by decide +kernel

/-- An event raised, a token counted and a variance counted in this nanosecond; the words that count them, and the total in which none
is. -/
theorem witness_EventsAndRegisterWrites_now :
    let s := { raised0 0 with bitsNow := [(pgTile 0 * 0x1000 + 0x010, 1)], cntsNow := [(pgTile 0 * 0x1000 + 0x200, 2), (pgRep * 0x1000 + 0x118, 3)] }
    let t := (rowAt (pageClass (pgTile 0)) 0x200).getD (rwRow 0 0)
    let r := (rowAt (pageClass pgRep) 0x118).getD (rwRow 0 0)
    (s.setNow (pgTile 0) 0x010).getLsbD 0 = true ∧ s.cntNow (pgTile 0) 0x200 = 2 ∧ s.cntNow pgRep 0x118 = 3 ∧ s.cntNow pgRep 0x108 = 0 ∧
      0x20 ≤ pageClass (pgTile 0) ∧ pageClass (pgTile 0) ≤ 0x24 ∧ rowAt (pageClass (pgTile 0)) 0x200 = some t ∧ t.lo64 = false ∧
      isLow64 (pgTile 0) 0x200 = false ∧ isLow64 (pgTile 0) 0x1FC = false ∧ rowAt (pageClass pgRep) 0x118 = some r ∧ r.lo64 = false ∧
      isLow64 pgRep 0x118 = false ∧ isLow64 pgRep 0x114 = false ∧ pagePresent pgRep = true ∧ s.pageBusy pgRep = false := by decide +kernel

/-! ### Keyed writes, records, and every step -/

/-- Writes of a core, with another key, and with both bits set; the module in service. -/
theorem witness_KeyedWritesAloneReset :
    let w : W32 := 0xA503
    bits (0xA401 : W32).toNat 15 8 ≠ 0xA5 ∧ bits w.toNat 15 8 = 0xA5 ∧ w.getLsbD 0 = true ∧ w.getLsbD 1 = true ∧ Writer.host ≠ .core ∧
      base.pageBusy pgReset = false ∧ base.powered = true ∧ base.rst.running = false := by decide +kernel

/-- The first page and its first and last latched words. -/
theorem witness_ErrorRecordsAreReadWhole : pagePresent (pgTile 0) = true ∧ 0x024 ≤ 0x024 ∧ 0x05C ≤ 0x05C ∧ mget 0 base.srst (pgTile 0) ≠ 1 ∧
    mheld base.recWas (pgTile 0) = none ∧ (base.putRec (pgTile 0) [1]).recAt (pgTile 0) = [] := by
  decide +kernel

/-- A state with bytes in memory, an accumulator and a command in front, and the step that it takes. -/
theorem witness_StepsKeepMemoryCanonical :
    let s := { withBytes nt0 [1, 2, 3] (tile0 fun x => { x with acc := Store.empty.wr 5 [some 1] }) with pending := [.msixUnmask 0] }
    Stores.wf s = true ∧ ∃ t, step s = .next t := ⟨by decide +kernel, ⟨_, rfl⟩⟩

end Sys2Proof.Tests
end

