-- ==== Sys2Proof/Tests/Witness2.lean ====
section
/-! SUPPORT. Concrete states and operands that meet the hypotheses of the statements about COPY arcs, tiles, the sequencer and
work lists. -/
namespace Sys2Proof.Tests

open Machine

set_option Elab.async false

/-! ### COPY arcs -/

/-- A copy descriptor (Table 14.10): kind, flags, source, destination, length, flow. -/
def copyDesc (kind fl src dst n flow : Nat) : List Byte :=
  toLE 1 kind ++ toLE 1 fl ++ toLE 6 0 ++ toLE 8 src ++ toLE 8 dst ++ toLE 8 n ++ toLE 3 flow ++ toLE 29 0

def near0 : Nat := 0x10000000000

/-- A COPY arc of unit 0 whose descriptor lies at the start of the near tier. -/
def copying (d : List Byte) : State := withBytes near0 d (withArc 0 (arc 2 0 near0))

def copyFires (d : List Byte) : Prop := ArcCanFire (copying d) 0 0 2 (arc 2 0 near0) ∧ mget [] (copying d).copies 0 = [] ∧
  (NoErrors (copying d) ∧ (BitVec.ofNat 64 near0).toNat % 64 = 0) ∧ ((copying d).loadX .unit (BitVec.ofNat 64 near0) 64).bind allSome = some d

theorem witness_CopyArcsAreCarriedOutAndReported_queued :
    let s := { copying [] with copies := [(0, [⟨7, 0, true, 1, false, false, []⟩])] }
    ArcCanFire s 0 0 2 (arc 2 0 near0) ∧ mget [] s.copies 0 = [⟨7, 0, true, 1, false, false, []⟩] :=
  ⟨arcCanFire_of (by decide +kernel), by decide +kernel⟩

/-- Descriptors of no shape, of no bytes, of 8 local bytes. -/
theorem witness_CopyArcsAreCarriedOutAndReported_local :
    (copyFires (copyDesc 3 0 0 0 0 0) ∧ ¬ field (copyDesc 3 0 0 0 0 0) 0 1 ≤ 2) ∧ copyFires (copyDesc 0 0 0 0 0 0) ∧
    (let d := copyDesc 0 0 (near0 + 64) (near0 + 128) 8 0
     copyFires d ∧ allZero (slice_ d 2 6) = true ∧ field d 24 8 = 8 ∧ allZero (d.drop 35) = true ∧
       ((copying d).loadX .unit (w64At d 8) 8).isSome = true ∧ (copying d).xlateParts (w64At d 16) 8 = some [(near0 + 128, 8)]) := by
  refine ⟨⟨⟨arcCanFire_of ?_, ?_, ⟨noErrors_of ?_, ?_⟩, ?_⟩, ?_⟩, ⟨arcCanFire_of ?_, ?_, ⟨noErrors_of ?_, ?_⟩, ?_⟩,
    ⟨⟨arcCanFire_of ?_, ?_, ⟨noErrors_of ?_, ?_⟩, ?_⟩, ?_⟩⟩ <;> decide +kernel

theorem witness_CopyArcsAreCarriedOutAndReported_local_store : ∃ v, (copying (copyDesc 0 0 (near0 + 64) (near0 + 128) 8 0)).store .unit (near0 + 128)
    (List.replicate 8 (some 0)) = .ok v := done_of (by decide +kernel)

/-- A put and a get through context 0. -/
theorem witness_CopyArcsAreCarriedOutAndReported_remote :
    let s := fun kind => { copying (copyDesc kind 0 near0 near0 8 0) with ctxs := [(0, ctx0)] }
    (∀ kind ∈ ([1, 2] : List Nat), (s kind).sendCtx 0 = some ctx0 ∧ AllSent (s kind) ∧ remoteOf (BitVec.ofNat 64 near0) = some (1, 0) ∧
      ((s kind).loadX .unit (BitVec.ofNat 64 near0) 8).bind allSome = some (slice_ (copyDesc kind 0 near0 near0 8 0) 0 8) ∧
      inAperture near0 = false ∧ (s kind).arcFires 0 0 2 = some (arc 2 0 near0)) ∧
    Routed (s 1) ctx0 ∧ Routed (s 2) ctx0 := by
  refine ⟨?_, routed_of (by decide +kernel), routed_of (by decide +kernel)⟩
  unfold AllSent
  decide +kernel

/-- Arc 0 of unit 0 FIRED, its copy in each of its states. -/
theorem witness_CopyArcsAreCarriedOutAndReported_done_copy :
    let s := fun (fin fail : Bool) => { withArc 0 (arc 2 0 near0 .fired) with copies := [(0, [⟨0, 0, true, 0, fail, fin, []⟩])] }
    ∀ fin ∈ [true, false], ∀ fail ∈ [true, false], mget [] (s fin fail).copies 0 = [⟨0, 0, true, 0, fail, fin, []⟩] ∧
      ((s fin fail).part 0).audit = [] ∧ ((s fin fail).arcu 0).active[0]? = some (arc 2 0 near0 .fired) := by decide +kernel

/-- An audit of logical tile 0 to tile 60: idle and not, its copy begun or not. -/
theorem witness_CopyArcsAreCarriedOutAndReported_done_audit :
    let s := fun (q : Seq) (m : Bool) => (withArc 0 (arc 6 0 0 .fired) (tile0 fun x => { x with seq := q })).setPart 0
      { part0 with audit := [⟨0, 0, 60, m⟩] }
    (∀ q ∈ [Seq.idle, Seq.run], ∀ m ∈ [true, false], mget [] (s q m).copies 0 = [] ∧ ((s q m).part 0).audit = [⟨0, 0, 60, m⟩] ∧
      (s q m).ptile 0 0 = some 0 ∧ ((s q m).unit 0).st = .active ∧ ((s q m).unit 60).st = .spare ∧ Memory.wf (s q m) = true) ∧
    (((s .idle true).tile 0).queues = [] ∧ ((s .idle true).tile 0).loading = none) ∧ ((s .run true).tile 0).seq ≠ .idle ∧
    (s .run true).tb.overtime = false ∧ { s .run true with tb := { base.tb with overtime := true } }.tb.overtime = true := by
  decide +kernel

/-- A collective, a barrier on no other member, that has all it awaits. -/
def soleBarrier : Coll :=
  { entry := 0, tag := 5, gen := 1, kind := 0, op := 0, hier := false, cseq := 0, n := 0, root := 0, map := [⟨1, 0⟩]
    locals_ := [⟨0, 0, 0⟩], rxbuf := 0, nodes := [], folded := [], results := [], blocks := [], barrier := [], ring := none
    unsent := 0, postedAt := 0 }

theorem witness_CopyArcsAreCarriedOutAndReported_done_collective :
    let s := { withArc 16 (arc 4 0 0 .fired) with colls := [soleBarrier] }
    RunsColl s soleBarrier (arc 4 0 0 .fired) ∧ soleBarrier.finished s.me = true ∧ mget [] s.copies 16 = [] :=
  ⟨⟨by decide +kernel, by decide +kernel, by decide +kernel, rfl⟩, by decide +kernel, by decide +kernel⟩

/-! ### Tile control -/

theorem witness_TilesRunStopAndClear_run :
    (base.pageBusy (pgTile 0) = false ∧ (base.tile 0).loading = none ∧ (base.tile 0).seq = .idle ∧ base.withheld 0 = false ∧
      base.tileOn 0 = true) ∧
    ((tile0 fun x => { x with loading := some (0, 1) }).tile 0).loading.isSome = true ∧
    (((tile0 fun x => { x with seq := .stopped, fetchStop := true }).tile 0).seq = .stopped) ∧
    ((withPart fun p => { p with swap := [⟨0, 0, 0, 0, 0, 0⟩] }).withheld 0 = true) ∧ base.takesWork 0 = true ∧
    (withPart fun p => { p with n := 47 }).takesWork 0 = false ∧
    (let x := tile0 fun x => { x with loading := some (0, 1), loadAt := 1001 }
     (x.tile 0).loadAt = x.clk + 1 ∧ (x.tile 0).seq = .idle ∧ x.withheld 0 = false ∧ x.tileOn 0 = true) ∧
    (let x := tile0 fun x => { x with seq := .run, dispAt := 1001 }
     (x.tile 0).dispAt = x.clk + 1 ∧ (x.tile 0).loading = none) ∧
    (((tile0 fun x => { x with seq := .stopped }).tile 0).ended = none) ∧
    ((tile0 fun x => { x with seq := .run }).tile 0).seq = .run ∧ ((tile0 fun x => { x with seq := .wait }).tile 0).seq = .wait := by
  decide +kernel

theorem witness_TilesRunStopAndClear_stop : base.pageBusy (pgTile 1151) = false ∧ ((tile0 fun x => { x with seq := .wait }).tile 0).seq = .wait ∧
    (base.tile 0).seq ≠ .run ∧ (base.tile 0).seq ≠ .wait ∧ (base.tile 0).rejAt ≠ base.clk + 1 ∧ base.headRejected 0 = none ∧
    (base.tile 0).fed.1 ≠ base.clk + 1 ∧ ((tile0 fun x => { x with fed := (1001, 5, true) }).tile 0).fed.1 = base.clk + 1 := by
  decide +kernel

/-- A word of a reserved MAJOR at the program counter, and one rejected in this nanosecond. -/
theorem witness_TilesRunStopAndClear_reject :
    (withCode [0x3F * 2 ^ 58] (tile0 fun x => { x with seq := .run })).headRejected 0 = some (0x3F * 2 ^ 58, 0) ∧
    ((tile0 fun x => { x with rejAt := 1001 }).tile 0).rejAt = base.clk + 1 := by decide +kernel

/-- TILE_IMGSRC and TILE_IMGLEN written: the last word of the region, one past it, no words, and one word too many. -/
theorem witness_TileImagesLoad_go :
    let s := fun (a n : Nat) => (base.setReg64 (pgTile 0) 0x118 a).setReg (pgTile 0) 0x120 (BitVec.ofNat 32 n)
    ∀ a ∈ [metaOf 0, metaOf 0 + 0x4000000 - 8, metaOf 0 + 0x4000000, metaOf 0 - 8], ∀ n ∈ [0, 1, 8192, 8193],
      (s a n).reg64 (pgTile 0) 0x118 = a ∧ bits ((s a n).reg (pgTile 0) 0x120).toNat 13 0 = n ∧ (s a n).tileOn 0 = true ∧
        (s a n).pageBusy (pgTile 0) = false ∧ ((s a n).tile 0).seq = .idle := by decide +kernel

theorem witness_TileImagesLoad_done :
    let s := fun (b : PVal Byte) => { (tile0 fun x => { x with loading := some (metaOf 0, 1) }) with mem := Store.empty.wr (metaOf 0) [b] }
    (∀ b ∈ [none, some 1], ((s b).tile 0).loading = some (metaOf 0, 1) ∧ (s b).accessOk .unit (metaOf 0) 8 = true) ∧
      (s none).mem.at_ (metaOf 0) = none ∧ ∀ i, i < 8 → (s (some 1)).mem.at_ (metaOf 0 + i) ≠ none := by decide +kernel

/-! ### The sequencer -/

/-- A word of MAJOR `m` with operation field `f`, no wait and no signal. -/
def word (m f : Nat) : Nat := m * 2 ^ 58 + f

theorem witness_SequencerInstructionsRun_flow :
    Issues (issuing [word 0 0]) 0 (word 0 0) 0 0 0 ∧ Issues (issuing [word 4 8191]) 0 (word 4 8191) 0 0 0 ∧
    (Issues (issuing [word 2 0]) 0 (word 2 0) 0 0 0 ∧ bits (word 2 0) 31 0 ≤ (issuing [word 2 0]).tokSeen 0 0) ∧
    (Issues (issuing [word 2 1]) 0 (word 2 1) 0 0 0 ∧ (issuing [word 2 1]).tokSeen 0 0 < bits (word 2 1) 31 0) := by
  refine ⟨issues_of ?_, issues_of ?_, ⟨issues_of ?_, ?_⟩, issues_of ?_, ?_⟩ <;> decide +kernel

/-- Tile 0 with one program-issued MMAD in its matrix queue. -/
def busy0 (x : Tile) : Tile := { x with q0 := [entry (word 0x10 0) []] }

theorem witness_SequencerInstructionsRun_wait :
    (Issues (issuing [word 3 15]) 0 (word 3 15) 0 0 0 ∧ ((issuing [word 3 15]).tile 0).busy 15 = false) ∧
    (Issues (issuing [word 3 1] busy0) 0 (word 3 1) 0 0 0 ∧ ((issuing [word 3 1] busy0).tile 0).busy 1 = true) ∧
    (Issues (issuing [word 1 0]) 0 (word 1 0) 0 0 0 ∧ ((issuing [word 1 0]).tile 0).item = none ∧ word 1 0 < 2 ^ 64) ∧
    (Issues (issuing [word 1 0] busy0) 0 (word 1 0) 0 0 0 ∧ ((issuing [word 1 0] busy0).tile 0).busy 15 = true) := by
  refine ⟨⟨issues_of ?_, ?_⟩, ⟨issues_of ?_, ?_⟩, ⟨issues_of ?_, ?_⟩, issues_of ?_, ?_⟩ <;> decide +kernel

/-- AR[0] at 0, 1 and 2, and poisoned, for LOOP, BRZ and BRNZ. -/
theorem witness_SequencerInstructionsRun_loops : ∀ m ∈ [5, 6, 7], ∀ v ∈ ([some 0, some 1, some 2, none] : List (PVal W64)),
    let s := issuing [word m 3] fun x => x.setAr 0 v
    Issues s 0 (word m 3) 0 0 0 ∧ (s.tile 0).ar (bits (word m 3) 37 34) = v := by
  intro m hm v hv
  simp only [List.mem_cons, List.not_mem_nil, or_false] at hm hv
  rcases hm with rfl | rfl | rfl <;> rcases hv with rfl | rfl | rfl | rfl <;>
    exact ⟨issues_of (by decide +kernel), by decide +kernel⟩

theorem witness_AddressRegisterInstructionsRun_alu :
    Issues (issuing [word 8 0, 7]) 0 (word 8 0) 7 0 1 ∧ Issues (issuing [word 9 5]) 0 (word 9 5) 0 0 0 ∧
    Issues (issuing [word 10 5]) 0 (word 10 5) 0 0 0 ∧
    ∀ f, f < 7 → Issues (issuing [word 11 (f * 2 ^ 23)]) 0 (word 11 (f * 2 ^ 23)) 0 0 0 ∧
      ((issuing [word 11 (f * 2 ^ 23)]).tile 0).ar 0 = some 0 ∧ bits (word 11 (f * 2 ^ 23)) 25 23 = f := by
  refine ⟨issues_of ?_, issues_of ?_, issues_of ?_, ?_⟩
  · decide +kernel
  · decide +kernel
  · decide +kernel
  · intro f hf
    match f, hf with
    | 0, _ | 1, _ | 2, _ | 3, _ | 4, _ | 5, _ | 6, _ => exact ⟨issues_of (by decide +kernel), by decide +kernel⟩
    | n + 7, h => exact absurd h (by omega)

theorem witness_AddressRegisterInstructionsRun_mem :
    let s := fun m => issuing [word m 0] fun x => x.setAr 0 (some 0x17FFF8)
    (∀ m ∈ [12, 13, 14], (s m).fetch 0 = .words (word m 0) 0 0 0 ∧ ((s m).tile 0).busy 15 = false ∧
      ((s m).tile 0).ar (bits (word m 0) 33 30) = some 0x17FFF8) ∧
    Issues (s 12) 0 (word 12 0) 0 0 0 ∧ Issues (s 13) 0 (word 13 0) 0 0 0 ∧ Issues (s 14) 0 (word 14 0) 0 0 0 := by
  refine ⟨?_, issues_of ?_, issues_of ?_, issues_of ?_⟩ <;> decide +kernel

/-! ### Engine queues -/

/-- One word of each engine's queue; a queue with room and a full one. -/
theorem witness_EngineInstructionsEnterTheirQueues_issue :
    (∀ m ∈ [0x10, 0x18, 0x20, 0x28], (engineRow (word m 0)).isSome = true ∧ (queueOf (word m 0 / 2 ^ 58)).isSome = true ∧
      wordOk (word m 0) 0 0 = true) ∧
    (Issues (issuing [word 0x10 0]) 0 (word 0x10 0) 0 0 0 ∧ (((issuing [word 0x10 0]).tile 0).queue 0).length < queueDepth 0 ∧
      (issuing [word 0x10 0]).yields 0 0 = false) ∧
    (let full := fun (x : Tile) => { x with q2 := List.replicate 16 (entry (word 0x18 0) []) }
     Issues (issuing [word 0x18 0] full) 0 (word 0x18 0) 0 0 0 ∧
       queueDepth 2 ≤ (((issuing [word 0x18 0] full).tile 0).queue 2).length) := by
  refine ⟨?_, ⟨issues_of ?_, ?_⟩, issues_of ?_, ?_⟩ <;> decide +kernel

/-- A posting for logical tile 0's matrix queue at the head of core 0's queue, and the program's own MMAD, which issued last. -/
def contended : State :=
  withBytes near0 (toLE 8 0 ++ toLE 8 (word 0x10 0) ++ List.replicate 112 0)
    ((issuing [word 0x10 0]).setCore 0 { Core_.reset with running := true, posts := [BitVec.ofNat 64 near0] })

theorem witness_EngineInstructionsEnterTheirQueues_yield : Issues contended 0 (word 0x10 0) 0 0 0 ∧ contended.yields 0 0 = true ∧
    ((contended.tile 0).queue 0).length < queueDepth 0 := by
  refine ⟨issues_of ?_, ?_, ?_⟩ <;> decide +kernel

/-- A word of a reserved MAJOR. -/
theorem witness_EngineInstructionsEnterTheirQueues_malformed :
    let s := issuing [word 0x3F 0]
    s.tileOn 0 = true ∧ (s.tile 0).seq = .run ∧ (s.tile 0).ended = none ∧ s.pageBusy (pgTile 0) = false ∧
      s.fetch 0 = .words (word 0x3F 0) 0 0 0 ∧ wordOk (word 0x3F 0) 0 0 = false ∧
      wWcnt (word 0x3F 0) ≤ s.tokSeen 0 (wWidx (word 0x3F 0)) ∧ s.bit (pgTile 0) 0x104 4 = false := by decide +kernel

/-- A finished entry, with and without an error or an output for the digest; in the copy queue not the oldest; the last after END. -/
theorem witness_InstructionsRetire :
    let fin := { entry (word 0x10 0) [] with st := .finished }
    let bad := { fin with err := some ⟨3, 0, 1, false⟩ }
    let fed := { fin with feed := some ([1, 2], true) }
    (∀ e ∈ [fin, bad, fed], ((starting 0 e).tile 0).queue 0 = [e] ∧ e.st = .finished ∧ e.var = 0 ∧ ((starting 0 e).tile 0).ended = none) ∧
    ((tile0 fun x => { x with q3 := [entry (word 0x20 0) [], fin] }).tile 0).q3[1]? = some fin ∧
    (let s := starting 0 fin fun x => { x with seq := .run, ended := some (BitVec.ofNat 64 (word 1 0)) }
     (s.tile 0).ended = some (BitVec.ofNat 64 (word 1 0)) ∧ (s.tile 0).item = none ∧ s.pageBusy (pgTile 0) = false ∧
       ∀ r, r < 4 → ∀ y ∈ (s.tile 0).queue r, y.posted = false → r = 0 ∧ y.id = fin.id) := by decide +kernel

/-! ### Work lists and slice swaps -/

/-- A work-list descriptor (Table 3.4): count, items, wait index and count, done index and enable. -/
def wlDesc (n items : Nat) : List Byte := toLE 4 n ++ toLE 4 0 ++ toLE 8 items ++ toLE 48 0

theorem witness_WorkListsAndSliceSwaps_go :
    let s := fun (b : List Byte) => withBytes near0 b (base.setReg64 (pgPart 0) 0x100 near0)
    let good := wlDesc 1 near0
    ((s good).load .unit ((s good).reg64 (pgPart 0) 0x100) 64 = some (good.map some) ∧ field good 0 4 = 1 ∧ field good 8 8 % 64 = 0 ∧
      inTier (field good 8 8) 16 = true ∧ allZero (good.drop 22) = true ∧ (part0.wl[0]?).map (·.active) = some false) ∧
    ((s good).takesWork 0 = true ∧ (s good).cs.st ≠ .rebuild ∧ (s good).mem.poison = [] ∧ field good 17 1 = 0) ∧
    ((s (wlDesc 1 near0)).pageBusy (pgPart 0) = false) ∧ field (toLE 8 (2 ^ 32)) 4 4 ≠ 0 ∧
    ((withPart fun p => { p with wl := p.wl.set 0 { WlSlot.free with active := true } }).part 0).wl[0]? =
      some { WlSlot.free with active := true } := by decide +kernel

theorem witness_WorkListsAndSliceSwaps_dispatch :
    let w := { WlSlot.free with active := true, count := 2, items := near0 }
    let s := withBytes near0 (toLE 8 8191 ++ toLE 8 77) (withPart fun p => { p with wl := p.wl.set 0 w })
    s.pageBusy (pgPart 0) = false ∧ s.partUp 0 = true ∧ 48 ≤ (s.part 0).n ∧ (s.part 0).wl[0]? = some w ∧ w.own = false ∧
      w.waitCount ≤ (arcTokOf s 0 w.waitIdx).toNat ∧ w.head = some 0 ∧ s.ptile 0 0 = some 0 ∧ s.tileFree 0 = true ∧
      (s.part 0).wlAt ≠ s.clk + 1 ∧ s.cs.st ≠ .rebuild ∧ s.mem.poison = [] ∧
      (∀ i, i < 4 → ∀ v ∈ (s.part 0).wl[i]?, v.active = true → v.count ≠ 0 ∧ i = 0) ∧
      s.load .unit near0 16 = some ((toLE 8 8191 ++ toLE 8 77).map some) := by decide +kernel

/-- A swap that has done one segment pair of 896, with and without one behind it. -/
theorem witness_WorkListsAndSliceSwaps_swap : ∀ rest ∈ ([[], [⟨3, 61, 3, 61, 0, 0⟩]] : List (List Swap)),
    let s := withPart fun p => { p with swap := ⟨0, 60, 0, 60, 1, 990⟩ :: rest }
    Memory.wf s = true ∧ (s.part 0).swap = ⟨0, 60, 0, 60, 1, 990⟩ :: rest ∧ s.slice 0 0 = 0 ∧ s.slice 0 60 = 60 ∧ s.slice 0 1 = 1 ∧
      s.slicePhys 0 0 0 = nearOf 0 + 60 * sliceBytes ∧ s.slicePhys 0 0 (sliceBytes - 1) = nearOf 0 + sliceBytes - 1 := by
  decide +kernel

end Sys2Proof.Tests
end

