-- ==== Sys2Proof/Tests/Witness3.lean ====
section
/-! SUPPORT. Concrete states and operands that meet the hypotheses of the statements about the engines' instructions. -/
namespace Sys2Proof.Tests

open Machine

set_option Elab.async false

/-- A word of MAJOR `m` with operation field `f`, no wait and no signal. -/
def opw (m f : Nat) : Nat := m * 2 ^ 58 + f

/-- Operation fields that name address registers 0 to 3 in the four register fields. -/
def regs0123 : Nat := 0 * 2 ^ 34 + 1 * 2 ^ 30 + 2 * 2 ^ 26 + 3 * 2 ^ 22

/-! ### Products -/

/-- MMAD and MMAS of two units with nothing initial, loaded, and resident. -/
theorem witness_MatrixProductsWriteOutputs_products : ∀ mode ∈ [0, 1], ∀ acc ∈ [0, 1, 2],
    let dim := if mode = 0 then 8 else 16
    let e := entry (opw (0x10 + mode) (0 * 2 ^ 34 + 1 * 2 ^ 30 + 2 * 2 ^ 26 + acc * 2 ^ 21 + 2)) [0, 4096, 8192]
    let s := starting 0 e fun x => { x with acc0 := some ⟨mode, dim, dim⟩ }
    Starts s 0 0 e ∧ (wMajor e.word.toNat = 0x10 + mode ∧ e.opn (bits e.word.toNat 37 34) = some 0 ∧
      e.opn (bits e.word.toNat 33 30) = some 4096 ∧ e.opn (bits e.word.toNat 29 26) = some 8192 ∧
      (∀ i, i < 2 → arrRange (0 + 1024 * i) 1024 = true ∧ arrRange (4096 + 1024 * i) 1024 = true) ∧
      arrRange 8192 (outBytes mode dim dim) = true ∧ (s.tile 0).keepOk 0 mode dim dim = true ∧ bitAt e.word.toNat 20 = false) := by
  intro mode hm acc ha
  simp only [List.mem_cons, List.not_mem_nil, or_false] at hm ha
  rcases hm with rfl | rfl <;> rcases ha with rfl | rfl | rfl <;>
    exact ⟨starts_of (by decide +kernel), by decide +kernel⟩

/-- MMAX of no rows, and of 64 by 64 with MXFP4 operands. -/
theorem witness_MatrixProductsWriteOutputs_max :
    let w := opw 0x12 (regs0123 + 4 * 2 ^ 19 + 4 * 2 ^ 16 + 1)
    let e := fun (m n : Nat) => entry w [0, 4096, 16384, 8192] (m + n * 256)
    (∀ x ∈ [(0, 64), (64, 0), (64, 64), (1, 1)], wMajor (e x.1 x.2).word.toNat = 0x12 ∧ bits (e x.1 x.2).ext1.toNat 6 0 = x.1 ∧
      bits (e x.1 x.2).ext1.toNat 14 8 = x.2 ∧ (e x.1 x.2).opn (bits w 37 34) = some 0 ∧ (e x.1 x.2).opn (bits w 33 30) = some 4096 ∧
      (e x.1 x.2).opn (bits w 25 22) = some 8192 ∧ (e x.1 x.2).opn (bits w 29 26) = some 16384 ∧ bitAt w 12 = false) ∧
    (arrRange 0 (mxBlock 4 * 64) = true ∧ arrRange 4096 (mxBlock 4 * 64) = true ∧ arrRange 8192 64 = true ∧
      arrRange 8256 64 = true ∧ arrRange 16384 (outBytes 3 64 64) = true) ∧
    Starts (starting 0 (e 0 64)) 0 0 (e 0 64) ∧ Starts (starting 0 (e 64 64)) 0 0 (e 64 64) :=
  ⟨by decide +kernel, by decide +kernel, starts_of (by decide +kernel), starts_of (by decide +kernel)⟩

/-! ### Casts and digest marks -/

theorem witness_CastsAndDigests_casts :
    let em := entry (opw 0x13 (0 * 2 ^ 34 + 1 * 2 ^ 30 + 2 * 2 ^ 26 + 2)) [0, 4096, 8192]
    let ef := entry (opw 0x14 (0 * 2 ^ 34 + 1 * 2 ^ 30 + 2 * 2 ^ 26 + 1 * 2 ^ 22 + 2)) [0, 4096, 8192]
    Starts (starting 0 em) 0 0 em ∧ Starts (starting 0 ef) 0 0 ef ∧ wMajor em.word.toNat = 0x13 ∧ wMajor ef.word.toNat = 0x14 ∧
    (arrRange 0 (32 * 8 * 2) = true ∧ arrRange 4096 (mxBlock 0 * 2) = true ∧ arrRange 8192 2 = true ∧
      overlaps 4096 (mxBlock 0 * 2) 8192 2 = false) ∧
    allSome ((List.range 32).map fun i => (starting 0 em).mem.num (tst 0 (0 + i * 8)) 8) = some (List.replicate 32 0) ∧
    (arrRange 0 (mxBlock 0 * 2) = true ∧ arrRange 8192 (32 * 4 * 2) = true ∧ overlaps 8192 256 0 64 = false) ∧
    (starting 0 ef).mem.num (tst 0 0) (mxBlock 0) = some 0 ∧ (starting 0 ef).mem.num (tst 0 4096) 1 = some 0 :=
  ⟨starts_of (by decide +kernel), starts_of (by decide +kernel), by decide +kernel, by decide +kernel, by decide +kernel,
    by decide +kernel, by decide +kernel, by decide +kernel, by decide +kernel⟩

theorem witness_CastsAndDigests_mark : ∀ a ∈ [0x10000000000, 0x10000000001],
    let e := entry (opw 0x15 0) [a]
    Starts (starting 0 e) 0 0 e ∧ (wMajor e.word.toNat = 0x15 ∧ e.opn (bits e.word.toNat 37 34) = some a) := by
  intro a ha
  simp only [List.mem_cons, List.not_mem_nil, or_false] at ha
  rcases ha with rfl | rfl <;> exact ⟨starts_of (by decide +kernel), by decide +kernel⟩

theorem witness_CastsAndDigests_store :
    let e := entry (opw 0x15 0) [0x10000000000]
    0x10000000000 % 32 = 0 ∧ inTier 0x10000000000 32 = true ∧ 0x10000000001 % 32 ≠ 0 ∧
      ∃ u, (starting 0 e).store .unit 0x10000000000 (((starting 0 e).digRecord 0 0 e.posted (e.inItem && !e.posted)).map some) = .ok u :=
  ⟨by decide, by decide +kernel, by decide, done_of (by decide +kernel)⟩

theorem witness_CastsAndDigests_arc : ArcCanFire (withArc 0 (arc 5 1 0)) 0 0 5 (arc 5 1 0) ∧ (withArc 0 (arc 5 1 0)).ptile 0 0 = some 0 ∧
    2 ∉ (withArc 0 (arc 5 1 0)).targets 0 1 := ⟨arcCanFire_of (by decide +kernel), by decide +kernel, by decide +kernel⟩

/-! ### Vector instructions -/

/-- A vector word: MAJOR, form, type, RM, mask register, destination, sources, VAR, count. -/
def vw (m form ty rm mk d a b var vl : Nat) : Nat :=
  opw m (form * 2 ^ 37 + ty * 2 ^ 35 + rm * 2 ^ 33 + mk * 2 ^ 29 + d * 2 ^ 23 + a * 2 ^ 18 + b * 2 ^ 13 + var * 2 ^ 12 + vl)

/-- Every row from VADD to VCVT in register form on every type, on 32 elements, the register's capacity of 8-byte ones;
masked by MK0, all ones, and by MK1, all zeros at reset. -/
theorem witness_ElementwiseVectorInstructions_register :
    (∀ m ∈ [0x28, 0x29, 0x2A, 0x2B, 0x2C, 0x2D, 0x2E, 0x2F, 0x30], ∀ ty, ty < 4 → ∀ mk, mk < 2 →
      let w := vw m 0 ty 0 mk 1 2 3 0 32
      (engineRow w).isSome = true ∧ wMajor w = m ∧ vForm w = false ∧ (base.tile 0).vlen w = some 32 ∧
        32 ≤ regElems (max (vecSizes w).1 (vecSizes w).2) ∧ (base.tile 0).mbit (vMk w) 31 = some (mk == 0)) ∧
    Starts (starting 1 (entry (vw 0x28 0 0 0 0 1 2 3 0 32) [])) 0 1 (entry (vw 0x28 0 0 0 0 1 2 3 0 32) []) :=
  ⟨by decide +kernel, starts_of (by decide +kernel)⟩

/-- Each case of Table 6.2, at the largest operands of its width. -/
theorem witness_ElementwiseVectorInstructions_operations : ∀ ty, ty < 4 → ∀ m ∈ [0x28, 0x29, 0x2A, 0x2B, 0x2C, 0x2D, 0x2E, 0x2F], ∀ rm, rm < 4 → ∀ v, v < 2 →
    let w := vw m 0 ty rm 0 1 2 3 v 1
    wMajor w = m ∧ vTy w = ty ∧ vRm w = rm ∧ vVar w = (v == 1) ∧ 2 ^ (8 * tyBytes (vTy w)) - 1 < 2 ^ (8 * tyBytes (vTy w)) := by
  decide +kernel

theorem witness_ElementwiseVectorInstructions_length : ∀ m ∈ [0x28, 0x30, 0x32, 0x34],
    let e := entry (vw m 0 0 0 0 1 2 0 0 33) []
    Starts (starting 1 e) 0 1 e ∧ (((starting 1 e).tile 0).vlen e.word.toNat = some 33 ∧
      regElems (max (vecSizes e.word.toNat).1 (vecSizes e.word.toNat).2) < 33) := by
  intro m hm
  simp only [List.mem_cons, List.not_mem_nil, or_false] at hm
  rcases hm with rfl | rfl | rfl | rfl <;> exact ⟨starts_of (by decide +kernel), by decide +kernel⟩

/-- Stream form on 2 elements: apart, in place, without a second stream; one operand outside, one misaligned. -/
theorem witness_ElementwiseStreamForm : ∀ m ∈ [0x28, 0x2A, 0x2D], ∀ d ∈ [0, 64, 0x17FFF8, 4],
    let e := entry (vw m 1 0 0 0 0 1 2 0 2) [d, 64, 128]
    Starts (starting 1 e) 0 1 e ∧ (vForm e.word.toNat = true ∧ ((starting 1 e).tile 0).vlen e.word.toNat = some 2 ∧
      e.opn (vD e.word.toNat) = some d ∧ e.opn (vA e.word.toNat) = some 64 ∧ e.opn (vB e.word.toNat) = some 128 ∧
      (d ≤ 64 → d ≠ 4 → streamOk d 8 2 = true ∧ (overlaps d 16 64 16 = false ∨ d = 64) ∧ overlaps d 16 128 16 = false) ∧
      (d = 4 ∨ d = 0x17FFF8 → streamOk d 8 2 = false)) := by
  intro m hm d hd
  simp only [List.mem_cons, List.not_mem_nil, or_false] at hm hd
  rcases hm with rfl | rfl | rfl <;> rcases hd with rfl | rfl | rfl | rfl <;>
    exact ⟨starts_of (by decide +kernel), by decide +kernel⟩

theorem witness_CompareSelectLoadStoreAndCount_compare : ∀ m ∈ [0x31, 0x32, 0x34], ∀ mk ∈ [0, 1],
    let e := entry (vw m 0 0 0 mk 1 2 3 0 32) []
    Starts (starting 1 e) 0 1 e ∧ (wMajor e.word.toNat = m ∧ vD e.word.toNat < 8 ∧ vD e.word.toNat ≠ 0 ∧
      ((starting 1 e).tile 0).vlen e.word.toNat = some 32 ∧ 32 ≤ regElems (tyBytes (vTy e.word.toNat)) ∧
      ((starting 1 e).tile 0).mbit (vMk e.word.toNat) 0 = some (mk == 0) ∧
      (starting 1 e).vget 0 8 (.reg (vA e.word.toNat)) 0 = some 0 ∧ (starting 1 e).vget 0 8 (.reg (vB e.word.toNat)) 0 = some 0) := by
  intro m hm mk hk
  simp only [List.mem_cons, List.not_mem_nil, or_false] at hm hk
  rcases hm with rfl | rfl | rfl <;> rcases hk with rfl | rfl <;> exact ⟨starts_of (by decide +kernel), by decide +kernel⟩

theorem witness_CompareSelectLoadStoreAndCount_memory : ∀ v ∈ [0, 1],
    let e := entry (vw 0x33 0 0 0 0 1 2 0 v 32) [0, 0, 0x17FF00]
    Starts (starting 1 e) 0 1 e ∧ (e.opn (vA e.word.toNat) = some 0x17FF00 ∧ vVar e.word.toNat = (v == 1) ∧
      ((starting 1 e).tile 0).vlen e.word.toNat = some 32 ∧ 32 ≤ regElems 8 ∧ streamOk 0x17FF00 8 32 = true) := by
  intro v hv
  simp only [List.mem_cons, List.not_mem_nil, or_false] at hv
  rcases hv with rfl | rfl <;> exact ⟨starts_of (by decide +kernel), by decide +kernel⟩

/-- VSETC of the largest count, and of one more. -/
theorem witness_CompareSelectLoadStoreAndCount_count : ∀ o ∈ [4095, 4096],
    let e := entry (vw 0x3A 0 0 0 0 3 2 0 0 0) [0, 0, o]
    Starts (starting 1 e) 0 1 e ∧ (wMajor e.word.toNat = 0x3A ∧ e.opn (vA e.word.toNat) = some o) := by
  intro o ho
  simp only [List.mem_cons, List.not_mem_nil, or_false] at ho
  rcases ho with rfl | rfl <;> exact ⟨starts_of (by decide +kernel), by decide +kernel⟩

/-- Reductions and VDOT of 3 elements, masked on and off, and with a poisoned one. -/
theorem witness_ReductionsCompressAndExpand_fold : ∀ m ∈ [0x35, 0x36, 0x37], ∀ mk ∈ [0, 1],
    let e := entry (vw m 0 0 0 mk 1 2 3 0 3) []
    let s := starting 1 e
    let p := starting 1 e fun x => { x with vr := x.vr.wr 512 [none] }
    Starts s 0 1 e ∧ ((s.tile 0).vlen e.word.toNat = some 3 ∧ (∀ i, i < 3 → (s.tile 0).mbit (vMk e.word.toNat) i = some (mk == 0)) ∧
      (∀ i, i < 3 → s.vget 0 8 (.reg (vA e.word.toNat)) i = some 0 ∧ s.vget 0 8 (.reg (vB e.word.toNat)) i = some 0) ∧
      p.vget 0 8 (.reg (vA e.word.toNat)) 0 = none) := by
  intro m hm mk hk
  simp only [List.mem_cons, List.not_mem_nil, or_false] at hm hk
  rcases hm with rfl | rfl | rfl <;> rcases hk with rfl | rfl <;> exact ⟨starts_of (by decide +kernel), by decide +kernel⟩

/-- VCOMPRESS with the list at offset 0 and count register 1; VEXPAND of two elements to places 0 and 2. -/
theorem witness_ReductionsCompressAndExpand_lists :
    let ec := entry (vw 0x38 0 0 0 0 1 2 3 0 3) [0] (1 * 2 ^ 8)
    let ex := entry (vw 0x39 0 0 0 0 1 2 0 0 3) [0] (1 * 2 ^ 8)
    let sx := withBytes (tst 0 0) (toLE 2 0 ++ toLE 2 2) (starting 1 ex fun x => { x with vcnt := [(1, 2)] })
    Starts (starting 1 ec) 0 1 ec ∧ Starts sx 0 1 ex ∧
    (((starting 1 ec).tile 0).vlen ec.word.toNat = some 3 ∧ ec.opn (bits (listWord ec.word.toNat ec.ext1.toNat ec.ext2.toNat) 3 0) = some 0 ∧
      streamOk 0 2 3 = true ∧ ∀ i, i < 3 → (starting 1 ec).vget 0 8 (.reg (vA ec.word.toNat)) i = ([0, 0, 0] : List Nat)[i]?) ∧
    (vVl ex.word.toNat = 3 ∧ ex.opn (bits ex.ext1.toNat 3 0) = some 0 ∧ (sx.tile 0).cnt (bits ex.ext1.toNat 10 8) = some [0, 2].length ∧
      [0, 2].Pairwise (· < ·) ∧ ∀ j, j < 2 → sx.mem.num (tst 0 (0 + 2 * j)) 2 = [0, 2][j]? ∧
        sx.vget 0 8 (.reg (vA ex.word.toNat)) j = ([0, 0] : List Nat)[j]?) :=
  ⟨starts_of (by decide +kernel), starts_of (by decide +kernel), by decide +kernel, by decide +kernel⟩

/-- VEXPAND in place: destination and source are one register, with FILL and without. -/
theorem witness_ReductionsCompressAndExpand_inPlace : ∀ v ∈ [0, 1],
    let e := entry (vw 0x39 0 0 0 0 1 1 0 v 3) [0] (1 * 2 ^ 8)
    let s := withBytes (tst 0 0) (toLE 2 0 ++ toLE 2 2) (starting 1 e fun x => { x with vcnt := [(1, 2)] })
    Starts s 0 1 e ∧ (vD e.word.toNat = vA e.word.toNat ∧ vForm e.word.toNat = false ∧ vVl e.word.toNat = 3 ∧
      e.opn (bits e.ext1.toNat 3 0) = some 0 ∧ (s.tile 0).cnt (bits e.ext1.toNat 10 8) = some 2 ∧ streamOk 0 2 2 = true ∧
      ∀ j, j < 2 → s.mem.num (tst 0 (2 * j)) 2 = [0, 2][j]? ∧ s.vget 0 8 (.reg (vA e.word.toNat)) j = some 0) := by
  intro v hv
  simp only [List.mem_cons, List.not_mem_nil, or_false] at hv
  rcases hv with rfl | rfl <;> exact ⟨starts_of (by decide +kernel), by decide +kernel⟩

/-! ### Divide, square root, pivot -/

theorem witness_DruAndPivot_dru : ∀ fn, fn < 3 → ∀ n ∈ [0, 2],
    let e := entry (opw 0x18 (fn * 2 ^ 36 + 0 * 2 ^ 29 + 1 * 2 ^ 25 + 2 * 2 ^ 21 + n)) [0, 64, 128]
    wMajor e.word.toNat = 0x18 ∧ bits e.word.toNat 37 36 = fn ∧ bits e.word.toNat 11 0 = n ∧ e.opn (bits e.word.toNat 32 29) = some 0 ∧
      e.opn (bits e.word.toNat 28 25) = some 64 ∧ e.opn (bits e.word.toNat 24 21) = some 128 ∧ streamOk 0 8 2 = true ∧
      overlaps 0 16 64 16 = false ∧ ((starting 2 e).tile 0).nextEntry 2 = some e := by decide +kernel

/-- PIVOT under policy 0 as reset leaves it, with an LU brick of zeros; and with 8 padding rows. -/
theorem witness_DruAndPivot_pivot :
    let e := entry (opw 0x19 (0 * 2 ^ 34 + 1 * 2 ^ 30)) [0, 512]
    let s := starting 2 e
    let p := withBytes (tst 0 541) [8] s
    Starts s 0 2 e ∧ (wMajor e.word.toNat = 0x19 ∧ bits e.word.toNat 29 28 < 3 ∧ e.opn (bits e.word.toNat 37 34) = some 0 ∧
      e.opn (bits e.word.toNat 33 30) = some 512 ∧ arrRange 0 512 = true ∧ arrRange 512 64 = true ∧ overlaps 0 512 512 64 = false ∧
      s.mem.num (tst 0 512) 8 = some 0 ∧ s.mem.num (tst 0 541) 1 = some 0 ∧ p.mem.num (tst 0 541) 1 = some 8 ∧
      (let pol := s.policy 0 0
       bitAt pol.2.2.2 0 = false ∧ (pivPolicy 0 pol.1 pol.2.1 (pivScale 0).1).isSome = true)) :=
  ⟨starts_of (by decide +kernel), by decide +kernel⟩

/-- A brick whose scale is poisoned, one whose padding count is, and a policy that is refused (TAU_P negative). -/
theorem witness_DruAndPivot_spoiled :
    let e := entry (opw 0x19 (0 * 2 ^ 34 + 1 * 2 ^ 30)) [0, 512]
    let s := starting 2 e
    let scale := { s with mem := s.mem.wr (tst 0 512) [none] }
    let npad := { s with mem := s.mem.wr (tst 0 541) [none] }
    bitAt (s.policy 0 0).2.2.2 0 = false ∧ scale.mem.num (tst 0 512) 8 = none ∧ npad.mem.num (tst 0 541) 1 = none ∧
      pivPolicy 0 (2 ^ 63 + 2 ^ 62) 0 (pivScale 0).1 = none := by decide +kernel

/-! ### Solver and stage postings -/

theorem witness_SolveAndAssembleArePosted_tile : ∀ b ∈ [true, false],
    let e := entry (opw (if b then 0x1B else 0x1A) 0) [4096]
    let full := (starting 2 e).setPart 0 { part0 with slv := { part0.slv with queue := List.replicate 4 ⟨0, .arc 0, false, 0, false⟩ } }
    e.opn (bits e.word.toNat 37 34) = some 4096 ∧ ((starting 2 e).tile 0).nextEntry 2 = some e ∧
      (starting 2 e).pageBusy (pgSlv 0) = false ∧ (starting 2 e).arcCredit 0 8 = true ∧ full.arcCredit 0 8 = false := by decide +kernel

theorem witness_SolveAndAssembleArePosted_arcs : ArcCanFire (withArc 0 (arc 7 0 4096)) 0 0 7 (arc 7 0 4096) ∧
    ArcCanFire (withArc 0 (arc 8 0 4096)) 0 0 8 (arc 8 0 4096) := ⟨arcCanFire_of (by decide +kernel), arcCanFire_of (by decide +kernel)⟩

/-! ### Copies and scattered additions -/

/-- A CPY: spaces of destination and source, places and length. -/
def cpyEntry (dsp ssp d a n : Nat) : QEntry := entry (opw 0x20 (0 * 2 ^ 34 + 1 * 2 ^ 30 + dsp * 2 ^ 29 + ssp * 2 ^ 28 + 2 * 2 ^ 24)) [d, a, n]

theorem witness_CopiesAndScatteredAdditions_copy : ∀ dsp, dsp < 2 → ∀ ssp, ssp < 2 → ∀ n ∈ [0, 8, 2 ^ 48],
    let e := cpyEntry dsp ssp 0 64 n
    wMajor e.word.toNat = 0x20 ∧ bitAt e.word.toNat 29 = (dsp == 1) ∧ bitAt e.word.toNat 28 = (ssp == 1) ∧
      e.opn (bits e.word.toNat 27 24) = some n ∧ e.opn (bits e.word.toNat 37 34) = some 0 ∧
      e.opn (bits e.word.toNat 33 30) = some 64 ∧ ((starting 3 e).tile 0).nextEntry 3 = some e ∧ inTst 0 8 = true ∧ inTst 64 8 = true ∧
      (starting 3 e).cs.st ≠ .rebuild ∧ (starting 3 e).mem.poison = [] := by
  decide +kernel

theorem witness_CopiesAndScatteredAdditions_module :
    (inTst 0x180000 8 = false ∧ 0x10000000000 < 2 ^ 48 ∧ inAperture 0x10000000000 = false ∧
      ((starting 3 (cpyEntry 0 1 0 0x10000000000 8)).load .tile 0x10000000000 8).isSome = true) ∧
    ∃ u, (starting 3 (cpyEntry 1 0 0x10000000000 64 8)).store .tile 0x10000000000
      ((starting 3 (cpyEntry 1 0 0x10000000000 64 8)).mem.rd (tst 0 64) 8) = .ok u :=
  ⟨by decide +kernel, done_of (by decide +kernel)⟩

/-- A tile's write to the near tier of a partition with no field table and no group, of no poisoned word. -/
theorem store_near_ok {s : State} {p y : Nat} (h : regionOf y = .near p ∧ s.accessOk .tile y 8 = true ∧ s.partialBad y 8 = false ∧
    (s.refused .tile y (s.pieces 1200 y 8)).isNone = true ∧
    (s.pieces 1200 y 8).findSome? (fun x => s.holdAt x.1 x.2.1 x.2.2.1 x.2.2.2) = none)
    (bs : List (PVal Byte)) (hb : bs.length = 8) : ∃ u, s.store .tile y bs = .ok u := by
  obtain ⟨h1, h2, h3, h4, h5⟩ := h
  have h6 := Option.isNone_iff_eq_none.1 h4
  unfold State.store
  simp only [hb, h2, h1, h3, h6, h5]
  simp

/-- CSCAT of one value to the first word of the near tier; and with a poisoned index. -/
theorem witness_CopiesAndScatteredAdditions_scatter :
    let e := entry (opw 0x26 (0 * 2 ^ 34 + 1 * 2 ^ 30 + 2 * 2 ^ 26 + 1)) [0x10000000000, 0, 64]
    let s := starting 3 e
    let p := { s with mem := s.mem.wr (tst 0 64) [none] }
    Starts s 0 3 e ∧ Starts p 0 3 e ∧ (NoErrors s ∧ NoErrors p) ∧ (bits e.word.toNat 11 0 = 1 ∧ Memory.wf s = true ∧ Memory.wf p = true ∧
      e.op (bits e.word.toNat 37 34) = some 0x10000000000 ∧ e.opn (bits e.word.toNat 33 30) = some 0 ∧
      e.opn (bits e.word.toNat 29 26) = some 64 ∧ inTst 0 8 = true ∧ inTst 64 4 = true ∧ p.mem.num (tst 0 64) 4 = none ∧
      s.mem.num (tst 0 64) 4 = some 0 ∧ s.xlate (0x10000000000 + BitVec.ofNat 64 (8 * 0)) 8 = some 0x10000000000 ∧
      inNear 0x10000000000 8 = true ∧ s.mem.num 0x10000000000 8 = some 0 ∧ s.accessOk .tile 0x10000000000 8 = true) ∧
      ∀ bs : List (PVal Byte), bs.length = 8 → ∃ u, s.store .tile 0x10000000000 bs = .ok u :=
  ⟨starts_of (by decide +kernel), starts_of (by decide +kernel),
    ⟨noErrors_of (by decide +kernel), noErrors_of (by decide +kernel)⟩, by decide +kernel, store_near_ok (p := 0) (by decide +kernel)⟩

/-! ### Remote instructions -/

/-- A remote instruction through context 0: offset 0 of window 1, place 64, length or threshold, context. -/
def remoteEntry (m f n c : Nat) : QEntry := entry (opw m f) [2 ^ 40, 64, n, c]

/-- Context 0 is loaded. -/
def withCtx (s : State) : State := { s with ctxs := [(0, ctx0)] }

theorem witness_RemoteInstructionsAskAndSend_ask :
    let g := entry (opw 0x21 (0 * 2 ^ 34 + 1 * 2 ^ 30 + 2 * 2 ^ 25 + 3 * 2 ^ 21)) [64, 2 ^ 40, 4096, 0]
    let a := fun op => entry (opw 0x23 (1 * 2 ^ 34 + 0 * 2 ^ 30 + 3 * 2 ^ 26 + op * 2 ^ 22)) [64, 2 ^ 40, 0, 0]
    let s := fun e => withCtx (starting 3 e)
    (∀ e ∈ [g, a 0, a 7], Starts (s e) 0 3 e ∧ Routed (s e) ctx0 ∧ (s e).sendCtx 0 = some ctx0 ∧ AllSent (s e)) ∧
    (remoteOf (BitVec.ofNat 64 (2 ^ 40)) = some (1, 0) ∧ bitAt g.word.toNat 20 = false ∧ g.opn (bits g.word.toNat 28 25) = some 4096 ∧
      g.opn (bits g.word.toNat 37 34) = some 64 ∧ g.op (bits g.word.toNat 33 30) = some (BitVec.ofNat 64 (2 ^ 40)) ∧
      g.opn (bits g.word.toNat 24 21) = some 0 ∧ (s g).cpyRange false 64 4096 = true) ∧
    (∀ op ∈ [0, 7], bits (a op).word.toNat 25 22 = op ∧ (a op).op (bits (a op).word.toNat 37 34) = some (BitVec.ofNat 64 (2 ^ 40)) ∧
      (a op).opn (bits (a op).word.toNat 33 30) = some 64 ∧ (a op).opn (bits (a op).word.toNat 29 26) = some 0 ∧ inTst 64 64 = true ∧
      ∀ i, i < 16 → (s (a op)).mem.at_ (tst 0 (64 + i)) ≠ none ∧ (s (a op)).mem.at_ (tst 0 (80 + i)) ≠ none) := by
  refine ⟨?_, by decide +kernel, by decide +kernel⟩
  intro e he
  simp only [List.mem_cons, List.not_mem_nil, or_false] at he
  rcases he with rfl | rfl | rfl <;>
    exact ⟨starts_of (by decide +kernel), routed_of (by decide +kernel), by decide +kernel, by unfold AllSent; decide +kernel⟩

/-- RPUT through context 0 to module 2, a stack of the pod whose port is UP: 255 bytes as STOREs, 256 as a PUT. -/
theorem witness_RemoteInstructionsAskAndSend_put : ∀ n ∈ [255, 256],
    let e := entry (opw 0x22 (0 * 2 ^ 34 + 1 * 2 ^ 30 + 2 * 2 ^ 25 + 3 * 2 ^ 21)) [2 ^ 40, 64, n, 0]
    let x := { ctx0 with dst := 2 }
    let s := { starting 3 e with ctxs := [(0, x)], ports := [(1, { Port.reset with st := .up, lanes := 15, peerSlot := 2 })] }
    Starts s 0 3 e ∧ (s.sendCtx 0 = some x ∧ s.live x.tag x.gen = true ∧ e.opn (bits e.word.toNat 28 25) = some n ∧
      e.op (bits e.word.toNat 37 34) = some (BitVec.ofNat 64 (2 ^ 40)) ∧ e.opn (bits e.word.toNat 33 30) = some 64 ∧
      e.opn (bits e.word.toNat 24 21) = some 0 ∧ bitAt e.word.toNat 29 = false ∧ inTst 64 n = true ∧
      s.mem.rd (tst 0 64) n = (List.replicate n (0 : Byte)).map some ∧
      s.routeOwn (ownPacket s (ctxPacket 0 x (if 256 ≤ n then 4 else 2) (if 256 ≤ n then 4 else 3) 0 0 0 (BitVec.ofNat 64 (2 ^ 40)) [])) = .port 1) := by
  intro n hn
  simp only [List.mem_cons, List.not_mem_nil, or_false] at hn
  rcases hn with rfl | rfl <;> exact ⟨starts_of (by decide +kernel), by decide +kernel⟩

/-- The route of a packet rests on its header alone, so every part of the RPUT takes it. -/
theorem witness_RemoteInstructionsAskAndSend_route (s : State) (c vc op code aseq rid : Nat) (x : Ctx) (a b : W64) (d e : List Byte) :
    s.routeOwn (ownPacket s (ctxPacket c x vc op code aseq rid a d)) =
      s.routeOwn (ownPacket s (ctxPacket c x vc op code aseq rid b e)) := rfl

/-- RINV of 64 bytes; CWAIT of 0, reached, on a context that is not valid, and not reached. -/
theorem witness_RemoteInstructionsAskAndSend_inv :
    let r := entry (opw 0x24 (0 * 2 ^ 34 + 1 * 2 ^ 30)) [2 ^ 40, 64]
    let w := fun (c th : Nat) => entry (opw 0x25 (0 * 2 ^ 34 + 1 * 2 ^ 30)) [c, th]
    let s := fun e => withCtx (starting 3 e)
    (Starts (s r) 0 3 r ∧ Starts (s (w 0 1)) 0 3 (w 0 1)) ∧ r.opn (bits r.word.toNat 33 30) = some 64 ∧
    (∀ c ∈ [0, 1], ∀ th ∈ [0, 1, 2 ^ 48], (w c th).opn (bits (w c th).word.toNat 37 34) = some c ∧
      (w c th).opn (bits (w c th).word.toNat 33 30) = some th) ∧
    ((s r).ctx 0).valid = true ∧ ((s r).ctx 0).arrived.toNat < 1 % 2 ^ 48 ∧ ((s r).ctx 1).valid = false ∧ 2 ^ 48 % 2 ^ 48 = 0 :=
  ⟨⟨starts_of (by decide +kernel), starts_of (by decide +kernel)⟩, by decide +kernel, by decide +kernel, by decide +kernel⟩

end Sys2Proof.Tests
end

