-- ==== Sys2Proof/Tests/Witness5.lean ====
section
/-! SUPPORT. Concrete states and operands that meet the hypotheses of the statements about the memory tiers, ports, packets and the
ring. -/
namespace Sys2Proof.Tests

open Machine

set_option Elab.async false

/-! ### Memory tiers -/

/-- A scrub that finds nothing, and one with a corrected and an uncorrectable word; a row of each S-die being spared. -/
theorem witness_MemoryTiersScrubSpareAndArbitrate_near :
    let on := base.setReg (pgNear 0) 0x100 1
    on.bit (pgNear 0) 0x100 0 = true ∧ on.cs.st ≠ .rebuild ∧ on.mem.poison = [] ∧ (∀ row ∈ [0, 0x7E000],
      ((withPart fun x => { x with sparing := [row] }).part 0).sparing.contains row = true ∧ sdieOf (row * 4096) = row / 0x7E000) := by
  decide +kernel

/-- Temperatures at the bounds of every mode, from every mode, and at the trip; in a module that has tripped. -/
theorem witness_MemoryTiersScrubSpareAndArbitrate_temp : ∀ m, m < 4 →
    ((withPart fun x => { x with far := { x.far with refmode := m } }).part 0).far.refmode < 4 ∧ (919 : BitVec 12).toNat < 920 ∧
      920 ≤ (920 : BitVec 12).toNat ∧ base.power.tripped = false ∧
      ({ withPart (fun x => { x with far := { x.far with refmode := m } }) with
        power := { base.power with tripped := true } } : State).power.tripped = true := by decide +kernel

/-- Requesters 3 and 5 with equal counters, and 5 with the fuller one; alone; the one that stays out. -/
theorem witness_MemoryTiersScrubSpareAndArbitrate_arbiter : ∀ x ∈ [(3, 10, 10), (5, 10, 11)],
    let s := withPart fun y => { y with far := { y.far with credit := [(3, x.2.1), (5, x.2.2)], back := [(7, 900)], holder := some (7, 0) } }
    let reqs : List BurstReq := [⟨3, 2048, true⟩, ⟨5, 64, false⟩]
    s.pageBusy (pgFar 0) = false ∧ (reqs.map (·.n)).Nodup ∧
      (∀ r ∈ reqs, r.n < 16 ∧ mget 0 (s.part 0).far.back r.n ≤ s.clk ∧ (s.part 0).far.wdNext ≠ some (r.n, s.clk)) ∧
      (∃ w ∈ reqs, w.n = x.1 ∧ ∀ r ∈ reqs, mget 0 (s.part 0).far.credit r.n < mget 0 (s.part 0).far.credit w.n ∨
        mget 0 (s.part 0).far.credit r.n = mget 0 (s.part 0).far.credit w.n ∧ w.n ≤ r.n) ∧
      mget 0 (s.part 0).far.back 7 ≠ 0 ∧ mget 0 (s.part 0).far.back 7 ≤ s.clk ∧ (s.part 0).far.holder = some (7, 0) ∧
      0 + 65536 < (70000 : Nat) := by decide +kernel

theorem witness_MemoryTiersScrubSpareAndArbitrate_watchdog :
    let s := { withPart (fun y => { y with far := { y.far with holder := some (7, 0) } }) with clk := 65537 }
    (s.part 0).far.holder = some (7, 0) ∧ 0 + 65536 < s.clk := by decide +kernel

/-! ### Ports -/

/-- `base` with port `i` as given, ACTIVE and with its lasers on. -/
def withPort (i : Nat) (x : Port) (s : State := base) : State :=
  { s with ports := mput Port.reset s.ports i x, ust := mput UEntry.off s.ust (1664 + i) ⟨.active, none⟩,
           pins := { s.pins with lasers := 0xFF } }

/-- A port in service. -/
def portUp : Port := { Port.reset with st := .up, lanes := 15, peerSlot := 1 }

/-- Enable, disable, and enable of a port that is not DOWN; each outcome of training; lanes lost. -/
theorem witness_PortsTrainAndFlitsPass_training :
    let dn := withPort 0 Port.reset
    let tr := fun n => withPort 0 { Port.reset with st := .training, attempts := n }
    let r := fun (l : BitVec 4) (f : BitVec 6) => (⟨l, f, true, 0⟩ : TrainResult)
    dn.pageBusy (pgPort 0) = false ∧ (dn.port 0).st = .down ∧ dn.portPowered 0 = true ∧ (1 : W32).getLsbD 0 = true ∧
      (0 : W32).getLsbD 0 = false ∧ ((withPort 0 portUp).port 0).st ≠ .down ∧
      (∀ n ∈ [0, 1, 2], ((tr n).port 0).st = .training ∧ (tr n).farOk_ 0 (r 15 1) = true ∧ (tr n).farOk_ 0 (r 7 1) = true ∧
        (tr n).farOk_ 0 (r 15 2) = false ∧ (r 7 1).lanes ≠ 0 ∧ (r 7 1).lanes ≠ 15 ∧ (r 0 1).lanes = 0 ∧ ((tr n).port 0).attempts = n) ∧
      (∀ l, l < 4 → ((withPort 0 portUp).port 0).linked = true ∧ ((withPort 0 portUp).port 0).lanes.getLsbD l = true) := by
  decide +kernel

/-- A flit of VC3 with sequence number `q`, its CRC right or not. -/
def flit0 (q : BitVec 12) (ok idle nak sop eop : Bool) : Flit :=
  let f : Flit := ⟨3, sop, eop, idle, q, 0, nak, 0, 0, [1, 2], 0⟩
  { f with crc := if ok then crc32c (flitBody f) else crc32c (flitBody f) + 1 }

theorem flitOk_flit0 (q : BitVec 12) (ok idle nak sop eop : Bool) : flitOk (flit0 q ok idle nak sop eop) = ok := by
  let f : Flit := ⟨3, sop, eop, idle, q, 0, nak, 0, 0, [1, 2], 0⟩
  have h : flitBody (flit0 q ok idle nak sop eop) = flitBody f := rfl
  unfold flitOk
  rw [h]
  cases ok
  · have n : ∀ x : BitVec 32, (x + 1 == x) = false := fun x => by simp
    exact n (crc32c (flitBody f))
  · exact beq_self_eq_true (crc32c (flitBody f))

/-- A flit with a failed CRC, an idle one, one out of sequence, and one in sequence that ends its packet or not, each with and
without a negative acknowledgement; with and without discarding. -/
theorem witness_PortsTrainAndFlitsPass_receive : ∀ d ∈ [true, false],
    let s := withPort 0 { portUp with expSeq := 4095, discarding := d, rx := [(3, [9])] }
    (s.port 0).linked = true ∧ (s.port 0).discarding = d ∧ (s.unit 1664).st ≠ .fenced ∧ (s.unit 1664).st ≠ .off ∧
      (∀ nak ∈ [true, false], ∀ e ∈ [true, false], (flit0 4095 true true nak e e).idle = true ∧ (flit0 0 true false nak e e).seq ≠ (s.port 0).expSeq ∧
        (flit0 4095 true false nak e (!e)).seq = (s.port 0).expSeq ∧ (flit0 4095 true false nak e (!e)).eop = !e ∧
        (flit0 4095 true false nak e e).nak = nak) := by decide +kernel

/-- A packet of 244 bytes to send, one of 245, and none; VC0, and VC3 in its turn; a flit to be resent; a payload flit just sent on a
throttled F-die. -/
theorem witness_PortsTrainAndFlitsPass_transmit : ∀ v ∈ [0, 3], ∀ n ∈ [244, 245],
    let y : TxPkt := ⟨List.replicate n 1, false, 5, 1, false, .unit⟩
    let s := withPort 0 { portUp with tx := [(v, [y])], cur := 3, deficit := [(3, 1)] }
    (s.port 0).linked = true ∧ (s.port 0).resend = [] ∧ (s.port 0).replay.length < 1024 ∧ (s.port 0).txq v = [y] ∧
      (∀ u, u < 8 → ((s.port 0).ready u = true ↔ u = v)) ∧ (v = 0 ∨ (s.port 0).cur = v ∧ 0 < mget 0 (s.port 0).deficit v) ∧
      (∀ u, u < 8 → ((withPort 0 portUp).port 0).ready u = false) ∧
      (let f : Flit := ⟨3, true, true, false, 1, 0, false, 0, 0, [1, 2], 0⟩
       ((withPort 0 { portUp with resend := [f] }).port 0).resend = f :: []) ∧
      ((s.port 0).paid = false ∧ 18 + 0 / 36 ∉ s.power.throttled) ∧
      (let s := { withPort 0 { portUp with paid := true } with power := { base.power with throttled := [18] } }
       (s.port 0).linked = true ∧ (s.port 0).paid = true ∧ 18 + 0 / 36 ∈ s.power.throttled) := by decide +kernel

/-! ### Packets and routes -/

/-- A packet of channel `vc` and operation `op` to module `d` for generation `g` of job 5. -/
def pkt0 (d : BitVec 14) (vc : BitVec 3) (op g : BitVec 8) : Packet := ⟨d, 0, 9, vc, g, 5, 1, op, [0, 0]⟩

/-- Port 0 holds a packet. -/
def holding (k : Packet) : State := withPort 0 { portUp with pkts := [(k.vc.toNat, [k])] }

/-- A packet for this module of a LIVE job on VC1 to VC5; of no LIVE job; of no operation of its channel; and on VC0 from a
source that is not listed. -/
theorem witness_PacketsAndRoutes_here : ∀ x ∈ [(3, 2), (4, 4), (2, 1), (1, 0x10), (5, 0x20)],
    let k := pkt0 1 x.1 x.2 1
    ((holding k).port 0).rxq k.vc.toNat = [k] ∧ (holding k).modId = some k.dst ∧ (holding k).live k.tag k.gen = true ∧
      opOfVc k.vc.toNat k.op.toNat = true ∧ (k.vc = 3 ∨ k.vc = 4 ∨ k.vc = 5 ∨ k.vc = 1 ∨ k.vc = 2 ∧ (holding k).inq 0 < 4096) ∧
      opOfVc k.vc.toNat 0x3F = false ∧
      (holding (pkt0 1 x.1 x.2 2)).live 5 2 = false ∧
      (let m : Packet := ⟨1, 0, 8, 0, 0, 0, 0, 0x40, []⟩
       (holding m).modId = some m.dst ∧ m.vc = 0 ∧ (holding m).mgmtAccepts m = false) := by decide +kernel

/-- A packet on an uplink for another module of the pod, which a peer port serves; and on a peer port, which none serves. -/
theorem witness_PacketsAndRoutes_forward :
    let k := pkt0 2 3 2 1
    let up := withPort 32 { portUp with pkts := [(3, [k])] }
    (up.port 32).rxq 3 = [k] ∧ up.modId = some 1 ∧ (1 : BitVec 14) ≠ k.dst ∧ k.vc ≠ 7 ∧ up.routeForward 32 k = .port 1 ∧ (1 : Nat) ≠ 32 ∧
      (holding k).routeForward 0 k = .none_ ∧ (up.isUplink 32 = true ∧ podOf k.dst = podOf 1) ∧ up.isUplink 0 = false := by
  decide +kernel

/-- A spread route set of job 5 with one entry, for pod 1. -/
def withSet (e : Nat) : State := { base with sets := [(0, ⟨5, 1, true, true, [(1, BitVec.ofNat 32 e)]⟩)] }

/-- Packets to this module, its pod and another, of a job with no set, with a set without the pod, with a valid entry through an
uplink, and through a relay. -/
theorem witness_PacketsAndRoutes_own :
      podOf (64 : BitVec 14) = 1 ∧ podOf (2 : BitVec 14) = podOf 1 ∧ podOf (64 : BitVec 14) ≠ podOf 1 ∧ base.boundSet 5 1 = none ∧
      (∀ e ∈ [0, 0x8000, 0x8400], (withSet e).boundSet 5 1 = some 0 ∧
        bitAt (mget 0 ((withSet e).rset 0).pods 1).toNat 15 = (e != 0) ∧ ((withSet e).rset 0).spread = true) ∧
      2 ≤ ({ pkt0 64 3 2 1 with hops := 2 } : Packet).hops.toNat ∧ (withSet 0x8000).routeForward 0 (pkt0 64 3 2 1) = .port 32 := by
  decide +kernel

/-! ### The ring -/

/-- The module in the ring. -/
def inRing0 (s : State := base) : State := { s with inRing := true, ringHops := 3 }

/-- A bad frame; frames of a MARK and of a ring collective; an own frame to send; INSERT. -/
theorem witness_RingFramesAndRingTokens_frames :
    let tok : List Byte := [1, 2, 3]
    ringToken [0, 0, 3] = none ∧ (∃ x, ringToken ([0x55, 0x55] ++ ringFrame 255 tok) = some (255, x)) ∧ inRing0.inRing = true ∧
      base.inRing = false ∧ field tok 0 1 ≠ 0x10 ∧ field tok 0 1 ≠ 0x11 ∧ field tok 0 1 = 1 ∧
      ([1, 2, 3, 4, 5, 7] : List Nat).contains (field [0x10] 0 1) = false ∧
      ({ inRing0 with ringCw := [tok] }.ringCw = tok :: []) ∧ ({ inRing0 with ringCcw := [tok] }.ringCcw = tok :: []) ∧
      base.pageBusy pgRing = false ∧ (1 : W32).getLsbD 0 = true ∧ (0 : W32).getLsbD 0 = false := by
  refine ⟨by decide +kernel, ⟨[1, 2, 3], by decide +kernel⟩, ?_⟩
  decide +kernel

/-- A token of collective 0 of job 5 that has the votes of `count` of 2 members and `mask`. -/
def rcTok (status count mask : Nat) : RcToken := ⟨0, BitVec.ofNat 4 status, count, 2, 5, 1, 0, BitVec.ofNat 64 mask, toLE 8 1⟩

/-- A ring reduction of one 8-byte element here, leading or not. -/
def rcColl0 (kind : Nat) (lead ret : Bool) (at_ : Nat) : Coll :=
  { entry := 0, tag := 5, gen := 1, kind := kind, op := 0, hier := false, cseq := 0, n := 1, root := 0, map := []
    locals_ := [⟨0, BitVec.ofNat 64 nt0, BitVec.ofNat 64 nt0⟩], rxbuf := 0, nodes := [], folded := [], results := [], blocks := []
    barrier := [], ring := some ⟨toLE 8 2, lead, 0, at_, ret⟩, unsent := 0, postedAt := 0 }

/-- The module in the ring while its collective arc 0 runs it. -/
def rcState (kind : Nat) (lead ret : Bool) (at_ : Nat) : State :=
  { inRing0 (withArc 16 (arc 4 0 0 .fired)) with colls := [rcColl0 kind lead ret at_], led := [] }

theorem rcRuns (kind : Nat) (lead ret : Bool) (at_ : Nat)
    (h : ((rcState kind lead ret at_).arcu 16).active[(rcColl0 kind lead ret at_).entry]? = some (arc 4 0 0 .fired)) :
    RunsColl (rcState kind lead ret at_) (rcColl0 kind lead ret at_) (arc 4 0 0 .fired) := by
  exact ⟨List.mem_singleton.2 rfl, fun y hy _ => List.mem_singleton.1 hy, h, by decide⟩

/-- A member with its bit clear and set; a leader that a token returns to, complete and not, and a second time; a result with and
without data; the next attempt. -/
theorem witness_RingFramesAndRingTokens_collect : ∀ lead ∈ [true, false], ∀ ret ∈ [true, false], ∀ kind ∈ [0, 2],
    let s := rcState kind lead ret 0
    s.inRing = true ∧ NoHolds s ∧
      (∀ n ∈ [1, 2], ∀ m ∈ [0, 1], ∀ st ∈ [0, 1], s.rcColl (rcTok st n m) = some (rcColl0 kind lead ret 0, ⟨toLE 8 2, lead, 0, 0, ret⟩)) ∧
      RunsColl s (rcColl0 kind lead ret 0) (arc 4 0 0 .fired) := by
  intro lead hl ret hr kind hk
  simp only [List.mem_cons, List.not_mem_nil, or_false] at hl hr hk
  rcases hl with rfl | rfl <;> rcases hr with rfl | rfl <;> rcases hk with rfl | rfl <;>
    exact ⟨by decide +kernel, noHolds_of (by decide +kernel), by decide +kernel, rcRuns _ _ _ _ (by decide +kernel)⟩

/-- The result's write; a token of no collective here: held, passed on, or led; a leader's next attempt; a held token's end. -/
theorem witness_RingFramesAndRingTokens_others :
    ((rcState 2 true false 0).collPutAll (rcColl0 2 true false 0) 0 ((toLE 8 1).take (1 * 8))).2 = true ∧ (rcColl0 2 true false 0).e = 8 ∧
      inRing0.rcColl (rcTok 0 1 0) = none ∧ inRing0.led.contains (rcKey (rcTok 0 1 0)) = false ∧ inRing0.rcWaits (rcTok 0 1 0) = true ∧
      inRing0.rcWaits { rcTok 0 1 0 with cseq := 127 } = true ∧ inRing0.rcWaits { rcTok 0 1 0 with cseq := 128 } = false ∧
      inRing0.rcOld (rcTok 0 1 0) = none ∧
      ({ inRing0 with rcPast := [⟨5, 1, 0, 0, 8, toLE 8 2⟩] }).rcOld (rcTok 0 1 0) = some ⟨5, 1, 0, 0, 8, toLE 8 2⟩ ∧
      0 + 8000 ≤ ({ rcState 0 true false 0 with clk := 8000 }).clk ∧
      (let h : HeldTok := ⟨rcTok 0 1 0, 3, 0⟩
       let s := { inRing0 with heldToks := [h], clk := 1000000 }
       s.heldToks[0]? = some h ∧ h.at_ + 1000 * s.fld pgColl 0x100 23 16 < s.clk) := by decide +kernel

end Sys2Proof.Tests
end

