-- ==== Sys2Proof/Tests/Witness6.lean ====
section
/-! SUPPORT. Concrete states and operands that meet the hypotheses of the statements about flow commands, requests, and answers. -/
namespace Sys2Proof.Tests

open Machine

set_option Elab.async false

/-! ### Flow commands -/

/-- FLW_NUM is `c` and FLW_ADDR the start of partition 0's near tier, which holds `img`. -/
def flwState (c : Nat) (img : List Byte) (s : State := base) : State :=
  (withBytes nt0 img (s.setReg (pgFlow 0) 0x10C (BitVec.ofNat 32 c))).setReg64 (pgFlow 0) 0x110 nt0

/-- Image of a context of job 5 and generation `g` that may send and take atomics, to module 2. -/
def ctxImg (g : Nat) : List Byte :=
  toLE 2 5 ++ toLE 1 g ++ toLE 1 7 ++ toLE 2 2 ++ toLE 1 8 ++ toLE 1 0 ++ toLE 3 7 ++ toLE 1 0 ++ toLE 12 0 ++ toLE 2 2 ++ toLE 3 7 ++
    toLE 1 0 ++ toLE 34 0

/-- Image of a window of job 5 over one line of the near tier, or over `sz` bytes of it. -/
def winImg (sz : Nat) : List Byte := toLE 2 5 ++ toLE 1 1 ++ toLE 1 31 ++ toLE 4 0 ++ toLE 8 nt0 ++ toLE 8 sz ++ toLE 8 0

/-- Commands on entry 0 and on an odd one; CREATE of a job that is LIVE and of one that is not; on a valid entry. -/
theorem witness_FlowCommandsLoadTheirTables_contexts :
    let v := { flwState 0 [] with ctxs := [(0, ctx0)] }
    base.pageBusy (pgFlow 0) = false ∧ (flwState 1 []).flwNum 0 % 2 = 1 ∧ (flwState 0 []).flwNum 0 % 2 = 0 ∧
      ((flwState 0 []).ctx 0).valid = false ∧
      (∀ g ∈ [1, 2], (flwState 0 (ctxImg g)).flwImage 0 64 = some (ctxImg g) ∧
        (flwState 0 (ctxImg g)).live (BitVec.ofNat 16 (field (ctxImg g) 0 2)) (BitVec.ofNat 8 (field (ctxImg g) 2 1)) = (g == 1)) ∧
      ((ctxOf (ctxImg 1)).map (·.atom)) = some true ∧ (flwState 0 (ctxImg 1)).ctxs = [] ∧
      (v.ctx 0).valid = true ∧ inNear (v.reg64 (pgFlow 0) 0x110) 64 = true := by decide +kernel

theorem witness_FlowCommandsLoadTheirTables_read :
    let v := { flwState 0 [] with ctxs := [(0, ctx0)] }
    ∃ u, v.store .unit (v.reg64 (pgFlow 0) 0x110) ((ctxBytes (v.ctx 0)).map some) = .ok u := done_of (by decide +kernel)

/-- A window of one line and one of 63 bytes; an aperture entry; the highest entry and one above it. -/
theorem witness_FlowCommandsLoadTheirTables_windows :
    (∀ sz ∈ [64, 63], (flwState 0 (winImg sz)).flwImage 0 32 = some (winImg sz) ∧
      base.live (winOf (winImg sz)).tag (winOf (winImg sz)).gen = true ∧ field (winImg sz) 3 1 < 32 ∧ field (winImg sz) 4 4 = 0 ∧
      field (winImg sz) 24 8 = 0 ∧ (winOf (winImg sz)).ok = (sz == 64)) ∧
    (flwState 4076 (toLE 8 (2 ^ 63))).flwNum 0 ≤ 4076 ∧ 4076 < (flwState 4077 []).flwNum 0 ∧
      (flwState 4076 (toLE 8 (2 ^ 63))).flwImage 0 8 = some (toLE 8 (2 ^ 63)) ∧ bits (leNat (toLE 8 (2 ^ 63))) 62 36 = 0 := by
  decide +kernel

/-! ### Requests -/

/-- A request of module 9 to this one through context 0, on window `w` at offset `off`, with operation, code and data. -/
def req (op : BitVec 8) (code aseq w off : Nat) (d : List Byte) (g : BitVec 8 := 1) : Packet :=
  ⟨1, 0, 9, 2, g, 5, 3, op, toLE 3 0 ++ toLE 1 code ++ toLE 2 aseq ++ toLE 2 0 ++ toLE 8 (w * 2 ^ 40 + off) ++ d⟩

/-- The request at the head of the inbox, from port 0; window 1 is one line of the near tier with the rights given, and context
0 takes atomics of module 9's flow 3. -/
def asked (k : Packet) (rights : Nat := 15) : State :=
  { base with
    inbox := [(0, k)]
    wins := [(1, ⟨5, 1, BitVec.ofNat 4 rights, true, BitVec.ofNat 64 nt0, 64⟩)]
    ctxs := [(0, { ctx0 with peer := 9, pflow := 3, high := 7, applied := 1 })] }

/-- LOAD_REQ, STORE, PUT and ATOM_REQ: of a job that is not LIVE; malformed; outside every window; without the right; past the
window's end; an atomic off its alignment; and passing. -/
theorem witness_RequestsAreCheckedAndApplied_checks : ∀ x ∈ [(1, 8), (3, 8), (4, 8), (5, 32)],
    let p := fun w off => req (BitVec.ofNat 8 x.1) (if x.1 = 5 then 1 else 0) 0 w off (toLE x.2 0)
    let ok := asked (p 1 0)
    (∀ w ∈ [0, 1], ∀ off ∈ [0, 4, 56, 64], nextRequest (asked (p w off)) x.1 = some (0, p w off) ∧ fmtOk (p w off) = true) ∧
      (p 1 0).op.toNat = x.1 ∧ (asked { p 1 0 with gen := 2 }).live 5 2 = false ∧ ok.live 5 1 = true ∧
      fmtOk { p 1 0 with body := [] } = false ∧ (ok.win 0).valid = false ∧
      (ok.win 1).valid = true ∧ (ok.win 1).tag = 5 ∧ (ok.win 1).gen = 1 ∧
      ((asked (p 1 0) 0).win 1).rights.getLsbD (if x.1 = 1 then 0 else if x.1 = 5 then 2 else 1) = false ∧
      (ok.win 1).rights.getLsbD (if x.1 = 1 then 0 else if x.1 = 5 then 2 else 1) = true ∧
      (ok.win 1).size < 64 + reqLen (p 1 64) ∧ 56 + reqLen (p 1 56) ≤ (ok.win 1).size ∧ (x.1 = 5 → 4 % reqLen (p 1 4) ≠ 0) ∧
      (x.1 = 5 → 0 % reqLen (p 1 0) = 0) ∧ ok.check (p 1 0) = .pass (BitVec.ofNat 64 nt0) := by decide +kernel

/-- What passes: a load with its bytes, a put into a partition in service or in reset, a context that holds the job or not. -/
theorem witness_RequestsAreCheckedAndApplied_passes :
    let l := req 1 0 0 1 0 (toLE 8 7)
    let p := req 4 0 0 1 0 (toLE 8 5)
    let a := req 5 1 0 1 0 (toLE 32 0)
    let rst := fun k => (asked k).setPart 0 { part0 with inReset := true }
    let none_ := fun k => { asked k with ctxs := [] }
    (asked l).toReset (BitVec.ofNat 64 nt0) = false ∧ (rst l).toReset (BitVec.ofNat 64 nt0) = true ∧ (asked l).cs.st ≠ .rebuild ∧
      (asked l).mem.poison = [] ∧
      (asked l).loadX .fabric (BitVec.ofNat 64 nt0) (reqLen l) = some (List.replicate 8 (some 0)) ∧
      (∀ k ∈ [l, p, a], nextRequest (asked k) k.op.toNat = some (0, k) ∧ (asked k).check k = .pass (BitVec.ofNat 64 nt0) ∧
        (rst k).check k = .pass (BitVec.ofNat 64 nt0) ∧ (none_ k).check k = .pass (BitVec.ofNat 64 nt0)) ∧
      ((asked p).ctx (hTctx p)).valid = true ∧ ((asked p).ctx (hTctx p)).tag = p.tag ∧ ((asked p).ctx (hTctx p)).gen = p.gen ∧
      ((none_ p).ctx (hTctx p)).valid = false ∧ (asked p).xlateParts (BitVec.ofNat 64 nt0) (reqLen p) = some [(nt0, reqLen p)] ∧
      ((asked a).ctx (hTctx a)).atom = true ∧ ((asked a).ctx (hTctx a)).peer = a.src ∧ ((asked a).ctx (hTctx a)).pflow = a.flow := by
  decide +kernel

theorem witness_RequestsAreCheckedAndApplied_put :
    let p := req 4 0 0 1 0 (toLE 8 5)
    ∃ u, ((asked p).taken [4]).storeX .fabric (BitVec.ofNat 64 nt0) ((hData p).map some) = .ok u := done_of (by decide +kernel)

/-- The request waits for its line at port 0; sequence numbers run against HIGH 7 with it applied. -/
def lined (k : Packet) : State := { asked k with inbox := [], ports := [(0, { Port.reset with lineq := [⟨k, BitVec.ofNat 64 nt0, 0⟩] })] }

/-- A STORE; atomics with a new number, one in the window not applied and applied, the window's last, and one below it. -/
theorem witness_RequestsAreCheckedAndApplied_line :
    let st := req 3 0 0 1 0 (toLE 8 5)
    let a := fun q => req 5 1 q 1 0 (toLE 32 3)
    (∀ k ∈ [st, a 8, a 6, a 7, a (7 + 32767), a (7 + 65505), a (7 + 65504), a (7 + 32768)],
      (lined k).nextLine 0 = some (0, ⟨k, BitVec.ofNat 64 nt0, 0⟩) ∧ (lined k).live k.tag k.gen = true ∧
        (lined k).toReset (BitVec.ofNat 64 nt0) = false ∧ (lined k).xlateParts (BitVec.ofNat 64 nt0) (reqLen k) = some [(nt0, reqLen k)]) ∧
      (∀ x ∈ [(8, 1), (6, 65535), (7, 0), (7 + 32767, 32767), (7 + 65505, 65505), (7 + 65504, 65504), (7 + 32768, 32768)],
        (BitVec.ofNat 16 (hAseq (a x.1)) - ((lined (a x.1)).ctx 0).high).toNat = x.2) ∧
      ((lined (a 6)).ctx 0).applied.getLsbD 1 = false ∧ ((lined (a 7)).ctx 0).applied.getLsbD 0 = true ∧
      ((lined (a 7)).ctx 0).valid = true ∧ ((lined (a 7)).ctx 0).atom = true ∧
      (∀ q ∈ [8, 6], (lined (a q)).atomCompute (a q) (BitVec.ofNat 64 nt0) = some (0, toLE 8 3)) := by decide +kernel

theorem witness_RequestsAreCheckedAndApplied_lineStore : ∀ x ∈ [(3, 5), (5, 3)],
    ∃ u, ((lined (req (BitVec.ofNat 8 x.1) 1 8 1 0 (toLE 32 0))).unqueue 0 0).storeX .fabric (BitVec.ofNat 64 nt0) ((toLE 8 x.2).map some) =
      .ok u := by
  intro x hx
  simp only [List.mem_cons, List.not_mem_nil, or_false] at hx
  rcases hx with rfl | rfl <;> exact done_of (by decide +kernel)

/-! ### Answers, resends, timeouts and the aperture -/

/-- Outstanding request 0 of tile 0's copy-queue entry 0, to this module: a load of 8 bytes or an atomic, sent at time 0. -/
def outst0 (atom : Bool) : Outst :=
  ⟨0, 0, req (if atom then 5 else 1) (if atom then 2 else 0) 0 1 0 (toLE 8 7), .tile 0 0, false, 64, 8, atom, false, true, 0, 0⟩

/-- Its answer: operation, code and data, to the request of identifier `rid`. -/
def reply (op : BitVec 8) (code rid : Nat) (d : List Byte) : Packet :=
  ⟨1, 0, 1, 3, 1, 5, 0, op, toLE 3 0 ++ toLE 1 code ++ toLE 2 0 ++ toLE 2 rid ++ toLE 8 0 ++ d⟩

/-- The answer `k` is next in the inbox. -/
def answered (atom : Bool) (k : Packet) : State :=
  { tile0 (fun x => x.setQueue 3 [{ entry (opw0 atom) [] with st := .running, need := 1 }]) with
    outst := [outst0 atom], nextRid := 1, inbox := [(72, k)], ctxs := [(0, ctx0)] }
where opw0 (atom : Bool) : Nat := (if atom then 0x23 else 0x21) * 2 ^ 58

theorem answered_sent (atom : Bool) (k : Packet) : AllSent (answered atom k) := by
  intro o ho
  rw [show (answered atom k).outst = [outst0 atom] from rfl] at ho
  rw [List.mem_singleton.1 ho]
  exact ⟨rfl, Nat.zero_lt_one⟩

/-- LOAD_RSP; ATOM_RSP with each status; NAK of a load and an atomic. -/
theorem witness_AnswersAndTimeoutsEndRequests_answers : ∀ x ∈ [(false, 2, 0), (true, 6, 0), (true, 6, 1), (false, 7, 3), (true, 7, 3)],
    let k := reply (BitVec.ofNat 8 x.2.1) x.2.2 1 (toLE (if x.2.1 = 2 then 8 else if x.2.1 = 6 then 16 else 0) 9)
    let s := answered x.1 k
    (s.live k.tag k.gen = true ∧ s.nextPkt [x.2.1] = some (72, k) ∧ s.reqOf k = some (outst0 x.1) ∧ (outst0 x.1).atom = x.1 ∧
      (outst0 x.1).owner = .tile 0 0 ∧ (outst0 x.1).space = false ∧ (outst0 x.1).sent = true ∧ rspOk k = true ∧ s.rputOf (outst0 x.1) = none ∧ hCode k = x.2.2 ∧
      (x.2.1 = 6 → hCode (outst0 x.1).pkt < 8 ∧ atomSize (hCode (outst0 x.1).pkt) ≤ (hData k).length)) ∧ AllSent s ∧ NoHolds s := by
  intro x hx
  simp only [List.mem_cons, List.not_mem_nil, or_false] at hx
  rcases hx with rfl | rfl | rfl | rfl | rfl <;> exact ⟨by decide +kernel, answered_sent _ _, noHolds_of (by decide +kernel)⟩

/-- NAK of no request: of a store or put. -/
theorem witness_AnswersAndTimeoutsEndRequests_nak :
    let k := reply 7 3 0 []
    let s := answered false k
    (s.live k.tag k.gen = true ∧ rspOk k = true ∧ hRid k = 0 ∧ s.nextPkt [7] = some (72, k) ∧ s.reqOf k = none ∧ s.bit (pgFlow (hTctx k % 2)) 0x104 9 = false) ∧
      AllSent s ∧ NoHolds s :=
  ⟨by decide +kernel, answered_sent _ _, noHolds_of (by decide +kernel)⟩

/-- A second NAK of a request that has ended. -/
theorem witness_AnswersAndTimeoutsEndRequests_second :
    let k := reply 7 3 5 []
    let s := answered false k
    s.live k.tag k.gen = true ∧ rspOk k = true ∧ s.nextPkt [7] = some (72, k) ∧ s.reqOf k = none ∧ hRid k ≠ 0 := by decide +kernel

/-- The request a quarter of its timeout old, and all of it. -/
theorem witness_AnswersAndTimeoutsEndRequests_overdue : ∀ atom ∈ [true, false], ∀ clk ∈ [31250, 125001],
    let s := { answered atom (reply 2 0 1 []) with clk := clk, inbox := [] }
    ((s.outst.find? fun y => y.id16 == 1 && y.sent) = some (outst0 atom) ∧ (outst0 atom).resends < 3 ∧
      (outst0 atom).sentAt + ((outst0 atom).resends + 1) * (125000 * 2 ^ (s.ctx (outst0 atom).ctx).tmo / 4) ≤ s.clk ∧
      s.live (outst0 atom).pkt.tag (outst0 atom).pkt.gen = true ∧ s.routeOwn (ownPacket s (outst0 atom).pkt) ≠ .none_ ∧
      (clk = 125001 → (outst0 atom).sentAt + 125000 * 2 ^ (s.ctx (outst0 atom).ctx).tmo < s.clk) ∧ s.rputOf (outst0 atom) = none ∧
      s.answered (outst0 atom) = false ∧ s.bit (pgFlow ((outst0 atom).ctx % 2)) 0x104 8 = false) ∧ AllSent s ∧ NoHolds s := by
  intro atom ha clk hc
  simp only [List.mem_cons, List.not_mem_nil, or_false] at ha hc
  rcases ha with rfl | rfl <;> rcases hc with rfl | rfl <;>
    exact ⟨by decide +kernel, by intro o ho; exact answered_sent _ (reply 2 0 1 []) o ho, noHolds_of (by decide +kernel)⟩

/-- A CWAIT of context 0 with WAITMS 1, a millisecond old. -/
theorem witness_AnswersAndTimeoutsEndRequests_cwait :
    let e := { entry (0x25 * 2 ^ 58 + 1 * 2 ^ 30) [0, 5] with st := .running }
    let s := { tile0 (fun x => x.setQueue 3 [e]) with ctxs := [(0, { ctx0 with waitms := 1 })], clk := 1000001 }
    s.entry? 0 3 0 = some e ∧ e.st = .running ∧ wMajor e.word.toNat = 0x25 ∧
      e.ops.getD (bits e.word.toNat 37 34) none = some 0 ∧ (s.ctx 0).waitms ≠ 0 ∧ e.since + 1000000 * (s.ctx 0).waitms < s.clk := by
  decide +kernel

/-- Accesses of 64 bytes to the end of a line, and one byte past it, through a valid entry and an invalid one. -/
theorem witness_AnswersAndTimeoutsEndRequests_aperture : ∀ valid ∈ [true, false],
    let s := { base with ctxs := [(0, ctx0)], apts := [(0, ⟨0, 1, 0, valid⟩)] }
    (s.sendCtx 5 = none ∧ 0x13000000000 ≤ (0x13000000040 : Nat) ∧ (0x13000000040 : Nat) < 2 ^ 48 ∧
      (mget Apt.none_ s.apts ((0x13000000040 - 0x13000000000) / 2 ^ 36)).valid = valid ∧
      (0x13000000040 - 0x13000000000) % 64 + 64 ≤ 64 ∧ 64 < (0x13000000041 - 0x13000000000) % 64 + 64 ∧
      s.sendCtx 0 = some ctx0 ∧ s.live ctx0.tag ctx0.gen = true) ∧ Routed s ctx0 := by
  intro v hv
  simp only [List.mem_cons, List.not_mem_nil, or_false] at hv
  rcases hv with rfl | rfl <;> exact ⟨by decide +kernel, routed_of (by decide +kernel)⟩

end Sys2Proof.Tests
end

