-- ==== Sys2Proof/Tests/Witness8.lean ====
section
/-! SUPPORT. Concrete states and operands that meet the hypotheses of the statements about collectives. -/
namespace Sys2Proof.Tests

open Machine

set_option Elab.async false

/-! ### Posting -/

/-- A descriptor: kind, flags, CSEQ, ranks, local ranks and elements, of OP 2, with 128 bytes to receive in. -/
def collBytes (kind fl cseq r nloc n : Nat) : List Byte :=
  toLE 1 kind ++ toLE 1 2 ++ toLE 2 fl ++ toLE 4 cseq ++ toLE 4 r ++ toLE 4 nloc ++ toLE 4 n ++ toLE 4 0 ++ toLE 8 (nt0 + 4096) ++
    toLE 8 (nt0 + 8192) ++ toLE 8 (nt0 + 20480) ++ toLE 8 128 ++ toLE 8 0

/-- Ranks 0 and 1: this module on flow 0 and module 2 on flow 2. -/
def map2 : List RankEnt := [⟨1, 0⟩, ⟨2, 2⟩]

/-- Rank 0 is local. -/
def loc0 : LocalEnt := ⟨0, BitVec.ofNat 64 (nt0 + 12288), BitVec.ofNat 64 (nt0 + 16384)⟩

/-- Module 1 with contexts to itself and to module 2, whose port is UP, in the ring or not. -/
def collNet (ring : Bool) (s : State) : State :=
  { s with
    ctxs := [(0, ctx0), (2, { ctx0 with dst := 2 })], inRing := ring
    ports := [(1, { Port.reset with st := .up, lanes := 15, peerSlot := 2 })] }

/-- A COLLECTIVE arc on the descriptor `b`, with its rank map and its local list in place. -/
def collState (b : List Byte) (ring : Bool) : State :=
  withBytes nt0 b (withBytes (nt0 + 4096) (toLE 8 (2 ^ 63 + 1) ++ toLE 8 (2 ^ 63 + 2 * 2 ^ 16 + 2))
    (withBytes (nt0 + 8192) (toLE 8 0 ++ toLE 8 (nt0 + 12288) ++ toLE 8 (nt0 + 16384) ++ toLE 8 0)
      (collNet ring (withArc 16 (arc 4 0 nt0)))))

/-- The arc fires and finds its descriptor: a reserved kind; the wrong CSEQ; no ranks. -/
theorem witness_CollectivesArePosted_refused : ∀ x ∈ [(6, 0, 2), (1, 1, 2), (1, 0, 0)],
    let b := collBytes x.1 0 x.2.1 x.2.2 1 1
    let s := collState b false
    ArcCanFire s 16 0 4 (arc 4 0 nt0) ∧ NoHolds s ∧ NoErrors s ∧ ((s.loadX .unit (arc 4 0 nt0).w3 64).bind allSome = some b ∧ (arc 4 0 nt0).arg % 64 = 0 ∧
      s.colls = [] ∧ collDescOk b = (x.1 != 6) ∧ ((s.job 5).cseq = (collDescOf b).cseq ↔ x.2.1 = 0) ∧ (collDescOf b).r = x.2.2 ∧
      (s.mjob.getD (0, 0)).1 = 5) := by
  intro x hx
  simp only [List.mem_cons, List.not_mem_nil, or_false] at hx
  rcases hx with rfl | rfl | rfl <;> exact ⟨arcCanFire_of (by decide +kernel), noHolds_of (by decide +kernel),
    noErrors_of (by decide +kernel), by decide +kernel⟩

/-- Lists that fail; the ring refused outside it; a barrier; an all-reduce and a reduce-scatter of one element; a barrier and an
all-reduce on the ring: kind, flags, local ranks, whether in the ring. -/
theorem witness_CollectivesArePosted_lists : ∀ x ∈ [(1, 0, 0, false), (1, 1, 1, false), (0, 0, 1, false), (1, 0, 1, false), (2, 0, 1, false),
      (1, 1, 1, true)],
    let b := collBytes x.1 x.2.1 0 2 x.2.2.1 1
    let d := collDescOf b
    let s := collState b x.2.2.2
    ArcCanFire s 16 0 4 (arc 4 0 nt0) ∧ NoHolds s ∧ NoErrors s ∧ ((s.loadX .unit (arc 4 0 nt0).w3 64).bind allSome = some b ∧ collDescOk b = true ∧
      (s.job 5).cseq = d.cseq ∧ d.r ≠ 0 ∧ d.n = 1 ∧ d.kind = x.1 ∧ d.ring = (x.2.1 == 1) ∧ d.hier = false ∧
      ((s.readArray d.rankmap 8 d.r).map fun m => allSome (m.map rankEntOf)) = some (some map2) ∧
      ((s.readArray d.local_ 32 d.nloc).map fun l => allSome (l.map localEntOf)) = some (some ([loc0].take x.2.2.1)) ∧
      s.collListsOk d map2 ([loc0].take x.2.2.1) = (x.2.2.1 == 1) ∧ (x.2.1 = 1 → s.ringOk d map2 = x.2.2.2) ∧
      (s.loadX .unit loc0.src (d.n * collEsize d.op)).bind allSome = some (List.replicate 8 0) ∧
      (∀ r ∈ map2, s.pins.slot.toNat ≤ slotOf r.modid)) := by
  intro x hx
  simp only [List.mem_cons, List.not_mem_nil, or_false] at hx
  rcases hx with rfl | rfl | rfl | rfl | rfl | rfl <;>
    exact ⟨arcCanFire_of (by decide +kernel), noHolds_of (by decide +kernel), noErrors_of (by decide +kernel), by decide +kernel⟩

/-- The other member's packets leave on port 1. -/
theorem witness_CollectivesArePosted_owed :
    let s := collNet false base
    (⟨2, 2⟩ : RankEnt) ∈ map2 ∧ (map2.find? fun y => y.modid == 2) = some ⟨2, 2⟩ ∧ (2 : BitVec 14) ≠ s.me ∧
      s.live (s.ctx 2).tag (s.ctx 2).gen = true ∧ s.routeOwn (ownPacket s (collPacket s ⟨2, 2⟩ 0x10 [])) = .port 1 := by decide +kernel

/-- The route rests on the header alone. -/
theorem witness_CollectivesArePosted_route (s : State) (r : RankEnt) (op q : Nat) (a b : List Byte) :
    s.routeOwn (ownPacket s (collPacket s r op a)) = s.routeOwn (ownPacket s (collPacket s r q b)) := rfl

/-! ### Packets and folds -/

/-- A collective of `kind` over ranks 0 and 1 that arc 0 runs, with one 8-byte element; `nodes` have come. -/
def coll0 (kind : Nat) (nodes : List NodeRx) : Coll :=
  { entry := 0, tag := 5, gen := 1, kind := kind, op := 2, hier := false, cseq := 0, n := 2, root := 1, map := map2, locals_ := [loc0]
    rxbuf := BitVec.ofNat 64 (nt0 + 20480), nodes := nodes, folded := [], results := [], blocks := [], barrier := [], ring := none
    unsent := 0, postedAt := 0 }

/-- A packet of it from module 2: operation, kind, first rank, chunk, and data. -/
def collPkt (op kind first chunk cseq : Nat) (d : List Byte) : Packet :=
  ⟨1, 0, 2, 1, 1, 5, 2, BitVec.ofNat 8 op, toLE 2 cseq ++ toLE 2 kind ++ toLE 4 first ++ toLE 4 chunk ++ toLE 4 0 ++ d⟩

/-- It runs, and the packet waits at port 1. -/
def collRun (c : Coll) (ps : List Packet) : State :=
  { collNet false (withArc 16 (arc 4 0 0 .fired)) with
    colls := [c], inbox := ps.map fun k => (1, k), jobs := [(5, ⟨.live, 1, none, 0, 1⟩)] }

theorem collRuns {c : Coll} {ps : List Packet} (h : ((collRun c ps).arcu 16).active[c.entry]? = some (arc 4 0 0 .fired)) :
    RunsColl (collRun c ps) c (arc 4 0 0 .fired) :=
  ⟨List.mem_singleton.2 rfl, fun _ hy _ => List.mem_singleton.1 hy, h, by decide⟩

/-- A packet of each operation for no posted collective. -/
theorem witness_CollectivePacketsAndFolds_stray : ∀ op ∈ [0x10, 0x11, 0x12, 0x13],
    let k := collPkt op 1 0 0 7 (toLE 8 1)
    let s := collRun (coll0 1 []) [k]
    s.headVc1 op = some (1, k) ∧ s.live k.tag k.gen = true ∧ NoHolds s ∧
      ∀ y ∈ s.colls, ¬ (y.tag = k.tag ∧ y.gen = k.gen ∧ y.cseq = BitVec.ofNat 16 (field k.body 0 2)) := by
  intro op h
  simp only [List.mem_cons, List.not_mem_nil, or_false] at h
  rcases h with rfl | rfl | rfl | rfl <;>
    exact ⟨by decide +kernel, by decide +kernel, noHolds_of (by decide +kernel), by decide +kernel⟩

/-- Each operation's packet for the posted collective: a barrier's; a contribution of all-reduce and reduce-scatter; a result of chunk
1; a block of all-gather and of broadcast. -/
theorem witness_CollectivePacketsAndFolds_arrives : ∀ x ∈ [(0x13, 0, 0, 0), (0x10, 1, 1, 0), (0x10, 2, 1, 0), (0x11, 1, 0, 1),
      (0x12, 3, 1, 0), (0x12, 4, 1, 0)],
    let d := if x.1 = 0x13 then [] else if x.1 = 0x12 then toLE 16 1 else toLE 8 1
    let k := collPkt x.1 x.2.1 x.2.2.1 x.2.2.2 0 d
    let c := coll0 x.2.1 []
    let s := collRun c [k]
    CollArrives s x.1 1 k c ∧ RunsColl s c (arc 4 0 0 .fired) ∧ NoHolds s ∧ (cData k = d ∧ cOff k = 0 ∧ cK k = 0 ∧ cFirst k = x.2.2.1 ∧
      cChunk k = x.2.2.2 ∧ k.src ∈ c.others s.me ∧ (x.1 = 0x13 → c.kind = 0)) ∧
      (x.1 = 0x10 → 0 ∈ c.folds s.me ∧ c.proxies s.me 0 = false ∧ cNext k 0 (c.count 0 * c.e) = true ∧ (c.span s.me 0).1 ≤ 1 ∧
        nodeEnd c.r 1 0 ≤ (c.span s.me 0).2 ∧ 1 < nodeEnd c.r 1 0 ∧ s.xlateParts (plus (c.rxAt 0 1) 0) 8 = some [(nt0 + 20480 + 64, 8)]) ∧
      ((x.1 = 0x11 → 1 < c.r ∧ c.at_ 1 = k.src ∧ k.src ≠ s.me ∧ cNext k 0 (c.count 1 * c.e) = true ∧
        (s.collPutAll c (1 * c.chb + 0) (cData k)).2 = true ∧ s.xlateParts (plus loc0.dst (1 * c.chb + 0)) 8 = some [(nt0 + 16384 + 64, 8)]) ∧
      (x.1 = 0x12 → (1, 0) ∈ c.awaited ∧ c.at_ 1 = k.src ∧ cNext k 0 (c.n * c.e) = true ∧
        (s.collPutAll c (if c.kind = 3 then 1 * (c.n * c.e) else 0) (cData k)).2 = true)) := by
  intro x hx
  simp only [List.mem_cons, List.not_mem_nil, or_false] at hx
  rcases hx with rfl | rfl | rfl | rfl | rfl | rfl <;>
    exact ⟨⟨by decide +kernel, by decide +kernel, by decide +kernel, by decide +kernel⟩, collRuns (by decide +kernel),
      noHolds_of (by decide +kernel), by decide +kernel, by decide +kernel, by decide +kernel⟩

theorem witness_CollectivePacketsAndFolds_store : ∃ u, (collRun (coll0 1 []) []).store .unit (nt0 + 20480 + 64) ((toLE 8 1).map some) = .ok u :=
  done_of (by decide +kernel)

/-- Chunk 0 with both leaves here, whole and with one poisoned, of an all-reduce and a reduce-scatter; and of one rank alone. -/
theorem witness_CollectivePacketsAndFolds_fold : ∀ kind ∈ [1, 2], ∀ bad ∈ [true, false],
    let c := coll0 kind [⟨0, 0, 0, 8, []⟩, ⟨0, 1, 0, 8, []⟩]
    let s0 := collRun c []
    let s := if bad then { s0 with mem := s0.mem.wr (nt0 + 20480) [none] } else s0
    let one := { c with map := [⟨1, 0⟩], nodes := [⟨0, 0, 0, 16, []⟩] }
    NoHolds s ∧ NoErrors s ∧ (s.colls[0]? = some c ∧ c.ring = none ∧ 0 ∈ c.folds s.me ∧ c.leaves 0 = (c.span s.me 0).2 - (c.span s.me 0).1 ∧
      s.foldChunk c 0 = (if bad then none else some (List.replicate 8 0)) ∧ c.proxies s.me 0 = false ∧
      (c.locals_.find? fun y => y.rank == 0) = some loc0 ∧ s.xlateParts loc0.dst 8 = some [(nt0 + 16384, 8)] ∧
      (s.collPutAll c (0 * c.chb) (List.replicate 8 0)).2 = true ∧ c.others s.me ≠ [] ∧ one.others s.me = [] ∧ c.span s.me 0 = (0, 2) ∧
      (bad = false → s.nodeVal c 0 0 2 = none ∧ s.nodeVal c 0 0 1 = some (some [0]) ∧ s.nodeVal c 0 1 2 = some (some [0]))) ∧
      RunsColl s c (arc 4 0 0 .fired) := by
  intro kind hk bad hb
  simp only [List.mem_cons, List.not_mem_nil, or_false] at hk hb
  rcases hk with rfl | rfl <;> rcases hb with rfl | rfl <;>
    exact ⟨noHolds_of (by decide +kernel), noErrors_of (by decide +kernel), by decide +kernel,
      ⟨List.mem_singleton.2 rfl, fun _ hy _ => List.mem_singleton.1 hy, by decide +kernel, by decide⟩⟩

theorem witness_CollectivePacketsAndFolds_scatter :
    ∃ u, (collRun (coll0 2 []) []).store .unit (nt0 + 16384) ((List.replicate 8 (0 : Byte)).map some) = .ok u := done_of (by decide +kernel)

theorem witness_CollectivePacketsAndFolds_timeout :
    let s := { (collRun (coll0 1 []) []).setReg pgColl 0x100 1 with clk := 1001 }
    NoHolds s ∧ NoErrors s ∧ RunsColl s (coll0 1 []) (arc 4 0 0 .fired) ∧ (s.colls[0]? = some (coll0 1 []) ∧ s.fld pgColl 0x100 15 0 ≠ 0 ∧
      (coll0 1 []).postedAt + 1000 * s.fld pgColl 0x100 15 0 < s.clk ∧ (coll0 1 []).lacks s.me = true) :=
  ⟨noHolds_of (by decide +kernel), noErrors_of (by decide +kernel),
    ⟨List.mem_singleton.2 rfl, fun _ hy _ => List.mem_singleton.1 hy, by decide +kernel, by decide⟩, by decide +kernel⟩

end Sys2Proof.Tests
end

section
/-! What the accessors read at reset, and the obligation on the reset state. -/
namespace Sys2Proof.Machine

/-! ### Sparse maps: reset lists nothing, so that every entry reads its reset value -/

@[simp] theorem reset_reg (pg o : Nat) : State.reset.reg pg o = resetWord pg o := mget_nil _ _

@[simp] theorem reset_tile (t : Nat) : State.reset.tile t = Tile.reset := mget_nil _ _

@[simp] theorem reset_unit (u : Nat) : State.reset.unit u = UEntry.off := mget_nil _ _

@[simp] theorem reset_part (p : Nat) : State.reset.part p = Part.reset := mget_nil _ _

@[simp] theorem reset_arcu (u : Nat) : State.reset.arcu u = ArcUnit.reset := mget_nil _ _

@[simp] theorem reset_port (i : Nat) : State.reset.port i = Port.reset := mget_nil _ _

@[simp] theorem reset_job (j : BitVec 16) : State.reset.job j = Job.free := mget_nil _ _

@[simp] theorem reset_rset (k : Nat) : State.reset.rset k = RouteSet.empty := mget_nil _ _

/-! ### What is derived from more than one entry -/

/-- The slice map starts as the identity (R84, Table 3.10): no entry of it is set. -/
@[simp] theorem reset_slice (p l : Nat) : State.reset.slice p l = l := by
  rw [State.slice, reset_part]
  rfl

/-- The descriptor of RST_CAUSE gives POR alone at a cold reset (R411). -/
theorem resetWord_rstCause : resetWord pgReset 0x100 = 1 := by decide

/-- The eight entries of the list of management modules are empty. -/
theorem reset_noMgmt : State.reset.noMgmt = true := by decide

/-- Memory, the staging area and the register files of every tile that is listed (none) are in canonical form. -/
theorem reset_stores_wf : Stores.wf State.reset = true := by
  have hStaging : State.reset.boot.staging.wf = true := rfl
  have hTiles : State.reset.tiles = [] := rfl
  simp [Stores.wf, reset_memory_wf, hStaging, hTiles]

end Sys2Proof.Machine

namespace Sys2Proof
open Machine

/-- Settles O59: each entry of a map is read by its reset lemma, and every other field is a field of the record
`State.reset`. -/
theorem resetState : Obligations.ResetState := by
  have hTile (t : Nat) : (State.reset.tile t).seq = .off ∧ (State.reset.tile t).queues = [] ∧
      State.reset.unit t = ⟨.off, none⟩ := by
    rw [reset_tile, reset_unit]
    exact ⟨rfl, rfl, rfl⟩
  have hPart (p l : Nat) : (State.reset.part p).n = 0 ∧ State.reset.slice p l = l ∧
      (State.reset.part p).sleep = .awake ∧ (State.reset.part p).far.live = 0xFFFFFFFF := by
    rw [reset_part, reset_slice]
    exact ⟨rfl, rfl, rfl, rfl⟩
  have hArcs (u : Nat) : (State.reset.arcu u).active = [] ∧ (State.reset.arcu u).ready = false := by
    rw [reset_arcu]
    exact ⟨rfl, rfl⟩
  have hPort (i : Nat) : (State.reset.port i).st = .down := by rw [reset_port]; rfl
  have hJob (j : BitVec 16) : (State.reset.job j).st = .free := by rw [reset_job]; rfl
  have hSet (k : Nat) : (State.reset.rset k).valid = false := by rw [reset_rset]; rfl
  have hCause : State.reset.reg pgReset 0x100 = 1 := (reset_reg _ _).trans resetWord_rstCause
  unfold Obligations.ResetState
  refine ⟨⟨rfl, rfl, hCause, rfl, hTile, hPart, hArcs, hPort, hJob, hSet, rfl, rfl, reset_noMgmt, ?_⟩, reset_stores_wf⟩
  exact ⟨rfl, rfl, rfl, rfl, rfl, rfl, rfl, rfl, rfl, rfl, rfl, rfl, rfl, rfl⟩

end Sys2Proof
end
